-- ==== Sys2Proof/Word.lean ====
section
/-!
DEFINITION. The word types of the block: bytes of memory and table symbols, 16-bit frequencies, 32-bit
registers (00_scope.md R9, R10).
-/
namespace Sys2Proof

/-- One byte of memory, and one symbol (R13). -/
abbrev Byte := BitVec 8

/-- One 16-bit unit: a normalized frequency or a cumulative start (R40 to R42). -/
abbrev Half := BitVec 16

/-- One 32-bit register (R23). -/
abbrev Word := BitVec 32

end Sys2Proof
end

