-- ==== Sys2Proof/Syntax.lean ====
section
/-!
DEFINITION. The commands of the block, one constructor for each row of the opcode map (30_encoding.md R83).
-/
namespace Sys2Proof

/-- The payload selector `PAY`, in the container order Y, chroma, palette, indices (R80, R81). -/
inductive Payload where
  | Y
  | chroma
  | palette
  | indices
  deriving DecidableEq, Repr

/-- A command. `lane` is the field `LANE`; `n` is the bit count `NM1 + 1`; `pay` is the field `PAY` (R80, R81). -/
inductive Instr where
  | nop
  | softReset
  | clrStatus
  | brInit
  | brRead (n : Nat)
  | bwInit
  | bwWrite (n : Nat)
  | histCount
  | histLoad
  | histNorm
  | histStore
  | rawQuery
  | freqQuery
  | tblBuild
  | tblQuery
  | encInit
  | encSym (lane : Nat)
  | encStep
  | decInit (lane : Nat)
  | decSym (lane : Nat)
  | decStep
  | frmParse
  | frmHdrWrite
  | frmDecPayload (pay : Payload)
  | frmEncPayload (pay : Payload)
  deriving DecidableEq, Repr

end Sys2Proof
end

