-- ==== Sys2Proof/WellFormed.lean ====
section
/-!
DEFINITION. Which commands a word can encode: a lane is 0 to 31, a bit count 1 to 16 (30_encoding.md R80, R81).
-/
namespace Sys2Proof

/-- `LANE` is five bits wide (R80). -/
def laneFits (lane : Nat) : Bool := decide (lane < 32)

/-- `n = NM1 + 1` is 1 to 16 (R81). -/
def widthFits (n : Nat) : Bool := decide (1 ≤ n) && decide (n ≤ 16)

/-- Each field of the command fits the bits the word gives it. -/
def Instr.wellFormed : Instr → Bool
  | .nop => true
  | .softReset => true
  | .clrStatus => true
  | .brInit => true
  | .brRead n => widthFits n
  | .bwInit => true
  | .bwWrite n => widthFits n
  | .histCount => true
  | .histLoad => true
  | .histNorm => true
  | .histStore => true
  | .rawQuery => true
  | .freqQuery => true
  | .tblBuild => true
  | .tblQuery => true
  | .encInit => true
  | .encSym lane => laneFits lane
  | .encStep => true
  | .decInit lane => laneFits lane
  | .decSym lane => laneFits lane
  | .decStep => true
  | .frmParse => true
  | .frmHdrWrite => true
  | .frmDecPayload _ => true
  | .frmEncPayload _ => true

end Sys2Proof
end

