-- ==== Sys2Proof/Decode.lean ====
section
/-!
DEFINITION. The decoder of command words and the encoder (30_encoding.md R80 to R85), both from the one opcode map.
-/
namespace Sys2Proof

/-- Why a word is no command (R84): both are reported to the host as `ILLEGAL_COMMAND`. -/
inductive DecodeError where
  /-- The opcode is not in the table: sub-code 0. -/
  | unknownOpcode
  /-- A bit outside the command's free bits is not zero: sub-code 1. -/
  | bitsNotZero
  deriving DecidableEq, Repr

/-- Which field a command's word has beside its opcode (R80). -/
inductive WordField where
  | none
  | lane
  | nm1
  | pay
  deriving DecidableEq, Repr

/-- The `mask` column of R82. -/
def WordField.mask : WordField → Word
  | .none => 0xFFFFFFFF
  | .lane => 0xFFFFE0FF
  | .nm1 => 0xFFF0FFFF
  | .pay => 0xFFCFFFFF

/-- The field `LANE`, bits 12:8 (R81). -/
def fieldLane (w : Word) : Nat := (w.extractLsb' 8 5).toNat

/-- The width `n = NM1 + 1`, `NM1` being bits 19:16 (R81). -/
def fieldWidth (w : Word) : Nat := (w.extractLsb' 16 4).toNat + 1

/-- The payloads in the container order (R81). -/
def Payload.ofIndex : Nat → Payload
  | 0 => .Y
  | 1 => .chroma
  | 2 => .palette
  | _ => .indices

/-- The payload's number in the container order (R81). -/
def Payload.index : Payload → Nat
  | .Y => 0
  | .chroma => 1
  | .palette => 2
  | .indices => 3

/-- The field `PAY`, bits 21:20 (R81). -/
def fieldPay (w : Word) : Payload := Payload.ofIndex (w.extractLsb' 20 2).toNat

/-- The opcode map of R83: the field a command has and the command a word with that opcode stands for. -/
def opcodeRow : Nat → Option (WordField × (Word → Instr))
  | 0x00 => some (.none, fun _ => .nop)
  | 0x01 => some (.none, fun _ => .softReset)
  | 0x02 => some (.none, fun _ => .clrStatus)
  | 0x10 => some (.none, fun _ => .brInit)
  | 0x11 => some (.nm1, fun w => .brRead (fieldWidth w))
  | 0x12 => some (.none, fun _ => .bwInit)
  | 0x13 => some (.nm1, fun w => .bwWrite (fieldWidth w))
  | 0x20 => some (.none, fun _ => .histCount)
  | 0x21 => some (.none, fun _ => .histLoad)
  | 0x22 => some (.none, fun _ => .histNorm)
  | 0x23 => some (.none, fun _ => .histStore)
  | 0x24 => some (.none, fun _ => .rawQuery)
  | 0x25 => some (.none, fun _ => .freqQuery)
  | 0x28 => some (.none, fun _ => .tblBuild)
  | 0x29 => some (.none, fun _ => .tblQuery)
  | 0x30 => some (.none, fun _ => .encInit)
  | 0x31 => some (.lane, fun w => .encSym (fieldLane w))
  | 0x32 => some (.none, fun _ => .encStep)
  | 0x40 => some (.lane, fun w => .decInit (fieldLane w))
  | 0x41 => some (.lane, fun w => .decSym (fieldLane w))
  | 0x42 => some (.none, fun _ => .decStep)
  | 0x50 => some (.none, fun _ => .frmParse)
  | 0x51 => some (.none, fun _ => .frmHdrWrite)
  | 0x52 => some (.pay, fun w => .frmDecPayload (fieldPay w))
  | 0x53 => some (.pay, fun w => .frmEncPayload (fieldPay w))
  | _ => none

/-- The opcode bits 7:0 of a word (R80). -/
def opcodeBits (w : Word) : BitVec 8 := w.setWidth 8

/-- The decoder, the first two checks of R85. -/
def decode (w : Word) : Except DecodeError Instr :=
  match opcodeRow (opcodeBits w).toNat with
  | none => .error .unknownOpcode
  | some (f, mk) => if w &&& f.mask = (opcodeBits w).setWidth 32 then .ok (mk w) else .error .bitsNotZero

/-- The opcode of a command (R83). -/
def Instr.opcode : Instr → BitVec 8
  | .nop => 0x00
  | .softReset => 0x01
  | .clrStatus => 0x02
  | .brInit => 0x10
  | .brRead _ => 0x11
  | .bwInit => 0x12
  | .bwWrite _ => 0x13
  | .histCount => 0x20
  | .histLoad => 0x21
  | .histNorm => 0x22
  | .histStore => 0x23
  | .rawQuery => 0x24
  | .freqQuery => 0x25
  | .tblBuild => 0x28
  | .tblQuery => 0x29
  | .encInit => 0x30
  | .encSym _ => 0x31
  | .encStep => 0x32
  | .decInit _ => 0x40
  | .decSym _ => 0x41
  | .decStep => 0x42
  | .frmParse => 0x50
  | .frmHdrWrite => 0x51
  | .frmDecPayload _ => 0x52
  | .frmEncPayload _ => 0x53

/-- Which field the command's word has (the `fields` column of R83). -/
def Instr.field : Instr → WordField
  | .nop => .none
  | .softReset => .none
  | .clrStatus => .none
  | .brInit => .none
  | .brRead _ => .nm1
  | .bwInit => .none
  | .bwWrite _ => .nm1
  | .histCount => .none
  | .histLoad => .none
  | .histNorm => .none
  | .histStore => .none
  | .rawQuery => .none
  | .freqQuery => .none
  | .tblBuild => .none
  | .tblQuery => .none
  | .encInit => .none
  | .encSym _ => .lane
  | .encStep => .none
  | .decInit _ => .lane
  | .decSym _ => .lane
  | .decStep => .none
  | .frmParse => .none
  | .frmHdrWrite => .none
  | .frmDecPayload _ => .pay
  | .frmEncPayload _ => .pay

/-- The bits of the command's field at their place in the word (R80). -/
def Instr.fieldBits : Instr → Word
  | .nop => 0
  | .softReset => 0
  | .clrStatus => 0
  | .brInit => 0
  | .brRead n => BitVec.ofNat 32 (n - 1) <<< 16
  | .bwInit => 0
  | .bwWrite n => BitVec.ofNat 32 (n - 1) <<< 16
  | .histCount => 0
  | .histLoad => 0
  | .histNorm => 0
  | .histStore => 0
  | .rawQuery => 0
  | .freqQuery => 0
  | .tblBuild => 0
  | .tblQuery => 0
  | .encInit => 0
  | .encSym lane => BitVec.ofNat 32 lane <<< 8
  | .encStep => 0
  | .decInit lane => BitVec.ofNat 32 lane <<< 8
  | .decSym lane => BitVec.ofNat 32 lane <<< 8
  | .decStep => 0
  | .frmParse => 0
  | .frmHdrWrite => 0
  | .frmDecPayload pay => BitVec.ofNat 32 pay.index <<< 20
  | .frmEncPayload pay => BitVec.ofNat 32 pay.index <<< 20

/-- The command word of a command (R80 to R83). -/
def encode (i : Instr) : Word := i.opcode.setWidth 32 ||| i.fieldBits

/-- The command a word of `nbits` bits stands for. A command is one 32-bit word and has no byte order of its own: it
is the value of one register write (R80). -/
def decodeTableWord (nbits w : Nat) : Option Instr :=
  (decode (BitVec.ofNat 32 (w % 2 ^ nbits))).toOption

/-- The field of an assembler line (R86). -/
inductive AsmField where
  | lane (l : Nat)
  | n (k : Nat)
  | pay (p : Nat)
  deriving DecidableEq, Repr

/-- The word an assembler line `cmd MNEMONIC [field]` stands for; `none` where the assembler refuses: an unknown
mnemonic, a missing field, a field the command does not take, a value out of range (R86). `pay` takes 0 to 3, of which
Y, C, P, I are other spellings. -/
def assemble (mnemonic : String) (field : Option AsmField) : Option Word :=
  let plain (i : Instr) : Option Word := match field with
    | none => some (encode i)
    | some _ => none
  let lane (mk : Nat → Instr) : Option Word := match field with
    | some (.lane l) => if l < 32 then some (encode (mk l)) else none
    | _ => none
  let width (mk : Nat → Instr) : Option Word := match field with
    | some (.n k) => if 1 ≤ k ∧ k ≤ 16 then some (encode (mk k)) else none
    | _ => none
  let pay (mk : Payload → Instr) : Option Word := match field with
    | some (.pay p) => if p < 4 then some (encode (mk (Payload.ofIndex p))) else none
    | _ => none
  match mnemonic with
  | "NOP" => plain .nop
  | "SOFT_RESET" => plain .softReset
  | "CLR_STATUS" => plain .clrStatus
  | "BR_INIT" => plain .brInit
  | "BR_READ" => width .brRead
  | "BW_INIT" => plain .bwInit
  | "BW_WRITE" => width .bwWrite
  | "HIST_COUNT" => plain .histCount
  | "HIST_LOAD" => plain .histLoad
  | "HIST_NORM" => plain .histNorm
  | "HIST_STORE" => plain .histStore
  | "RAW_QUERY" => plain .rawQuery
  | "FREQ_QUERY" => plain .freqQuery
  | "TBL_BUILD" => plain .tblBuild
  | "TBL_QUERY" => plain .tblQuery
  | "ENC_INIT" => plain .encInit
  | "ENC_SYM" => lane .encSym
  | "ENC_STEP" => plain .encStep
  | "DEC_INIT" => lane .decInit
  | "DEC_SYM" => lane .decSym
  | "DEC_STEP" => plain .decStep
  | "FRM_PARSE" => plain .frmParse
  | "FRM_HDR_WRITE" => plain .frmHdrWrite
  | "FRM_DEC_PAYLOAD" => pay .frmDecPayload
  | "FRM_ENC_PAYLOAD" => pay .frmEncPayload
  | _ => none

end Sys2Proof
end

