-- ==== Sys2Proof/Config.lean ====
section
/-!
DEFINITION. The block's build parameters (00_scope.md R7, R8) and its free values: constants without a body for
what the spec leaves open (93_implementation_defined.md U3, U8).
-/
namespace Sys2Proof.Config

/-- `LOG2M`, the build parameter that fixes the table size; 11 in this hardware (R7). Log 6. -/
def log2M : Nat := 11

/-- `M = 2^LOG2M`, the sum of a normalized table and the number of its slots (R7). -/
def M : Nat := 2048

/-- `w`, the width of a stream word in bits (R7). -/
def wordBits : Nat := 16

/-- `B = 2^w` (R7). -/
def B : Nat := 65536

/-- `NMAX`, the number of encoder lanes and of decoder lanes (R7). -/
def NMAX : Nat := 32

/-- `HDR_BYTES`, the length of a container header (R7). -/
def headerBytes : Nat := 48

/-- The length in bytes of a stored frequency table: `FT_ENTRIES` = 512 entries of 4 bytes (R7). -/
def tableBytes : Nat := 2048

/-- The number of bytes of memory, `2^32` (R60). -/
def memBytes : Nat := 4294967296

/-- The length in bytes of the CSR window (R67). -/
def csrBytes : Nat := 4096

/-- `ID` (R24): `LOG2M`, `NMAX`, `w` and the letter G. -/
def idWord : Word := 0x4710200B

/-- What a byte of memory that nothing has written reads as. DESIGN CHOICE, unsafe: log 3. -/
def unlistedByte : Byte := 0

/-- The value a read of a changing CSR returns while a command runs, one per draw (R272, U3: any value). Log 7. -/
opaque freeCsrRead : Nat → Word

/-- Whether a byte that an abandoned command would have stored was stored before the reset cut it off, by draw and
address (R260, U8: any value). Log 8. -/
opaque resetKeepsStore : Nat → Nat → Bool

end Sys2Proof.Config
end

