-- ==== Sys2Proof/Machine/State.lean ====
section
/-!
DEFINITION. The state of the block, its host and its platform as plain data (10_state.md R20 to R46), the ways the
model itself stops, and the state after reset.
-/
namespace Sys2Proof.Machine

/-- The width of one access in bytes: 1, 2, 4 or 8 (20_memory.md R62, R66). -/
inductive Size where
  | b1
  | b2
  | b4
  | b8
  deriving DecidableEq, Repr

/-- Whether an access reads or writes (R62, R63). -/
inductive AccessKind where
  | read
  | write
  deriving DecidableEq, Repr

/-- One memory access: its kind, its address, its width (R62, R63). -/
structure Access where
  kind : AccessKind
  addr : Nat
  size : Size
  deriving DecidableEq, Repr

/-- Accesses the platform refuses: those of one kind and width whose address lies in `first .. last` (R7, R62). Any
predicate on accesses is a list of these. -/
structure Refused where
  kind : AccessKind
  size : Size
  first : Nat
  last : Nat
  deriving DecidableEq, Repr

/-- The OPEN parameters of the platform (00_scope.md R7): `CSR_BASE` as a page number (R67: a multiple of 4096),
`bus_ok` as the list of what it refuses, `IRQ_LINE`. No step changes them. Log 5. -/
structure Platform where
  csrPage : BitVec 20
  refused : List Refused
  irqLine : Nat
  deriving DecidableEq, Repr

/-- `CTRL` (R25). -/
structure Ctrl where
  ie : Bool
  brDir : Bool
  deriving DecidableEq, Repr

/-- The stored bits of `STATUS` (R27); `WPEND` is a view of `WR_CNT` and is not stored. -/
structure Status where
  busy : Bool
  done : Bool
  err : Bool
  wbusy : Bool
  rawValid : Bool
  histValid : Bool
  tblValid : Bool
  hdrValid : Bool
  fallback : Bool
  deriving DecidableEq, Repr

/-- The bit reader (R33): `RD_BASE`, `RD_END`, `RD_PTR`, `RD_BUF`, `RD_CNT`, `RD_DIR` (true is forward). -/
structure Reader where
  base : Word
  lim : Word
  ptr : Word
  buf : Word
  cnt : BitVec 5
  dir : Bool
  deriving DecidableEq, Repr

/-- The bit writer (R34): `WR_BASE`, `WR_END`, `WR_PTR`, `WR_BUF`, `WR_CNT`. -/
structure Writer where
  base : Word
  lim : Word
  ptr : Word
  buf : Word
  cnt : BitVec 5
  deriving DecidableEq, Repr

/-- The header registers (R35): `HDR_W`, `HDR_H`, `HDR_PB`, `HDR_SY`, `HDR_SC`, `HDR_SP`, `HDR_SI`. -/
structure Header where
  w : Word
  h : Word
  pb : Word
  sy : Word
  sc : Word
  sp : Word
  si : Word
  deriving DecidableEq, Repr

/-- Memory: the bytes that differ from what an unlisted address reads as, by rising address (R60). -/
abbrev Memory := List Host.Cell

/-- A value in a host operation: a constant or a host variable (30_encoding.md R87). -/
inductive HostVal where
  | const (v : Word)
  | var (x : Nat)
  deriving DecidableEq, Repr

/-- The operations of the host notation (R87). Host variables and labels are numbers. `store` and `load` are host
accesses of any width at any address, the CSR window included; `csrw` and `csrr` name a CSR by its offset. -/
inductive HostOp where
  | csrw (off : BitVec 12) (v : HostVal)
  | csrr (t : Nat) (off : BitVec 12)
  | store (n : Size) (a : HostVal) (v : HostVal)
  | load (n : Size) (t : Nat) (a : HostVal)
  | li (t : Nat) (v : Word)
  | addi (t u : Nat) (v : Int)
  | andi (t u : Nat) (v : Word)
  | add (t u w : Nat)
  | bnez (t l : Nat)
  | beqz (t l : Nat)
  | blt (t u l : Nat)
  | j (l : Nat)
  | label (l : Nat)
  | halt
  deriving DecidableEq, Repr

/-- The host agent (R20, R87): its program, the position in it, and its variables. -/
structure HostAgent where
  prog : List HostOp
  pos : Nat
  vars : List (Nat × Word)
  deriving DecidableEq, Repr

/-- Which agent makes one move: the sequencer, the host, or the platform driving the reset input (R20, R260). -/
inductive Turn where
  | sequencer
  | host
  | reset
  deriving DecidableEq, Repr

/-- The whole machine. The fields `turns` and `draws` are the model's own (log 1, log 7); all others are the spec's. -/
structure State where
  platform : Platform
  mem : Memory
  ctrl : Ctrl
  /-- `CFG.N` (R26). -/
  cfgN : BitVec 6
  status : Status
  errcode : Word
  errinfo : Word
  /-- The last accepted command word (R30). -/
  cmd : Word
  result : Word
  result1 : Word
  arg0 : Word
  arg1 : Word
  arg2 : Word
  arg3 : Word
  rd : Reader
  wr : Writer
  hdr : Header
  xe : Vector Word 32
  xd : Vector Word 32
  rawf : Vector Word 512
  freq : Vector Half 256
  sym : Vector Byte 2048
  frq : Vector Half 2048
  cum : Vector Half 2048
  cums : Vector Half 256
  host : HostAgent
  /-- The turns to come, the next one first; log 1. -/
  turns : List Turn
  /-- How many free values have been drawn; log 7. -/
  draws : Nat
  deriving DecidableEq, Repr

/-- Why the model stops with a fault. -/
inductive Fault where
  /-- An internal array was read while its valid flag is 0. Raised by the array reads of Machine/Ops.lean. The spec
  asks for it and says that no rule does it (70_reset_and_hazards.md R262, U6). Safe. -/
  | unspecifiedArray
  /-- A host memory access ran past the last address `2^32 - 1`, to bytes that do not exist (R60). Raised by the host
  accesses of Machine/HostAgent.lean. Safe. Log 13. -/
  | hostAccessPastEnd
  deriving DecidableEq, Repr

/-- Why the model has no move. -/
inductive Refusal where
  /-- No meaning yet for the command named. Raised by an arm of `exec`. Safe. -/
  | notModelled (mnemonic : String)
  /-- A CSR access that is not a naturally aligned 32-bit access (R38.1, U4), or a host access of 8 bytes, which the
  host notation does not have (R87). Raised by the host accesses of Machine/HostAgent.lean. Safe. Log 13. -/
  | hostAccessWidth
  /-- A host access, while a command runs, to a byte the command reads or writes: R70.3 says that the model has no move
  for it and refuses a program that does it (R20, R244, U5 say the same). Raised by the host accesses of
  Machine/HostAgent.lean. Safe. Log 12. -/
  | hostRace
  /-- A host jump to a label its program does not have, which is no program of R87. Raised by the host jumps of
  Machine/HostAgent.lean. Safe. Log 14. -/
  | noSuchLabel
  deriving DecidableEq, Repr

/-- The error codes of 60_exceptions.md R230. -/
inductive ErrCode where
  | illegalCommand
  | badLane
  | badArg
  | notReady
  | emptyHistogram
  | alphabetTooLarge
  | malformedStream
  | zeroFreqSymbol
  | stateOverflow
  | writeOverflow
  | badContainer
  | busError
  | addressWrap
  deriving DecidableEq, Repr

/-- What `raise E(sub, info)` records beside the opcode, with the lane where the rule names one (R11, R231). -/
structure Raised where
  code : ErrCode
  sub : Nat
  info : Nat
  lane : Nat
  deriving DecidableEq, Repr

/-- Why a command's rule ends before its last line: an error of the block (R231) with the memory access that raised it,
if one did (R62, R63), or a fault of the model (R262). -/
inductive Stop where
  | raised (e : Raised) (access : Option Access)
  | fault (f : Fault)
  deriving DecidableEq, Repr

/-- A piece of a command's rule: it reads and changes the state and may end early, the state then being what it was
when the error was detected (R232). -/
abbrev Cmd := EStateM Stop State

/-- The reset value of every lane, `M` (R36, R46). -/
def resetLanes : Vector Word 32 := Vector.replicate 32 (BitVec.ofNat 32 Config.M)

/-- The machine right after hardware reset (R46, R260), with the parameters the spec leaves OPEN at the values of
log 5, the memory of log 3, the arrays of log 4 and a host without a program (log 2). -/
def State.reset : State where
  platform := { csrPage := 0xFFFFF, refused := [], irqLine := 0 }
  mem := []
  ctrl := { ie := false, brDir := false }
  cfgN := 32
  status :=
    { busy := false, done := false, err := false, wbusy := false, rawValid := false, histValid := false,
      tblValid := false, hdrValid := false, fallback := false }
  errcode := 0
  errinfo := 0
  cmd := 0
  result := 0
  result1 := 0
  arg0 := 0
  arg1 := 0
  arg2 := 0
  arg3 := 0
  rd := { base := 0, lim := 0, ptr := 0, buf := 0, cnt := 0, dir := false }
  wr := { base := 0, lim := 0, ptr := 0, buf := 0, cnt := 0 }
  hdr := { w := 0, h := 0, pb := 0, sy := 0, sc := 0, sp := 0, si := 0 }
  xe := resetLanes
  xd := resetLanes
  rawf := Vector.replicate 512 0
  freq := Vector.replicate 256 0
  sym := Vector.replicate 2048 0
  frq := Vector.replicate 2048 0
  cum := Vector.replicate 2048 0
  cums := Vector.replicate 256 0
  host := { prog := [], pos := 0, vars := [] }
  turns := []
  draws := 0

end Sys2Proof.Machine
end

