-- ==== Sys2Proof/Machine/Flags.lean ====
section
/-!
DEFINITION. The named updates of State, and every computation on the `STATUS` bits (10_state.md R27, R45): the bits a
command or a host write sets and clears, the live bit `WPEND`, and the word a host reads.
-/
namespace Sys2Proof.Machine

/-! ## Named updates of State -/

/-- Memory replaced. -/
def State.setMem (s : State) (m : Memory) : State := { s with mem := m }
/-- `STATUS` replaced. -/
def State.setStatus (s : State) (f : Status) : State := { s with status := f }
/-- `ERRCODE` and `ERRINFO`, written and zeroed together (R29). -/
def State.setError (s : State) (c i : Word) : State := { s with errcode := c, errinfo := i }
/-- `RESULT` replaced. -/
def State.setResult (s : State) (v : Word) : State := { s with result := v }
/-- `RESULT1` replaced. -/
def State.setResult1 (s : State) (v : Word) : State := { s with result1 := v }
/-- The bit reader replaced. -/
def State.setRd (s : State) (r : Reader) : State := { s with rd := r }
/-- The bit writer replaced. -/
def State.setWr (s : State) (w : Writer) : State := { s with wr := w }
/-- The header registers replaced. -/
def State.setHdr (s : State) (h : Header) : State := { s with hdr := h }
/-- The encoder lanes replaced. -/
def State.setXe (s : State) (x : Vector Word 32) : State := { s with xe := x }
/-- The decoder lanes replaced. -/
def State.setXd (s : State) (x : Vector Word 32) : State := { s with xd := x }
/-- `RAWF` replaced. -/
def State.setRawf (s : State) (t : Vector Word 512) : State := { s with rawf := t }
/-- `FREQ` replaced. -/
def State.setFreq (s : State) (t : Vector Half 256) : State := { s with freq := t }
/-- `SYM`, `FRQ`, `CUM`, `CUMS` replaced. -/
def State.setTables (s : State) (a : Vector Byte 2048) (b c : Vector Half 2048) (d : Vector Half 256) : State :=
  { s with sym := a, frq := b, cum := c, cums := d }
/-- The host replaced. -/
def State.setHost (s : State) (h : HostAgent) : State := { s with host := h }
/-- The turns to come replaced. -/
def State.setTurns (s : State) (t : List Turn) : State := { s with turns := t }
/-- The count of free values replaced. -/
def State.setDraws (s : State) (n : Nat) : State := { s with draws := n }

/-! ## `STATUS` bits -/

/-- Acceptance of a command: `DONE <- 0`, `BUSY <- 1` (R236). -/
def Status.accepted (f : Status) : Status := { f with busy := true, done := false }

/-- Completion of a command: `BUSY <- 0`, `DONE <- 1` (R237). -/
def Status.completed (f : Status) : Status := { f with busy := false, done := true }

/-- An error is set: `ERR <- 1` (R231). -/
def Status.withErr (f : Status) : Status := { f with err := true }

/-- `ERR` and `WBUSY` cleared (R102). -/
def Status.cleared (f : Status) : Status := { f with err := false, wbusy := false }

/-- A dropped CSR write: `WBUSY <- 1` (R38.2). -/
def Status.droppedWrite (f : Status) : Status := { f with wbusy := true }

/-- `HIST_COUNT` and `HIST_LOAD` set `RAW_VALID` (R130, R131). -/
def Status.rawLoaded (f : Status) : Status := { f with rawValid := true }

/-- `HIST_NORM` sets `HIST_VALID`, clears `TBL_VALID`, and sets or clears `FALLBACK` (R132). -/
def Status.normalized (f : Status) (fb : Bool) : Status :=
  { f with histValid := true, tblValid := false, fallback := fb }

/-- `TBL_BUILD` sets `TBL_VALID` (R151). -/
def Status.tableBuilt (f : Status) : Status := { f with tblValid := true }

/-- `HDR_VALID` written (R26, R35, R204, R207). -/
def Status.withHdr (f : Status) (v : Bool) : Status := { f with hdrValid := v }

/-- A host write of `v` to `STATUS` clears each of `DONE`, `ERR`, `WBUSY` whose bit in `v` is 1 (R27, R38.3). -/
def Status.writeOneClears (f : Status) (v : Word) : Status :=
  { f with
    done := f.done && !v.getLsbD 1
    err := f.err && !v.getLsbD 2
    wbusy := f.wbusy && !v.getLsbD 3 }

/-- `STATUS.WPEND`, the live view `WR_CNT ≠ 0` (R27). -/
def State.wpend (s : State) : Bool := decide (s.wr.cnt ≠ 0)

/-- One bit at its place in a word. -/
def bitAt (b : Bool) (k : Nat) : Word := if b then 1 <<< k else 0

/-- The word a read of `STATUS` returns (R27). -/
def State.statusWord (s : State) : Word :=
  bitAt s.status.busy 0 ||| bitAt s.status.done 1 ||| bitAt s.status.err 2 ||| bitAt s.status.wbusy 3 |||
    bitAt s.status.rawValid 4 ||| bitAt s.status.histValid 5 ||| bitAt s.status.tblValid 6 |||
    bitAt s.status.hdrValid 7 ||| bitAt s.wpend 8 ||| bitAt s.status.fallback 9

/-- The interrupt output `irq = DONE ∧ IE` (R240). -/
def State.irq (s : State) : Bool := s.status.done && s.ctrl.ie

/-- The level the block drives on an input of the platform's interrupt controller: `irq` on the input `IRQ_LINE`
(R240). -/
def State.irqInput (s : State) (line : Nat) : Bool := decide (line = s.platform.irqLine) && s.irq

end Sys2Proof.Machine
end

