-- ==== Sys2Proof/Machine/Ops.lean ====
section
/-!
DEFINITION. The operations the commands share: memory by bytes and by accesses (20_memory.md), raising an error,
completing a command and clearing the error state (60_exceptions.md R230 to R239), the lanes, and the internal arrays
with the flags that guard them (10_state.md R39 to R43).
-/
namespace Sys2Proof.Machine

/-! ## Memory by bytes -/

/-- The number of bytes of an access (R62). -/
def Size.bytes : Size → Nat
  | .b1 => 1
  | .b2 => 2
  | .b4 => 4
  | .b8 => 8

/-- The byte at address `a` (R60). -/
def Memory.read : Memory → Nat → Byte
  | [], _ => Config.unlistedByte
  | (k, b) :: t, a => if a = k then b else Memory.read t a

/-- An entry in front of a list of entries, left out where it says what an unlisted address reads as. -/
def Memory.entry (a : Nat) (b : Byte) (t : Memory) : Memory :=
  if b = Config.unlistedByte then t else (a, b) :: t

/-- The byte at address `a` replaced; the canonical form is kept. -/
def Memory.write : Memory → Nat → Byte → Memory
  | [], a, b => Memory.entry a b []
  | (k, c) :: t, a, b =>
    if a < k then Memory.entry a b ((k, c) :: t)
    else if a = k then Memory.entry a b t
    else (k, c) :: Memory.write t a b

/-- The canonical form from address `lo` up: addresses rise strictly and lie below `2^32`, and no entry says what an
unlisted address reads as. -/
def Memory.wfFrom : Nat → Memory → Bool
  | _, [] => true
  | lo, (k, b) :: t =>
    decide (lo ≤ k) && decide (k < Config.memBytes) && decide (b ≠ Config.unlistedByte) && Memory.wfFrom (k + 1) t

/-- The canonical form of memory. -/
def Memory.wf (m : Memory) : Bool := Memory.wfFrom 0 m

/-- The `n` bytes at `a` as a little-endian number (R61). -/
def Memory.readLE (m : Memory) (a : Nat) : Nat → Nat
  | 0 => 0
  | n + 1 => (m.read a).toNat + 256 * Memory.readLE m (a + 1) n

/-- The low `n` bytes of `v` stored at `a`, the lowest first (R61, R63). -/
def Memory.writeLE (m : Memory) (a v : Nat) : Nat → Memory
  | 0 => m
  | n + 1 => Memory.writeLE (m.write a (BitVec.ofNat 8 v)) (a + 1) (v / 256) n

/-! ## Which accesses the platform answers -/

/-- `[a, a + n)` and `[b, b + m)` have a byte in common (R62). -/
def overlaps (a n b m : Nat) : Bool := decide (a < b + m) && decide (b < a + n)

/-- `CSR_BASE` (R67). -/
def Platform.csrBase (p : Platform) : Nat := p.csrPage.toNat * Config.csrBytes

/-- The accesses one entry of the list refuses. -/
def Refused.covers (r : Refused) (a : Nat) (n : Size) (k : AccessKind) : Bool :=
  decide (r.kind = k) && decide (r.size = n) && decide (r.first ≤ a) && decide (a ≤ r.last)

/-- The platform's predicate `bus_ok` (R7, R62). -/
def Platform.busOk (p : Platform) (a : Nat) (n : Size) (k : AccessKind) : Bool :=
  !p.refused.any (fun r => r.covers a n k)

/-- The checks of `MemRead` and `MemWrite` in their order: what the access raises, if anything (R62, R63). -/
def Platform.accessError (p : Platform) (a : Nat) (n : Size) (k : AccessKind) : Option ErrCode :=
  if Config.memBytes < a + n.bytes then some .addressWrap
  else if overlaps a n.bytes p.csrBase Config.csrBytes then some .busError
  else if p.busOk a n k then none
  else some .busError

/-! ## Raising an error, completing, clearing -/

/-- The code of an error (R230). -/
def ErrCode.value : ErrCode → Nat
  | .illegalCommand => 0x01
  | .badLane => 0x02
  | .badArg => 0x03
  | .notReady => 0x04
  | .emptyHistogram => 0x05
  | .alphabetTooLarge => 0x06
  | .malformedStream => 0x07
  | .zeroFreqSymbol => 0x08
  | .stateOverflow => 0x09
  | .writeOverflow => 0x0A
  | .badContainer => 0x0B
  | .busError => 0x0C
  | .addressWrap => 0x0D

/-- The word `ERRCODE` holds for an error of the command with opcode `op` (R28, R231). -/
def Raised.word (e : Raised) (op : BitVec 8) : Word :=
  BitVec.ofNat 32 (e.code.value ||| e.sub <<< 8 ||| e.lane <<< 16 ||| op.toNat <<< 24)

/-- `raise` in a command with opcode `op`, up to the completion (R231): the first error is recorded, a second one
keeps the first report. -/
def State.raise (s : State) (op : BitVec 8) (e : Raised) : State :=
  let s' := if s.status.err then s else s.setError (e.word op) (BitVec.ofNat 32 e.info)
  s'.setStatus s'.status.withErr

/-- Completion of a command, with or without an error (R237). -/
def State.complete (s : State) : State := s.setStatus s.status.completed

/-- The return from the error state by `CLR_STATUS` (R102, R239). -/
def State.clearError (s : State) : State := (s.setError 0 0).setStatus s.status.cleared

/-- A command's rule run to completion (R231, R237): whichever way the rule ends, the command completes. -/
def runCommand (op : BitVec 8) (c : Cmd Unit) (s : State) : Host.Outcome State Fault Refusal :=
  match c s with
  | .ok _ s' => .next s'.complete
  | .error (.raised e _) s' => .next (s'.raise op e).complete
  | .error (.fault f) _ => .fault f

/-- `raise E(sub, info)`, with the lane where the rule names one (R11, R231). -/
def raiseErr {α : Type} (e : Raised) : Cmd α := throw (.raised e none)

/-- `require C else E(sub, info)` (R11). -/
def require (p : Prop) [Decidable p] (e : Raised) : Cmd Unit := if p then pure () else raiseErr e

/-- The part of a rule that computes on copies sees the state as it is. -/
def getState : Cmd State := get

/-! ## Memory accesses of a command -/

/-- `MemRead(a, n)` (R62). An error it raises carries `lane` (log 9). -/
def memRead (a : Nat) (n : Size) (lane : Nat := 0) : Cmd Nat := do
  let s ← getState
  match s.platform.accessError a n .read with
  | some code => throw (.raised ⟨code, 0, a, lane⟩ (some ⟨.read, a, n⟩))
  | none => pure (s.mem.readLE a n.bytes)

/-- `MemWrite(a, n, v)` (R63). An error it raises carries `lane` (log 9). -/
def memWrite (a : Nat) (n : Size) (v : Nat) (lane : Nat := 0) : Cmd Unit := do
  let s ← getState
  match s.platform.accessError a n .write with
  | some code => throw (.raised ⟨code, 0, a, lane⟩ (some ⟨.write, a, n⟩))
  | none => set (s.setMem (s.mem.writeLE a v n.bytes))

/-- `k` reads of one width at rising addresses from `a`, each `n.bytes` after the one before (R69). -/
def readEntries (n : Size) : Nat → Nat → Cmd (List Nat)
  | _, 0 => pure []
  | a, k + 1 => do
    let v ← memRead a n
    let vs ← readEntries n (a + n.bytes) k
    pure (v :: vs)

/-- One write of one width for each value, at rising addresses from `a` (R69). -/
def writeEntries (n : Size) : Nat → List Nat → Cmd Unit
  | _, [] => pure ()
  | a, v :: vs => do
    memWrite a n v
    writeEntries n (a + n.bytes) vs

/-! ## Vectors -/

/-- The entry at `i`, or `d` past the end. -/
def entryAt {α : Type} {n : Nat} (v : Vector α n) (i : Nat) (d : α) : α := (v[i]?).getD d

/-- The vector whose first entries are `l`, followed by `d`. -/
def ofListD {α : Type} (n : Nat) (l : List α) (d : α) : Vector α n :=
  ⟨((l ++ List.replicate n d).take n).toArray, by simp⟩

/-- The vector `v` with its first entries replaced by `l`; entries of `l` past the end are dropped. -/
def overlay {α : Type} {n : Nat} (v : Vector α n) (l : List α) : Vector α n :=
  ⟨(l.take n ++ v.toList.drop l.length).toArray, by simp; omega⟩

/-! ## Lanes and internal arrays -/

/-- The state of one lane (R36). -/
def laneAt (x : Vector Word 32) (j : Nat) : Nat := (entryAt x j 0).toNat

/-- One lane's state replaced (R36). -/
def setLane (x : Vector Word 32) (j v : Nat) : Vector Word 32 := x.setIfInBounds j (BitVec.ofNat 32 v)

/-- A read of an internal array, which faults while the array's valid flag is clear (R43, R262). -/
def guardArray {α : Type} (valid : Bool) (v : α) : Cmd α :=
  if valid then pure v else throw (.fault .unspecifiedArray)

/-- `RAWF`, guarded by `RAW_VALID` (R39, R43). -/
def readRaw : Cmd (List Nat) := do
  let s ← getState
  guardArray s.status.rawValid (s.rawf.toList.map BitVec.toNat)

/-- `FREQ`, guarded by `HIST_VALID` (R40, R43). -/
def readFreq : Cmd (List Nat) := do
  let s ← getState
  guardArray s.status.histValid (s.freq.toList.map BitVec.toNat)

/-- `CUMS[sym]`, guarded by `TBL_VALID` (R42, R43). -/
def readStart (sym : Nat) : Cmd Nat := do
  let s ← getState
  guardArray s.status.tblValid (entryAt s.cums sym 0).toNat

/-- `SYM[slot]`, `FRQ[slot]`, `CUM[slot]`, guarded by `TBL_VALID` (R41, R43). -/
def readSlot (slot : Nat) : Cmd (Nat × Nat × Nat) := do
  let s ← getState
  guardArray s.status.tblValid
    ((entryAt s.sym slot 0).toNat, (entryAt s.frq slot 0).toNat, (entryAt s.cum slot 0).toNat)

end Sys2Proof.Machine
end

