-- ==== Sys2Proof/Machine/Operands.lean ====
section
/-!
DEFINITION. The operands of commands (30_encoding.md R81, R85): the argument registers, the interleave factor, the lane
check of command decode, and the header registers by payload (10_state.md R35).
-/
namespace Sys2Proof.Machine

/-- The interleave factor `CFG.N` (R26). -/
def State.lanes (s : State) : Nat := s.cfgN.toNat

/-- The lane check of command decode, `BAD_LANE` (R85). -/
def checkLane (lane : Nat) : Cmd Unit := do
  let s ← getState
  require (lane < s.lanes) ⟨.badLane, 0, lane, lane⟩

/-- `ARG0` as an unsigned number (R81). -/
def argument0 : Cmd Nat := do
  let s ← getState
  pure s.arg0.toNat

/-- `ARG1` as an unsigned number (R81). -/
def argument1 : Cmd Nat := do
  let s ← getState
  pure s.arg1.toNat

/-- `ARG2` as an unsigned number (R81). -/
def argument2 : Cmd Nat := do
  let s ← getState
  pure s.arg2.toNat

/-- `ARG3` as an unsigned number (R81). -/
def argument3 : Cmd Nat := do
  let s ← getState
  pure s.arg3.toNat

/-- `HDR_S[p]` (R35). -/
def Header.size (h : Header) : Payload → Word
  | .Y => h.sy
  | .chroma => h.sc
  | .palette => h.sp
  | .indices => h.si

/-- `HDR_S[p] <- v` (R35). -/
def Header.setSize (h : Header) (p : Payload) (v : Word) : Header :=
  match p with
  | .Y => { h with sy := v }
  | .chroma => { h with sc := v }
  | .palette => { h with sp := v }
  | .indices => { h with si := v }

/-- `NB = (W·H) div 16` (R202). -/
def Header.blocks (h : Header) : Nat := h.w.toNat * h.h.toNat / 16

/-- `C_p`, the number of symbols of a plane (R202). -/
def Header.planeBytes (h : Header) : Payload → Nat
  | .Y => 2 * h.blocks
  | .chroma => 4 * h.blocks
  | .palette => h.pb.toNat
  | .indices => h.blocks

/-- `O_p`, where a payload starts in the container (R203). -/
def Header.payloadOffset (h : Header) : Payload → Nat
  | .Y => Config.headerBytes
  | .chroma => Config.headerBytes + (Config.tableBytes + h.sy.toNat)
  | .palette => Config.headerBytes + (Config.tableBytes + h.sy.toNat) + (Config.tableBytes + h.sc.toNat)
  | .indices =>
    Config.headerBytes + (Config.tableBytes + h.sy.toNat) + (Config.tableBytes + h.sc.toNat) +
      (Config.tableBytes + h.sp.toNat)

end Sys2Proof.Machine
end

