-- ==== Sys2Proof/Machine/Csr.lean ====
section
/-!
DEFINITION. The CSR map and the host's accesses to it (10_state.md R23 to R38), and the acceptance of a command word
(60_exceptions.md R236).
-/
namespace Sys2Proof.Machine

/-- The value of the register at an offset; reserved offsets read 0 (R23). -/
def State.csrValue (s : State) (off : Nat) : Word :=
  match off with
  | 0x000 => Config.idWord
  | 0x004 => bitAt s.ctrl.ie 0 ||| bitAt s.ctrl.brDir 1
  | 0x008 => s.cfgN.setWidth 32
  | 0x00C => s.statusWord
  | 0x010 => s.errcode
  | 0x014 => s.errinfo
  | 0x018 => s.cmd
  | 0x01C => s.result
  | 0x020 => s.result1
  | 0x024 => s.arg0
  | 0x028 => s.arg1
  | 0x02C => s.arg2
  | 0x030 => s.arg3
  | 0x034 => s.rd.base
  | 0x038 => s.rd.lim
  | 0x03C => s.rd.ptr
  | 0x040 => s.rd.buf
  | 0x044 => s.rd.cnt.setWidth 32 ||| bitAt s.rd.dir 8
  | 0x048 => s.wr.base
  | 0x04C => s.wr.lim
  | 0x050 => s.wr.ptr
  | 0x054 => s.wr.buf
  | 0x058 => s.wr.cnt.setWidth 32
  | 0x060 => s.hdr.w
  | 0x064 => s.hdr.h
  | 0x068 => s.hdr.pb
  | 0x06C => s.hdr.sy
  | 0x070 => s.hdr.sc
  | 0x074 => s.hdr.sp
  | 0x078 => s.hdr.si
  | off =>
    if 0x100 ≤ off ∧ off < 0x180 then entryAt s.xe ((off - 0x100) / 4) 0
    else if 0x180 ≤ off ∧ off < 0x200 then entryAt s.xd ((off - 0x180) / 4) 0
    else 0

/-- The registers whose value a read while `BUSY = 1` does not return: `ERRCODE`, `ERRINFO`, `CMD`, `RESULT`,
`RESULT1`, `RD_*`, `WR_*`, `XE[j]`, `XD[j]` (R38.4, R272; log 7 for `CMD`). -/
def changesWhileBusy (off : Nat) : Bool :=
  (decide (0x010 ≤ off) && decide (off < 0x024)) || (decide (0x034 ≤ off) && decide (off < 0x05C)) ||
    (decide (0x100 ≤ off) && decide (off < 0x200))

/-- A host read of the register at an offset: its value, or a free value while a command runs (R38.4, R272, U3). What is
read of a register that the running command writes is its value from before the command (DESIGN CHOICE: logs 18, 19 and
20). -/
def csrRead (off : Nat) (s : State) : Word × State :=
  if s.status.busy && changesWhileBusy off then (Config.freeCsrRead s.draws, s.setDraws (s.draws + 1))
  else (s.csrValue off, s)

/-- A command word latched for the sequencer: `CMD_LAST <- cw`, `DONE <- 0`, `BUSY <- 1` (R236). -/
def State.latchCommand (s : State) (cw : Word) : State := { s with cmd := cw, status := s.status.accepted }

/-- Only `SOFT_RESET` and `CLR_STATUS` words are accepted while `ERR = 1` (R236). -/
def acceptedInError (cw : Word) : Bool := decide (opcodeBits cw = 0x01) || decide (opcodeBits cw = 0x02)

/-- A word presented to the sequencer is accepted or dropped (R236). -/
def State.presentCommand (s : State) (cw : Word) : State :=
  if s.status.busy then s.setStatus s.status.droppedWrite
  else if s.status.err && !acceptedInError cw then s
  else s.latchCommand cw

/-- A host write to `CTRL` (R25). -/
def State.writeCtrl (s : State) (v : Word) : State := { s with ctrl := { ie := v.getLsbD 0, brDir := v.getLsbD 1 } }

/-- A host write to `CFG`: an illegal `N` leaves `N` unchanged; `HDR_VALID` is cleared either way (R26). -/
def State.writeCfg (s : State) (v : Word) : State :=
  let n : BitVec 6 := v.setWidth 6
  let s' := if 1 ≤ n.toNat ∧ n.toNat ≤ Config.NMAX then { s with cfgN := n } else s
  s'.setStatus (s'.status.withHdr false)

/-- A host write to `STATUS` (R27): clearing `ERR` also zeroes `ERRCODE` and `ERRINFO`. -/
def State.writeStatus (s : State) (v : Word) : State :=
  let s' := if v.getLsbD 2 then s.setError 0 0 else s
  s'.setStatus (s'.status.writeOneClears v)

/-- A host write to a header register clears `HDR_VALID` (R35). -/
def State.writeHdr (s : State) (h : Header) : State := (s.setHdr h).setStatus (s.status.withHdr false)

/-- A host write of `v` to the register at an offset (R38): dropped while a command runs; else by the register's own
rule; a read-only or reserved offset does nothing. -/
def csrWrite (off : Nat) (v : Word) (s : State) : State :=
  if s.status.busy then s.setStatus s.status.droppedWrite
  else
    match off with
    | 0x004 => s.writeCtrl v
    | 0x008 => s.writeCfg v
    | 0x00C => s.writeStatus v
    | 0x018 => s.presentCommand v
    | 0x024 => { s with arg0 := v }
    | 0x028 => { s with arg1 := v }
    | 0x02C => { s with arg2 := v }
    | 0x030 => { s with arg3 := v }
    | 0x060 => s.writeHdr { s.hdr with w := v }
    | 0x064 => s.writeHdr { s.hdr with h := v }
    | 0x068 => s.writeHdr { s.hdr with pb := v }
    | 0x06C => s.writeHdr { s.hdr with sy := v }
    | 0x070 => s.writeHdr { s.hdr with sc := v }
    | 0x074 => s.writeHdr { s.hdr with sp := v }
    | 0x078 => s.writeHdr { s.hdr with si := v }
    | _ => s

end Sys2Proof.Machine
end

