-- ==== Sys2Proof/Machine/BitIO.lean ====
section
/-!
DEFINITION. The bit reader and writer and their commands (41_bitio.md R110 to R117). `readBits` and `writeBits` work on
a copy of the reader or writer; the caller commits it.
-/
namespace Sys2Proof.Machine

/-- Where the reader's next word is, or `none` when no word is left (R112). -/
def Reader.nextWord (r : Reader) : Option Nat :=
  if r.dir then
    if r.ptr.toNat + 2 ≤ r.lim.toNat then some r.ptr.toNat else none
  else
    if r.base.toNat + 2 ≤ r.ptr.toNat then some (r.ptr.toNat - 2) else none

/-- The word `wd` loaded below the buffered bits, and the pointer moved past it (R110, R112). -/
def Reader.load (r : Reader) (wd : Nat) : Reader :=
  { r with
    ptr := if r.dir then r.ptr + 2 else r.ptr - 2
    buf := BitVec.ofNat 32 (r.buf.toNat <<< 16 ||| wd)
    cnt := r.cnt + 16 }

/-- The top `n` of the valid bits, and the reader without them (R112). -/
def Reader.pop (r : Reader) (n : Nat) : Reader × Nat :=
  let cnt := r.cnt.toNat - n
  ({ r with buf := BitVec.ofNat 32 (r.buf.toNat % 2 ^ cnt), cnt := BitVec.ofNat 5 cnt },
    (r.buf.toNat >>> cnt) % 2 ^ n)

/-- `readbits(n)` on a copy of the reader (R112). -/
def readBits (r : Reader) (n : Nat) (lane : Nat := 0) : Cmd (Reader × Nat) :=
  if r.cnt.toNat < n then
    match r.nextWord with
    | none => raiseErr ⟨.malformedStream, 0, r.ptr.toNat, lane⟩
    | some a => do
      let wd ← memRead a .b2 lane
      pure ((r.load wd).pop n)
  else pure (r.pop n)

/-- The pending bits with the low `n` bits of `v` appended above them (R110, R114). -/
def Writer.append (w : Writer) (v n : Nat) : Nat := w.buf.toNat ||| (v % 2 ^ n) <<< w.cnt.toNat

/-- `writebits(v, n)` on a copy of the writer; the number is how many words were stored (R114). -/
def writeBits (w : Writer) (v n : Nat) (lane : Nat := 0) : Cmd (Writer × Nat) :=
  let buf := w.append v n
  let cnt := w.cnt.toNat + n
  if 16 ≤ cnt then do
    require (w.ptr.toNat + 2 ≤ w.lim.toNat) ⟨.writeOverflow, 0, w.ptr.toNat, lane⟩
    memWrite w.ptr.toNat .b2 (buf % 65536) lane
    pure ({ w with ptr := w.ptr + 2, buf := BitVec.ofNat 32 (buf >>> 16), cnt := BitVec.ofNat 5 (cnt - 16) }, 1)
  else pure ({ w with buf := BitVec.ofNat 32 buf, cnt := BitVec.ofNat 5 cnt }, 0)

/-- `BR_INIT` over `[base, lim)` with the direction `dir` latched (R111). The registers hold the low 32 bits (log 10). -/
def brInit (base lim : Nat) (dir : Bool) : Cmd Unit := do
  require (base ≤ lim ∧ (lim - base) % 2 = 0) ⟨.badArg, 2, base, 0⟩
  modify fun s => s.setRd
    { base := BitVec.ofNat 32 base, lim := BitVec.ofNat 32 lim,
      ptr := if dir then BitVec.ofNat 32 base else BitVec.ofNat 32 lim, buf := 0, cnt := 0, dir := dir }

/-- `BR_READ n` (R112). -/
def brRead (n : Nat) : Cmd Unit := do
  let s ← getState
  let (r, v) ← readBits s.rd n
  modify fun s => (s.setRd r).setResult (BitVec.ofNat 32 v)

/-- `BW_INIT` over `[base, lim)` (R113). The registers hold the low 32 bits (log 10). -/
def bwInit (base lim : Nat) : Cmd Unit := do
  require (base ≤ lim ∧ (lim - base) % 2 = 0) ⟨.badArg, 3, base, 0⟩
  modify fun s => s.setWr
    { base := BitVec.ofNat 32 base, lim := BitVec.ofNat 32 lim, ptr := BitVec.ofNat 32 base, buf := 0, cnt := 0 }

/-- `BW_WRITE n` of the value `v` (R114). -/
def bwWrite (v n : Nat) : Cmd Unit := do
  let s ← getState
  let (w, stored) ← writeBits s.wr v n
  modify fun s => (s.setWr w).setResult (BitVec.ofNat 32 stored)

/-- `BR_INIT` (R111). -/
def execBrInit (s : State) : Host.Outcome State Fault Refusal :=
  runCommand Instr.brInit.opcode (brInit s.arg0.toNat s.arg1.toNat s.ctrl.brDir) s

/-- `BR_READ` (R112). -/
def execBrRead (n : Nat) (s : State) : Host.Outcome State Fault Refusal :=
  runCommand (Instr.brRead n).opcode (brRead n) s

/-- `BW_INIT` (R113). -/
def execBwInit (s : State) : Host.Outcome State Fault Refusal :=
  runCommand Instr.bwInit.opcode (bwInit s.arg0.toNat s.arg1.toNat) s

/-- `BW_WRITE` (R114). -/
def execBwWrite (n : Nat) (s : State) : Host.Outcome State Fault Refusal :=
  runCommand (Instr.bwWrite n).opcode (bwWrite s.arg0.toNat n) s

end Sys2Proof.Machine
end

