-- ==== Sys2Proof/Machine/Control.lean ====
section
/-!
DEFINITION. The control commands NOP, SOFT_RESET and CLR_STATUS (40_control.md R100 to R102).
-/
namespace Sys2Proof.Machine

/-- Every state element of R46 at its reset value. Memory, the platform and the host are not the block's and stay; the
draw count never goes back (log 7, log 15). -/
def State.resetElements (s : State) : State :=
  { State.reset with platform := s.platform, mem := s.mem, host := s.host, turns := s.turns, draws := s.draws }

/-- `SOFT_RESET` up to its completion: the reset values, the last accepted command word staying (R101). -/
def softReset : Cmd Unit := do
  let s ← getState
  set { s.resetElements with cmd := s.cmd }

/-- `NOP` (R100). -/
def execNop (s : State) : Host.Outcome State Fault Refusal := runCommand Instr.nop.opcode (pure ()) s

/-- `SOFT_RESET` (R101). All its writes stand at its completion (DESIGN CHOICE, logs 19 and 20). -/
def execSoftReset (s : State) : Host.Outcome State Fault Refusal := runCommand Instr.softReset.opcode softReset s

/-- `CLR_STATUS` (R102). The clear stands at its completion (DESIGN CHOICE, log 20). -/
def execClrStatus (s : State) : Host.Outcome State Fault Refusal :=
  runCommand Instr.clrStatus.opcode (modify State.clearError) s

end Sys2Proof.Machine
end

