-- ==== Sys2Proof/Machine/Decoder.lean ====
section
/-!
DEFINITION. The decoder state machine (45_decoder.md R180 to R187).
-/
namespace Sys2Proof.Machine

/-- How many whole words the reader's region still holds; one more than this bounds the rounds of a decode's loop
(R182; log 16). -/
def Reader.wordsLeft (r : Reader) : Nat :=
  if r.dir then (r.lim.toNat - r.ptr.toNat) / 2 else (r.ptr.toNat - r.base.toNat) / 2

/-- Step 1 of a decode: `F·(x >> LOG2M) + slot − start` (R182). -/
def decFirst (F C x : Nat) : Nat := F * (x >>> Config.log2M) + x % Config.M - C

/-- Step 2 of a decode on a copy of the reader: while `x < M` a word is read below the state; the last number is how
many words were read (R182, R186). -/
def decRenorm (lane : Nat) : Nat → Nat → Reader → Cmd (Nat × Reader × Nat)
  | 0, x, r => pure (x, r, 0)
  | k + 1, x, r =>
    if x < Config.M then do
      let (r', v) ← readBits r 16 lane
      let (y, r'', n) ← decRenorm lane k (x <<< 16 ||| v) r'
      pure (y, r'', n + 1)
    else pure (x, r, 0)

/-- One lane's decode from the state `x` on a copy of the reader: the symbol, the new state, the reader, and how many
words were read (R182, R186). -/
def decPlan (lane x : Nat) (r : Reader) : Cmd (Nat × Nat × Reader × Nat) := do
  let slot := x % Config.M
  let (sym, freq, start) ← readSlot slot
  require (0 < freq) ⟨.malformedStream, 1, slot, lane⟩
  let (x', r', n) ← decRenorm lane (r.wordsLeft + 2) (decFirst freq start x) r
  pure (sym, x', r', n)

/-- `DEC_INIT` of `lane` with the state `x` (R181). -/
def decInit (lane x : Nat) : Cmd Unit := do
  require (Config.M ≤ x ∧ x < Config.B * Config.M) ⟨.malformedStream, 2, x, lane⟩
  modify fun s => s.setXd (setLane s.xd lane x)

/-- `DEC_SYM` on `lane`; it answers the symbol (R182). -/
def decSym (lane : Nat) : Cmd Nat := do
  let s ← getState
  require (s.status.tblValid = true) ⟨.notReady, 2, 0, 0⟩
  let (sym, x', r, _) ← decPlan lane (laneAt s.xd lane) s.rd
  modify fun s =>
    (((s.setXd (setLane s.xd lane x')).setRd r).setResult (BitVec.ofNat 32 sym)).setResult1 (BitVec.ofNat 32 x')
  pure sym

/-- `k` lanes from `lane` up, in ascending rank, on copies of the lanes and the reader: the new lanes, the reader, the
symbols in lane order, and how many words were read (R186, R187). -/
def decLanes : Nat → Nat → Vector Word 32 → Reader → Cmd (Vector Word 32 × Reader × List Nat × Nat)
  | _, 0, xd, r => pure (xd, r, [], 0)
  | lane, k + 1, xd, r => do
    let (sym, x', r', n) ← decPlan lane (laneAt xd lane) r
    let (xd', r'', syms, n') ← decLanes (lane + 1) k (setLane xd lane x') r'
    pure (xd', r'', sym :: syms, n + n')

/-- `DEC_STEP` of `k` lanes with the output at `a` (R186). -/
def decStep (a k : Nat) : Cmd Unit := do
  let s ← getState
  require (s.status.tblValid = true) ⟨.notReady, 2, 0, 0⟩
  require (1 ≤ k ∧ k ≤ s.lanes) ⟨.badArg, 4, k, 0⟩
  require (a + k ≤ Config.memBytes) ⟨.addressWrap, 0, a, 0⟩
  let (xd, r, syms, n) ← decLanes 0 k s.xd s.rd
  writeEntries .b1 a syms
  modify fun s => ((s.setXd xd).setRd r).setResult (BitVec.ofNat 32 n)

/-- `DEC_INIT` (R181). -/
def execDecInit (lane : Nat) (s : State) : Host.Outcome State Fault Refusal :=
  runCommand (Instr.decInit lane).opcode (do checkLane lane; decInit lane s.arg0.toNat) s

/-- `DEC_SYM` (R182). -/
def execDecSym (lane : Nat) (s : State) : Host.Outcome State Fault Refusal :=
  runCommand (Instr.decSym lane).opcode (do checkLane lane; let _ ← decSym lane) s

/-- `DEC_STEP` (R186). -/
def execDecStep (s : State) : Host.Outcome State Fault Refusal :=
  runCommand Instr.decStep.opcode (decStep s.arg0.toNat s.arg1.toNat) s

end Sys2Proof.Machine
end

