-- ==== Sys2Proof/Machine/Histogram.lean ====
section
/-!
DEFINITION. The raw table, its normalization and the queries (42_histogram.md R130 to R139). The normalizer works on
lists of unbounded numbers; `HIST_NORM` commits its result to `FREQ`.
-/
namespace Sys2Proof.Machine

/-- One more count of the byte `b` (R130). -/
def bump (raw : Vector Word 512) (b : Nat) : Vector Word 512 := raw.setIfInBounds b (entryAt raw b 0 + 1)

/-- Counts of `k` bytes from address `a` up, added to `raw` (R130). -/
def countBytes : Nat → Nat → Vector Word 512 → Cmd (Vector Word 512)
  | _, 0, raw => pure raw
  | a, k + 1, raw => do
    let b ← memRead a .b1
    countBytes (a + 1) k (bump raw b)

/-- `HIST_COUNT` of `c` bytes at `a` (R130). -/
def histCount (a c : Nat) : Cmd Unit := do
  require (a + c ≤ Config.memBytes) ⟨.addressWrap, 0, a, 0⟩
  let raw ← countBytes a c (Vector.replicate 512 0)
  modify fun s => ((s.setRawf raw).setStatus s.status.rawLoaded).setResult (BitVec.ofNat 32 c)

/-- `HIST_LOAD` of the stored table at `a` (R131). -/
def histLoad (a : Nat) : Cmd Unit := do
  require (a + Config.tableBytes ≤ Config.memBytes) ⟨.addressWrap, 0, a, 0⟩
  let raw ← readEntries .b4 a 512
  modify fun s =>
    (((s.setRawf (ofListD 512 (raw.map (BitVec.ofNat 32)) 0)).setStatus s.status.rawLoaded).setResult
      (BitVec.ofNat 32 raw.sum)).setResult1 (BitVec.ofNat 32 (raw.sum / 2 ^ 32))

/-- The greatest entry of a list. -/
def greatest (l : List Nat) : Nat := l.foldr max 0

/-- The least index that holds the greatest entry (R134, R135). -/
def indexOfGreatest (l : List Nat) : Nat := l.idxOf (greatest l)

/-- The highest index with a count that is not zero (R132). -/
def highestUsed (raw : List Nat) : Nat := greatest ((raw.zipIdx.filter (fun p => decide (0 < p.1))).map Prod.snd)

/-- One count rounded half up to the total `M`, with the floor of 1 for a count that is not zero (R133). -/
def roundCount (T c : Nat) : Nat := if c = 0 then 0 else max 1 ((2 * c * Config.M + T) / (2 * T))

/-- The rounded counts of the 256 symbols (R132, R133). -/
def roundedTable (raw : List Nat) : List Nat := (raw.take 256).map (roundCount raw.sum)

/-- The signed residue `r = M - Σ F` (R134). -/
def residue (F : List Nat) : Int := (Config.M : Int) - (F.sum : Int)

/-- One unit less in the greatest entry, the least index on a tie (R135). -/
def lowerGreatest (F : List Nat) : List Nat := F.modify (indexOfGreatest F) (· - 1)

/-- `k` units taken one at a time, each from the entry that is greatest then (R135). -/
def lowerTimes : Nat → List Nat → List Nat
  | 0, F => F
  | k + 1, F => lowerTimes k (lowerGreatest F)

/-- The entry at `i` of a list, 0 past the end. -/
def nth (l : List Nat) (i : Nat) : Nat := (l[i]?).getD 0

/-- The correction: the residue added to the entry `imax`, or the fallback when that would leave it below 1; the flag
says that the fallback was used (R132, R134, R135). -/
def correct (F : List Nat) (imax : Nat) : List Nat × Bool :=
  let r := residue F
  if 1 ≤ (nth F imax : Int) + r then (F.set imax ((nth F imax : Int) + r).toNat, false)
  else (lowerTimes (-r).toNat F, true)

/-- The normalized table of a raw table, and whether the fallback was used (R132). -/
def normalizeTable (raw : List Nat) : List Nat × Bool := correct (roundedTable raw) (indexOfGreatest raw)

/-- `HIST_NORM` (R132). -/
def histNorm : Cmd Unit := do
  let s ← getState
  require (s.status.rawValid = true) ⟨.notReady, 0, 0, 0⟩
  let raw ← readRaw
  require (0 < raw.sum) ⟨.emptyHistogram, 0, 0, 0⟩
  require (highestUsed raw < 256) ⟨.alphabetTooLarge, 0, highestUsed raw, 0⟩
  let (F, fb) := normalizeTable raw
  modify fun s =>
    (((s.setFreq (ofListD 256 (F.map (BitVec.ofNat 16)) 0)).setStatus (s.status.normalized fb)).setResult
      (BitVec.ofNat 32 (highestUsed raw + 1))).setResult1 (BitVec.ofNat 32 (indexOfGreatest raw))

/-- `HIST_STORE` at `a`: 256 normalized entries, then 256 zero entries (R137). -/
def histStore (a : Nat) : Cmd Unit := do
  let s ← getState
  require (s.status.histValid = true) ⟨.notReady, 1, 0, 0⟩
  require (a + Config.tableBytes ≤ Config.memBytes) ⟨.addressWrap, 0, a, 0⟩
  let F ← readFreq
  writeEntries .b4 a (F ++ List.replicate 256 0)

/-- `RAW_QUERY` of entry `i` (R138). -/
def rawQuery (i : Nat) : Cmd Unit := do
  let s ← getState
  require (s.status.rawValid = true) ⟨.notReady, 0, 0, 0⟩
  require (i < 512) ⟨.badArg, 1, i, 0⟩
  let raw ← readRaw
  modify fun s => s.setResult (BitVec.ofNat 32 (nth raw i))

/-- `FREQ_QUERY` of symbol `i` (R139). -/
def freqQuery (i : Nat) : Cmd Unit := do
  let s ← getState
  require (s.status.histValid = true) ⟨.notReady, 1, 0, 0⟩
  require (i < 256) ⟨.badArg, 1, i, 0⟩
  let F ← readFreq
  modify fun s => (s.setResult (BitVec.ofNat 32 (nth F i))).setResult1 (BitVec.ofNat 32 (F.take i).sum)

/-- `HIST_COUNT` (R130). -/
def execHistCount (s : State) : Host.Outcome State Fault Refusal :=
  runCommand Instr.histCount.opcode (histCount s.arg0.toNat s.arg1.toNat) s

/-- `HIST_LOAD` (R131). -/
def execHistLoad (s : State) : Host.Outcome State Fault Refusal :=
  runCommand Instr.histLoad.opcode (histLoad s.arg0.toNat) s

/-- `HIST_NORM` (R132). -/
def execHistNorm (s : State) : Host.Outcome State Fault Refusal := runCommand Instr.histNorm.opcode histNorm s

/-- `HIST_STORE` (R137). -/
def execHistStore (s : State) : Host.Outcome State Fault Refusal :=
  runCommand Instr.histStore.opcode (histStore s.arg0.toNat) s

/-- `RAW_QUERY` (R138). -/
def execRawQuery (s : State) : Host.Outcome State Fault Refusal :=
  runCommand Instr.rawQuery.opcode (rawQuery s.arg0.toNat) s

/-- `FREQ_QUERY` (R139). -/
def execFreqQuery (s : State) : Host.Outcome State Fault Refusal :=
  runCommand Instr.freqQuery.opcode (freqQuery s.arg0.toNat) s

end Sys2Proof.Machine
end

