-- ==== Sys2Proof/Machine/Encoder.lean ====
section
/-!
DEFINITION. The encoder state machine (44_encoder.md R160 to R167).
-/
namespace Sys2Proof.Machine

/-- Step 1 of an encode: while `x ≥ B·F`, the low word of `x` is emitted and `x` shifted down; the first number bounds
the rounds, and two are enough for a 32-bit state (R162, R163; log 16). -/
def encRenorm : Nat → Nat → Nat → Nat × List Nat
  | 0, _, x => (x, [])
  | k + 1, F, x =>
    if Config.B * F ≤ x then
      let (y, ws) := encRenorm k F (x >>> 16)
      (y, x % 65536 :: ws)
    else (x, [])

/-- Step 2 of an encode: `((x div F) << LOG2M) + C + (x mod F)` (R162). -/
def encNext (F C x : Nat) : Nat := ((x / F) <<< Config.log2M) + C + x % F

/-- One lane's encode of the symbol `sym` from the state `x`, before any store: the new state and the words to emit
(R162, R166). -/
def encPlan (lane sym x : Nat) : Cmd (Nat × List Nat) := do
  let freq ← readFreq
  require (0 < nth freq sym) ⟨.zeroFreqSymbol, 0, sym, lane⟩
  let (y, ws) := encRenorm 2 (nth freq sym) x
  let start ← readStart sym
  let x' := encNext (nth freq sym) start y
  require (x' ≤ 2 * Config.B * Config.M) ⟨.stateOverflow, 0, x', lane⟩
  pure (x', ws)

/-- The words stored in emission order through a copy of the writer (R162, R166). -/
def storeWords (lane : Nat) : Writer → List Nat → Cmd Writer
  | w, [] => pure w
  | w, wd :: wds => do
    let (w', _) ← writeBits w wd 16 lane
    storeWords lane w' wds

/-- `ENC_INIT` (R161). -/
def encInit : Cmd Unit := modify fun s => s.setXe resetLanes

/-- `ENC_SYM` of the symbol `sym` on `lane` (R162). -/
def encSym (lane sym : Nat) : Cmd Unit := do
  let s ← getState
  require (s.status.tblValid = true) ⟨.notReady, 2, 0, 0⟩
  require (sym < 256) ⟨.badArg, 0, sym, 0⟩
  let (x', ws) ← encPlan lane sym (laneAt s.xe lane)
  require (s.wr.ptr.toNat + 2 * ws.length ≤ s.wr.lim.toNat) ⟨.writeOverflow, 0, s.wr.ptr.toNat, lane⟩
  let w ← storeWords lane s.wr ws
  modify fun s =>
    (((s.setXe (setLane s.xe lane x')).setWr w).setResult (BitVec.ofNat 32 ws.length)).setResult1 (BitVec.ofNat 32 x')

/-- The lanes `k-1` down to 0 of one interleaved step on a copy of the lanes, lane `j` coding the `j`-th symbol: the
new lanes and the words in emission order (R166, R167). -/
def encLanes (syms : List Nat) : Nat → Vector Word 32 → Cmd (Vector Word 32 × List Nat)
  | 0, xe => pure (xe, [])
  | j + 1, xe => do
    let (x', ws) ← encPlan j (nth syms j) (laneAt xe j)
    let (xe', rest) ← encLanes syms j (setLane xe j x')
    pure (xe', ws ++ rest)

/-- `ENC_STEP` of the `k` symbols at `a` (R166). -/
def encStep (a k : Nat) : Cmd Unit := do
  let s ← getState
  require (s.status.tblValid = true) ⟨.notReady, 2, 0, 0⟩
  require (1 ≤ k ∧ k ≤ s.lanes) ⟨.badArg, 4, k, 0⟩
  require (a + k ≤ Config.memBytes) ⟨.addressWrap, 0, a, 0⟩
  let syms ← readEntries .b1 a k
  let (xe, ws) ← encLanes syms k s.xe
  require (s.wr.ptr.toNat + 2 * ws.length ≤ s.wr.lim.toNat) ⟨.writeOverflow, 0, s.wr.ptr.toNat, 0⟩
  let w ← storeWords 0 s.wr ws
  modify fun s => ((s.setXe xe).setWr w).setResult (BitVec.ofNat 32 ws.length)

/-- `ENC_INIT` (R161). -/
def execEncInit (s : State) : Host.Outcome State Fault Refusal := runCommand Instr.encInit.opcode encInit s

/-- `ENC_SYM` (R162). -/
def execEncSym (lane : Nat) (s : State) : Host.Outcome State Fault Refusal :=
  runCommand (Instr.encSym lane).opcode (do checkLane lane; encSym lane s.arg0.toNat) s

/-- `ENC_STEP` (R166). -/
def execEncStep (s : State) : Host.Outcome State Fault Refusal :=
  runCommand Instr.encStep.opcode (encStep s.arg0.toNat s.arg1.toNat) s

end Sys2Proof.Machine
end

