-- ==== Sys2Proof/Machine/Table.lean ====
section
/-!
DEFINITION. The table build and query (43_table.md R150 to R153).
-/
namespace Sys2Proof.Machine

/-- The start slot of each symbol, the first at `c`: `CUMS` (R150, R151). -/
def startSlots : Nat → List Nat → List Nat
  | _, [] => []
  | c, f :: fs => c :: startSlots (c + f) fs

/-- The rows (symbol, frequency, start) of the slots from `c` up, all slots of symbol `σ` first, then those of the
next (R150, R151). -/
def slotRows : Nat → Nat → List Nat → List (Nat × Nat × Nat)
  | _, _, [] => []
  | σ, c, f :: fs => List.replicate f (σ, f, c) ++ slotRows (σ + 1) (c + f) fs

/-- `TBL_BUILD` (R151; log 17). -/
def tblBuild : Cmd Unit := do
  let s ← getState
  require (s.status.histValid = true) ⟨.notReady, 1, 0, 0⟩
  let F ← readFreq
  let rows := slotRows 0 0 F
  modify fun s =>
    (s.setTables (overlay s.sym (rows.map (fun r => BitVec.ofNat 8 r.1)))
      (overlay s.frq (rows.map (fun r => BitVec.ofNat 16 r.2.1)))
      (overlay s.cum (rows.map (fun r => BitVec.ofNat 16 r.2.2)))
      (ofListD 256 ((startSlots 0 F).map (BitVec.ofNat 16)) 0)).setStatus s.status.tableBuilt

/-- `TBL_QUERY` of slot `slot` (R152). -/
def tblQuery (slot : Nat) : Cmd Unit := do
  let s ← getState
  require (s.status.tblValid = true) ⟨.notReady, 2, 0, 0⟩
  require (slot < Config.M) ⟨.badArg, 1, slot, 0⟩
  let (σ, f, c) ← readSlot slot
  modify fun s => (s.setResult (BitVec.ofNat 32 (σ ||| f <<< 16))).setResult1 (BitVec.ofNat 32 c)

/-- `TBL_BUILD` (R151). -/
def execTblBuild (s : State) : Host.Outcome State Fault Refusal := runCommand Instr.tblBuild.opcode tblBuild s

/-- `TBL_QUERY` (R152). -/
def execTblQuery (s : State) : Host.Outcome State Fault Refusal :=
  runCommand Instr.tblQuery.opcode (tblQuery s.arg0.toNat) s

end Sys2Proof.Machine
end

