-- ==== Sys2Proof/Machine/Framer.lean ====
section
/-!
DEFINITION. The payload framer (46_framer.md R200 to R209). The two payload commands are sequences of the other
commands' rules, each of which commits on its own (60_exceptions.md R233).
-/
namespace Sys2Proof.Machine

/-- The index of the first entry of a list that meets a test. -/
def firstWith (test : Nat → Bool) (l : List Nat) : Nat := l.findIdx test

/-- One payload body size: room for the lane states, and an even stream (R204). -/
def bodyFits (lanes size : Nat) : Bool := decide (4 * lanes ≤ size) && decide ((size - 4 * lanes) % 2 = 0)

/-- The checks of `FRM_PARSE` on the fields read, in their order, and the commit (R204). -/
def checkHeader (FL W H PB S0 S1 S2 S3 : Nat) : Cmd Unit := do
  let s ← getState
  require (W % 4 = 0 ∧ H % 4 = 0) ⟨.badContainer, 1, if W % 4 ≠ 0 then W else H, 0⟩
  let f := [W, H, PB, S0, S1, S2, S3]
  require (f.all (fun v => decide (v ≠ 0)) = true) ⟨.badContainer, 2, firstWith (fun v => decide (v = 0)) f, 0⟩
  require (f.all (fun v => decide (v < 2 ^ 32)) = true)
    ⟨.badContainer, 3, firstWith (fun v => decide (2 ^ 32 ≤ v)) f, 0⟩
  let NB := W * H / 16
  require (4 * NB < 2 ^ 32) ⟨.badContainer, 3, 7, 0⟩
  require (Config.headerBytes + 4 * Config.tableBytes + S0 + S1 + S2 + S3 = FL) ⟨.badContainer, 4, FL, 0⟩
  let S := [S0, S1, S2, S3]
  require (S.all (bodyFits s.lanes) = true) ⟨.badContainer, 5, firstWith (fun v => !bodyFits s.lanes v) S, 0⟩
  modify fun s =>
    (((s.setHdr
      { w := BitVec.ofNat 32 W, h := BitVec.ofNat 32 H, pb := BitVec.ofNat 32 PB, sy := BitVec.ofNat 32 S0,
        sc := BitVec.ofNat 32 S1, sp := BitVec.ofNat 32 S2, si := BitVec.ofNat 32 S3 }).setStatus
      (s.status.withHdr true)).setResult (BitVec.ofNat 32 NB)).setResult1 (BitVec.ofNat 32 (8 * NB))

/-- The rule of `FRM_PARSE`, but for what an error does to `HDR_VALID` (R204). -/
def frmParseBody (A FL : Nat) : Cmd Unit := do
  require (A + FL ≤ Config.memBytes) ⟨.addressWrap, 0, A, 0⟩
  require (Config.headerBytes ≤ FL) ⟨.badContainer, 0, FL, 0⟩
  let W ← memRead A .b4
  let H ← memRead (A + 4) .b4
  let PB ← memRead (A + 8) .b8
  let S0 ← memRead (A + 16) .b8
  let S1 ← memRead (A + 24) .b8
  let S2 ← memRead (A + 32) .b8
  let S3 ← memRead (A + 40) .b8
  checkHeader FL W H PB S0 S1 S2 S3

/-- `FRM_PARSE`: on any error `HDR_VALID` is cleared (R204). -/
def frmParse (A FL : Nat) : Cmd Unit := fun s =>
  match frmParseBody A FL s with
  | .ok u s' => .ok u s'
  | .error e s' => .error e (s'.setStatus (s'.status.withHdr false))

/-- `FRM_HDR_WRITE` at `A` (R205). -/
def frmHdrWrite (A : Nat) : Cmd Unit := do
  let s ← getState
  require (A + Config.headerBytes ≤ Config.memBytes) ⟨.addressWrap, 0, A, 0⟩
  memWrite A .b4 s.hdr.w.toNat
  memWrite (A + 4) .b4 s.hdr.h.toNat
  memWrite (A + 8) .b8 s.hdr.pb.toNat
  memWrite (A + 16) .b8 s.hdr.sy.toNat
  memWrite (A + 24) .b8 s.hdr.sc.toNat
  memWrite (A + 32) .b8 s.hdr.sp.toNat
  memWrite (A + 40) .b8 s.hdr.si.toNat

/-- `ceil(C / N)`, the number of steps of a payload (R206 to R208). -/
def stepCount (C N : Nat) : Nat := (C + N - 1) / N

/-- The number of lanes of step `i`: `min(N, C − i·N)` (R208). -/
def stepLanes (C N i : Nat) : Nat := min N (C - i * N)

/-- The lane states of a payload body loaded into the lanes `lane .. lane + k - 1`, the sub-steps `DEC_INIT` (R206). -/
def loadLanes (body : Nat) : Nat → Nat → Cmd Unit
  | _, 0 => pure ()
  | lane, k + 1 => do
    let x ← memRead (body + 4 * lane) .b4
    decInit lane x
    loadLanes body (lane + 1) k

/-- One step of a payload's decode, lanes in ascending rank, the sub-steps `DEC_SYM`; it answers the symbols in lane
order (R206). -/
def decodeStep : Nat → Nat → Cmd (List Nat)
  | _, 0 => pure []
  | lane, k + 1 => do
    let sym ← decSym lane
    let syms ← decodeStep (lane + 1) k
    pure (sym :: syms)

/-- The steps `i-1` down to 0 of a payload's decode; `out` holds the symbols of the later steps (R206, R208). -/
def decodeSteps (C N : Nat) : Nat → List Nat → Cmd (List Nat)
  | 0, out => pure out
  | i + 1, out => do
    let syms ← decodeStep 0 (stepLanes C N i)
    decodeSteps C N i (syms ++ out)

/-- The end check of the lanes `lane .. lane + k - 1`: each is back at `M` (R206). -/
def checkLanesBack (xd : Vector Word 32) : Nat → Nat → Cmd Unit
  | _, 0 => pure ()
  | lane, k + 1 => do
    require (laneAt xd lane = Config.M) ⟨.malformedStream, 3, laneAt xd lane, lane⟩
    checkLanesBack xd (lane + 1) k

/-- The decode of a payload at `P` with a body of `size` bytes into `C` symbols, up to and with the end checks; it
answers the plane in logical order (R206). -/
def decodePayload (N P size C : Nat) : Cmd (List Nat) := do
  histLoad P
  histNorm
  tblBuild
  loadLanes (P + Config.tableBytes) 0 N
  brInit (P + Config.tableBytes + 4 * N) (P + Config.tableBytes + size) false
  let out ← decodeSteps C N (stepCount C N) []
  let s ← getState
  checkLanesBack s.xd 0 N
  require (s.rd.ptr = s.rd.base ∧ s.rd.cnt = 0) ⟨.malformedStream, 4, s.rd.ptr.toNat, 0⟩
  pure out

/-- `FRM_DEC_PAYLOAD` of payload `p` of the container at `A` into the plane at `D` (R206). -/
def frmDecPayload (p : Payload) (A D : Nat) : Cmd Unit := do
  let s ← getState
  require (s.status.hdrValid = true) ⟨.notReady, 3, 0, 0⟩
  let P := A + s.hdr.payloadOffset p
  let C := s.hdr.planeBytes p
  let size := (s.hdr.size p).toNat
  require (P + Config.tableBytes + size ≤ Config.memBytes) ⟨.addressWrap, 0, A, 0⟩
  require (D + C ≤ Config.memBytes) ⟨.addressWrap, 0, D, 0⟩
  require (overlaps D C P (Config.tableBytes + size) = false) ⟨.badArg, 6, D, 0⟩
  let out ← decodePayload s.lanes P size C
  writeEntries .b1 D out
  modify fun s => s.setResult (BitVec.ofNat 32 C)

/-- One step of a payload's encode, lanes `k-1` down to 0, the sub-steps `ENC_SYM` on the bytes from `a` up (R207). -/
def encodeStep (a : Nat) : Nat → Cmd Unit
  | 0 => pure ()
  | lane + 1 => do
    let sym ← memRead (a + lane) .b1
    encSym lane sym
    encodeStep a lane

/-- `k` steps of a payload's encode from step `i` up (R207, R208). -/
def encodeSteps (src C N : Nat) : Nat → Nat → Cmd Unit
  | _, 0 => pure ()
  | i, k + 1 => do
    encodeStep (src + i * N) (stepLanes C N i)
    encodeSteps src C N (i + 1) k

/-- `FRM_ENC_PAYLOAD` of the `C` bytes at `src` into payload `p` at `P`, where `CAP` bytes are free (R207). -/
def frmEncPayload (p : Payload) (src P C CAP : Nat) : Cmd Unit := do
  let s ← getState
  let N := s.lanes
  require (0 < C) ⟨.badArg, 5, 0, 0⟩
  require (src + C ≤ Config.memBytes) ⟨.addressWrap, 0, src, 0⟩
  require (P + CAP ≤ Config.memBytes) ⟨.addressWrap, 0, P, 0⟩
  require (overlaps src C P CAP = false) ⟨.badArg, 6, P, 0⟩
  require (Config.tableBytes + 4 * N ≤ CAP) ⟨.writeOverflow, 0, P, 0⟩
  histCount src C
  histNorm
  tblBuild
  histStore P
  encInit
  let body := P + Config.tableBytes
  let stream := body + 4 * N
  bwInit stream (stream + 2 * ((CAP - Config.tableBytes - 4 * N) / 2))
  encodeSteps src C N 0 (stepCount C N)
  let s ← getState
  writeEntries .b4 body ((s.xe.toList.take N).map BitVec.toNat)
  let bytes := s.wr.ptr.toNat - stream
  modify fun s =>
    (((s.setHdr (s.hdr.setSize p (BitVec.ofNat 32 (4 * N + bytes)))).setStatus
      (s.status.withHdr false)).setResult (BitVec.ofNat 32 (4 * N + bytes))).setResult1 (BitVec.ofNat 32 bytes)

/-- `FRM_PARSE` (R204). -/
def execFrmParse (s : State) : Host.Outcome State Fault Refusal :=
  runCommand Instr.frmParse.opcode (frmParse s.arg0.toNat s.arg1.toNat) s

/-- `FRM_HDR_WRITE` (R205). -/
def execFrmHdrWrite (s : State) : Host.Outcome State Fault Refusal :=
  runCommand Instr.frmHdrWrite.opcode (frmHdrWrite s.arg0.toNat) s

/-- `FRM_DEC_PAYLOAD` (R206). -/
def execFrmDecPayload (p : Payload) (s : State) : Host.Outcome State Fault Refusal :=
  runCommand (Instr.frmDecPayload p).opcode (frmDecPayload p s.arg0.toNat s.arg1.toNat) s

/-- `FRM_ENC_PAYLOAD` (R207). -/
def execFrmEncPayload (p : Payload) (s : State) : Host.Outcome State Fault Refusal :=
  runCommand (Instr.frmEncPayload p).opcode
    (frmEncPayload p s.arg0.toNat s.arg1.toNat s.arg2.toNat s.arg3.toNat) s

end Sys2Proof.Machine
end

