-- ==== Sys2Proof/Machine/Dispatch.lean ====
section
/-!
DEFINITION. The meaning of every command, one arm each (30_encoding.md R83).
-/
namespace Sys2Proof.Machine

/-- The effect of a command, from its acceptance to its completion (60_exceptions.md R235 to R237). -/
def exec (i : Instr) (s : State) : Host.Outcome State Fault Refusal :=
  match i with
  | .nop => Sys2Proof.Machine.execNop s
  | .softReset => Sys2Proof.Machine.execSoftReset s
  | .clrStatus => Sys2Proof.Machine.execClrStatus s
  | .brInit => Sys2Proof.Machine.execBrInit s
  | .brRead n => Sys2Proof.Machine.execBrRead n s
  | .bwInit => Sys2Proof.Machine.execBwInit s
  | .bwWrite n => Sys2Proof.Machine.execBwWrite n s
  | .histCount => Sys2Proof.Machine.execHistCount s
  | .histLoad => Sys2Proof.Machine.execHistLoad s
  | .histNorm => Sys2Proof.Machine.execHistNorm s
  | .histStore => Sys2Proof.Machine.execHistStore s
  | .rawQuery => Sys2Proof.Machine.execRawQuery s
  | .freqQuery => Sys2Proof.Machine.execFreqQuery s
  | .tblBuild => Sys2Proof.Machine.execTblBuild s
  | .tblQuery => Sys2Proof.Machine.execTblQuery s
  | .encInit => Sys2Proof.Machine.execEncInit s
  | .encSym lane => Sys2Proof.Machine.execEncSym lane s
  | .encStep => Sys2Proof.Machine.execEncStep s
  | .decInit lane => Sys2Proof.Machine.execDecInit lane s
  | .decSym lane => Sys2Proof.Machine.execDecSym lane s
  | .decStep => Sys2Proof.Machine.execDecStep s
  | .frmParse => Sys2Proof.Machine.execFrmParse s
  | .frmHdrWrite => Sys2Proof.Machine.execFrmHdrWrite s
  | .frmDecPayload pay => Sys2Proof.Machine.execFrmDecPayload pay s
  | .frmEncPayload pay => Sys2Proof.Machine.execFrmEncPayload pay s

end Sys2Proof.Machine
end

