-- ==== Sys2Proof/Machine/Sequencer.lean ====
section
/-!
DEFINITION. The sequencer's move: the accepted command word decoded and run to completion (30_encoding.md R84, R85;
60_exceptions.md R235 to R237).
-/
namespace Sys2Proof.Machine

/-- What command decode raises for a word that is no command (R84, R85). -/
def decodeRaised (e : DecodeError) (cw : Word) : Raised :=
  match e with
  | .unknownOpcode => ⟨.illegalCommand, 0, cw.toNat, 0⟩
  | .bitsNotZero => ⟨.illegalCommand, 1, cw.toNat, 0⟩

/-- The accepted word decoded and its command run to completion (R85, R236, R237). -/
def runAccepted (s : State) : Host.Outcome State Fault Refusal :=
  match decode s.cmd with
  | .ok i => exec i s
  | .error e => .next (s.raise (opcodeBits s.cmd) (decodeRaised e s.cmd)).complete

/-- The sequencer's move: the accepted command runs to completion; an idle sequencer does nothing (R20, R246). The
command's whole effect stands at this one move (log 11). DESIGN CHOICE, where a host access before this move could tell:
- the flags of `STATUS` that the sub-steps of a payload command commit are read as before the command (log 18);
- the registers that `SOFT_RESET` writes are read as before it, and so are the flags any command commits (log 19);
- `CLR_STATUS` and `SOFT_RESET` clear `ERR` and `WBUSY` here, after every write dropped while they ran (log 20). -/
def sequencerMove (s : State) : Host.Outcome State Fault Refusal :=
  if s.status.busy then runAccepted s else .next s

end Sys2Proof.Machine
end

