-- ==== Sys2Proof/Machine/Footprint.lean ====
section
/-!
DEFINITION. The memory the running command reads or writes (20_memory.md R70, R71), which the host does not touch while
the command runs (R70.3, 93_implementation_defined.md U5). A byte is used when an access that the command's own run
makes, and that the platform answers, touches it. Log 12.
-/
namespace Sys2Proof.Machine

/-- A platform that also refuses every access that touches `[a, a + n)`, and is else the same. -/
def Platform.shut (p : Platform) (a n : Nat) : Platform :=
  { p with
    refused := p.refused ++ [AccessKind.read, .write].flatMap fun k =>
      [Size.b1, .b2, .b4, .b8].map fun size => ⟨k, size, a + 1 - size.bytes, a + n - 1⟩ }

/-- A command's rule from its operands, as its meaning runs it (R85, R235). -/
def ruleOf (i : Instr) (s : State) : Cmd Unit :=
  match i with
  | .nop => pure ()
  | .softReset => softReset
  | .clrStatus => modify State.clearError
  | .brInit => brInit s.arg0.toNat s.arg1.toNat s.ctrl.brDir
  | .brRead n => brRead n
  | .bwInit => bwInit s.arg0.toNat s.arg1.toNat
  | .bwWrite n => bwWrite s.arg0.toNat n
  | .histCount => histCount s.arg0.toNat s.arg1.toNat
  | .histLoad => histLoad s.arg0.toNat
  | .histNorm => histNorm
  | .histStore => histStore s.arg0.toNat
  | .rawQuery => rawQuery s.arg0.toNat
  | .freqQuery => freqQuery s.arg0.toNat
  | .tblBuild => tblBuild
  | .tblQuery => tblQuery s.arg0.toNat
  | .encInit => encInit
  | .encSym lane => do checkLane lane; encSym lane s.arg0.toNat
  | .encStep => encStep s.arg0.toNat s.arg1.toNat
  | .decInit lane => do checkLane lane; decInit lane s.arg0.toNat
  | .decSym lane => do checkLane lane; let _ ← decSym lane
  | .decStep => decStep s.arg0.toNat s.arg1.toNat
  | .frmParse => frmParse s.arg0.toNat s.arg1.toNat
  | .frmHdrWrite => frmHdrWrite s.arg0.toNat
  | .frmDecPayload p => frmDecPayload p s.arg0.toNat s.arg1.toNat
  | .frmEncPayload p => frmEncPayload p s.arg0.toNat s.arg1.toNat s.arg2.toNat s.arg3.toNat

/-- Whether the run of a rule from `s` uses a byte of `[a, a + n)`: with those bytes shut, the run ends at an access that
the platform itself answers (R69, R70.3). Up to that access the two runs are the same. -/
def Cmd.uses (c : Cmd Unit) (s : State) (a n : Nat) : Bool :=
  match c { s with platform := s.platform.shut a n } with
  | .ok _ _ => false
  | .error (.raised _ none) _ => false
  | .error (.raised _ (some x)) _ => decide (s.platform.accessError x.addr x.size x.kind = none)
  | .error (.fault _) _ => false

/-- Whether an access of `n` bytes at `a` touches memory the running command uses (R70.3). -/
def State.racesWith (s : State) (a n : Nat) : Bool :=
  s.status.busy &&
    match decode s.cmd with
    | .ok i => Cmd.uses (ruleOf i s) s a n
    | .error _ => false

end Sys2Proof.Machine
end

