-- ==== Sys2Proof/Machine/HostAgent.lean ====
section
/-!
DEFINITION. The host agent: its accesses to CSRs and memory (10_state.md R20, R38; 20_memory.md R70) and its program in
the host notation (30_encoding.md R87).
-/
namespace Sys2Proof.Machine

/-- The value of a host variable; one never written holds 0 (log 14). -/
def HostAgent.getVar (h : HostAgent) (x : Nat) : Word := (h.vars.lookup x).getD 0

/-- A host variable written. -/
def HostAgent.setVar (h : HostAgent) (x : Nat) (v : Word) : HostAgent :=
  { h with vars := (x, v) :: h.vars.filter (fun p => decide (p.1 ≠ x)) }

/-- The value an operation's operand stands for (R87). -/
def HostAgent.value (h : HostAgent) : HostVal → Word
  | .const v => v
  | .var x => h.getVar x

/-- The host is at its next operation. -/
def State.hostNext (s : State) : State := s.setHost { s.host with pos := s.host.pos + 1 }

/-- The host variable `t` written, and the host at its next operation. -/
def State.hostResult (s : State) (t : Nat) (v : Word) : State :=
  s.setHost { s.host.setVar t v with pos := s.host.pos + 1 }

/-- A host write of `n` bytes at address `a`: a CSR write inside the window, else a memory write (R20, R38, R70). The
window is tested first, so that no access to it but an aligned word is answered, even past the last address (log 13). -/
def hostWrite (n : Size) (a : Nat) (v : Word) (s : State) : Host.Outcome State Fault Refusal :=
  if n = .b8 then .refused .hostAccessWidth
  else if overlaps a n.bytes s.platform.csrBase Config.csrBytes then
    if n = .b4 ∧ a % 4 = 0 then .next (csrWrite (a - s.platform.csrBase) v s) else .refused .hostAccessWidth
  else if Config.memBytes < a + n.bytes then .fault .hostAccessPastEnd
  else if s.racesWith a n.bytes then .refused .hostRace
  else .next (s.setMem (s.mem.writeLE a v.toNat n.bytes))

/-- A host read of `n` bytes at address `a` into the variable `t`, checked like a write (R20, R38, R70; log 13). -/
def hostRead (n : Size) (a t : Nat) (s : State) : Host.Outcome State Fault Refusal :=
  if n = .b8 then .refused .hostAccessWidth
  else if overlaps a n.bytes s.platform.csrBase Config.csrBytes then
    if n = .b4 ∧ a % 4 = 0 then
      .next ((csrRead (a - s.platform.csrBase) s).2.hostResult t (csrRead (a - s.platform.csrBase) s).1)
    else .refused .hostAccessWidth
  else if Config.memBytes < a + n.bytes then .fault .hostAccessPastEnd
  else if s.racesWith a n.bytes then .refused .hostRace
  else .next (s.hostResult t (BitVec.ofNat 32 (s.mem.readLE a n.bytes)))

/-- The host moves to a label of its program (R87). -/
def State.hostJump (s : State) (l : Nat) : Host.Outcome State Fault Refusal :=
  let at' := s.host.prog.findIdx (fun op => decide (op = .label l))
  if at' < s.host.prog.length then .next (s.setHost { s.host with pos := at' }) else .refused .noSuchLabel

/-- A host jump that is taken or not (R87). -/
def State.hostBranch (s : State) (taken : Bool) (l : Nat) : Host.Outcome State Fault Refusal :=
  if taken then s.hostJump l else .next s.hostNext

/-- One operation of the host notation (R87). -/
def hostOp (op : HostOp) (s : State) : Host.Outcome State Fault Refusal :=
  match op with
  | .csrw off v =>
    if off.toNat % 4 = 0 then .next (csrWrite off.toNat (s.host.value v) s).hostNext else .refused .hostAccessWidth
  | .csrr t off =>
    if off.toNat % 4 = 0 then .next ((csrRead off.toNat s).2.hostResult t (csrRead off.toNat s).1)
    else .refused .hostAccessWidth
  | .store n a v => hostWrite n (s.host.value a).toNat (s.host.value v) s.hostNext
  | .load n t a => hostRead n (s.host.value a).toNat t s
  | .li t v => .next (s.hostResult t v)
  | .addi t u v => .next (s.hostResult t (s.host.getVar u + BitVec.ofInt 32 v))
  | .andi t u v => .next (s.hostResult t (s.host.getVar u &&& v))
  | .add t u w => .next (s.hostResult t (s.host.getVar u + s.host.getVar w))
  | .bnez t l => s.hostBranch (decide (s.host.getVar t ≠ 0)) l
  | .beqz t l => s.hostBranch (decide (s.host.getVar t = 0)) l
  | .blt t u l => s.hostBranch (decide ((s.host.getVar t).toNat < (s.host.getVar u).toNat)) l
  | .j l => s.hostJump l
  | .label _ => .next s.hostNext
  | .halt => .next s

/-- The host's move: its next operation, or nothing when its program has ended (R87, R265). -/
def hostMove (s : State) : Host.Outcome State Fault Refusal :=
  match s.host.prog[s.host.pos]? with
  | none => .next s
  | some op => hostOp op s

/-! ## The pseudo-instructions of R87 -/

/-- `cmd`: the word written to `CMD` (R86). -/
def HostOp.cmd (i : Instr) : HostOp := .csrw 0x018 (.const (encode i))

/-- `wait`: polls until `BUSY = 0`, through the variable `t` and the fresh label `l` (R87). -/
def waitOps (t l : Nat) : List HostOp := [.label l, .csrr t 0x00C, .andi t t 1, .bnez t l]

/-- The write of one argument of `run`, where it is given (R87). -/
def HostOp.argument (off : BitVec 12) (a : Option HostVal) : List HostOp := (a.map (HostOp.csrw off)).toList

/-- `run`: the writes of the arguments given, each of which is optional, the command, the wait (R87). -/
def runOps (i : Instr) (a0 a1 a2 a3 : Option HostVal) (t l : Nat) : List HostOp :=
  HostOp.argument 0x024 a0 ++ HostOp.argument 0x028 a1 ++ HostOp.argument 0x02C a2 ++ HostOp.argument 0x030 a3 ++
    [HostOp.cmd i] ++ waitOps t l

/-- `check`: a jump to `err` if `ERR = 1` (R87). -/
def checkOps (t err : Nat) : List HostOp := [.csrr t 0x00C, .andi t t 4, .bnez t err]

end Sys2Proof.Machine
end

