-- ==== Sys2Proof/Machine/Agents.lean ====
section
/-!
DEFINITION. The moves of the three agents: sequencer, host, and the platform's reset input (10_state.md R20;
70_reset_and_hazards.md R260).
-/
namespace Sys2Proof.Machine

/-- The memory the running command would leave (R260). -/
def memoryAfterRun (s : State) : Memory :=
  match runAccepted s with
  | .next t => t.mem
  | .fault _ => s.mem
  | .refused _ => s.mem

/-- The memory `old` with the bytes of `new` at the addresses that `kept` picks (R260, U8). -/
def mergeStores (kept : Nat → Bool) (old new : Memory) : Memory :=
  (old ++ new).foldl (fun m c => if kept c.1 then m.write c.1 (new.read c.1) else m) old

/-- The reset input asserted: a running command is abandoned, any of its stores may have happened, and every state
element takes its reset value (R46, R260, U8; log 8). -/
def resetMove (s : State) : Host.Outcome State Fault Refusal :=
  if s.status.busy then
    .next ((s.resetElements.setMem (mergeStores (Config.resetKeepsStore s.draws) s.mem (memoryAfterRun s))).setDraws
      (s.draws + 1))
  else .next s.resetElements

/-- The move of one agent. -/
def turnMove (t : Turn) (s : State) : Host.Outcome State Fault Refusal :=
  match t with
  | .sequencer => sequencerMove s
  | .host => hostMove s
  | .reset => resetMove s

/-- The agent that moves when no turn is listed: the sequencer while a command runs, else the host (log 1). -/
def State.defaultTurn (s : State) : Turn := if s.status.busy then .sequencer else .host

end Sys2Proof.Machine
end

