-- ==== Sys2Proof/Machine/Step.lean ====
section
/-!
DEFINITION. One step of the machine: the agent whose turn it is makes one move (10_state.md R20; log 1).
-/
namespace Sys2Proof.Machine

/-- One step: the next listed turn is taken, or the default turn when none is listed. -/
def step (s : State) : Host.Outcome State Fault Refusal :=
  match s.turns with
  | [] => turnMove s.defaultTurn s
  | t :: ts => turnMove t (s.setTurns ts)

/-- The word latched as the accepted command, and no turn listed, so that the next step runs it (R236; log 2). -/
def State.withFetchWord (s : State) (nbits w : Nat) : State :=
  (s.latchCommand (BitVec.ofNat 32 (w % 2 ^ nbits))).setTurns []

end Sys2Proof.Machine
end

