-- ==== Sys2Proof/Safety.lean ====
section
/-!
DEFINITION. What counts as a safe state of the block, in the terms the claims use: the canonical form of memory, flags
that agree with each other, lanes in their range with tables built from the current frequencies, streams inside their
regions, and a valid header that passed its checks (10_state.md R26 to R43).
-/
namespace Sys2Proof.Machine

/-- The legal lane states `[M, B·M)` (R37). -/
abbrev LaneLegal (x : Nat) : Prop := Config.M ≤ x ∧ x < Config.B * Config.M

/-- The raw table as numbers (R39). -/
def State.rawList (s : State) : List Nat := s.rawf.toList.map BitVec.toNat

/-- The normalized table as numbers (R40). -/
def State.freqList (s : State) : List Nat := s.freq.toList.map BitVec.toNat

/-- `FREQ[σ]` (R40). -/
def State.freqOf (s : State) (σ : Nat) : Nat := (entryAt s.freq σ 0).toNat

/-- `C[σ]`, the sum of the frequencies of the symbols below `σ` (R150). -/
def State.startOf (s : State) (σ : Nat) : Nat := (s.freqList.take σ).sum

/-- `SYM`, `FRQ`, `CUM`, `CUMS` are those built from `FREQ` (R43, R150). -/
abbrev State.TablesMatch (s : State) : Prop :=
  s.sym.toList.map BitVec.toNat = (slotRows 0 0 s.freqList).map (fun r => r.1) ∧
    s.frq.toList.map BitVec.toNat = (slotRows 0 0 s.freqList).map (fun r => r.2.1) ∧
    s.cum.toList.map BitVec.toNat = (slotRows 0 0 s.freqList).map (fun r => r.2.2) ∧
    s.cums.toList.map BitVec.toNat = startSlots 0 s.freqList

/-- Memory has its canonical form. -/
abbrev MemorySafe (s : State) : Prop := s.mem.wf = true

/-- `BUSY` and `DONE` never hold together; without an error nothing is recorded; `N` is legal (R26 to R29). -/
abbrev FlagsSafe (s : State) : Prop :=
  ¬(s.status.busy = true ∧ s.status.done = true) ∧
    (s.status.err = false → s.errcode = 0 ∧ s.errinfo = 0) ∧ 1 ≤ s.lanes ∧ s.lanes ≤ 32

/-- Every lane is in its range, a valid normalized table sums to `M`, and valid decoding tables are those of the
current normalized table (R37, R40, R43). -/
abbrev CodecSafe (s : State) : Prop :=
  (∀ j, j < 32 → LaneLegal (laneAt s.xe j) ∧ LaneLegal (laneAt s.xd j)) ∧
    (s.status.histValid = true → s.freqList.sum = Config.M) ∧
    (s.status.tblValid = true → s.status.histValid = true ∧ s.TablesMatch)

/-- The reader's pointer lies in its region at whole words, and its buffer holds fewer than 16 bits (R33, R110). The
last case is a region that ends at `2^32` (log 10). -/
abbrev Reader.Safe (r : Reader) : Prop :=
  r.cnt.toNat ≤ 15 ∧ r.buf.toNat < 2 ^ r.cnt.toNat ∧
    ((r.base.toNat ≤ r.ptr.toNat ∧ r.ptr.toNat ≤ r.lim.toNat ∧ (r.ptr.toNat - r.base.toNat) % 2 = 0 ∧
        (r.lim.toNat - r.base.toNat) % 2 = 0) ∨
      (r.lim.toNat = 0 ∧ r.ptr.toNat = 0 ∧ r.dir = false))

/-- The writer's pointer lies in its region at whole words, and fewer than 16 bits are pending (R34, R110, R115). A
region end of 0 with a base above it is a region that ends at `2^32` (log 10). -/
abbrev Writer.Safe (w : Writer) : Prop :=
  w.cnt.toNat ≤ 15 ∧ w.buf.toNat < 2 ^ w.cnt.toNat ∧ w.base.toNat ≤ w.ptr.toNat ∧
    (w.ptr.toNat - w.base.toNat) % 2 = 0 ∧ (w.ptr.toNat ≤ w.lim.toNat ∨ w.lim.toNat = 0)

/-- Both streams are safe (R33, R34). -/
abbrev StreamsSafe (s : State) : Prop := s.rd.Safe ∧ s.wr.Safe

/-- The header passed the checks of `FRM_PARSE` with the current `N` (R27, R204). -/
abbrev Header.Checked (h : Header) (lanes : Nat) : Prop :=
  h.w.toNat % 4 = 0 ∧ h.h.toNat % 4 = 0 ∧ h.w ≠ 0 ∧ h.h ≠ 0 ∧ h.pb ≠ 0 ∧ 4 * h.blocks < 2 ^ 32 ∧
    4 * lanes ≤ h.sy.toNat ∧ (h.sy.toNat - 4 * lanes) % 2 = 0 ∧
    4 * lanes ≤ h.sc.toNat ∧ (h.sc.toNat - 4 * lanes) % 2 = 0 ∧
    4 * lanes ≤ h.sp.toNat ∧ (h.sp.toNat - 4 * lanes) % 2 = 0 ∧
    4 * lanes ≤ h.si.toNat ∧ (h.si.toNat - 4 * lanes) % 2 = 0 ∧
    h.sy ≠ 0 ∧ h.sc ≠ 0 ∧ h.sp ≠ 0 ∧ h.si ≠ 0

/-- A valid header is a checked one (R27). -/
abbrev HeaderSafe (s : State) : Prop := s.status.hdrValid = true → s.hdr.Checked s.lanes

/-- Every step from a state with the property leads to a state with the property. -/
def KeptByEveryStep (P : State → Prop) : Prop := ∀ s t, P s → step s = .next t → P t

/-- The platform answers `k` reads of one width at rising addresses from `a`. -/
def State.CanRead (s : State) (n : Size) (a k : Nat) : Prop :=
  ∀ i, i < k → s.platform.accessError (a + n.bytes * i) n .read = none

/-- The platform answers `k` writes of one width at rising addresses from `a`. -/
def State.CanWrite (s : State) (n : Size) (a k : Nat) : Prop :=
  ∀ i, i < k → s.platform.accessError (a + n.bytes * i) n .write = none

/-- The reader's next word is at `a` (R112). -/
abbrev Reader.WordAt (r : Reader) (a : Nat) : Prop :=
  (r.dir = false ∧ r.base.toNat + 2 ≤ r.ptr.toNat ∧ a = r.ptr.toNat - 2) ∨
    (r.dir = true ∧ r.ptr.toNat + 2 ≤ r.lim.toNat ∧ a = r.ptr.toNat)

/-- Every byte outside `[a, a + n)` reads the same in both states. -/
def SameOutside (s t : State) (a n : Nat) : Prop :=
  ∀ x, (x < a ∨ a + n ≤ x) → t.mem.read x = s.mem.read x

/-- The byte `b` lies in the region of `len` bytes at `a`. -/
abbrev InRegion (a len b : Nat) : Prop := a ≤ b ∧ b < a + len

/-- The bytes the running command uses are those that `used` picks: an access of the host races with the command exactly
where it touches one of them (R70.3). -/
def State.UsesExactly (s : State) (used : Nat → Prop) : Prop :=
  ∀ a n, 0 < n → (s.racesWith a n = true ↔ ∃ b, InRegion a n b ∧ used b)

/-- The counts, the tables and the flags that guard them are the same (R39 to R43). -/
def State.SameTables (s t : State) : Prop :=
  s.rawf = t.rawf ∧ s.freq = t.freq ∧ s.sym = t.sym ∧ s.frq = t.frq ∧ s.cum = t.cum ∧ s.cums = t.cums ∧
    s.status.rawValid = t.status.rawValid ∧ s.status.histValid = t.status.histValid ∧
    s.status.tblValid = t.status.tblValid ∧ s.status.fallback = t.status.fallback

/-- The status of a command that completed without an error, from the status `f` (R237). -/
abbrev Status.finished (f : Status) : Status := { f with busy := false, done := true }

/-! ## Outcomes and regions in the terms of the claims -/

/-- The outcome of a command with opcode `op` that raises `code(sub, info)` in the state `s`, with the lane (R231). -/
abbrev State.failed (s : State) (op : BitVec 8) (code : ErrCode) (sub info lane : Nat) :
    Host.Outcome State Fault Refusal := .next (s.raise op ⟨code, sub, info, lane⟩).complete

/-- The platform answers every access that lies in `[a, a + n)` (R62, R63). -/
def State.Open (s : State) (a n : Nat) : Prop :=
  ∀ (size : Size) (k : AccessKind) (x : Nat), a ≤ x → x + size.bytes ≤ a + n →
    s.platform.accessError x size k = none

/-- The address of the reader's word number `k` from now on, the next one being number 0 (R112). -/
def Reader.wordAddr (r : Reader) (k : Nat) : Nat := if r.dir then r.ptr.toNat + 2 * k else r.ptr.toNat - 2 * (k + 1)

/-- The reader's region holds `n` more words (R112). -/
def Reader.HasWords (r : Reader) (n : Nat) : Prop :=
  if r.dir then r.ptr.toNat + 2 * n ≤ r.lim.toNat else r.base.toNat + 2 * n ≤ r.ptr.toNat

/-- The buffered bits of the reader followed by its next `n` words (R110, R112). -/
def State.bitsAhead (s : State) : Nat → Nat
  | 0 => s.rd.buf.toNat
  | n + 1 => s.bitsAhead n * 65536 + s.mem.readLE (s.rd.wordAddr n) 2

/-- What the read number `k` of 16 bits returns when only such reads are made (R112). -/
def State.chunk (s : State) (k : Nat) : Nat := s.bitsAhead (k + 1) / 2 ^ s.rd.cnt.toNat % 65536

/-- The reader after `n` reads of 16 bits (R112). -/
def State.readerAfter (s : State) (n : Nat) : Reader :=
  { s.rd with
    ptr := BitVec.ofNat 32 (if s.rd.dir then s.rd.ptr.toNat + 2 * n else s.rd.ptr.toNat - 2 * n)
    buf := BitVec.ofNat 32 (s.bitsAhead n % 2 ^ s.rd.cnt.toNat) }

/-- `F·(x >> LOG2M) + slot − CUM[slot]` of a decoder lane, before any word is read (R182). -/
def State.decodeBase (s : State) (lane : Nat) : Nat :=
  let slot := laneAt s.xd lane % Config.M
  (entryAt s.frq slot 0).toNat * (laneAt s.xd lane / Config.M) + slot - (entryAt s.cum slot 0).toNat

/-- How many of the lanes below `k` read a word in one decode step (R186). -/
def State.wordsBelow (s : State) (k : Nat) : Nat :=
  (List.range k).countP (fun j => decide (s.decodeBase j < Config.M))

/-- The new state of lane `j` in a decode step from lane 0 up (R186). -/
def State.decodedLane (s : State) (j : Nat) : Nat :=
  if s.decodeBase j < Config.M then s.decodeBase j * 65536 + s.chunk (s.wordsBelow j) else s.decodeBase j

/-- The symbol a decoder lane stands for (R182). -/
def State.decodedSymbol (s : State) (j : Nat) : Nat := (entryAt s.sym (laneAt s.xd j % Config.M) 0).toNat

/-- The words that an encode step of the symbols `syms` emits, lanes `k-1` down to 0, in emission order (R166). -/
def State.emittedWords (s : State) (syms : Nat → Nat) (k : Nat) : List Nat :=
  (List.range k).reverse.filterMap fun j =>
    if Config.B * s.freqOf (syms j) ≤ laneAt s.xe j then some (laneAt s.xe j % 65536) else none

/-- The pending bits of the writer followed by the words of a list, the first word lowest (R110, R114). -/
def Writer.withWords (w : Writer) (ws : List Nat) : Nat := w.buf.toNat + 2 ^ w.cnt.toNat * Nat.ofDigits 65536 ws

/-- The writer after the words of a list (R114). -/
def Writer.afterWords (w : Writer) (ws : List Nat) : Writer :=
  { w with
    ptr := BitVec.ofNat 32 (w.ptr.toNat + 2 * ws.length)
    buf := BitVec.ofNat 32 (w.withWords ws / 65536 ^ ws.length) }

/-- The offset and the width of each header field, in the order they are read (R200, R204). -/
def headerLayout : List (Nat × Size) := [(0, .b4), (4, .b4), (8, .b8), (16, .b8), (24, .b8), (32, .b8), (40, .b8)]

/-- The header fields `W, H, PB, S[0..3]` in memory at `A` (R200). -/
def State.headerFields (s : State) (A : Nat) : List Nat :=
  headerLayout.map fun f => s.mem.readLE (A + f.1) f.2.bytes

/-- The header registers in the order of the fields (R35, R200). -/
def Header.fields (h : Header) : List Nat :=
  [h.w.toNat, h.h.toNat, h.pb.toNat, h.sy.toNat, h.sc.toNat, h.sp.toNat, h.si.toNat]

/-- The length of a container whose header is `h` (R200). -/
def Header.containerBytes (h : Header) : Nat :=
  Config.headerBytes + 4 * Config.tableBytes + h.sy.toNat + h.sc.toNat + h.sp.toNat + h.si.toNat

/-- One count rounded half up to the total `M`, at least 1 where it is not zero (R133). -/
def roundedCount (total c : Nat) : Nat := if c = 0 then 0 else max 1 ((2 * c * Config.M + total) / (2 * total))

/-- The greatest index whose count is not zero (R132). -/
def IsHighest (raw : List Nat) (hi : Nat) : Prop := 0 < nth raw hi ∧ ∀ k, hi < k → nth raw k = 0

/-- The least index whose count is the greatest (R134). -/
def IsLargest (raw : List Nat) (imax : Nat) : Prop :=
  imax < raw.length ∧ (∀ k, nth raw k ≤ nth raw imax) ∧ ∀ k, k < imax → nth raw k < nth raw imax

/-- The residue of the rounded counts (R134). -/
def rawResidue (raw : List Nat) : Int :=
  (Config.M : Int) - (((raw.take 256).map (roundedCount raw.sum)).sum : Nat)

/-- A list of `BW_WRITE`s, each of a value and a width, made one after the other without an error (R117). -/
def writeAll : List (Nat × Nat) → State → Option State
  | [], s => some s
  | (v, n) :: ws, s =>
    match execBwWrite n { s with arg0 := BitVec.ofNat 32 v } with
    | .next t => if t.status.err then none else writeAll ws t
    | .fault _ => none
    | .refused _ => none

/-- A list of `BR_READ`s of the widths given, made one after the other without an error, and their results (R117). -/
def readAll : List Nat → State → Option (List Nat × State)
  | [], s => some ([], s)
  | n :: ns, s =>
    match execBrRead n s with
    | .next t =>
      if t.status.err then none
      else (readAll ns t).map fun p => (t.result.toNat :: p.1, p.2)
    | .fault _ => none
    | .refused _ => none

/-- The state after an encode of one symbol from the lane state `x` (R162): frequency `F`, start slot `C`. -/
def encodedState (F C x : Nat) : Nat :=
  let y := if Config.B * F ≤ x then x / Config.B else x
  y / F * Config.M + C + y % F

end Sys2Proof.Machine
end

