-- ==== Sys2Proof/Certificates/Slice0/Obligations.lean ====
section
/-!
DEFINITION. The statements about the model, by the order of the spec's files. `.failed` is the outcome of an error
(R231), `Status.finished` the status of a command that completed without one (R237).
-/
open Sys2Proof Sys2Proof.Machine

/-! ## Command words (30_encoding.md) -/

/-- Decoding the word of a well-formed command gives the command back (R80, R81, R83). -/
def Obligations.DecodeOfEncode : Prop := ∀ i : Instr, i.wellFormed = true → decode (encode i) = .ok i

/-- A word that decodes is the one word of a well-formed command (R81, R82). -/
def Obligations.EncodeOfDecode : Prop :=
  ∀ (w : Word) (i : Instr), decode w = .ok i → i.wellFormed = true ∧ encode i = w

/-- A word encodes a command exactly when it agrees with the opcode on the mask of the command's kind, and its field
is the field's bits (R81, R82). -/
def Obligations.CommandWordsByMaskAndMatch : Prop :=
  (∀ (w : Word) (X : Instr), (∃ i, decode w = .ok i ∧ i.opcode = X.opcode) ↔
    w &&& (match X.field with
      | .none => 0xFFFFFFFF
      | .lane => 0xFFFFE0FF
      | .nm1 => 0xFFF0FFFF
      | .pay => 0xFFCFFFFF) = X.opcode.setWidth 32) ∧
  (∀ (w : Word) (l : Nat),
    decode w = .ok (.encSym l) ∨ decode w = .ok (.decInit l) ∨ decode w = .ok (.decSym l) →
      l = w.toNat / 2 ^ 8 % 32) ∧
  (∀ (w : Word) (n : Nat), decode w = .ok (.brRead n) ∨ decode w = .ok (.bwWrite n) →
    n = w.toNat / 2 ^ 16 % 16 + 1) ∧
  (∀ (w : Word) (p : Payload), decode w = .ok (.frmDecPayload p) ∨ decode w = .ok (.frmEncPayload p) →
    p.index = w.toNat / 2 ^ 20 % 4)

/-- A word of each command, from the `match` column of the opcode map and its examples (R83). -/
def Obligations.OpcodeMapWords : Prop :=
  decode 0x00000000 = .ok .nop ∧ decode 0x00000001 = .ok .softReset ∧ decode 0x00000002 = .ok .clrStatus ∧
  decode 0x00000010 = .ok .brInit ∧ decode 0x000F0011 = .ok (.brRead 16) ∧ decode 0x00000012 = .ok .bwInit ∧
  decode 0x00040013 = .ok (.bwWrite 5) ∧ decode 0x00000020 = .ok .histCount ∧
  decode 0x00000021 = .ok .histLoad ∧ decode 0x00000022 = .ok .histNorm ∧ decode 0x00000023 = .ok .histStore ∧
  decode 0x00000024 = .ok .rawQuery ∧ decode 0x00000025 = .ok .freqQuery ∧ decode 0x00000028 = .ok .tblBuild ∧
  decode 0x00000029 = .ok .tblQuery ∧ decode 0x00000030 = .ok .encInit ∧
  decode 0x00001F31 = .ok (.encSym 31) ∧ decode 0x00000032 = .ok .encStep ∧
  decode 0x00000140 = .ok (.decInit 1) ∧ decode 0x00000341 = .ok (.decSym 3) ∧
  decode 0x00000042 = .ok .decStep ∧ decode 0x00000050 = .ok .frmParse ∧
  decode 0x00000051 = .ok .frmHdrWrite ∧ decode 0x00200052 = .ok (.frmDecPayload .palette) ∧
  decode 0x00300053 = .ok (.frmEncPayload .indices)

/-- The checks of command decode in their order: an opcode that no command has, a bit outside the command's free bits,
a lane that does not take part; else the sequencer runs the command (R84, R85). -/
def Obligations.CommandDecodeChecks : Prop :=
  ∀ s : State, s.status.busy = true →
    (((opcodeBits s.cmd).toNat ∉ [0x00, 0x01, 0x02, 0x10, 0x11, 0x12, 0x13, 0x20, 0x21, 0x22, 0x23, 0x24, 0x25, 0x28,
        0x29, 0x30, 0x31, 0x32, 0x40, 0x41, 0x42, 0x50, 0x51, 0x52, 0x53] →
      sequencerMove s = s.failed (opcodeBits s.cmd) .illegalCommand 0 s.cmd.toNat 0) ∧
    (∀ X : Instr, opcodeBits s.cmd = X.opcode →
      s.cmd &&& X.field.mask ≠ X.opcode.setWidth 32 →
        sequencerMove s = s.failed X.opcode .illegalCommand 1 s.cmd.toNat 0) ∧
    (∀ X : Instr, opcodeBits s.cmd = X.opcode → s.cmd &&& X.field.mask = X.opcode.setWidth 32 → X.field = .lane →
      s.lanes ≤ s.cmd.toNat / 2 ^ 8 % 32 →
        sequencerMove s = s.failed X.opcode .badLane 0 (s.cmd.toNat / 2 ^ 8 % 32) (s.cmd.toNat / 2 ^ 8 % 32)) ∧
    (∀ X : Instr, opcodeBits s.cmd = X.opcode → s.cmd &&& X.field.mask = X.opcode.setWidth 32 →
      ∃ i, decode s.cmd = .ok i ∧ i.opcode = X.opcode ∧ sequencerMove s = exec i s))

/-- The sequencer's turn runs the accepted command: by the default turn, by a listed turn, and after a word is placed
with `withFetchWord`. The turns are the model's (log 1, log 2). -/
def Obligations.StepRunsTheDecodedCommand : Prop :=
  (∀ (s : State) (i : Instr), s.turns = [] → s.status.busy = true → decode s.cmd = .ok i → step s = exec i s) ∧
  (∀ (s : State) (i : Instr) (ts : List Turn), s.turns = .sequencer :: ts → s.status.busy = true →
    decode s.cmd = .ok i → step s = exec i { s with turns := ts }) ∧
  (∀ (s : State) (i : Instr) (w : Word), decode w = .ok i →
    step (s.withFetchWord 32 w.toNat) =
      exec i { s with cmd := w, status := { s.status with busy := true, done := false }, turns := [] })

/-! ## The host's side of the registers (10_state.md) -/

/-- Reads of registers. While a command runs or none: the identity, `CTRL`, `CFG`, the argument and header registers,
and of `STATUS` the bits `BUSY`, `DONE`, `ERR`, `WBUSY`, `HDR_VALID` and the reserved ones. While no command runs: the
other bits of `STATUS`, `WPEND` being the live view of `WR_CNT`, and every other register. Reserved offsets read 0, and
no read changes a register (R23 to R28, R30, R31, R33 to R36, R38). That a register which the running command writes
is read as before the command is the model's choice (logs 19 and 20). -/
def Obligations.CsrReadsReturnTheRegisters : Prop :=
  ∀ s : State,
    (csrRead 0x000 s = (0x4710200B, s) ∧
      csrRead 0x004 s = (BitVec.ofNat 32 ((if s.ctrl.ie then 1 else 0) + (if s.ctrl.brDir then 2 else 0)), s) ∧
      csrRead 0x008 s = (BitVec.ofNat 32 s.cfgN.toNat, s) ∧
      csrRead 0x024 s = (s.arg0, s) ∧ csrRead 0x028 s = (s.arg1, s) ∧ csrRead 0x02C s = (s.arg2, s) ∧
      csrRead 0x030 s = (s.arg3, s) ∧ csrRead 0x060 s = (s.hdr.w, s) ∧ csrRead 0x064 s = (s.hdr.h, s) ∧
      csrRead 0x068 s = (s.hdr.pb, s) ∧ csrRead 0x06C s = (s.hdr.sy, s) ∧ csrRead 0x070 s = (s.hdr.sc, s) ∧
      csrRead 0x074 s = (s.hdr.sp, s) ∧ csrRead 0x078 s = (s.hdr.si, s) ∧
      ∀ off, off = 0x05C ∨ (0x07C ≤ off ∧ off < 0x100) ∨ 0x200 ≤ off → csrRead off s = (0, s)) ∧
    (let v := (csrRead 0x00C s).1;
      (csrRead 0x00C s).2 = s ∧ v.getLsbD 0 = s.status.busy ∧ v.getLsbD 1 = s.status.done ∧
      v.getLsbD 2 = s.status.err ∧ v.getLsbD 3 = s.status.wbusy ∧ v.getLsbD 7 = s.status.hdrValid ∧
      (∀ k, 10 ≤ k → v.getLsbD k = false) ∧
      (s.status.busy = false →
        v.getLsbD 4 = s.status.rawValid ∧ v.getLsbD 5 = s.status.histValid ∧ v.getLsbD 6 = s.status.tblValid ∧
        v.getLsbD 8 = decide (s.wr.cnt.toNat ≠ 0) ∧ v.getLsbD 9 = s.status.fallback)) ∧
    (s.status.busy = false →
      csrRead 0x010 s = (s.errcode, s) ∧ csrRead 0x014 s = (s.errinfo, s) ∧
      csrRead 0x018 s = (s.cmd, s) ∧ csrRead 0x01C s = (s.result, s) ∧ csrRead 0x020 s = (s.result1, s) ∧
      csrRead 0x034 s = (s.rd.base, s) ∧ csrRead 0x038 s = (s.rd.lim, s) ∧ csrRead 0x03C s = (s.rd.ptr, s) ∧
      csrRead 0x040 s = (s.rd.buf, s) ∧
      csrRead 0x044 s = (BitVec.ofNat 32 (s.rd.cnt.toNat + (if s.rd.dir then 256 else 0)), s) ∧
      csrRead 0x048 s = (s.wr.base, s) ∧ csrRead 0x04C s = (s.wr.lim, s) ∧ csrRead 0x050 s = (s.wr.ptr, s) ∧
      csrRead 0x054 s = (s.wr.buf, s) ∧ csrRead 0x058 s = (BitVec.ofNat 32 s.wr.cnt.toNat, s) ∧
      ∀ j : Fin 32, csrRead (0x100 + 4 * j.val) s = (s.xe[j], s) ∧ csrRead (0x180 + 4 * j.val) s = (s.xd[j], s))

/-- Host writes while no command runs: each register's own field rule and side effect, read-only and reserved offsets
ignored (R25, R27, R32, R35, R38). -/
def Obligations.HostRegisterWrites : Prop :=
  ∀ (s : State) (v : Word), s.status.busy = false →
    (csrWrite 0x004 v s = { s with ctrl := { ie := v.getLsbD 0, brDir := v.getLsbD 1 } } ∧
      (csrRead 0x004 (csrWrite 0x004 v s)).1 = v &&& 3) ∧
    csrWrite 0x00C v s =
      { s with
        errcode := if v.getLsbD 2 then 0 else s.errcode
        errinfo := if v.getLsbD 2 then 0 else s.errinfo
        status :=
          { s.status with
            done := s.status.done && !v.getLsbD 1
            err := s.status.err && !v.getLsbD 2
            wbusy := s.status.wbusy && !v.getLsbD 3 } } ∧
    csrWrite 0x024 v s = { s with arg0 := v } ∧ csrWrite 0x028 v s = { s with arg1 := v } ∧
    csrWrite 0x02C v s = { s with arg2 := v } ∧ csrWrite 0x030 v s = { s with arg3 := v } ∧
    (let f : Status := { s.status with hdrValid := false };
      csrWrite 0x060 v s = { s with hdr := { s.hdr with w := v }, status := f } ∧
      csrWrite 0x064 v s = { s with hdr := { s.hdr with h := v }, status := f } ∧
      csrWrite 0x068 v s = { s with hdr := { s.hdr with pb := v }, status := f } ∧
      csrWrite 0x06C v s = { s with hdr := { s.hdr with sy := v }, status := f } ∧
      csrWrite 0x070 v s = { s with hdr := { s.hdr with sc := v }, status := f } ∧
      csrWrite 0x074 v s = { s with hdr := { s.hdr with sp := v }, status := f } ∧
      csrWrite 0x078 v s = { s with hdr := { s.hdr with si := v }, status := f }) ∧
    (∀ off, off = 0x000 ∨ (0x010 ≤ off ∧ off < 0x018) ∨ (0x01C ≤ off ∧ off < 0x024) ∨
        (0x034 ≤ off ∧ off < 0x060) ∨ 0x07C ≤ off → csrWrite off v s = s)

/-- `CFG` holds 32 after reset; of a write, an illegal `N` leaves `N`, reserved bits read zero, and `HDR_VALID` is
cleared either way (R26). -/
def Obligations.CfgHoldsALegalInterleaveFactor : Prop :=
  (csrRead 0x008 State.reset).1 = 32 ∧ ∀ (s : State) (v : Word), s.status.busy = false →
    csrWrite 0x008 v s =
      { s with
        cfgN := if v.toNat % 64 = 0 ∨ 32 < v.toNat % 64 then s.cfgN else BitVec.ofNat 6 v.toNat
        status := { s.status with hdrValid := false } } ∧
    (csrRead 0x008 (csrWrite 0x008 v s)).1 =
      if v.toNat % 64 = 0 ∨ 32 < v.toNat % 64 then BitVec.ofNat 32 s.cfgN.toNat else BitVec.ofNat 32 (v.toNat % 64)

/-- While a command runs a write is dropped and sets `WBUSY`; the registers of R272 read as they are, and every other
register reads a free value (R38, R272; the draw is the model's, log 7; that a register or a flag which the running
command writes is read as before the command is the model's choice, logs 18, 19 and 20). -/
def Obligations.CsrAccessesWhileBusy : Prop :=
  ∀ (s : State) (off : Nat) (v : Word), s.status.busy = true →
    csrWrite off v s = { s with status := { s.status with wbusy := true } } ∧
    (off ∈ [0x000, 0x004, 0x008, 0x00C, 0x024, 0x028, 0x02C, 0x030, 0x060, 0x064, 0x068, 0x06C, 0x070, 0x074, 0x078] →
      csrRead off s = (s.csrValue off, s)) ∧
    ((0x010 ≤ off ∧ off ≤ 0x020) ∨ (0x034 ≤ off ∧ off ≤ 0x058) ∨ (0x100 ≤ off ∧ off ≤ 0x1FC) →
      csrRead off s = (Config.freeCsrRead s.draws, { s with draws := s.draws + 1 }))

/-- The host's accesses. Outside the CSR window: done in little-endian order where the running command does not use the
bytes, refused where it does, a fault past the last address. In the window: an aligned 32-bit access is a CSR access,
any other is refused. A write to bytes the running command does not use may as well come after the command. Which bytes
the commands without a stream coder use is exact: the bytes of the accesses of R71 that their runs make and the
platform answers (R38, R61, R70, R71; the fault, the order of the checks and the exact reading of "use" are the
model's, logs 12 and 13). -/
def Obligations.HostMemoryAccesses : Prop :=
  (∀ (s : State) (n : Size) (a : Nat) (v : Word) (x : Nat), n ≠ .b8 →
    (overlaps a n.bytes s.platform.csrBase 4096 = false →
      (a + n.bytes ≤ 2 ^ 32 →
        (s.racesWith a n.bytes = false → s.mem.wf = true →
          (∃ t, hostWrite n a v s = .next t ∧ t = { s with mem := t.mem } ∧
            t.mem.readLE a n.bytes = v.toNat % 256 ^ n.bytes ∧ SameOutside s t a n.bytes) ∧
          (∃ t, hostRead n a x s = .next t ∧ t = { s with host := t.host } ∧
            t.host.getVar x = BitVec.ofNat 32 (s.mem.readLE a n.bytes) ∧
            (∀ y, y ≠ x → t.host.getVar y = s.host.getVar y) ∧ t.host.prog = s.host.prog ∧
            t.host.pos = s.host.pos + 1) ∧
          ∀ t, s.status.busy = true → sequencerMove s = .next t →
            t.mem.readLE a n.bytes = s.mem.readLE a n.bytes ∧
            ∃ u w, hostWrite n a v s = .next u ∧ sequencerMove u = .next w ∧ hostWrite n a v t = .next w) ∧
        (s.racesWith a n.bytes = true →
          hostWrite n a v s = .refused .hostRace ∧ hostRead n a x s = .refused .hostRace)) ∧
      (2 ^ 32 < a + n.bytes →
        hostWrite n a v s = .fault .hostAccessPastEnd ∧ hostRead n a x s = .fault .hostAccessPastEnd)) ∧
    (overlaps a n.bytes s.platform.csrBase 4096 = true →
      (¬(n = .b4 ∧ a % 4 = 0) →
        hostWrite n a v s = .refused .hostAccessWidth ∧ hostRead n a x s = .refused .hostAccessWidth) ∧
      (n = .b4 → a % 4 = 0 →
        hostWrite n a v s = .next (csrWrite (a - s.platform.csrBase) v s) ∧
        ∃ t, hostRead n a x s = .next t ∧ t = { (csrRead (a - s.platform.csrBase) s).2 with host := t.host } ∧
          t.host.getVar x = (csrRead (a - s.platform.csrBase) s).1 ∧
          (∀ y, y ≠ x → t.host.getVar y = s.host.getVar y) ∧ t.host.prog = s.host.prog ∧
          t.host.pos = s.host.pos + 1))) ∧
  (∀ (s : State) (a n : Nat), s.status.busy = false → s.racesWith a n = false) ∧
  (∀ (s : State) (i : Instr), s.status.busy = true → decode s.cmd = .ok i →
    let A := s.arg0.toNat
    (i ∈ [.nop, .softReset, .clrStatus, .brInit, .bwInit, .histNorm, .rawQuery, .freqQuery, .tblBuild, .tblQuery,
        .encInit] ∨ (∃ l, i = .decInit l) → s.UsesExactly fun _ => False) ∧
    (∀ n, i = .brRead n → s.UsesExactly fun b => s.rd.cnt.toNat < n ∧
      ∃ a, s.rd.WordAt a ∧ s.platform.accessError a .b2 .read = none ∧ InRegion a 2 b) ∧
    (∀ n, i = .bwWrite n → s.UsesExactly fun b => 16 ≤ s.wr.cnt.toNat + n ∧ s.wr.ptr.toNat + 2 ≤ s.wr.lim.toNat ∧
      s.platform.accessError s.wr.ptr.toNat .b2 .write = none ∧ InRegion s.wr.ptr.toNat 2 b) ∧
    (i = .histCount → s.UsesExactly fun b => A + s.arg1.toNat ≤ 2 ^ 32 ∧ InRegion A s.arg1.toNat b ∧
      s.CanRead .b1 A (b - A + 1)) ∧
    (i = .histLoad → s.UsesExactly fun b => A + 2048 ≤ 2 ^ 32 ∧ InRegion A 2048 b ∧
      s.CanRead .b4 A ((b - A) / 4 + 1)) ∧
    (i = .histStore → s.UsesExactly fun b => s.status.histValid = true ∧ A + 2048 ≤ 2 ^ 32 ∧ InRegion A 2048 b ∧
      s.CanWrite .b4 A ((b - A) / 4 + 1)) ∧
    (i = .frmParse → s.UsesExactly fun b => A + s.arg1.toNat ≤ 2 ^ 32 ∧ 48 ≤ s.arg1.toNat ∧
      ∃ pre f suf, headerLayout = pre ++ f :: suf ∧
        (∀ g ∈ pre ++ [f], s.platform.accessError (A + g.1) g.2 .read = none) ∧ InRegion (A + f.1) f.2.bytes b) ∧
    (i = .frmHdrWrite → s.UsesExactly fun b => A + 48 ≤ 2 ^ 32 ∧
      ∃ pre f suf, headerLayout = pre ++ f :: suf ∧
        (∀ g ∈ pre ++ [f], s.platform.accessError (A + g.1) g.2 .write = none) ∧ InRegion (A + f.1) f.2.bytes b))

/-! ## Errors, completion, interrupt, reset (60_exceptions.md, 70_reset_and_hazards.md, 40_control.md) -/

/-- A word written to `CMD` is dropped while a command runs, dropped in the error state unless it is `SOFT_RESET` or
`CLR_STATUS`, and else accepted and run (R236). -/
def Obligations.CommandAcceptance : Prop :=
  ∀ (s : State) (cw : Word),
    (s.status.busy = true → csrWrite 0x018 cw s = { s with status := { s.status with wbusy := true } }) ∧
    (s.status.busy = false → s.status.err = true → cw.toNat % 256 ≠ 0x01 → cw.toNat % 256 ≠ 0x02 →
      csrWrite 0x018 cw s = s) ∧
    (s.status.busy = false → s.status.err = false ∨ cw.toNat % 256 = 0x01 ∨ cw.toNat % 256 = 0x02 →
      csrWrite 0x018 cw s = { s with cmd := cw, status := { s.status with busy := true, done := false } } ∧
      ∀ i, decode cw = .ok i →
        sequencerMove (csrWrite 0x018 cw s) =
          exec i { s with cmd := cw, status := { s.status with busy := true, done := false } })

/-- Raising an error records it when none is recorded, keeps the first report otherwise, sets `ERR`, and completes the
command; nothing else changes (R231). -/
def Obligations.RaiseRecordsTheFirstError : Prop :=
  ∀ (s : State) (op : BitVec 8) (e : Raised), e.sub < 256 → e.lane < 32 → e.info < 2 ^ 32 →
    (s.raise op e).complete =
      { s with
        errcode := if s.status.err then s.errcode else
          BitVec.ofNat 32 (e.code.value ||| e.sub <<< 8 ||| e.lane <<< 16 ||| op.toNat <<< 24)
        errinfo := if s.status.err then s.errinfo else BitVec.ofNat 32 e.info
        status := { s.status with err := true, busy := false, done := true } }

/-- The fields of the error word, and the codes (R28, R230). -/
def Obligations.ErrorWordFields : Prop :=
  (∀ (s : State) (op : BitVec 8) (e : Raised), s.status.err = false → e.sub < 256 → e.lane < 32 →
    let w := (s.raise op e).errcode.toNat
    w % 256 = e.code.value ∧ w / 2 ^ 8 % 256 = e.sub ∧ w / 2 ^ 16 % 32 = e.lane ∧ w / 2 ^ 21 % 8 = 0 ∧
      w / 2 ^ 24 = op.toNat) ∧
  ErrCode.illegalCommand.value = 0x01 ∧ ErrCode.badLane.value = 0x02 ∧ ErrCode.badArg.value = 0x03 ∧
  ErrCode.notReady.value = 0x04 ∧ ErrCode.emptyHistogram.value = 0x05 ∧ ErrCode.alphabetTooLarge.value = 0x06 ∧
  ErrCode.malformedStream.value = 0x07 ∧ ErrCode.zeroFreqSymbol.value = 0x08 ∧
  ErrCode.stateOverflow.value = 0x09 ∧ ErrCode.writeOverflow.value = 0x0A ∧ ErrCode.badContainer.value = 0x0B ∧
  ErrCode.busError.value = 0x0C ∧ ErrCode.addressWrap.value = 0x0D

/-- Every command completes, with or without an error: no command faults, is refused, or leaves `BUSY` set (R237). The
premise is the part of R43 that rules out a table without its frequencies. -/
def Obligations.EveryCommandCompletes : Prop :=
  ∀ (i : Instr) (s : State), (s.status.tblValid = true → s.status.histValid = true) →
    ∃ t, exec i s = .next t ∧ t.status.busy = false ∧ t.status.done = true

/-- A command that computes on copies commits nothing when it raises an error: only the error registers and the status
bits of R231 change (R232). `FRM_PARSE` also clears `HDR_VALID`. A command that stores in several accesses keeps beside
these only bytes stored before the error, which lie in the region it stores to (R71). -/
def Obligations.AtomicCommandsCommitNothingOnError : Prop :=
  ∀ (i : Instr) (s t : State), s.status.err = false → exec i s = .next t → t.status.err = true →
    (i ∈ [.brInit, .bwInit, .histCount, .histLoad, .histNorm, .rawQuery, .freqQuery, .tblBuild, .tblQuery] ∨
        (∃ n, i = .brRead n ∨ i = .bwWrite n) ∨ (∃ l, i = .encSym l ∨ i = .decInit l ∨ i = .decSym l) →
      t = { s with
        errcode := t.errcode
        errinfo := t.errinfo
        status := { s.status with err := true, busy := false, done := true } }) ∧
    (i ∈ [.histStore, .encStep, .decStep, .frmHdrWrite] →
      t = { s with
        mem := t.mem
        errcode := t.errcode
        errinfo := t.errinfo
        status := { s.status with err := true, busy := false, done := true } }) ∧
    (s.mem.wf = true →
      (i = .histStore → SameOutside s t s.arg0.toNat 2048) ∧
      (i = .encStep → SameOutside s t s.wr.ptr.toNat (2 * s.arg1.toNat)) ∧
      (i = .decStep → SameOutside s t s.arg0.toNat s.arg1.toNat) ∧
      (i = .frmHdrWrite → SameOutside s t s.arg0.toNat 48)) ∧
    (i = .frmParse →
      t = { s with
        errcode := t.errcode
        errinfo := t.errinfo
        status := { s.status with err := true, busy := false, done := true, hdrValid := false } })

/-- Which commands may change which state, and of memory which bytes, however they end: everything a command's rule does
not name stays (R22, R28, R29, R39 to R42, R71, R160, R180). `SOFT_RESET` is left out, whose effect is stated apart. -/
def Obligations.OnlyNamedCommandsChangeEachElement : Prop :=
  ∀ (i : Instr) (s t : State), exec i s = .next t → i ≠ .softReset →
    let enc : Prop := ∃ p, i = .frmEncPayload p
    let dec : Prop := ∃ p, i = .frmDecPayload p
    (t.platform = s.platform ∧ t.ctrl = s.ctrl ∧ t.cfgN = s.cfgN ∧ t.cmd = s.cmd ∧ t.arg0 = s.arg0 ∧
      t.arg1 = s.arg1 ∧ t.arg2 = s.arg2 ∧ t.arg3 = s.arg3 ∧ t.host = s.host ∧ t.turns = s.turns ∧ t.draws = s.draws ∧
      t.status.wbusy = (s.status.wbusy && decide (i ≠ .clrStatus))) ∧
    (t.mem ≠ s.mem → enc ∨ dec ∨ (∃ n, i = .bwWrite n) ∨ (∃ l, i = .encSym l) ∨
      i ∈ [.histStore, .encStep, .decStep, .frmHdrWrite]) ∧
    (s.mem.wf = true →
      ((∃ n, i = .bwWrite n) ∨ (∃ l, i = .encSym l) → SameOutside s t s.wr.ptr.toNat 2) ∧
      (i = .encStep → SameOutside s t s.wr.ptr.toNat (2 * s.arg1.toNat)) ∧
      (i = .histStore → SameOutside s t s.arg0.toNat 2048) ∧
      (i = .frmHdrWrite → SameOutside s t s.arg0.toNat 48) ∧
      (i = .decStep → SameOutside s t s.arg0.toNat s.arg1.toNat) ∧
      (∀ p, i = .frmDecPayload p → SameOutside s t s.arg1.toNat (s.hdr.planeBytes p)) ∧
      (enc → SameOutside s t s.arg1.toNat s.arg3.toNat)) ∧
    (t.result ≠ s.result → enc ∨ dec ∨ (∃ n, i = .brRead n ∨ i = .bwWrite n) ∨ (∃ l, i = .encSym l ∨ i = .decSym l) ∨
      i ∈ [.histCount, .histLoad, .histNorm, .rawQuery, .freqQuery, .tblQuery, .encStep, .decStep, .frmParse]) ∧
    (t.result1 ≠ s.result1 → enc ∨ dec ∨ (∃ l, i = .encSym l ∨ i = .decSym l) ∨
      i ∈ [.histLoad, .histNorm, .freqQuery, .tblQuery, .frmParse]) ∧
    (t.errcode ≠ s.errcode ∨ t.errinfo ≠ s.errinfo →
      i = .clrStatus ∨ (s.status.err = false ∧ t.status.err = true)) ∧
    (s.status.err = true → t.status.err = false → i = .clrStatus) ∧
    (t.rawf ≠ s.rawf ∨ t.status.rawValid ≠ s.status.rawValid → enc ∨ dec ∨ i = .histCount ∨ i = .histLoad) ∧
    (t.freq ≠ s.freq ∨ t.status.histValid ≠ s.status.histValid ∨ t.status.fallback ≠ s.status.fallback →
      enc ∨ dec ∨ i = .histNorm) ∧
    (t.sym ≠ s.sym ∨ t.frq ≠ s.frq ∨ t.cum ≠ s.cum ∨ t.cums ≠ s.cums → enc ∨ dec ∨ i = .tblBuild) ∧
    (t.status.tblValid ≠ s.status.tblValid → enc ∨ dec ∨ i = .tblBuild ∨ i = .histNorm) ∧
    (t.xe ≠ s.xe → enc ∨ i = .encInit ∨ i = .encStep ∨ ∃ l, i = .encSym l) ∧
    (t.xd ≠ s.xd → dec ∨ i = .decStep ∨ ∃ l, i = .decInit l ∨ i = .decSym l) ∧
    (t.rd ≠ s.rd → dec ∨ i = .brInit ∨ i = .decStep ∨ (∃ n, i = .brRead n) ∨ ∃ l, i = .decSym l) ∧
    (t.wr ≠ s.wr → enc ∨ i = .bwInit ∨ i = .encStep ∨ (∃ n, i = .bwWrite n) ∨ ∃ l, i = .encSym l) ∧
    (t.hdr ≠ s.hdr ∨ t.status.hdrValid ≠ s.status.hdrValid → enc ∨ i = .frmParse)

/-- `NOP` changes nothing but the completion (R100); `CLR_STATUS` clears the error state and `WBUSY` and leaves all else
(R102). -/
def Obligations.NopAndClrStatus : Prop :=
  ∀ s : State,
    exec .nop s = .next { s with status := s.status.finished } ∧
    exec .clrStatus s =
      .next { s with
        errcode := 0
        errinfo := 0
        status := { s.status.finished with err := false, wbusy := false } }

/-- `SOFT_RESET` gives every state element its reset value, leaves memory and what is not the block's, keeps the
accepted word, and completes with `DONE = 1`; of the internal arrays nothing is said (R101). -/
def Obligations.SoftResetRestoresResetValues : Prop :=
  ∀ s : State, ∃ t, exec .softReset s = .next t ∧
    t = { s with
      ctrl := { ie := false, brDir := false }
      cfgN := 32
      status :=
        { busy := false, done := true, err := false, wbusy := false, rawValid := false, histValid := false,
          tblValid := false, hdrValid := false, fallback := false }
      errcode := 0
      errinfo := 0
      result := 0
      result1 := 0
      arg0 := 0
      arg1 := 0
      arg2 := 0
      arg3 := 0
      rd := { base := 0, lim := 0, ptr := 0, buf := 0, cnt := 0, dir := false }
      wr := { base := 0, lim := 0, ptr := 0, buf := 0, cnt := 0 }
      hdr := { w := 0, h := 0, pb := 0, sy := 0, sc := 0, sp := 0, si := 0 }
      xe := Vector.replicate 32 2048
      xd := Vector.replicate 32 2048
      rawf := t.rawf
      freq := t.freq
      sym := t.sym
      frq := t.frq
      cum := t.cum
      cums := t.cums }

/-- The reset input gives every state element its reset value at any time; memory stays but for bytes of a command it
cuts off, each of which is as it was or as the command would have left it (R46, R260; of the internal arrays nothing is
said; the draw is the model's, log 8). -/
def Obligations.HardwareResetRestoresResetValues : Prop :=
  ∀ (s : State) (ts : List Turn), s.turns = .reset :: ts → s.mem.wf = true →
    ∃ t, step s = .next t ∧
      t = { s with
        mem := t.mem
        ctrl := { ie := false, brDir := false }
        cfgN := 32
        status :=
          { busy := false, done := false, err := false, wbusy := false, rawValid := false, histValid := false,
            tblValid := false, hdrValid := false, fallback := false }
        errcode := 0
        errinfo := 0
        cmd := 0
        result := 0
        result1 := 0
        arg0 := 0
        arg1 := 0
        arg2 := 0
        arg3 := 0
        rd := { base := 0, lim := 0, ptr := 0, buf := 0, cnt := 0, dir := false }
        wr := { base := 0, lim := 0, ptr := 0, buf := 0, cnt := 0 }
        hdr := { w := 0, h := 0, pb := 0, sy := 0, sc := 0, sp := 0, si := 0 }
        xe := Vector.replicate 32 2048
        xd := Vector.replicate 32 2048
        rawf := t.rawf
        freq := t.freq
        sym := t.sym
        frq := t.frq
        cum := t.cum
        cums := t.cums
        turns := ts
        draws := t.draws } ∧
      (s.status.busy = false → t.mem = s.mem) ∧
      ∀ a, t.mem.read a = s.mem.read a ∨
        ∃ i u, decode s.cmd = .ok i ∧ exec i { s with turns := ts } = .next u ∧ t.mem.read a = u.mem.read a

/-- The interrupt level is `DONE ∧ IE`: raised by completion, and by `IE` set while `DONE` is set; lowered by clearing
`DONE`, by the acceptance of a command, by clearing `IE`, and by either reset (R240). -/
def Obligations.InterruptLevel : Prop :=
  ∀ s : State,
    (∀ i t, exec i s = .next t → i ≠ .softReset → t.irq = s.ctrl.ie) ∧
    (∀ t, exec .softReset s = .next t → t.irq = false) ∧
    (∀ t ts, s.turns = .reset :: ts → step s = .next t → t.irq = false) ∧
    (s.status.busy = false → ∀ v : Word,
      (csrWrite 0x004 v s).irq = (s.status.done && v.getLsbD 0) ∧
      (csrWrite 0x00C v s).irq = (s.irq && !v.getLsbD 1) ∧
      ((csrWrite 0x018 v s).status.busy = true → (csrWrite 0x018 v s).irq = false)) ∧
    ∀ line, s.irqInput line = true ↔ line = s.platform.irqLine ∧ s.status.done = true ∧ s.ctrl.ie = true

/-! ## Bit reader and writer (41_bitio.md) -/

/-- `BR_INIT` and `BW_INIT` over an even region that is not reversed, and their `BAD_ARG` otherwise (R111, R113). -/
def Obligations.StreamInits : Prop :=
  ∀ s : State,
    (s.arg0.toNat ≤ s.arg1.toNat ∧ (s.arg1.toNat - s.arg0.toNat) % 2 = 0 →
      exec .brInit s =
        .next { s with
          rd :=
            { base := s.arg0, lim := s.arg1, ptr := if s.ctrl.brDir then s.arg0 else s.arg1, buf := 0, cnt := 0,
              dir := s.ctrl.brDir }
          status := s.status.finished } ∧
      exec .bwInit s =
        .next { s with
          wr := { base := s.arg0, lim := s.arg1, ptr := s.arg0, buf := 0, cnt := 0 }
          status := s.status.finished }) ∧
    (¬(s.arg0.toNat ≤ s.arg1.toNat ∧ (s.arg1.toNat - s.arg0.toNat) % 2 = 0) →
      exec .brInit s = s.failed 0x10 .badArg 2 s.arg0.toNat 0 ∧
      exec .bwInit s = s.failed 0x12 .badArg 3 s.arg0.toNat 0)

/-- `BR_READ n`: the top `n` of the valid bits, after a word is fetched when too few are buffered; the errors when no
word is left or its fetch is refused (R112). -/
def Obligations.BrReadTakesTheTopBits : Prop :=
  ∀ (s : State) (n : Nat), 1 ≤ n → n ≤ 16 → s.rd.cnt.toNat ≤ 15 → s.rd.buf.toNat < 2 ^ s.rd.cnt.toNat →
    (n ≤ s.rd.cnt.toNat →
      exec (.brRead n) s =
        .next { s with
          rd :=
            { s.rd with
              buf := BitVec.ofNat 32 (s.rd.buf.toNat % 2 ^ (s.rd.cnt.toNat - n))
              cnt := BitVec.ofNat 5 (s.rd.cnt.toNat - n) }
          result := BitVec.ofNat 32 (s.rd.buf.toNat / 2 ^ (s.rd.cnt.toNat - n) % 2 ^ n)
          status := s.status.finished }) ∧
    (s.rd.cnt.toNat < n → ∀ a, s.rd.WordAt a →
      (s.platform.accessError a .b2 .read = none →
        let V := s.rd.buf.toNat * 65536 + s.mem.readLE a 2
        exec (.brRead n) s =
          .next { s with
            rd :=
              { s.rd with
                ptr := BitVec.ofNat 32 (if s.rd.dir then a + 2 else a)
                buf := BitVec.ofNat 32 (V % 2 ^ (s.rd.cnt.toNat + 16 - n))
                cnt := BitVec.ofNat 5 (s.rd.cnt.toNat + 16 - n) }
            result := BitVec.ofNat 32 (V / 2 ^ (s.rd.cnt.toNat + 16 - n) % 2 ^ n)
            status := s.status.finished }) ∧
      ∀ c, s.platform.accessError a .b2 .read = some c → exec (.brRead n) s = s.failed 0x11 c 0 a 0) ∧
    (s.rd.cnt.toNat < n → (∀ a, ¬s.rd.WordAt a) →
      exec (.brRead n) s = s.failed 0x11 .malformedStream 0 s.rd.ptr.toNat 0)

/-- `BW_WRITE n`: the low `n` bits of `ARG0` go above the pending bits, and a full word is stored, the low byte first;
the errors when no room is left or the store is refused (R114). -/
def Obligations.BwWriteAppendsBits : Prop :=
  ∀ (s : State) (n : Nat), 1 ≤ n → n ≤ 16 → s.wr.cnt.toNat ≤ 15 → s.wr.buf.toNat < 2 ^ s.wr.cnt.toNat →
    s.mem.wf = true →
    let V := s.wr.buf.toNat + s.arg0.toNat % 2 ^ n * 2 ^ s.wr.cnt.toNat
    (s.wr.cnt.toNat + n < 16 →
      exec (.bwWrite n) s =
        .next { s with
          wr := { s.wr with buf := BitVec.ofNat 32 V, cnt := BitVec.ofNat 5 (s.wr.cnt.toNat + n) }
          result := 0
          status := s.status.finished }) ∧
    (16 ≤ s.wr.cnt.toNat + n →
      (s.wr.ptr.toNat + 2 ≤ s.wr.lim.toNat →
        (s.platform.accessError s.wr.ptr.toNat .b2 .write = none →
          ∃ t, exec (.bwWrite n) s = .next t ∧
            t = { s with
              mem := t.mem
              wr :=
                { s.wr with
                  ptr := s.wr.ptr + 2
                  buf := BitVec.ofNat 32 (V / 65536)
                  cnt := BitVec.ofNat 5 (s.wr.cnt.toNat + n - 16) }
              result := 1
              status := s.status.finished } ∧
            t.mem.readLE s.wr.ptr.toNat 2 = V % 65536 ∧ SameOutside s t s.wr.ptr.toNat 2) ∧
        ∀ c, s.platform.accessError s.wr.ptr.toNat .b2 .write = some c →
          exec (.bwWrite n) s = s.failed 0x13 c 0 s.wr.ptr.toNat 0) ∧
      (s.wr.lim.toNat < s.wr.ptr.toNat + 2 →
        exec (.bwWrite n) s = s.failed 0x13 .writeOverflow 0 s.wr.ptr.toNat 0))

/-- Reading a written stream backward gives the values in reverse order; reading forward a copy whose words are
reversed gives the same (R117, which the spec derives from R112 and R114). -/
def Obligations.StreamReversal : Prop :=
  ∀ (s t : State) (ws : List (Nat × Nat)) (base lim : Word),
    s.mem.wf = true → s.status.err = false → s.wr = { base := base, lim := lim, ptr := base, buf := 0, cnt := 0 } →
    (∀ w ∈ ws, 1 ≤ w.2 ∧ w.2 ≤ 16) → (ws.map Prod.snd).sum % 16 = 0 → writeAll ws s = some t →
    let L := (ws.map Prod.snd).sum / 16
    let widths := ws.reverse.map Prod.snd
    let values := ws.reverse.map fun w => w.1 % 2 ^ w.2
    (t.CanRead .b2 base.toNat L →
      ∃ r, readAll widths
          { t with rd := { base := base, lim := t.wr.ptr, ptr := t.wr.ptr, buf := 0, cnt := 0, dir := false } } =
          some (values, r) ∧
        r.rd.ptr = base ∧ r.rd.cnt = 0) ∧
    ∀ (u : State) (c e : Word), e.toNat = c.toNat + 2 * L → u.status.err = false → u.CanRead .b2 c.toNat L →
      (∀ k, k < L → u.mem.readLE (c.toNat + 2 * k) 2 = t.mem.readLE (base.toNat + 2 * (L - 1 - k)) 2) →
      u.rd = { base := c, lim := e, ptr := c, buf := 0, cnt := 0, dir := true } →
      ∃ r, readAll widths u = some (values, r) ∧ r.rd.ptr = e ∧ r.rd.cnt = 0

/-! ## Histogram (42_histogram.md) -/

/-- `HIST_COUNT`: each entry is how often the byte occurs in the buffer; the errors of a buffer that passes `2^32` and
of the first byte the platform refuses (R130). -/
def Obligations.HistCountCountsBytes : Prop :=
  ∀ s : State,
    (s.arg0.toNat + s.arg1.toNat ≤ 2 ^ 32 →
      (s.CanRead .b1 s.arg0.toNat s.arg1.toNat →
        ∃ t, exec .histCount s = .next t ∧
          t = { s with
            rawf := t.rawf
            result := s.arg1
            status := { s.status.finished with rawValid := true } } ∧
          ∀ i, i < 512 → (entryAt t.rawf i 0).toNat =
            (List.range s.arg1.toNat).countP fun k => decide ((s.mem.read (s.arg0.toNat + k)).toNat = i)) ∧
      ∀ k c, k < s.arg1.toNat → s.CanRead .b1 s.arg0.toNat k →
        s.platform.accessError (s.arg0.toNat + k) .b1 .read = some c →
        exec .histCount s = s.failed 0x20 c 0 (s.arg0.toNat + k) 0) ∧
    (2 ^ 32 < s.arg0.toNat + s.arg1.toNat → exec .histCount s = s.failed 0x20 .addressWrap 0 s.arg0.toNat 0)

/-- `HIST_LOAD`: the 512 stored counts and their sum; the errors of a table that passes `2^32` and of the first entry
the platform refuses (R131). -/
def Obligations.HistLoadReadsATable : Prop :=
  ∀ s : State,
    (s.arg0.toNat + 2048 ≤ 2 ^ 32 →
      (s.CanRead .b4 s.arg0.toNat 512 →
        let T := ((List.range 512).map fun i => s.mem.readLE (s.arg0.toNat + 4 * i) 4).sum
        ∃ t, exec .histLoad s = .next t ∧
          t = { s with
            rawf := t.rawf
            result := BitVec.ofNat 32 (T % 2 ^ 32)
            result1 := BitVec.ofNat 32 (T / 2 ^ 32)
            status := { s.status.finished with rawValid := true } } ∧
          ∀ i, i < 512 → (entryAt t.rawf i 0).toNat = s.mem.readLE (s.arg0.toNat + 4 * i) 4) ∧
      ∀ k c, k < 512 → s.CanRead .b4 s.arg0.toNat k →
        s.platform.accessError (s.arg0.toNat + 4 * k) .b4 .read = some c →
        exec .histLoad s = s.failed 0x21 c 0 (s.arg0.toNat + 4 * k) 0) ∧
    (2 ^ 32 < s.arg0.toNat + 2048 → exec .histLoad s = s.failed 0x21 .addressWrap 0 s.arg0.toNat 0)

/-- After a successful `HIST_NORM`: the frequencies sum to `M`, are zero exactly where the raw counts are, lie between
1 and `M` elsewhere, and a table that already sums to `M` is unchanged (R136, which the spec derives from R132 to
R135). -/
def Obligations.NormalizationTotality : Prop :=
  ∀ (s : State) (hi : Nat), s.status.rawValid = true → IsHighest s.rawList hi → hi < 256 →
    ∃ t, exec .histNorm s = .next t ∧
      t = { s with
        freq := t.freq
        result := t.result
        result1 := t.result1
        status := { s.status.finished with histValid := true, tblValid := false, fallback := t.status.fallback } } ∧
      t.freqList.sum = 2048 ∧
      (∀ i, i < 256 → (t.freqOf i = 0 ↔ nth s.rawList i = 0)) ∧
      (∀ i, i < 256 → nth s.rawList i ≠ 0 → 1 ≤ t.freqOf i ∧ t.freqOf i ≤ 2048) ∧
      (s.rawList.sum = 2048 → ∀ i, i < 256 → t.freqOf i = nth s.rawList i)

/-- `HIST_NORM` without fallback: each count is rounded half up with the floor of 1, and the residue goes to the
greatest raw count, the least index on a tie (R132 to R134). -/
def Obligations.NormalizationCorrectivePass : Prop :=
  ∀ (s : State) (hi imax : Nat), s.status.rawValid = true → IsHighest s.rawList hi → hi < 256 →
    IsLargest s.rawList imax →
    1 ≤ (roundedCount s.rawList.sum (nth s.rawList imax) : Int) + rawResidue s.rawList →
    ∃ t, exec .histNorm s = .next t ∧
      t = { s with
        freq := t.freq
        result := BitVec.ofNat 32 (hi + 1)
        result1 := BitVec.ofNat 32 imax
        status := { s.status.finished with histValid := true, tblValid := false, fallback := false } } ∧
      ∀ i, i < 256 → (t.freqOf i : Int) =
        roundedCount s.rawList.sum (nth s.rawList i) + if i = imax then rawResidue s.rawList else 0

/-- `HIST_NORM` with fallback: units are taken one at a time from the greatest entry, the least index on a tie. So the
entries are cut to a level, which those from some index on pass by one, and the sum is `M` (R135). -/
def Obligations.NormalizationFallback : Prop :=
  ∀ (s : State) (hi imax : Nat), s.status.rawValid = true → IsHighest s.rawList hi → hi < 256 →
    IsLargest s.rawList imax →
    (roundedCount s.rawList.sum (nth s.rawList imax) : Int) + rawResidue s.rawList < 1 →
    ∃ t, exec .histNorm s = .next t ∧
      t = { s with
        freq := t.freq
        result := BitVec.ofNat 32 (hi + 1)
        result1 := BitVec.ofNat 32 imax
        status := { s.status.finished with histValid := true, tblValid := false, fallback := true } } ∧
      t.freqList.sum = 2048 ∧
      ∃ level edge, 1 ≤ level ∧ ∀ i, i < 256 → t.freqOf i =
        min (roundedCount s.rawList.sum (nth s.rawList i)) (if i < edge then level else level + 1)

/-- The errors of `HIST_NORM` in their order (R132). -/
def Obligations.NormalizationErrors : Prop :=
  ∀ s : State,
    (s.status.rawValid = false → exec .histNorm s = s.failed 0x22 .notReady 0 0 0) ∧
    (s.status.rawValid = true →
      (s.rawList.sum = 0 → exec .histNorm s = s.failed 0x22 .emptyHistogram 0 0 0) ∧
      ∀ hi, IsHighest s.rawList hi → 256 ≤ hi → exec .histNorm s = s.failed 0x22 .alphabetTooLarge 0 hi 0)

/-- `HIST_STORE`: the frequencies as a stored table of 512 entries, the upper half zero; its errors in order, entries
before a refused one staying written (R137). -/
def Obligations.HistStoreWritesATable : Prop :=
  ∀ s : State, s.mem.wf = true →
    (s.status.histValid = true → s.arg0.toNat + 2048 ≤ 2 ^ 32 →
      (s.CanWrite .b4 s.arg0.toNat 512 →
        ∃ t, exec .histStore s = .next t ∧ t = { s with mem := t.mem, status := s.status.finished } ∧
          (∀ i, i < 512 → t.mem.readLE (s.arg0.toNat + 4 * i) 4 = if i < 256 then s.freqOf i else 0) ∧
          SameOutside s t s.arg0.toNat 2048) ∧
      ∀ k c, k < 512 → s.CanWrite .b4 s.arg0.toNat k →
        s.platform.accessError (s.arg0.toNat + 4 * k) .b4 .write = some c →
        ∃ m, exec .histStore s = ({ s with mem := m } : State).failed 0x23 c 0 (s.arg0.toNat + 4 * k) 0 ∧
          (∀ i, i < k → m.readLE (s.arg0.toNat + 4 * i) 4 = if i < 256 then s.freqOf i else 0) ∧
          SameOutside s { s with mem := m } s.arg0.toNat (4 * k)) ∧
    (s.status.histValid = true → 2 ^ 32 < s.arg0.toNat + 2048 →
      exec .histStore s = s.failed 0x23 .addressWrap 0 s.arg0.toNat 0) ∧
    (s.status.histValid = false → exec .histStore s = s.failed 0x23 .notReady 1 0 0)

/-- `RAW_QUERY`, `FREQ_QUERY` and `TBL_QUERY`: the entry asked for, or `NOT_READY` and then `BAD_ARG` (R138, R139,
R152). -/
def Obligations.Queries : Prop :=
  ∀ s : State,
    (s.status.rawValid = true → s.arg0.toNat < 512 →
      exec .rawQuery s = .next { s with result := entryAt s.rawf s.arg0.toNat 0, status := s.status.finished }) ∧
    (s.status.rawValid = true → 512 ≤ s.arg0.toNat → exec .rawQuery s = s.failed 0x24 .badArg 1 s.arg0.toNat 0) ∧
    (s.status.rawValid = false → exec .rawQuery s = s.failed 0x24 .notReady 0 0 0) ∧
    (s.status.histValid = true → s.arg0.toNat < 256 →
      exec .freqQuery s =
        .next { s with
          result := BitVec.ofNat 32 (s.freqOf s.arg0.toNat)
          result1 := BitVec.ofNat 32 (s.startOf s.arg0.toNat)
          status := s.status.finished }) ∧
    (s.status.histValid = true → 256 ≤ s.arg0.toNat → exec .freqQuery s = s.failed 0x25 .badArg 1 s.arg0.toNat 0) ∧
    (s.status.histValid = false → exec .freqQuery s = s.failed 0x25 .notReady 1 0 0) ∧
    (s.status.tblValid = true → s.arg0.toNat < 2048 →
      exec .tblQuery s =
        .next { s with
          result := BitVec.ofNat 32
            ((entryAt s.sym s.arg0.toNat 0).toNat + (entryAt s.frq s.arg0.toNat 0).toNat * 65536)
          result1 := BitVec.ofNat 32 (entryAt s.cum s.arg0.toNat 0).toNat
          status := s.status.finished }) ∧
    (s.status.tblValid = true → 2048 ≤ s.arg0.toNat → exec .tblQuery s = s.failed 0x29 .badArg 1 s.arg0.toNat 0) ∧
    (s.status.tblValid = false → exec .tblQuery s = s.failed 0x29 .notReady 2 0 0)

/-! ## Table build (43_table.md) -/

/-- `TBL_BUILD` lays the slots out by rising symbol, each symbol on as many slots as its frequency (R150, R151);
without a normalized table it raises `NOT_READY`. -/
def Obligations.TableLayout : Prop :=
  ∀ s : State,
    (s.status.histValid = true → s.freqList.sum = 2048 →
      ∃ t, exec .tblBuild s = .next t ∧
        t = { s with
          sym := t.sym
          frq := t.frq
          cum := t.cum
          cums := t.cums
          status := { s.status.finished with tblValid := true } } ∧
        (∀ slot σ, slot < 2048 → σ < 256 →
          ((entryAt t.sym slot 0).toNat = σ ↔ s.startOf σ ≤ slot ∧ slot < s.startOf σ + s.freqOf σ)) ∧
        (∀ slot, slot < 2048 →
          (entryAt t.frq slot 0).toNat = s.freqOf (entryAt t.sym slot 0).toNat ∧
          (entryAt t.cum slot 0).toNat = s.startOf (entryAt t.sym slot 0).toNat) ∧
        ∀ σ, σ < 256 → (entryAt t.cums σ 0).toNat = s.startOf σ) ∧
    (s.status.histValid = false → exec .tblBuild s = s.failed 0x28 .notReady 1 0 0)

/-! ## Encoder (44_encoder.md) -/

/-- `ENC_INIT` sets every encoder lane to `M` and changes nothing else (R161). -/
def Obligations.EncInitSetsEveryLane : Prop :=
  ∀ s : State, exec .encInit s = .next { s with xe := Vector.replicate 32 2048, status := s.status.finished }

/-- `ENC_SYM`: the new lane state, and the one word that a large state first gives to the writer (R162). -/
def Obligations.EncSymCodesASymbol : Prop :=
  ∀ (s : State) (lane : Nat), CodecSafe s → s.mem.wf = true → s.wr.cnt.toNat ≤ 15 →
    s.wr.buf.toNat < 2 ^ s.wr.cnt.toNat → s.status.tblValid = true → lane < s.lanes → lane < 32 →
    s.arg0.toNat < 256 → 0 < s.freqOf s.arg0.toNat →
    let x := laneAt s.xe lane
    let F := s.freqOf s.arg0.toNat
    let x' := encodedState F (s.startOf s.arg0.toNat) x
    (x < 65536 * F → s.wr.ptr.toNat ≤ s.wr.lim.toNat →
      exec (.encSym lane) s =
        .next { s with
          xe := s.xe.setIfInBounds lane (BitVec.ofNat 32 x')
          result := 0
          result1 := BitVec.ofNat 32 x'
          status := s.status.finished }) ∧
    (65536 * F ≤ x → s.wr.ptr.toNat + 2 ≤ s.wr.lim.toNat →
      s.platform.accessError s.wr.ptr.toNat .b2 .write = none →
      ∃ t, exec (.encSym lane) s = .next t ∧
        t = { s with
          mem := t.mem
          xe := s.xe.setIfInBounds lane (BitVec.ofNat 32 x')
          wr := s.wr.afterWords [x % 65536]
          result := 1
          result1 := BitVec.ofNat 32 x'
          status := s.status.finished } ∧
        t.mem.readLE s.wr.ptr.toNat 2 = s.wr.withWords [x % 65536] % 65536 ∧ SameOutside s t s.wr.ptr.toNat 2)

/-- The errors of `ENC_SYM` and `ENC_STEP` in their order, with the lane where a lane raises them; of a word store that
the platform refuses in `ENC_STEP`, the words before it stay in memory (R162, R166, R232, R234; the lane of a bus error
is the model's reading, log 9). -/
def Obligations.EncoderErrors : Prop :=
  ∀ s : State,
    (∀ lane, lane < s.lanes →
      (s.status.tblValid = false → exec (.encSym lane) s = s.failed 0x31 .notReady 2 0 0) ∧
      (s.status.tblValid = true → 256 ≤ s.arg0.toNat →
        exec (.encSym lane) s = s.failed 0x31 .badArg 0 s.arg0.toNat 0) ∧
      (s.status.tblValid = true → s.status.histValid = true → s.arg0.toNat < 256 → s.freqOf s.arg0.toNat = 0 →
        exec (.encSym lane) s = s.failed 0x31 .zeroFreqSymbol 0 s.arg0.toNat lane) ∧
      (CodecSafe s → s.status.tblValid = true → s.arg0.toNat < 256 → 0 < s.freqOf s.arg0.toNat → lane < 32 →
        65536 * s.freqOf s.arg0.toNat ≤ laneAt s.xe lane →
        (s.wr.lim.toNat < s.wr.ptr.toNat + 2 →
          exec (.encSym lane) s = s.failed 0x31 .writeOverflow 0 s.wr.ptr.toNat lane) ∧
        ∀ c, s.wr.ptr.toNat + 2 ≤ s.wr.lim.toNat → s.platform.accessError s.wr.ptr.toNat .b2 .write = some c →
          exec (.encSym lane) s = s.failed 0x31 c 0 s.wr.ptr.toNat lane)) ∧
    (s.status.tblValid = false → exec .encStep s = s.failed 0x32 .notReady 2 0 0) ∧
    (s.status.tblValid = true → s.arg1.toNat = 0 ∨ s.lanes < s.arg1.toNat →
      exec .encStep s = s.failed 0x32 .badArg 4 s.arg1.toNat 0) ∧
    (s.status.tblValid = true → 1 ≤ s.arg1.toNat → s.arg1.toNat ≤ s.lanes →
      (2 ^ 32 < s.arg0.toNat + s.arg1.toNat → exec .encStep s = s.failed 0x32 .addressWrap 0 s.arg0.toNat 0) ∧
      (s.arg0.toNat + s.arg1.toNat ≤ 2 ^ 32 →
        (∀ k c, k < s.arg1.toNat → s.CanRead .b1 s.arg0.toNat k →
          s.platform.accessError (s.arg0.toNat + k) .b1 .read = some c →
          exec .encStep s = s.failed 0x32 c 0 (s.arg0.toNat + k) 0) ∧
        (CodecSafe s → s.lanes ≤ 32 → s.CanRead .b1 s.arg0.toNat s.arg1.toNat →
          let syms := fun j => (s.mem.read (s.arg0.toNat + j)).toNat
          (∀ j, j < s.arg1.toNat → s.freqOf (syms j) = 0 →
            (∀ k, j < k → k < s.arg1.toNat → 0 < s.freqOf (syms k)) →
            exec .encStep s = s.failed 0x32 .zeroFreqSymbol 0 (syms j) j) ∧
          ((∀ j, j < s.arg1.toNat → 0 < s.freqOf (syms j)) →
            let words := s.emittedWords syms s.arg1.toNat
            let ptr := s.wr.ptr.toNat
            (s.wr.lim.toNat < ptr + 2 * words.length →
              exec .encStep s = s.failed 0x32 .writeOverflow 0 ptr 0) ∧
            (ptr + 2 * words.length ≤ s.wr.lim.toNat → s.mem.wf = true → s.wr.cnt.toNat ≤ 15 →
              s.wr.buf.toNat < 2 ^ s.wr.cnt.toNat →
              ∀ k c, k < words.length → s.CanWrite .b2 ptr k →
                s.platform.accessError (ptr + 2 * k) .b2 .write = some c →
                ∃ m, exec .encStep s = ({ s with mem := m } : State).failed 0x32 c 0 (ptr + 2 * k) 0 ∧
                  m.readLE ptr (2 * k) = s.wr.withWords words % 65536 ^ k ∧
                  SameOutside s { s with mem := m } ptr (2 * k))))))

/-- `ENC_STEP`: each lane below `K` codes its own symbol, and the words go to the writer in descending lane order
(R166, R167). -/
def Obligations.EncStepCodesALaneEach : Prop :=
  ∀ s : State, CodecSafe s → s.mem.wf = true → s.wr.cnt.toNat ≤ 15 → s.wr.buf.toNat < 2 ^ s.wr.cnt.toNat →
    s.status.tblValid = true → s.lanes ≤ 32 → 1 ≤ s.arg1.toNat → s.arg1.toNat ≤ s.lanes →
    s.arg0.toNat + s.arg1.toNat ≤ 2 ^ 32 → s.CanRead .b1 s.arg0.toNat s.arg1.toNat →
    let syms := fun j => (s.mem.read (s.arg0.toNat + j)).toNat
    let words := s.emittedWords syms s.arg1.toNat
    (∀ j, j < s.arg1.toNat → 0 < s.freqOf (syms j)) →
    s.wr.ptr.toNat + 2 * words.length ≤ s.wr.lim.toNat → s.CanWrite .b2 s.wr.ptr.toNat words.length →
    ∃ t, exec .encStep s = .next t ∧
      t = { s with
        mem := t.mem
        xe := t.xe
        wr := s.wr.afterWords words
        result := BitVec.ofNat 32 words.length
        status := s.status.finished } ∧
      (∀ j, j < 32 → laneAt t.xe j =
        if j < s.arg1.toNat then encodedState (s.freqOf (syms j)) (s.startOf (syms j)) (laneAt s.xe j)
        else laneAt s.xe j) ∧
      t.mem.readLE s.wr.ptr.toNat (2 * words.length) = s.wr.withWords words % 65536 ^ words.length ∧
      SameOutside s t s.wr.ptr.toNat (2 * words.length)

/-- A symbol emits at most one word, a step of `K` lanes at most `K`, and a writer without pending bits stays so
(R163, which the spec derives from R162). -/
def Obligations.AtMostOneWordPerSymbol : Prop :=
  ∀ s t : State, CodecSafe s → s.status.err = false → t.status.err = false →
    (∀ lane, lane < 32 → exec (.encSym lane) s = .next t →
      t.result.toNat ≤ 1 ∧ t.wr.cnt = s.wr.cnt ∧ t.wr.ptr.toNat = s.wr.ptr.toNat + 2 * t.result.toNat) ∧
    (s.lanes ≤ 32 → exec .encStep s = .next t →
      t.result.toNat ≤ s.arg1.toNat ∧ t.wr.cnt = s.wr.cnt ∧
        t.wr.ptr.toNat = s.wr.ptr.toNat + 2 * t.result.toNat)

/-- No command raises `STATE_OVERFLOW` (R165, which the spec derives from R164). -/
def Obligations.StateOverflowNeverRaised : Prop :=
  ∀ (i : Instr) (s t : State), CodecSafe s → s.lanes ≤ 32 → s.status.err = false → s.errcode = 0 →
    exec i s = .next t → t.errcode.toNat % 256 ≠ 0x09

/-! ## Decoder (45_decoder.md) -/

/-- `DEC_INIT` takes a state in `[M, B·M)` and raises `MALFORMED_STREAM` for any other (R181). -/
def Obligations.DecInitLoadsALane : Prop :=
  ∀ (s : State) (lane : Nat), lane < s.lanes →
    (2048 ≤ s.arg0.toNat ∧ s.arg0.toNat < 134217728 →
      exec (.decInit lane) s =
        .next { s with xd := s.xd.setIfInBounds lane s.arg0, status := s.status.finished }) ∧
    (s.arg0.toNat < 2048 ∨ 134217728 ≤ s.arg0.toNat →
      exec (.decInit lane) s = s.failed 0x40 .malformedStream 2 s.arg0.toNat lane)

/-- `DEC_SYM`: the symbol of the lane's slot and the new state, after one word is read when the state is too small; its
errors in their order (R182; the lane of its bus error is the model's reading, log 9). -/
def Obligations.DecSymDecodesASymbol : Prop :=
  ∀ (s : State) (lane : Nat), lane < s.lanes → lane < 32 →
    (s.status.tblValid = false → exec (.decSym lane) s = s.failed 0x41 .notReady 2 0 0) ∧
    (s.status.tblValid = true → (entryAt s.frq (laneAt s.xd lane % 2048) 0).toNat = 0 →
      exec (.decSym lane) s = s.failed 0x41 .malformedStream 1 (laneAt s.xd lane % 2048) lane) ∧
    (CodecSafe s → s.status.tblValid = true → s.rd.cnt.toNat ≤ 15 → s.rd.buf.toNat < 2 ^ s.rd.cnt.toNat →
      let y := s.decodeBase lane
      (2048 ≤ y →
        exec (.decSym lane) s =
          .next { s with
            xd := s.xd.setIfInBounds lane (BitVec.ofNat 32 y)
            result := BitVec.ofNat 32 (s.decodedSymbol lane)
            result1 := BitVec.ofNat 32 y
            status := s.status.finished }) ∧
      (y < 2048 →
        (s.rd.HasWords 1 →
          (s.platform.accessError (s.rd.wordAddr 0) .b2 .read = none →
            exec (.decSym lane) s =
              .next { s with
                xd := s.xd.setIfInBounds lane (BitVec.ofNat 32 (y * 65536 + s.chunk 0))
                rd := s.readerAfter 1
                result := BitVec.ofNat 32 (s.decodedSymbol lane)
                result1 := BitVec.ofNat 32 (y * 65536 + s.chunk 0)
                status := s.status.finished }) ∧
          ∀ c, s.platform.accessError (s.rd.wordAddr 0) .b2 .read = some c →
            exec (.decSym lane) s = s.failed 0x41 c 0 (s.rd.wordAddr 0) lane) ∧
        (¬s.rd.HasWords 1 →
          exec (.decSym lane) s = s.failed 0x41 .malformedStream 0 s.rd.ptr.toNat lane)))

/-- `DEC_SYM` inverts `ENC_SYM`: from the encoded state, with the same tables and the emitted word as the next 16 bits,
it gives the symbol and the old state back and consumes exactly the word (R184, which the spec derives from R162,
R182, R150 and R117). -/
def Obligations.DecSymInvertsEncSym : Prop :=
  ∀ (s t u : State) (lane lane' : Nat), CodecSafe s → s.status.err = false → lane < s.lanes → lane < 32 →
    exec (.encSym lane) s = .next t → t.status.err = false →
    u.status.tblValid = true → u.sym = s.sym → u.frq = s.frq → u.cum = s.cum → u.status.err = false →
    lane' < u.lanes → lane' < 32 → laneAt u.xd lane' = laneAt t.xe lane →
    let x := entryAt s.xe lane 0
    (t.result = 0 →
      exec (.decSym lane') u =
        .next { u with
          xd := u.xd.setIfInBounds lane' x, result := s.arg0, result1 := x, status := u.status.finished }) ∧
    (t.result = 1 → ∀ v, exec (.brRead 16) u = .next v → v.status.err = false → v.result.toNat = x.toNat % 65536 →
      exec (.decSym lane') u =
        .next { u with
          xd := u.xd.setIfInBounds lane' x
          rd := v.rd
          result := s.arg0
          result1 := x
          status := u.status.finished })

/-- `DEC_STEP`: the lanes below `K` decode in ascending order from the shared reader, and the symbols are stored after
every read; the errors of its operands, of a missing word, of a word fetch and of an output store that the platform
refuses, the outputs before it staying in memory (R186, R187, R232, R234; the lane of a bus error is the model's
reading, log 9). -/
def Obligations.DecStepDecodesALaneEach : Prop :=
  ∀ s : State,
    (s.status.tblValid = false → exec .decStep s = s.failed 0x42 .notReady 2 0 0) ∧
    (s.status.tblValid = true → s.arg1.toNat = 0 ∨ s.lanes < s.arg1.toNat →
      exec .decStep s = s.failed 0x42 .badArg 4 s.arg1.toNat 0) ∧
    (s.status.tblValid = true → 1 ≤ s.arg1.toNat → s.arg1.toNat ≤ s.lanes →
      (2 ^ 32 < s.arg0.toNat + s.arg1.toNat → exec .decStep s = s.failed 0x42 .addressWrap 0 s.arg0.toNat 0) ∧
      (s.arg0.toNat + s.arg1.toNat ≤ 2 ^ 32 → CodecSafe s → s.lanes ≤ 32 → s.mem.wf = true →
        s.rd.cnt.toNat ≤ 15 → s.rd.buf.toNat < 2 ^ s.rd.cnt.toNat →
        let K := s.arg1.toNat
        let n := s.wordsBelow K
        (∀ j, j < K → s.decodeBase j < 2048 → s.rd.HasWords (s.wordsBelow j) → ¬s.rd.HasWords (s.wordsBelow j + 1) →
          (∀ k, k < s.wordsBelow j → s.platform.accessError (s.rd.wordAddr k) .b2 .read = none) →
          exec .decStep s =
            s.failed 0x42 .malformedStream 0 (s.readerAfter (s.wordsBelow j)).ptr.toNat j) ∧
        (∀ j c, j < K → s.decodeBase j < 2048 → s.rd.HasWords (s.wordsBelow j + 1) →
          (∀ k, k < s.wordsBelow j → s.platform.accessError (s.rd.wordAddr k) .b2 .read = none) →
          s.platform.accessError (s.rd.wordAddr (s.wordsBelow j)) .b2 .read = some c →
          exec .decStep s = s.failed 0x42 c 0 (s.rd.wordAddr (s.wordsBelow j)) j) ∧
        (s.rd.HasWords n → (∀ k, k < n → s.platform.accessError (s.rd.wordAddr k) .b2 .read = none) →
          ∀ q c, q < K → s.CanWrite .b1 s.arg0.toNat q →
            s.platform.accessError (s.arg0.toNat + q) .b1 .write = some c →
            ∃ m, exec .decStep s = ({ s with mem := m } : State).failed 0x42 c 0 (s.arg0.toNat + q) 0 ∧
              (∀ j, j < q → (m.read (s.arg0.toNat + j)).toNat = s.decodedSymbol j) ∧
              SameOutside s { s with mem := m } s.arg0.toNat q) ∧
        (s.rd.HasWords n → (∀ k, k < n → s.platform.accessError (s.rd.wordAddr k) .b2 .read = none) →
          s.CanWrite .b1 s.arg0.toNat K →
          ∃ t, exec .decStep s = .next t ∧
            t = { s with
              mem := t.mem
              xd := t.xd
              rd := s.readerAfter n
              result := BitVec.ofNat 32 n
              status := s.status.finished } ∧
            (∀ j, j < 32 → laneAt t.xd j = if j < K then s.decodedLane j else laneAt s.xd j) ∧
            (∀ j, j < K → (t.mem.read (s.arg0.toNat + j)).toNat = s.decodedSymbol j) ∧
            SameOutside s t s.arg0.toNat K)))

/-- A decode step undoes an encode step of as many lanes: it gives the symbols and the lane states of before back, and
takes exactly the emitted words (R167, R186, R187). -/
def Obligations.InterleavedStepInverts : Prop :=
  ∀ s t u : State, CodecSafe s → s.mem.wf = true → s.status.err = false → s.wr.cnt = 0 → s.wr.buf = 0 →
    s.lanes ≤ 32 → exec .encStep s = .next t → t.status.err = false →
    CodecSafe u → u.mem.wf = true → u.status.err = false → u.status.tblValid = true →
    u.sym = s.sym → u.frq = s.frq → u.cum = s.cum → u.lanes ≤ 32 → u.arg1 = s.arg1 → s.arg1.toNat ≤ u.lanes →
    (∀ j, j < s.arg1.toNat → laneAt u.xd j = laneAt t.xe j) →
    u.rd.dir = false → u.rd.cnt = 0 → u.rd.buf = 0 → u.rd.ptr = t.wr.ptr → u.rd.base.toNat ≤ s.wr.ptr.toNat →
    (∀ a, s.wr.ptr.toNat ≤ a → a < t.wr.ptr.toNat → u.mem.read a = t.mem.read a) →
    u.CanRead .b2 s.wr.ptr.toNat t.result.toNat →
    u.arg0.toNat + u.arg1.toNat ≤ 2 ^ 32 → u.CanWrite .b1 u.arg0.toNat u.arg1.toNat →
    ∃ v, exec .decStep u = .next v ∧ v.status.err = false ∧ v.result = t.result ∧ v.rd.ptr = s.wr.ptr ∧ v.rd.cnt = 0 ∧
      ∀ j, j < s.arg1.toNat → laneAt v.xd j = laneAt s.xe j ∧
        v.mem.read (u.arg0.toNat + j) = s.mem.read (s.arg0.toNat + j)

/-! ## Framer (46_framer.md) -/

/-- `FRM_PARSE` of a header that passes the checks (R204). -/
def Obligations.FrmParseAcceptsAHeader : Prop :=
  ∀ (s : State) (h : Header), s.arg0.toNat + s.arg1.toNat ≤ 2 ^ 32 →
    (∀ f ∈ headerLayout, s.platform.accessError (s.arg0.toNat + f.1) f.2 .read = none) →
    s.headerFields s.arg0.toNat = h.fields → h.Checked s.lanes → h.containerBytes = s.arg1.toNat →
    exec .frmParse s =
      .next { s with
        hdr := h
        result := BitVec.ofNat 32 h.blocks
        result1 := BitVec.ofNat 32 (8 * h.blocks)
        status := { s.status.finished with hdrValid := true } }

/-- The errors of `FRM_PARSE` in their order; each clears `HDR_VALID` (R204, R234). -/
def Obligations.FrmParseErrors : Prop :=
  ∀ s : State,
    let A := s.arg0.toNat
    let FL := s.arg1.toNat
    let e := { s with status := { s.status with hdrValid := false } }
    let f := nth (s.headerFields A)
    let NB := f 0 * f 1 / 16
    (2 ^ 32 < A + FL → exec .frmParse s = e.failed 0x50 .addressWrap 0 A 0) ∧
    (A + FL ≤ 2 ^ 32 →
      (FL < 48 → exec .frmParse s = e.failed 0x50 .badContainer 0 FL 0) ∧
      (48 ≤ FL →
        (∀ pre suf off n c, headerLayout = pre ++ (off, n) :: suf →
          (∀ g ∈ pre, s.platform.accessError (A + g.1) g.2 .read = none) →
          s.platform.accessError (A + off) n .read = some c → exec .frmParse s = e.failed 0x50 c 0 (A + off) 0) ∧
        ((∀ g ∈ headerLayout, s.platform.accessError (A + g.1) g.2 .read = none) →
          (f 0 % 4 ≠ 0 → exec .frmParse s = e.failed 0x50 .badContainer 1 (f 0) 0) ∧
          (f 0 % 4 = 0 → f 1 % 4 ≠ 0 → exec .frmParse s = e.failed 0x50 .badContainer 1 (f 1) 0) ∧
          (f 0 % 4 = 0 → f 1 % 4 = 0 →
            (∀ k, k < 7 → f k = 0 → (∀ j, j < k → f j ≠ 0) →
              exec .frmParse s = e.failed 0x50 .badContainer 2 k 0) ∧
            ((∀ k, k < 7 → f k ≠ 0) →
              (∀ k, k < 7 → 2 ^ 32 ≤ f k → (∀ j, j < k → f j < 2 ^ 32) →
                exec .frmParse s = e.failed 0x50 .badContainer 3 k 0) ∧
              ((∀ k, k < 7 → f k < 2 ^ 32) →
                (2 ^ 32 ≤ 4 * NB → exec .frmParse s = e.failed 0x50 .badContainer 3 7 0) ∧
                (4 * NB < 2 ^ 32 →
                  (48 + 4 * 2048 + f 3 + f 4 + f 5 + f 6 ≠ FL →
                    exec .frmParse s = e.failed 0x50 .badContainer 4 FL 0) ∧
                  (48 + 4 * 2048 + f 3 + f 4 + f 5 + f 6 = FL → ∀ p, p < 4 →
                    (f (3 + p) < 4 * s.lanes ∨ (f (3 + p) - 4 * s.lanes) % 2 ≠ 0) →
                    (∀ q, q < p → 4 * s.lanes ≤ f (3 + q) ∧ (f (3 + q) - 4 * s.lanes) % 2 = 0) →
                    exec .frmParse s = e.failed 0x50 .badContainer 5 p 0))))))))

/-- `FRM_HDR_WRITE`: the seven fields, little-endian, the 64-bit ones zero-extended; the error of a header that passes
`2^32`, and of the first field the platform refuses (R205). -/
def Obligations.FrmHdrWriteStoresTheHeader : Prop :=
  ∀ s : State, s.mem.wf = true →
    let A := s.arg0.toNat
    (A + 48 ≤ 2 ^ 32 →
      ((∀ f ∈ headerLayout, s.platform.accessError (A + f.1) f.2 .write = none) →
        ∃ t, exec .frmHdrWrite s = .next t ∧ t = { s with mem := t.mem, status := s.status.finished } ∧
          t.headerFields A = s.hdr.fields ∧ SameOutside s t A 48) ∧
      ∀ pre suf off n c, headerLayout = pre ++ (off, n) :: suf →
        (∀ g ∈ pre, s.platform.accessError (A + g.1) g.2 .write = none) →
        s.platform.accessError (A + off) n .write = some c →
        ∃ m, exec .frmHdrWrite s = ({ s with mem := m } : State).failed 0x51 c 0 (A + off) 0 ∧
          (pre.map fun g => m.readLE (A + g.1) g.2.bytes) = s.hdr.fields.take pre.length ∧
          SameOutside s { s with mem := m } A off) ∧
    (2 ^ 32 < A + 48 → exec .frmHdrWrite s = s.failed 0x51 .addressWrap 0 A 0)

/-- A checked header that is written and then parsed with its own length is the header again (R204, R205). -/
def Obligations.HeaderRoundTrip : Prop :=
  ∀ s t u : State, s.mem.wf = true → s.status.err = false → exec .frmHdrWrite s = .next t → t.status.err = false →
    s.hdr.Checked u.lanes → (∀ k, k < 48 → u.mem.read (s.arg0.toNat + k) = t.mem.read (s.arg0.toNat + k)) →
    u.arg0 = s.arg0 → u.arg1.toNat = s.hdr.containerBytes → u.arg0.toNat + u.arg1.toNat ≤ 2 ^ 32 →
    u.Open u.arg0.toNat 48 →
    ∃ v, exec .frmParse u = .next v ∧ v.hdr = s.hdr ∧ v.status.hdrValid = true ∧ v.status.err = u.status.err

/-- The checks of the two payload commands before their first sub-step, in their order (R206, R207, R234). -/
def Obligations.FramerOperandChecks : Prop :=
  ∀ (s : State) (p : Payload),
    (s.status.hdrValid = false → exec (.frmDecPayload p) s = s.failed 0x52 .notReady 3 0 0) ∧
    (s.status.hdrValid = true →
      let P := s.arg0.toNat + s.hdr.payloadOffset p
      let n := 2048 + (s.hdr.size p).toNat
      let C := s.hdr.planeBytes p
      let D := s.arg1.toNat
      (2 ^ 32 < P + n → exec (.frmDecPayload p) s = s.failed 0x52 .addressWrap 0 s.arg0.toNat 0) ∧
      (P + n ≤ 2 ^ 32 → 2 ^ 32 < D + C → exec (.frmDecPayload p) s = s.failed 0x52 .addressWrap 0 D 0) ∧
      (P + n ≤ 2 ^ 32 → D + C ≤ 2 ^ 32 → D < P + n → P < D + C →
        exec (.frmDecPayload p) s = s.failed 0x52 .badArg 6 D 0)) ∧
    (let src := s.arg0.toNat
      let P := s.arg1.toNat
      let C := s.arg2.toNat
      let CAP := s.arg3.toNat
      (C = 0 → exec (.frmEncPayload p) s = s.failed 0x53 .badArg 5 0 0) ∧
      (0 < C →
        (2 ^ 32 < src + C → exec (.frmEncPayload p) s = s.failed 0x53 .addressWrap 0 src 0) ∧
        (src + C ≤ 2 ^ 32 → 2 ^ 32 < P + CAP → exec (.frmEncPayload p) s = s.failed 0x53 .addressWrap 0 P 0) ∧
        (src + C ≤ 2 ^ 32 → P + CAP ≤ 2 ^ 32 →
          (src < P + CAP → P < src + C → exec (.frmEncPayload p) s = s.failed 0x53 .badArg 6 P 0) ∧
          (P + CAP ≤ src ∨ src + C ≤ P → CAP < 2048 + 4 * s.lanes →
            exec (.frmEncPayload p) s = s.failed 0x53 .writeOverflow 0 P 0))))

/-- `FRM_ENC_PAYLOAD` completes wherever a word for each symbol fits, writes only the payload, stores the normalized
table and the lane states, and records the body length, which is even past the lane states (R201, R207, R209). -/
def Obligations.FrmEncPayloadWritesAPayload : Prop :=
  ∀ (s : State) (p : Payload),
    let src := s.arg0.toNat
    let P := s.arg1.toNat
    let C := s.arg2.toNat
    let CAP := s.arg3.toNat
    let N := s.lanes
    s.mem.wf = true → 1 ≤ N → N ≤ 32 → 0 < C → src + C ≤ 2 ^ 32 → P + CAP < 2 ^ 32 →
    (src + C ≤ P ∨ P + CAP ≤ src) → 2048 + 4 * N + 2 * C ≤ CAP → s.Open src C → s.Open P CAP →
    ∃ t, exec (.frmEncPayload p) s = .next t ∧
      t = { s with
        mem := t.mem
        rawf := t.rawf
        freq := t.freq
        sym := t.sym
        frq := t.frq
        cum := t.cum
        cums := t.cums
        xe := t.xe
        wr := t.wr
        hdr := s.hdr.setSize p t.result
        result := BitVec.ofNat 32 (4 * N + t.result1.toNat)
        result1 := t.result1
        status :=
          { s.status.finished with
            rawValid := true, histValid := true, tblValid := true, hdrValid := false
            fallback := t.status.fallback } } ∧
      t.result1.toNat % 2 = 0 ∧ t.result1.toNat ≤ 2 * C ∧ t.wr.ptr.toNat = P + 2048 + 4 * N + t.result1.toNat ∧
      t.freqList.sum = 2048 ∧
      (∀ i, i < 256 → (t.freqOf i = 0 ↔ ∀ k, k < C → (s.mem.read (src + k)).toNat ≠ i)) ∧
      (∀ i, i < 512 → t.mem.readLE (P + 4 * i) 4 = if i < 256 then t.freqOf i else 0) ∧
      (∀ j, j < N → t.mem.readLE (P + 2048 + 4 * j) 4 = laneAt t.xe j) ∧
      (∀ j, C ≤ j → j < 32 → laneAt t.xe j = 2048) ∧
      SameOutside s t P (2048 + 4 * N + t.result1.toNat)

/-- Round trip of a payload: what `FRM_ENC_PAYLOAD` encoded, `FRM_DEC_PAYLOAD` with the same `N` decodes to the same
bytes without an error (R209, which the spec derives from R206 to R208, R184 and R167). -/
def Obligations.PayloadRoundTrip : Prop :=
  ∀ (s t u : State) (p p' : Payload), s.mem.wf = true → s.status.err = false → 1 ≤ s.lanes → s.lanes ≤ 32 →
    exec (.frmEncPayload p) s = .next t → t.status.err = false →
    u.mem.wf = true → u.status.err = false → u.lanes = s.lanes → u.status.hdrValid = true →
    u.arg0.toNat + u.hdr.payloadOffset p' = s.arg1.toNat → u.hdr.size p' = t.hdr.size p →
    u.hdr.planeBytes p' = s.arg2.toNat →
    let n := 2048 + (t.hdr.size p).toNat
    (∀ a, s.arg1.toNat ≤ a → a < s.arg1.toNat + n → u.mem.read a = t.mem.read a) →
    s.arg1.toNat + n < 2 ^ 32 → u.arg1.toNat + s.arg2.toNat ≤ 2 ^ 32 →
    (u.arg1.toNat + s.arg2.toNat ≤ s.arg1.toNat ∨ s.arg1.toNat + n ≤ u.arg1.toNat) →
    u.Open s.arg1.toNat n → u.Open u.arg1.toNat s.arg2.toNat →
    ∃ v, exec (.frmDecPayload p') u = .next v ∧ v.status.err = false ∧ v.result = s.arg2 ∧
      (∀ k, k < s.arg2.toNat → v.mem.read (u.arg1.toNat + k) = s.mem.read (s.arg0.toNat + k)) ∧
      SameOutside u v u.arg1.toNat s.arg2.toNat

/-- `FRM_DEC_PAYLOAD` of a payload whose table has one symbol: with every lane state at `M` and no stream it completes
and fills the plane with the symbol; a lane state elsewhere in the range, or stream left over, raises
`MALFORMED_STREAM` 3 or 4 and leaves the plane (R206). -/
def Obligations.FrmDecPayloadOfOneSymbol : Prop :=
  ∀ (s : State) (p : Payload) (σ count : Nat),
    let P := s.arg0.toNat + s.hdr.payloadOffset p
    let size := (s.hdr.size p).toNat
    let C := s.hdr.planeBytes p
    let D := s.arg1.toNat
    let N := s.lanes
    s.mem.wf = true → s.status.hdrValid = true → s.status.err = false → 1 ≤ N → N ≤ 32 → P + 2048 + size < 2 ^ 32 →
    D + C ≤ 2 ^ 32 → (D + C ≤ P ∨ P + 2048 + size ≤ D) → s.Open P (2048 + size) → s.Open D C →
    4 * N ≤ size → (size - 4 * N) % 2 = 0 → σ < 256 → 0 < count →
    (∀ i, i < 512 → s.mem.readLE (P + 4 * i) 4 = if i = σ then count else 0) →
    let x := fun j => s.mem.readLE (P + 2048 + 4 * j) 4
    (∀ j, j < N → 2048 ≤ x j ∧ x j < 134217728) →
    ((∀ j, j < N → x j = 2048) → size = 4 * N →
      ∃ t, exec (.frmDecPayload p) s = .next t ∧
        t = { s with
          mem := t.mem
          rawf := t.rawf
          freq := t.freq
          sym := t.sym
          frq := t.frq
          cum := t.cum
          cums := t.cums
          xd := t.xd
          rd :=
            { base := BitVec.ofNat 32 (P + 2048 + size), lim := BitVec.ofNat 32 (P + 2048 + size)
              ptr := BitVec.ofNat 32 (P + 2048 + size), buf := 0, cnt := 0, dir := false }
          result := BitVec.ofNat 32 C
          result1 := t.result1
          status :=
            { s.status.finished with rawValid := true, histValid := true, tblValid := true, fallback := false } } ∧
        (∀ i, i < 256 → t.freqOf i = if i = σ then 2048 else 0) ∧
        (∀ j, j < 32 → laneAt t.xd j = if j < N then 2048 else laneAt s.xd j) ∧
        (∀ k, k < C → (t.mem.read (D + k)).toNat = σ) ∧ SameOutside s t D C) ∧
    (∀ j, j < N → x j ≠ 2048 → (∀ k, k < j → x k = 2048) →
      ∃ t, exec (.frmDecPayload p) s = .next t ∧ t.mem = s.mem ∧ t.status.err = true ∧ t.errinfo.toNat = x j ∧
        t.errcode.toNat = 0x07 + 3 * 2 ^ 8 + j * 2 ^ 16 + 0x52 * 2 ^ 24) ∧
    ((∀ j, j < N → x j = 2048) → 4 * N < size →
      ∃ t, exec (.frmDecPayload p) s = .next t ∧ t.mem = s.mem ∧ t.status.err = true ∧
        t.errinfo.toNat = P + 2048 + size ∧ t.errcode.toNat = 0x07 + 4 * 2 ^ 8 + 0x52 * 2 ^ 24)

/-- What the payload commands keep of their sub-steps, however they end (R233): the counts and tables of the sub-steps
`HIST_LOAD` or `HIST_COUNT`, `HIST_NORM` and `TBL_BUILD` up to the one that failed, the lanes `DEC_INIT` loaded, the table
stored and the lanes set to `M`. On an error the header registers stay, memory stays outside the destination region, and
`FRM_DEC_PAYLOAD` leaves all of memory on every error but a bus error (R206, R207, R232). -/
def Obligations.PayloadErrorsKeepWhatWasCommitted : Prop :=
  ∀ (s t : State) (p : Payload), s.status.err = false →
    (exec (.frmDecPayload p) s = .next t →
      let P := s.arg0.toNat + s.hdr.payloadOffset p
      let n := 2048 + (s.hdr.size p).toNat
      let C := s.hdr.planeBytes p
      let D := s.arg1.toNat
      let x := fun j => s.mem.readLE (P + 2048 + 4 * j) 4
      (t.status.err = true →
        t.hdr = s.hdr ∧ t.status.hdrValid = s.status.hdrValid ∧ (s.mem.wf = true → SameOutside s t D C) ∧
        (t.errcode.toNat % 256 ≠ 0x0C → t.mem = s.mem)) ∧
      (s.status.hdrValid = true → P + n ≤ 2 ^ 32 → D + C ≤ 2 ^ 32 → (D + C ≤ P ∨ P + n ≤ D) →
        ∀ h₁ h₂ h₃, exec .histLoad { s with arg0 := BitVec.ofNat 32 P } = .next h₁ → exec .histNorm h₁ = .next h₂ →
          exec .tblBuild h₂ = .next h₃ →
          t.SameTables (if h₁.status.err then s else if h₂.status.err then h₁ else h₃) ∧
          (h₂.status.err = true → t.xd = s.xd ∧ t.rd = s.rd) ∧
          (h₂.status.err = false → s.lanes ≤ 32 → ∀ j, j < s.lanes → s.CanRead .b4 (P + 2048) (j + 1) →
            (∀ k, k < j → LaneLegal (x k)) → ¬LaneLegal (x j) →
            t.status.err = true ∧ t.errinfo.toNat = x j ∧
            t.errcode.toNat = 0x07 + 2 * 2 ^ 8 + j * 2 ^ 16 + 0x52 * 2 ^ 24 ∧ t.rd = s.rd ∧
            ∀ k, k < 32 → laneAt t.xd k = if k < j then x k else laneAt s.xd k))) ∧
    (exec (.frmEncPayload p) s = .next t →
      let src := s.arg0.toNat
      let P := s.arg1.toNat
      let C := s.arg2.toNat
      let CAP := s.arg3.toNat
      let N := s.lanes
      (t.status.err = true →
        t.hdr = s.hdr ∧ t.status.hdrValid = s.status.hdrValid ∧ (s.mem.wf = true → SameOutside s t P CAP)) ∧
      (0 < C → src + C ≤ 2 ^ 32 → P + CAP ≤ 2 ^ 32 → (src + C ≤ P ∨ P + CAP ≤ src) → 2048 + 4 * N ≤ CAP →
        ∀ h₁ h₂ h₃, exec .histCount { s with arg1 := s.arg2 } = .next h₁ → exec .histNorm h₁ = .next h₂ →
          exec .tblBuild h₂ = .next h₃ →
          t.SameTables (if h₁.status.err then s else if h₂.status.err then h₁ else h₃) ∧
          (h₂.status.err = true → t.mem = s.mem ∧ t.xe = s.xe ∧ t.wr = s.wr) ∧
          (h₂.status.err = false → s.mem.wf = true → s.CanWrite .b4 P 512 →
            (∀ i, i < 512 → t.mem.readLE (P + 4 * i) 4 = if i < 256 then h₃.freqOf i else 0) ∧
            (∀ j, (C ≤ j ∨ N ≤ j) → j < 32 → laneAt t.xe j = 2048) ∧
            t.wr.base = BitVec.ofNat 32 (P + 2048 + 4 * N))))

/-! ## Invariants -/

/-- The state after reset meets every invariant below (R46). -/
def Obligations.ResetMeetsTheInvariants : Prop :=
  MemorySafe State.reset ∧ FlagsSafe State.reset ∧ CodecSafe State.reset ∧ StreamsSafe State.reset ∧
    HeaderSafe State.reset

/-- Every step keeps the canonical form of memory: addresses rise and lie below `2^32`, and no entry says what an unlisted
address reads as. The form is the model's own representation of the `2^32` bytes of R60, and no rule of the spec
(log 3). -/
def Obligations.EveryStepKeepsMemorySafe : Prop := KeptByEveryStep fun s => MemorySafe s

/-- Every step keeps: `BUSY` and `DONE` never together, no record without an error, a legal `N` (R26, R27, R28). -/
def Obligations.EveryStepKeepsFlagsSafe : Prop := KeptByEveryStep fun s => FlagsSafe s

/-- Every step keeps every lane in `[M, B·M)`, a valid table at the sum `M`, and valid decoding tables built from it
(R40, and R37 and R43, whose invariants the spec derives). -/
def Obligations.EveryStepKeepsCodecSafe : Prop := KeptByEveryStep fun s => CodecSafe s

/-- Every step keeps the reader and the writer inside their regions with fewer than 16 buffered bits (R33, R34,
R110; log 10). -/
def Obligations.EveryStepKeepsStreamsSafe : Prop := KeptByEveryStep fun s => StreamsSafe s

/-- Every step keeps a valid header one that passed the checks of `FRM_PARSE` with the current `N` (R27, R204). -/
def Obligations.EveryStepKeepsHeaderSafe : Prop := KeptByEveryStep fun s => HeaderSafe s
end

