-- ==== Sys2Proof/Laws/Memory.lean ====
section
/-!
SUPPORT. The laws of memory: what a read gives after a write, and that every memory operation keeps the canonical form.
-/
namespace Sys2Proof.Machine

@[simp] theorem Memory.read_nil (a : Nat) : Memory.read [] a = Config.unlistedByte := rfl

theorem Memory.read_cons (k : Nat) (b : Byte) (t : Memory) (a : Nat) :
    Memory.read ((k, b) :: t) a = if a = k then b else Memory.read t a := rfl

@[simp] theorem Memory.wfFrom_nil (lo : Nat) : Memory.wfFrom lo [] = true := rfl

theorem Memory.wfFrom_cons {lo k : Nat} {b : Byte} {t : Memory} :
    Memory.wfFrom lo ((k, b) :: t) = true ↔
      lo ≤ k ∧ k < Config.memBytes ∧ b ≠ Config.unlistedByte ∧ Memory.wfFrom (k + 1) t = true := by
  simp [Memory.wfFrom, and_assoc]

theorem Memory.wfFrom_mono {lo lo' : Nat} (h : lo' ≤ lo) : ∀ {m : Memory}, Memory.wfFrom lo m = true →
    Memory.wfFrom lo' m = true
  | [], _ => rfl
  | (k, b) :: t, hm => by
    rw [Memory.wfFrom_cons] at hm ⊢
    exact ⟨h.trans hm.1, hm.2⟩

/-- A canonical memory lists nothing below where it starts. -/
theorem Memory.read_of_lt {lo a : Nat} (ha : a < lo) : ∀ {m : Memory}, Memory.wfFrom lo m = true →
    m.read a = Config.unlistedByte
  | [], _ => rfl
  | (k, b) :: t, hm => by
    rw [Memory.wfFrom_cons] at hm
    rw [Memory.read_cons, if_neg (by omega)]
    exact Memory.read_of_lt (by omega) hm.2.2.2

theorem Memory.read_entry (a : Nat) (b : Byte) (t : Memory) (x : Nat) (ht : t.read a = Config.unlistedByte) :
    (Memory.entry a b t).read x = if x = a then b else t.read x := by
  unfold Memory.entry
  split
  · split <;> simp_all
  · exact Memory.read_cons ..

/-- What a read gives after a write, over a canonical memory. -/
theorem Memory.read_writeFrom {lo : Nat} (a : Nat) (b : Byte) (x : Nat) : ∀ {m : Memory},
    Memory.wfFrom lo m = true → (m.write a b).read x = if x = a then b else m.read x
  | [], _ => Memory.read_entry a b [] x rfl
  | (k, c) :: t, hm => by
    have hm' := Memory.wfFrom_cons.mp hm
    unfold Memory.write
    split
    · refine Memory.read_entry a b _ x ?_
      rw [Memory.read_cons, if_neg (by omega)]
      exact Memory.read_of_lt (by omega) hm'.2.2.2
    · split
      · subst a
        rw [Memory.read_entry k b t x (Memory.read_of_lt (by omega) hm'.2.2.2), Memory.read_cons]
        split <;> rfl
      · rw [Memory.read_cons, Memory.read_writeFrom a b x hm'.2.2.2, Memory.read_cons]
        split <;> split <;> first | rfl | omega

/-- What a read gives after a write (R63). -/
theorem Memory.read_write {m : Memory} (h : m.wf = true) (a : Nat) (b : Byte) (x : Nat) :
    (m.write a b).read x = if x = a then b else m.read x := Memory.read_writeFrom a b x h

theorem Memory.wfFrom_entry {lo a : Nat} {b : Byte} {t : Memory} (hlo : lo ≤ a) (ha : a < Config.memBytes)
    (ht : Memory.wfFrom (a + 1) t = true) : Memory.wfFrom lo (Memory.entry a b t) = true := by
  unfold Memory.entry
  split
  · exact Memory.wfFrom_mono (by omega) ht
  · rw [Memory.wfFrom_cons]
    exact ⟨hlo, ha, by assumption, ht⟩

theorem Memory.wfFrom_write {lo a : Nat} (b : Byte) (hlo : lo ≤ a) (ha : a < Config.memBytes) : ∀ {m : Memory},
    Memory.wfFrom lo m = true → Memory.wfFrom lo (m.write a b) = true
  | [], _ => Memory.wfFrom_entry hlo ha rfl
  | (k, c) :: t, hm => by
    have hm' := Memory.wfFrom_cons.mp hm
    unfold Memory.write
    split
    · refine Memory.wfFrom_entry hlo ha ?_
      rw [Memory.wfFrom_cons]
      exact ⟨by omega, hm'.2⟩
    · split
      · subst a
        exact Memory.wfFrom_entry hlo ha hm'.2.2.2
      · rw [Memory.wfFrom_cons]
        exact ⟨hm'.1, hm'.2.1, hm'.2.2.1, Memory.wfFrom_write b (by omega) ha hm'.2.2.2⟩

/-- A write keeps the canonical form. -/
theorem Memory.wf_write {m : Memory} (h : m.wf = true) {a : Nat} (ha : a < Config.memBytes) (b : Byte) :
    (m.write a b).wf = true := Memory.wfFrom_write b (Nat.zero_le a) ha h

/-- A multi-byte store keeps the canonical form. -/
theorem Memory.wf_writeLE : ∀ (n : Nat) {m : Memory} {a v : Nat}, m.wf = true → a + n ≤ Config.memBytes →
    (m.writeLE a v n).wf = true
  | 0, _, _, _, h, _ => h
  | n + 1, m, a, v, h, ha => by
    unfold Memory.writeLE
    exact Memory.wf_writeLE n (Memory.wf_write h (by omega) _) (by omega)

/-- What a byte reads as after a multi-byte store: byte `k` of the value, or what it was (R61, R63). -/
theorem Memory.read_writeLE : ∀ (n : Nat) {m : Memory} (a v x : Nat), m.wf = true → a + n ≤ Config.memBytes →
    (m.writeLE a v n).read x =
      if a ≤ x ∧ x < a + n then BitVec.ofNat 8 (v / 256 ^ (x - a)) else m.read x
  | 0, _, a, _, x, _, _ => by
    rw [if_neg (by omega)]
    rfl
  | n + 1, m, a, v, x, h, ha => by
    unfold Memory.writeLE
    rw [Memory.read_writeLE n (a + 1) (v / 256) x (Memory.wf_write h (by omega) _) (by omega),
      Memory.read_write h]
    by_cases hx : x = a
    · subst hx
      rw [if_neg (by omega), if_pos rfl, if_pos (by omega)]
      simp
    · rw [if_neg hx]
      by_cases hx' : a + 1 ≤ x ∧ x < a + 1 + n
      · rw [if_pos hx', if_pos (by omega), Nat.div_div_eq_div_mul, ← Nat.pow_succ', Nat.succ_eq_add_one]
        congr 3
        omega
      · rw [if_neg hx', if_neg (by omega)]

/-- Outside the stored bytes a multi-byte store changes nothing. -/
theorem Memory.read_writeLE_outside (n : Nat) {m : Memory} (a v x : Nat) (h : m.wf = true)
    (ha : a + n ≤ Config.memBytes) (hx : x < a ∨ a + n ≤ x) : (m.writeLE a v n).read x = m.read x := by
  rw [Memory.read_writeLE n a v x h ha, if_neg (by omega)]

/-- A multi-byte read depends on its own bytes only. -/
theorem Memory.readLE_congr : ∀ (n : Nat) {m m' : Memory} (a : Nat), (∀ k < n, m'.read (a + k) = m.read (a + k)) →
    m'.readLE a n = m.readLE a n
  | 0, _, _, _, _ => rfl
  | n + 1, m, m', a, h => by
    have h0 : m'.read a = m.read a := h 0 (by omega)
    have ih := Memory.readLE_congr n (m := m) (m' := m') (a + 1) fun k hk => by
      have := h (k + 1) (by omega)
      rwa [← Nat.add_assoc, Nat.add_right_comm a k 1] at this
    unfold Memory.readLE
    rw [h0, ih]

theorem Memory.readLE_lt (m : Memory) : ∀ (n a : Nat), m.readLE a n < 256 ^ n
  | 0, _ => by simp [Memory.readLE]
  | n + 1, a => by
    have := Memory.readLE_lt m n (a + 1)
    have := (m.read a).isLt
    unfold Memory.readLE
    rw [Nat.pow_succ]
    omega

/-- The value a multi-byte read gives when each byte is that of `v`. -/
theorem Memory.readLE_of_bytes : ∀ (n : Nat) {m : Memory} (a v : Nat),
    (∀ k < n, m.read (a + k) = BitVec.ofNat 8 (v / 256 ^ k)) → m.readLE a n = v % 256 ^ n
  | 0, _, _, v, _ => by simp [Memory.readLE, Nat.mod_one]
  | n + 1, m, a, v, h => by
    have h0 : m.read a = BitVec.ofNat 8 v := by simpa using h 0 (by omega)
    have ih := Memory.readLE_of_bytes n (m := m) (a + 1) (v / 256) fun k hk => by
      have := h (k + 1) (by omega)
      rw [← Nat.add_assoc, Nat.add_right_comm a k 1] at this
      rw [this, Nat.div_div_eq_div_mul, Nat.pow_succ, Nat.mul_comm]
    unfold Memory.readLE
    rw [h0, ih, BitVec.toNat_ofNat, Nat.pow_succ' (n := n) (m := 256), Nat.mod_mul (x := v) (a := 256) (b := 256 ^ n)]

/-- A multi-byte read of a multi-byte store of the same place and width gives the value stored (R62, R63). -/
theorem Memory.readLE_writeLE (n : Nat) {m : Memory} (a v : Nat) (h : m.wf = true) (ha : a + n ≤ Config.memBytes) :
    (m.writeLE a v n).readLE a n = v % 256 ^ n :=
  Memory.readLE_of_bytes n a v fun k hk => by
    rw [Memory.read_writeLE n a v (a + k) h ha, if_pos (by omega), Nat.add_sub_cancel_left]

/-- A multi-byte read away from a multi-byte store is unchanged. -/
theorem Memory.readLE_writeLE_outside (n k : Nat) {m : Memory} (a b v : Nat) (h : m.wf = true)
    (ha : a + n ≤ Config.memBytes) (hb : b + k ≤ a ∨ a + n ≤ b) : (m.writeLE a v n).readLE b k = m.readLE b k :=
  Memory.readLE_congr k b fun i hi => Memory.read_writeLE_outside n a v (b + i) h ha (by omega)

end Sys2Proof.Machine
end

