-- ==== Sys2Proof/Laws/State.lean ====
section
/-!
SUPPORT. What each named update of State leaves and changes, field by field; no later proof unfolds one.
-/
namespace Sys2Proof.Machine

@[simp] theorem State.setMem_platform (s : State) (m : Memory) : (s.setMem m).platform = s.platform := rfl
@[simp] theorem State.setMem_mem (s : State) (m : Memory) : (s.setMem m).mem = m := rfl
@[simp] theorem State.setMem_ctrl (s : State) (m : Memory) : (s.setMem m).ctrl = s.ctrl := rfl
@[simp] theorem State.setMem_cfgN (s : State) (m : Memory) : (s.setMem m).cfgN = s.cfgN := rfl
@[simp] theorem State.setMem_status (s : State) (m : Memory) : (s.setMem m).status = s.status := rfl
@[simp] theorem State.setMem_errcode (s : State) (m : Memory) : (s.setMem m).errcode = s.errcode := rfl
@[simp] theorem State.setMem_errinfo (s : State) (m : Memory) : (s.setMem m).errinfo = s.errinfo := rfl
@[simp] theorem State.setMem_cmd (s : State) (m : Memory) : (s.setMem m).cmd = s.cmd := rfl
@[simp] theorem State.setMem_result (s : State) (m : Memory) : (s.setMem m).result = s.result := rfl
@[simp] theorem State.setMem_result1 (s : State) (m : Memory) : (s.setMem m).result1 = s.result1 := rfl
@[simp] theorem State.setMem_arg0 (s : State) (m : Memory) : (s.setMem m).arg0 = s.arg0 := rfl
@[simp] theorem State.setMem_arg1 (s : State) (m : Memory) : (s.setMem m).arg1 = s.arg1 := rfl
@[simp] theorem State.setMem_arg2 (s : State) (m : Memory) : (s.setMem m).arg2 = s.arg2 := rfl
@[simp] theorem State.setMem_arg3 (s : State) (m : Memory) : (s.setMem m).arg3 = s.arg3 := rfl
@[simp] theorem State.setMem_rd (s : State) (m : Memory) : (s.setMem m).rd = s.rd := rfl
@[simp] theorem State.setMem_wr (s : State) (m : Memory) : (s.setMem m).wr = s.wr := rfl
@[simp] theorem State.setMem_hdr (s : State) (m : Memory) : (s.setMem m).hdr = s.hdr := rfl
@[simp] theorem State.setMem_xe (s : State) (m : Memory) : (s.setMem m).xe = s.xe := rfl
@[simp] theorem State.setMem_xd (s : State) (m : Memory) : (s.setMem m).xd = s.xd := rfl
@[simp] theorem State.setMem_rawf (s : State) (m : Memory) : (s.setMem m).rawf = s.rawf := rfl
@[simp] theorem State.setMem_freq (s : State) (m : Memory) : (s.setMem m).freq = s.freq := rfl
@[simp] theorem State.setMem_sym (s : State) (m : Memory) : (s.setMem m).sym = s.sym := rfl
@[simp] theorem State.setMem_frq (s : State) (m : Memory) : (s.setMem m).frq = s.frq := rfl
@[simp] theorem State.setMem_cum (s : State) (m : Memory) : (s.setMem m).cum = s.cum := rfl
@[simp] theorem State.setMem_cums (s : State) (m : Memory) : (s.setMem m).cums = s.cums := rfl
@[simp] theorem State.setMem_host (s : State) (m : Memory) : (s.setMem m).host = s.host := rfl
@[simp] theorem State.setMem_turns (s : State) (m : Memory) : (s.setMem m).turns = s.turns := rfl
@[simp] theorem State.setMem_draws (s : State) (m : Memory) : (s.setMem m).draws = s.draws := rfl

@[simp] theorem State.setStatus_platform (s : State) (f : Status) : (s.setStatus f).platform = s.platform := rfl
@[simp] theorem State.setStatus_mem (s : State) (f : Status) : (s.setStatus f).mem = s.mem := rfl
@[simp] theorem State.setStatus_ctrl (s : State) (f : Status) : (s.setStatus f).ctrl = s.ctrl := rfl
@[simp] theorem State.setStatus_cfgN (s : State) (f : Status) : (s.setStatus f).cfgN = s.cfgN := rfl
@[simp] theorem State.setStatus_status (s : State) (f : Status) : (s.setStatus f).status = f := rfl
@[simp] theorem State.setStatus_errcode (s : State) (f : Status) : (s.setStatus f).errcode = s.errcode := rfl
@[simp] theorem State.setStatus_errinfo (s : State) (f : Status) : (s.setStatus f).errinfo = s.errinfo := rfl
@[simp] theorem State.setStatus_cmd (s : State) (f : Status) : (s.setStatus f).cmd = s.cmd := rfl
@[simp] theorem State.setStatus_result (s : State) (f : Status) : (s.setStatus f).result = s.result := rfl
@[simp] theorem State.setStatus_result1 (s : State) (f : Status) : (s.setStatus f).result1 = s.result1 := rfl
@[simp] theorem State.setStatus_arg0 (s : State) (f : Status) : (s.setStatus f).arg0 = s.arg0 := rfl
@[simp] theorem State.setStatus_arg1 (s : State) (f : Status) : (s.setStatus f).arg1 = s.arg1 := rfl
@[simp] theorem State.setStatus_arg2 (s : State) (f : Status) : (s.setStatus f).arg2 = s.arg2 := rfl
@[simp] theorem State.setStatus_arg3 (s : State) (f : Status) : (s.setStatus f).arg3 = s.arg3 := rfl
@[simp] theorem State.setStatus_rd (s : State) (f : Status) : (s.setStatus f).rd = s.rd := rfl
@[simp] theorem State.setStatus_wr (s : State) (f : Status) : (s.setStatus f).wr = s.wr := rfl
@[simp] theorem State.setStatus_hdr (s : State) (f : Status) : (s.setStatus f).hdr = s.hdr := rfl
@[simp] theorem State.setStatus_xe (s : State) (f : Status) : (s.setStatus f).xe = s.xe := rfl
@[simp] theorem State.setStatus_xd (s : State) (f : Status) : (s.setStatus f).xd = s.xd := rfl
@[simp] theorem State.setStatus_rawf (s : State) (f : Status) : (s.setStatus f).rawf = s.rawf := rfl
@[simp] theorem State.setStatus_freq (s : State) (f : Status) : (s.setStatus f).freq = s.freq := rfl
@[simp] theorem State.setStatus_sym (s : State) (f : Status) : (s.setStatus f).sym = s.sym := rfl
@[simp] theorem State.setStatus_frq (s : State) (f : Status) : (s.setStatus f).frq = s.frq := rfl
@[simp] theorem State.setStatus_cum (s : State) (f : Status) : (s.setStatus f).cum = s.cum := rfl
@[simp] theorem State.setStatus_cums (s : State) (f : Status) : (s.setStatus f).cums = s.cums := rfl
@[simp] theorem State.setStatus_host (s : State) (f : Status) : (s.setStatus f).host = s.host := rfl
@[simp] theorem State.setStatus_turns (s : State) (f : Status) : (s.setStatus f).turns = s.turns := rfl
@[simp] theorem State.setStatus_draws (s : State) (f : Status) : (s.setStatus f).draws = s.draws := rfl

@[simp] theorem State.setError_platform (s : State) (c i : Word) : (s.setError c i).platform = s.platform := rfl
@[simp] theorem State.setError_mem (s : State) (c i : Word) : (s.setError c i).mem = s.mem := rfl
@[simp] theorem State.setError_ctrl (s : State) (c i : Word) : (s.setError c i).ctrl = s.ctrl := rfl
@[simp] theorem State.setError_cfgN (s : State) (c i : Word) : (s.setError c i).cfgN = s.cfgN := rfl
@[simp] theorem State.setError_status (s : State) (c i : Word) : (s.setError c i).status = s.status := rfl
@[simp] theorem State.setError_errcode (s : State) (c i : Word) : (s.setError c i).errcode = c := rfl
@[simp] theorem State.setError_errinfo (s : State) (c i : Word) : (s.setError c i).errinfo = i := rfl
@[simp] theorem State.setError_cmd (s : State) (c i : Word) : (s.setError c i).cmd = s.cmd := rfl
@[simp] theorem State.setError_result (s : State) (c i : Word) : (s.setError c i).result = s.result := rfl
@[simp] theorem State.setError_result1 (s : State) (c i : Word) : (s.setError c i).result1 = s.result1 := rfl
@[simp] theorem State.setError_arg0 (s : State) (c i : Word) : (s.setError c i).arg0 = s.arg0 := rfl
@[simp] theorem State.setError_arg1 (s : State) (c i : Word) : (s.setError c i).arg1 = s.arg1 := rfl
@[simp] theorem State.setError_arg2 (s : State) (c i : Word) : (s.setError c i).arg2 = s.arg2 := rfl
@[simp] theorem State.setError_arg3 (s : State) (c i : Word) : (s.setError c i).arg3 = s.arg3 := rfl
@[simp] theorem State.setError_rd (s : State) (c i : Word) : (s.setError c i).rd = s.rd := rfl
@[simp] theorem State.setError_wr (s : State) (c i : Word) : (s.setError c i).wr = s.wr := rfl
@[simp] theorem State.setError_hdr (s : State) (c i : Word) : (s.setError c i).hdr = s.hdr := rfl
@[simp] theorem State.setError_xe (s : State) (c i : Word) : (s.setError c i).xe = s.xe := rfl
@[simp] theorem State.setError_xd (s : State) (c i : Word) : (s.setError c i).xd = s.xd := rfl
@[simp] theorem State.setError_rawf (s : State) (c i : Word) : (s.setError c i).rawf = s.rawf := rfl
@[simp] theorem State.setError_freq (s : State) (c i : Word) : (s.setError c i).freq = s.freq := rfl
@[simp] theorem State.setError_sym (s : State) (c i : Word) : (s.setError c i).sym = s.sym := rfl
@[simp] theorem State.setError_frq (s : State) (c i : Word) : (s.setError c i).frq = s.frq := rfl
@[simp] theorem State.setError_cum (s : State) (c i : Word) : (s.setError c i).cum = s.cum := rfl
@[simp] theorem State.setError_cums (s : State) (c i : Word) : (s.setError c i).cums = s.cums := rfl
@[simp] theorem State.setError_host (s : State) (c i : Word) : (s.setError c i).host = s.host := rfl
@[simp] theorem State.setError_turns (s : State) (c i : Word) : (s.setError c i).turns = s.turns := rfl
@[simp] theorem State.setError_draws (s : State) (c i : Word) : (s.setError c i).draws = s.draws := rfl

@[simp] theorem State.setResult_platform (s : State) (v : Word) : (s.setResult v).platform = s.platform := rfl
@[simp] theorem State.setResult_mem (s : State) (v : Word) : (s.setResult v).mem = s.mem := rfl
@[simp] theorem State.setResult_ctrl (s : State) (v : Word) : (s.setResult v).ctrl = s.ctrl := rfl
@[simp] theorem State.setResult_cfgN (s : State) (v : Word) : (s.setResult v).cfgN = s.cfgN := rfl
@[simp] theorem State.setResult_status (s : State) (v : Word) : (s.setResult v).status = s.status := rfl
@[simp] theorem State.setResult_errcode (s : State) (v : Word) : (s.setResult v).errcode = s.errcode := rfl
@[simp] theorem State.setResult_errinfo (s : State) (v : Word) : (s.setResult v).errinfo = s.errinfo := rfl
@[simp] theorem State.setResult_cmd (s : State) (v : Word) : (s.setResult v).cmd = s.cmd := rfl
@[simp] theorem State.setResult_result (s : State) (v : Word) : (s.setResult v).result = v := rfl
@[simp] theorem State.setResult_result1 (s : State) (v : Word) : (s.setResult v).result1 = s.result1 := rfl
@[simp] theorem State.setResult_arg0 (s : State) (v : Word) : (s.setResult v).arg0 = s.arg0 := rfl
@[simp] theorem State.setResult_arg1 (s : State) (v : Word) : (s.setResult v).arg1 = s.arg1 := rfl
@[simp] theorem State.setResult_arg2 (s : State) (v : Word) : (s.setResult v).arg2 = s.arg2 := rfl
@[simp] theorem State.setResult_arg3 (s : State) (v : Word) : (s.setResult v).arg3 = s.arg3 := rfl
@[simp] theorem State.setResult_rd (s : State) (v : Word) : (s.setResult v).rd = s.rd := rfl
@[simp] theorem State.setResult_wr (s : State) (v : Word) : (s.setResult v).wr = s.wr := rfl
@[simp] theorem State.setResult_hdr (s : State) (v : Word) : (s.setResult v).hdr = s.hdr := rfl
@[simp] theorem State.setResult_xe (s : State) (v : Word) : (s.setResult v).xe = s.xe := rfl
@[simp] theorem State.setResult_xd (s : State) (v : Word) : (s.setResult v).xd = s.xd := rfl
@[simp] theorem State.setResult_rawf (s : State) (v : Word) : (s.setResult v).rawf = s.rawf := rfl
@[simp] theorem State.setResult_freq (s : State) (v : Word) : (s.setResult v).freq = s.freq := rfl
@[simp] theorem State.setResult_sym (s : State) (v : Word) : (s.setResult v).sym = s.sym := rfl
@[simp] theorem State.setResult_frq (s : State) (v : Word) : (s.setResult v).frq = s.frq := rfl
@[simp] theorem State.setResult_cum (s : State) (v : Word) : (s.setResult v).cum = s.cum := rfl
@[simp] theorem State.setResult_cums (s : State) (v : Word) : (s.setResult v).cums = s.cums := rfl
@[simp] theorem State.setResult_host (s : State) (v : Word) : (s.setResult v).host = s.host := rfl
@[simp] theorem State.setResult_turns (s : State) (v : Word) : (s.setResult v).turns = s.turns := rfl
@[simp] theorem State.setResult_draws (s : State) (v : Word) : (s.setResult v).draws = s.draws := rfl

@[simp] theorem State.setResult1_platform (s : State) (v : Word) : (s.setResult1 v).platform = s.platform := rfl
@[simp] theorem State.setResult1_mem (s : State) (v : Word) : (s.setResult1 v).mem = s.mem := rfl
@[simp] theorem State.setResult1_ctrl (s : State) (v : Word) : (s.setResult1 v).ctrl = s.ctrl := rfl
@[simp] theorem State.setResult1_cfgN (s : State) (v : Word) : (s.setResult1 v).cfgN = s.cfgN := rfl
@[simp] theorem State.setResult1_status (s : State) (v : Word) : (s.setResult1 v).status = s.status := rfl
@[simp] theorem State.setResult1_errcode (s : State) (v : Word) : (s.setResult1 v).errcode = s.errcode := rfl
@[simp] theorem State.setResult1_errinfo (s : State) (v : Word) : (s.setResult1 v).errinfo = s.errinfo := rfl
@[simp] theorem State.setResult1_cmd (s : State) (v : Word) : (s.setResult1 v).cmd = s.cmd := rfl
@[simp] theorem State.setResult1_result (s : State) (v : Word) : (s.setResult1 v).result = s.result := rfl
@[simp] theorem State.setResult1_result1 (s : State) (v : Word) : (s.setResult1 v).result1 = v := rfl
@[simp] theorem State.setResult1_arg0 (s : State) (v : Word) : (s.setResult1 v).arg0 = s.arg0 := rfl
@[simp] theorem State.setResult1_arg1 (s : State) (v : Word) : (s.setResult1 v).arg1 = s.arg1 := rfl
@[simp] theorem State.setResult1_arg2 (s : State) (v : Word) : (s.setResult1 v).arg2 = s.arg2 := rfl
@[simp] theorem State.setResult1_arg3 (s : State) (v : Word) : (s.setResult1 v).arg3 = s.arg3 := rfl
@[simp] theorem State.setResult1_rd (s : State) (v : Word) : (s.setResult1 v).rd = s.rd := rfl
@[simp] theorem State.setResult1_wr (s : State) (v : Word) : (s.setResult1 v).wr = s.wr := rfl
@[simp] theorem State.setResult1_hdr (s : State) (v : Word) : (s.setResult1 v).hdr = s.hdr := rfl
@[simp] theorem State.setResult1_xe (s : State) (v : Word) : (s.setResult1 v).xe = s.xe := rfl
@[simp] theorem State.setResult1_xd (s : State) (v : Word) : (s.setResult1 v).xd = s.xd := rfl
@[simp] theorem State.setResult1_rawf (s : State) (v : Word) : (s.setResult1 v).rawf = s.rawf := rfl
@[simp] theorem State.setResult1_freq (s : State) (v : Word) : (s.setResult1 v).freq = s.freq := rfl
@[simp] theorem State.setResult1_sym (s : State) (v : Word) : (s.setResult1 v).sym = s.sym := rfl
@[simp] theorem State.setResult1_frq (s : State) (v : Word) : (s.setResult1 v).frq = s.frq := rfl
@[simp] theorem State.setResult1_cum (s : State) (v : Word) : (s.setResult1 v).cum = s.cum := rfl
@[simp] theorem State.setResult1_cums (s : State) (v : Word) : (s.setResult1 v).cums = s.cums := rfl
@[simp] theorem State.setResult1_host (s : State) (v : Word) : (s.setResult1 v).host = s.host := rfl
@[simp] theorem State.setResult1_turns (s : State) (v : Word) : (s.setResult1 v).turns = s.turns := rfl
@[simp] theorem State.setResult1_draws (s : State) (v : Word) : (s.setResult1 v).draws = s.draws := rfl

@[simp] theorem State.setRd_platform (s : State) (r : Reader) : (s.setRd r).platform = s.platform := rfl
@[simp] theorem State.setRd_mem (s : State) (r : Reader) : (s.setRd r).mem = s.mem := rfl
@[simp] theorem State.setRd_ctrl (s : State) (r : Reader) : (s.setRd r).ctrl = s.ctrl := rfl
@[simp] theorem State.setRd_cfgN (s : State) (r : Reader) : (s.setRd r).cfgN = s.cfgN := rfl
@[simp] theorem State.setRd_status (s : State) (r : Reader) : (s.setRd r).status = s.status := rfl
@[simp] theorem State.setRd_errcode (s : State) (r : Reader) : (s.setRd r).errcode = s.errcode := rfl
@[simp] theorem State.setRd_errinfo (s : State) (r : Reader) : (s.setRd r).errinfo = s.errinfo := rfl
@[simp] theorem State.setRd_cmd (s : State) (r : Reader) : (s.setRd r).cmd = s.cmd := rfl
@[simp] theorem State.setRd_result (s : State) (r : Reader) : (s.setRd r).result = s.result := rfl
@[simp] theorem State.setRd_result1 (s : State) (r : Reader) : (s.setRd r).result1 = s.result1 := rfl
@[simp] theorem State.setRd_arg0 (s : State) (r : Reader) : (s.setRd r).arg0 = s.arg0 := rfl
@[simp] theorem State.setRd_arg1 (s : State) (r : Reader) : (s.setRd r).arg1 = s.arg1 := rfl
@[simp] theorem State.setRd_arg2 (s : State) (r : Reader) : (s.setRd r).arg2 = s.arg2 := rfl
@[simp] theorem State.setRd_arg3 (s : State) (r : Reader) : (s.setRd r).arg3 = s.arg3 := rfl
@[simp] theorem State.setRd_rd (s : State) (r : Reader) : (s.setRd r).rd = r := rfl
@[simp] theorem State.setRd_wr (s : State) (r : Reader) : (s.setRd r).wr = s.wr := rfl
@[simp] theorem State.setRd_hdr (s : State) (r : Reader) : (s.setRd r).hdr = s.hdr := rfl
@[simp] theorem State.setRd_xe (s : State) (r : Reader) : (s.setRd r).xe = s.xe := rfl
@[simp] theorem State.setRd_xd (s : State) (r : Reader) : (s.setRd r).xd = s.xd := rfl
@[simp] theorem State.setRd_rawf (s : State) (r : Reader) : (s.setRd r).rawf = s.rawf := rfl
@[simp] theorem State.setRd_freq (s : State) (r : Reader) : (s.setRd r).freq = s.freq := rfl
@[simp] theorem State.setRd_sym (s : State) (r : Reader) : (s.setRd r).sym = s.sym := rfl
@[simp] theorem State.setRd_frq (s : State) (r : Reader) : (s.setRd r).frq = s.frq := rfl
@[simp] theorem State.setRd_cum (s : State) (r : Reader) : (s.setRd r).cum = s.cum := rfl
@[simp] theorem State.setRd_cums (s : State) (r : Reader) : (s.setRd r).cums = s.cums := rfl
@[simp] theorem State.setRd_host (s : State) (r : Reader) : (s.setRd r).host = s.host := rfl
@[simp] theorem State.setRd_turns (s : State) (r : Reader) : (s.setRd r).turns = s.turns := rfl
@[simp] theorem State.setRd_draws (s : State) (r : Reader) : (s.setRd r).draws = s.draws := rfl

@[simp] theorem State.setWr_platform (s : State) (w : Writer) : (s.setWr w).platform = s.platform := rfl
@[simp] theorem State.setWr_mem (s : State) (w : Writer) : (s.setWr w).mem = s.mem := rfl
@[simp] theorem State.setWr_ctrl (s : State) (w : Writer) : (s.setWr w).ctrl = s.ctrl := rfl
@[simp] theorem State.setWr_cfgN (s : State) (w : Writer) : (s.setWr w).cfgN = s.cfgN := rfl
@[simp] theorem State.setWr_status (s : State) (w : Writer) : (s.setWr w).status = s.status := rfl
@[simp] theorem State.setWr_errcode (s : State) (w : Writer) : (s.setWr w).errcode = s.errcode := rfl
@[simp] theorem State.setWr_errinfo (s : State) (w : Writer) : (s.setWr w).errinfo = s.errinfo := rfl
@[simp] theorem State.setWr_cmd (s : State) (w : Writer) : (s.setWr w).cmd = s.cmd := rfl
@[simp] theorem State.setWr_result (s : State) (w : Writer) : (s.setWr w).result = s.result := rfl
@[simp] theorem State.setWr_result1 (s : State) (w : Writer) : (s.setWr w).result1 = s.result1 := rfl
@[simp] theorem State.setWr_arg0 (s : State) (w : Writer) : (s.setWr w).arg0 = s.arg0 := rfl
@[simp] theorem State.setWr_arg1 (s : State) (w : Writer) : (s.setWr w).arg1 = s.arg1 := rfl
@[simp] theorem State.setWr_arg2 (s : State) (w : Writer) : (s.setWr w).arg2 = s.arg2 := rfl
@[simp] theorem State.setWr_arg3 (s : State) (w : Writer) : (s.setWr w).arg3 = s.arg3 := rfl
@[simp] theorem State.setWr_rd (s : State) (w : Writer) : (s.setWr w).rd = s.rd := rfl
@[simp] theorem State.setWr_wr (s : State) (w : Writer) : (s.setWr w).wr = w := rfl
@[simp] theorem State.setWr_hdr (s : State) (w : Writer) : (s.setWr w).hdr = s.hdr := rfl
@[simp] theorem State.setWr_xe (s : State) (w : Writer) : (s.setWr w).xe = s.xe := rfl
@[simp] theorem State.setWr_xd (s : State) (w : Writer) : (s.setWr w).xd = s.xd := rfl
@[simp] theorem State.setWr_rawf (s : State) (w : Writer) : (s.setWr w).rawf = s.rawf := rfl
@[simp] theorem State.setWr_freq (s : State) (w : Writer) : (s.setWr w).freq = s.freq := rfl
@[simp] theorem State.setWr_sym (s : State) (w : Writer) : (s.setWr w).sym = s.sym := rfl
@[simp] theorem State.setWr_frq (s : State) (w : Writer) : (s.setWr w).frq = s.frq := rfl
@[simp] theorem State.setWr_cum (s : State) (w : Writer) : (s.setWr w).cum = s.cum := rfl
@[simp] theorem State.setWr_cums (s : State) (w : Writer) : (s.setWr w).cums = s.cums := rfl
@[simp] theorem State.setWr_host (s : State) (w : Writer) : (s.setWr w).host = s.host := rfl
@[simp] theorem State.setWr_turns (s : State) (w : Writer) : (s.setWr w).turns = s.turns := rfl
@[simp] theorem State.setWr_draws (s : State) (w : Writer) : (s.setWr w).draws = s.draws := rfl

@[simp] theorem State.setHdr_platform (s : State) (h : Header) : (s.setHdr h).platform = s.platform := rfl
@[simp] theorem State.setHdr_mem (s : State) (h : Header) : (s.setHdr h).mem = s.mem := rfl
@[simp] theorem State.setHdr_ctrl (s : State) (h : Header) : (s.setHdr h).ctrl = s.ctrl := rfl
@[simp] theorem State.setHdr_cfgN (s : State) (h : Header) : (s.setHdr h).cfgN = s.cfgN := rfl
@[simp] theorem State.setHdr_status (s : State) (h : Header) : (s.setHdr h).status = s.status := rfl
@[simp] theorem State.setHdr_errcode (s : State) (h : Header) : (s.setHdr h).errcode = s.errcode := rfl
@[simp] theorem State.setHdr_errinfo (s : State) (h : Header) : (s.setHdr h).errinfo = s.errinfo := rfl
@[simp] theorem State.setHdr_cmd (s : State) (h : Header) : (s.setHdr h).cmd = s.cmd := rfl
@[simp] theorem State.setHdr_result (s : State) (h : Header) : (s.setHdr h).result = s.result := rfl
@[simp] theorem State.setHdr_result1 (s : State) (h : Header) : (s.setHdr h).result1 = s.result1 := rfl
@[simp] theorem State.setHdr_arg0 (s : State) (h : Header) : (s.setHdr h).arg0 = s.arg0 := rfl
@[simp] theorem State.setHdr_arg1 (s : State) (h : Header) : (s.setHdr h).arg1 = s.arg1 := rfl
@[simp] theorem State.setHdr_arg2 (s : State) (h : Header) : (s.setHdr h).arg2 = s.arg2 := rfl
@[simp] theorem State.setHdr_arg3 (s : State) (h : Header) : (s.setHdr h).arg3 = s.arg3 := rfl
@[simp] theorem State.setHdr_rd (s : State) (h : Header) : (s.setHdr h).rd = s.rd := rfl
@[simp] theorem State.setHdr_wr (s : State) (h : Header) : (s.setHdr h).wr = s.wr := rfl
@[simp] theorem State.setHdr_hdr (s : State) (h : Header) : (s.setHdr h).hdr = h := rfl
@[simp] theorem State.setHdr_xe (s : State) (h : Header) : (s.setHdr h).xe = s.xe := rfl
@[simp] theorem State.setHdr_xd (s : State) (h : Header) : (s.setHdr h).xd = s.xd := rfl
@[simp] theorem State.setHdr_rawf (s : State) (h : Header) : (s.setHdr h).rawf = s.rawf := rfl
@[simp] theorem State.setHdr_freq (s : State) (h : Header) : (s.setHdr h).freq = s.freq := rfl
@[simp] theorem State.setHdr_sym (s : State) (h : Header) : (s.setHdr h).sym = s.sym := rfl
@[simp] theorem State.setHdr_frq (s : State) (h : Header) : (s.setHdr h).frq = s.frq := rfl
@[simp] theorem State.setHdr_cum (s : State) (h : Header) : (s.setHdr h).cum = s.cum := rfl
@[simp] theorem State.setHdr_cums (s : State) (h : Header) : (s.setHdr h).cums = s.cums := rfl
@[simp] theorem State.setHdr_host (s : State) (h : Header) : (s.setHdr h).host = s.host := rfl
@[simp] theorem State.setHdr_turns (s : State) (h : Header) : (s.setHdr h).turns = s.turns := rfl
@[simp] theorem State.setHdr_draws (s : State) (h : Header) : (s.setHdr h).draws = s.draws := rfl

@[simp] theorem State.setXe_platform (s : State) (x : Vector Word 32) : (s.setXe x).platform = s.platform := rfl
@[simp] theorem State.setXe_mem (s : State) (x : Vector Word 32) : (s.setXe x).mem = s.mem := rfl
@[simp] theorem State.setXe_ctrl (s : State) (x : Vector Word 32) : (s.setXe x).ctrl = s.ctrl := rfl
@[simp] theorem State.setXe_cfgN (s : State) (x : Vector Word 32) : (s.setXe x).cfgN = s.cfgN := rfl
@[simp] theorem State.setXe_status (s : State) (x : Vector Word 32) : (s.setXe x).status = s.status := rfl
@[simp] theorem State.setXe_errcode (s : State) (x : Vector Word 32) : (s.setXe x).errcode = s.errcode := rfl
@[simp] theorem State.setXe_errinfo (s : State) (x : Vector Word 32) : (s.setXe x).errinfo = s.errinfo := rfl
@[simp] theorem State.setXe_cmd (s : State) (x : Vector Word 32) : (s.setXe x).cmd = s.cmd := rfl
@[simp] theorem State.setXe_result (s : State) (x : Vector Word 32) : (s.setXe x).result = s.result := rfl
@[simp] theorem State.setXe_result1 (s : State) (x : Vector Word 32) : (s.setXe x).result1 = s.result1 := rfl
@[simp] theorem State.setXe_arg0 (s : State) (x : Vector Word 32) : (s.setXe x).arg0 = s.arg0 := rfl
@[simp] theorem State.setXe_arg1 (s : State) (x : Vector Word 32) : (s.setXe x).arg1 = s.arg1 := rfl
@[simp] theorem State.setXe_arg2 (s : State) (x : Vector Word 32) : (s.setXe x).arg2 = s.arg2 := rfl
@[simp] theorem State.setXe_arg3 (s : State) (x : Vector Word 32) : (s.setXe x).arg3 = s.arg3 := rfl
@[simp] theorem State.setXe_rd (s : State) (x : Vector Word 32) : (s.setXe x).rd = s.rd := rfl
@[simp] theorem State.setXe_wr (s : State) (x : Vector Word 32) : (s.setXe x).wr = s.wr := rfl
@[simp] theorem State.setXe_hdr (s : State) (x : Vector Word 32) : (s.setXe x).hdr = s.hdr := rfl
@[simp] theorem State.setXe_xe (s : State) (x : Vector Word 32) : (s.setXe x).xe = x := rfl
@[simp] theorem State.setXe_xd (s : State) (x : Vector Word 32) : (s.setXe x).xd = s.xd := rfl
@[simp] theorem State.setXe_rawf (s : State) (x : Vector Word 32) : (s.setXe x).rawf = s.rawf := rfl
@[simp] theorem State.setXe_freq (s : State) (x : Vector Word 32) : (s.setXe x).freq = s.freq := rfl
@[simp] theorem State.setXe_sym (s : State) (x : Vector Word 32) : (s.setXe x).sym = s.sym := rfl
@[simp] theorem State.setXe_frq (s : State) (x : Vector Word 32) : (s.setXe x).frq = s.frq := rfl
@[simp] theorem State.setXe_cum (s : State) (x : Vector Word 32) : (s.setXe x).cum = s.cum := rfl
@[simp] theorem State.setXe_cums (s : State) (x : Vector Word 32) : (s.setXe x).cums = s.cums := rfl
@[simp] theorem State.setXe_host (s : State) (x : Vector Word 32) : (s.setXe x).host = s.host := rfl
@[simp] theorem State.setXe_turns (s : State) (x : Vector Word 32) : (s.setXe x).turns = s.turns := rfl
@[simp] theorem State.setXe_draws (s : State) (x : Vector Word 32) : (s.setXe x).draws = s.draws := rfl

@[simp] theorem State.setXd_platform (s : State) (x : Vector Word 32) : (s.setXd x).platform = s.platform := rfl
@[simp] theorem State.setXd_mem (s : State) (x : Vector Word 32) : (s.setXd x).mem = s.mem := rfl
@[simp] theorem State.setXd_ctrl (s : State) (x : Vector Word 32) : (s.setXd x).ctrl = s.ctrl := rfl
@[simp] theorem State.setXd_cfgN (s : State) (x : Vector Word 32) : (s.setXd x).cfgN = s.cfgN := rfl
@[simp] theorem State.setXd_status (s : State) (x : Vector Word 32) : (s.setXd x).status = s.status := rfl
@[simp] theorem State.setXd_errcode (s : State) (x : Vector Word 32) : (s.setXd x).errcode = s.errcode := rfl
@[simp] theorem State.setXd_errinfo (s : State) (x : Vector Word 32) : (s.setXd x).errinfo = s.errinfo := rfl
@[simp] theorem State.setXd_cmd (s : State) (x : Vector Word 32) : (s.setXd x).cmd = s.cmd := rfl
@[simp] theorem State.setXd_result (s : State) (x : Vector Word 32) : (s.setXd x).result = s.result := rfl
@[simp] theorem State.setXd_result1 (s : State) (x : Vector Word 32) : (s.setXd x).result1 = s.result1 := rfl
@[simp] theorem State.setXd_arg0 (s : State) (x : Vector Word 32) : (s.setXd x).arg0 = s.arg0 := rfl
@[simp] theorem State.setXd_arg1 (s : State) (x : Vector Word 32) : (s.setXd x).arg1 = s.arg1 := rfl
@[simp] theorem State.setXd_arg2 (s : State) (x : Vector Word 32) : (s.setXd x).arg2 = s.arg2 := rfl
@[simp] theorem State.setXd_arg3 (s : State) (x : Vector Word 32) : (s.setXd x).arg3 = s.arg3 := rfl
@[simp] theorem State.setXd_rd (s : State) (x : Vector Word 32) : (s.setXd x).rd = s.rd := rfl
@[simp] theorem State.setXd_wr (s : State) (x : Vector Word 32) : (s.setXd x).wr = s.wr := rfl
@[simp] theorem State.setXd_hdr (s : State) (x : Vector Word 32) : (s.setXd x).hdr = s.hdr := rfl
@[simp] theorem State.setXd_xe (s : State) (x : Vector Word 32) : (s.setXd x).xe = s.xe := rfl
@[simp] theorem State.setXd_xd (s : State) (x : Vector Word 32) : (s.setXd x).xd = x := rfl
@[simp] theorem State.setXd_rawf (s : State) (x : Vector Word 32) : (s.setXd x).rawf = s.rawf := rfl
@[simp] theorem State.setXd_freq (s : State) (x : Vector Word 32) : (s.setXd x).freq = s.freq := rfl
@[simp] theorem State.setXd_sym (s : State) (x : Vector Word 32) : (s.setXd x).sym = s.sym := rfl
@[simp] theorem State.setXd_frq (s : State) (x : Vector Word 32) : (s.setXd x).frq = s.frq := rfl
@[simp] theorem State.setXd_cum (s : State) (x : Vector Word 32) : (s.setXd x).cum = s.cum := rfl
@[simp] theorem State.setXd_cums (s : State) (x : Vector Word 32) : (s.setXd x).cums = s.cums := rfl
@[simp] theorem State.setXd_host (s : State) (x : Vector Word 32) : (s.setXd x).host = s.host := rfl
@[simp] theorem State.setXd_turns (s : State) (x : Vector Word 32) : (s.setXd x).turns = s.turns := rfl
@[simp] theorem State.setXd_draws (s : State) (x : Vector Word 32) : (s.setXd x).draws = s.draws := rfl

@[simp] theorem State.setRawf_platform (s : State) (t : Vector Word 512) : (s.setRawf t).platform = s.platform := rfl
@[simp] theorem State.setRawf_mem (s : State) (t : Vector Word 512) : (s.setRawf t).mem = s.mem := rfl
@[simp] theorem State.setRawf_ctrl (s : State) (t : Vector Word 512) : (s.setRawf t).ctrl = s.ctrl := rfl
@[simp] theorem State.setRawf_cfgN (s : State) (t : Vector Word 512) : (s.setRawf t).cfgN = s.cfgN := rfl
@[simp] theorem State.setRawf_status (s : State) (t : Vector Word 512) : (s.setRawf t).status = s.status := rfl
@[simp] theorem State.setRawf_errcode (s : State) (t : Vector Word 512) : (s.setRawf t).errcode = s.errcode := rfl
@[simp] theorem State.setRawf_errinfo (s : State) (t : Vector Word 512) : (s.setRawf t).errinfo = s.errinfo := rfl
@[simp] theorem State.setRawf_cmd (s : State) (t : Vector Word 512) : (s.setRawf t).cmd = s.cmd := rfl
@[simp] theorem State.setRawf_result (s : State) (t : Vector Word 512) : (s.setRawf t).result = s.result := rfl
@[simp] theorem State.setRawf_result1 (s : State) (t : Vector Word 512) : (s.setRawf t).result1 = s.result1 := rfl
@[simp] theorem State.setRawf_arg0 (s : State) (t : Vector Word 512) : (s.setRawf t).arg0 = s.arg0 := rfl
@[simp] theorem State.setRawf_arg1 (s : State) (t : Vector Word 512) : (s.setRawf t).arg1 = s.arg1 := rfl
@[simp] theorem State.setRawf_arg2 (s : State) (t : Vector Word 512) : (s.setRawf t).arg2 = s.arg2 := rfl
@[simp] theorem State.setRawf_arg3 (s : State) (t : Vector Word 512) : (s.setRawf t).arg3 = s.arg3 := rfl
@[simp] theorem State.setRawf_rd (s : State) (t : Vector Word 512) : (s.setRawf t).rd = s.rd := rfl
@[simp] theorem State.setRawf_wr (s : State) (t : Vector Word 512) : (s.setRawf t).wr = s.wr := rfl
@[simp] theorem State.setRawf_hdr (s : State) (t : Vector Word 512) : (s.setRawf t).hdr = s.hdr := rfl
@[simp] theorem State.setRawf_xe (s : State) (t : Vector Word 512) : (s.setRawf t).xe = s.xe := rfl
@[simp] theorem State.setRawf_xd (s : State) (t : Vector Word 512) : (s.setRawf t).xd = s.xd := rfl
@[simp] theorem State.setRawf_rawf (s : State) (t : Vector Word 512) : (s.setRawf t).rawf = t := rfl
@[simp] theorem State.setRawf_freq (s : State) (t : Vector Word 512) : (s.setRawf t).freq = s.freq := rfl
@[simp] theorem State.setRawf_sym (s : State) (t : Vector Word 512) : (s.setRawf t).sym = s.sym := rfl
@[simp] theorem State.setRawf_frq (s : State) (t : Vector Word 512) : (s.setRawf t).frq = s.frq := rfl
@[simp] theorem State.setRawf_cum (s : State) (t : Vector Word 512) : (s.setRawf t).cum = s.cum := rfl
@[simp] theorem State.setRawf_cums (s : State) (t : Vector Word 512) : (s.setRawf t).cums = s.cums := rfl
@[simp] theorem State.setRawf_host (s : State) (t : Vector Word 512) : (s.setRawf t).host = s.host := rfl
@[simp] theorem State.setRawf_turns (s : State) (t : Vector Word 512) : (s.setRawf t).turns = s.turns := rfl
@[simp] theorem State.setRawf_draws (s : State) (t : Vector Word 512) : (s.setRawf t).draws = s.draws := rfl

@[simp] theorem State.setFreq_platform (s : State) (t : Vector Half 256) : (s.setFreq t).platform = s.platform := rfl
@[simp] theorem State.setFreq_mem (s : State) (t : Vector Half 256) : (s.setFreq t).mem = s.mem := rfl
@[simp] theorem State.setFreq_ctrl (s : State) (t : Vector Half 256) : (s.setFreq t).ctrl = s.ctrl := rfl
@[simp] theorem State.setFreq_cfgN (s : State) (t : Vector Half 256) : (s.setFreq t).cfgN = s.cfgN := rfl
@[simp] theorem State.setFreq_status (s : State) (t : Vector Half 256) : (s.setFreq t).status = s.status := rfl
@[simp] theorem State.setFreq_errcode (s : State) (t : Vector Half 256) : (s.setFreq t).errcode = s.errcode := rfl
@[simp] theorem State.setFreq_errinfo (s : State) (t : Vector Half 256) : (s.setFreq t).errinfo = s.errinfo := rfl
@[simp] theorem State.setFreq_cmd (s : State) (t : Vector Half 256) : (s.setFreq t).cmd = s.cmd := rfl
@[simp] theorem State.setFreq_result (s : State) (t : Vector Half 256) : (s.setFreq t).result = s.result := rfl
@[simp] theorem State.setFreq_result1 (s : State) (t : Vector Half 256) : (s.setFreq t).result1 = s.result1 := rfl
@[simp] theorem State.setFreq_arg0 (s : State) (t : Vector Half 256) : (s.setFreq t).arg0 = s.arg0 := rfl
@[simp] theorem State.setFreq_arg1 (s : State) (t : Vector Half 256) : (s.setFreq t).arg1 = s.arg1 := rfl
@[simp] theorem State.setFreq_arg2 (s : State) (t : Vector Half 256) : (s.setFreq t).arg2 = s.arg2 := rfl
@[simp] theorem State.setFreq_arg3 (s : State) (t : Vector Half 256) : (s.setFreq t).arg3 = s.arg3 := rfl
@[simp] theorem State.setFreq_rd (s : State) (t : Vector Half 256) : (s.setFreq t).rd = s.rd := rfl
@[simp] theorem State.setFreq_wr (s : State) (t : Vector Half 256) : (s.setFreq t).wr = s.wr := rfl
@[simp] theorem State.setFreq_hdr (s : State) (t : Vector Half 256) : (s.setFreq t).hdr = s.hdr := rfl
@[simp] theorem State.setFreq_xe (s : State) (t : Vector Half 256) : (s.setFreq t).xe = s.xe := rfl
@[simp] theorem State.setFreq_xd (s : State) (t : Vector Half 256) : (s.setFreq t).xd = s.xd := rfl
@[simp] theorem State.setFreq_rawf (s : State) (t : Vector Half 256) : (s.setFreq t).rawf = s.rawf := rfl
@[simp] theorem State.setFreq_freq (s : State) (t : Vector Half 256) : (s.setFreq t).freq = t := rfl
@[simp] theorem State.setFreq_sym (s : State) (t : Vector Half 256) : (s.setFreq t).sym = s.sym := rfl
@[simp] theorem State.setFreq_frq (s : State) (t : Vector Half 256) : (s.setFreq t).frq = s.frq := rfl
@[simp] theorem State.setFreq_cum (s : State) (t : Vector Half 256) : (s.setFreq t).cum = s.cum := rfl
@[simp] theorem State.setFreq_cums (s : State) (t : Vector Half 256) : (s.setFreq t).cums = s.cums := rfl
@[simp] theorem State.setFreq_host (s : State) (t : Vector Half 256) : (s.setFreq t).host = s.host := rfl
@[simp] theorem State.setFreq_turns (s : State) (t : Vector Half 256) : (s.setFreq t).turns = s.turns := rfl
@[simp] theorem State.setFreq_draws (s : State) (t : Vector Half 256) : (s.setFreq t).draws = s.draws := rfl

@[simp] theorem State.setTables_platform (s : State) (a : Vector Byte 2048) (b c : Vector Half 2048) (d : Vector Half 256) : (s.setTables a b c d).platform = s.platform := rfl
@[simp] theorem State.setTables_mem (s : State) (a : Vector Byte 2048) (b c : Vector Half 2048) (d : Vector Half 256) : (s.setTables a b c d).mem = s.mem := rfl
@[simp] theorem State.setTables_ctrl (s : State) (a : Vector Byte 2048) (b c : Vector Half 2048) (d : Vector Half 256) : (s.setTables a b c d).ctrl = s.ctrl := rfl
@[simp] theorem State.setTables_cfgN (s : State) (a : Vector Byte 2048) (b c : Vector Half 2048) (d : Vector Half 256) : (s.setTables a b c d).cfgN = s.cfgN := rfl
@[simp] theorem State.setTables_status (s : State) (a : Vector Byte 2048) (b c : Vector Half 2048) (d : Vector Half 256) : (s.setTables a b c d).status = s.status := rfl
@[simp] theorem State.setTables_errcode (s : State) (a : Vector Byte 2048) (b c : Vector Half 2048) (d : Vector Half 256) : (s.setTables a b c d).errcode = s.errcode := rfl
@[simp] theorem State.setTables_errinfo (s : State) (a : Vector Byte 2048) (b c : Vector Half 2048) (d : Vector Half 256) : (s.setTables a b c d).errinfo = s.errinfo := rfl
@[simp] theorem State.setTables_cmd (s : State) (a : Vector Byte 2048) (b c : Vector Half 2048) (d : Vector Half 256) : (s.setTables a b c d).cmd = s.cmd := rfl
@[simp] theorem State.setTables_result (s : State) (a : Vector Byte 2048) (b c : Vector Half 2048) (d : Vector Half 256) : (s.setTables a b c d).result = s.result := rfl
@[simp] theorem State.setTables_result1 (s : State) (a : Vector Byte 2048) (b c : Vector Half 2048) (d : Vector Half 256) : (s.setTables a b c d).result1 = s.result1 := rfl
@[simp] theorem State.setTables_arg0 (s : State) (a : Vector Byte 2048) (b c : Vector Half 2048) (d : Vector Half 256) : (s.setTables a b c d).arg0 = s.arg0 := rfl
@[simp] theorem State.setTables_arg1 (s : State) (a : Vector Byte 2048) (b c : Vector Half 2048) (d : Vector Half 256) : (s.setTables a b c d).arg1 = s.arg1 := rfl
@[simp] theorem State.setTables_arg2 (s : State) (a : Vector Byte 2048) (b c : Vector Half 2048) (d : Vector Half 256) : (s.setTables a b c d).arg2 = s.arg2 := rfl
@[simp] theorem State.setTables_arg3 (s : State) (a : Vector Byte 2048) (b c : Vector Half 2048) (d : Vector Half 256) : (s.setTables a b c d).arg3 = s.arg3 := rfl
@[simp] theorem State.setTables_rd (s : State) (a : Vector Byte 2048) (b c : Vector Half 2048) (d : Vector Half 256) : (s.setTables a b c d).rd = s.rd := rfl
@[simp] theorem State.setTables_wr (s : State) (a : Vector Byte 2048) (b c : Vector Half 2048) (d : Vector Half 256) : (s.setTables a b c d).wr = s.wr := rfl
@[simp] theorem State.setTables_hdr (s : State) (a : Vector Byte 2048) (b c : Vector Half 2048) (d : Vector Half 256) : (s.setTables a b c d).hdr = s.hdr := rfl
@[simp] theorem State.setTables_xe (s : State) (a : Vector Byte 2048) (b c : Vector Half 2048) (d : Vector Half 256) : (s.setTables a b c d).xe = s.xe := rfl
@[simp] theorem State.setTables_xd (s : State) (a : Vector Byte 2048) (b c : Vector Half 2048) (d : Vector Half 256) : (s.setTables a b c d).xd = s.xd := rfl
@[simp] theorem State.setTables_rawf (s : State) (a : Vector Byte 2048) (b c : Vector Half 2048) (d : Vector Half 256) : (s.setTables a b c d).rawf = s.rawf := rfl
@[simp] theorem State.setTables_freq (s : State) (a : Vector Byte 2048) (b c : Vector Half 2048) (d : Vector Half 256) : (s.setTables a b c d).freq = s.freq := rfl
@[simp] theorem State.setTables_sym (s : State) (a : Vector Byte 2048) (b c : Vector Half 2048) (d : Vector Half 256) : (s.setTables a b c d).sym = a := rfl
@[simp] theorem State.setTables_frq (s : State) (a : Vector Byte 2048) (b c : Vector Half 2048) (d : Vector Half 256) : (s.setTables a b c d).frq = b := rfl
@[simp] theorem State.setTables_cum (s : State) (a : Vector Byte 2048) (b c : Vector Half 2048) (d : Vector Half 256) : (s.setTables a b c d).cum = c := rfl
@[simp] theorem State.setTables_cums (s : State) (a : Vector Byte 2048) (b c : Vector Half 2048) (d : Vector Half 256) : (s.setTables a b c d).cums = d := rfl
@[simp] theorem State.setTables_host (s : State) (a : Vector Byte 2048) (b c : Vector Half 2048) (d : Vector Half 256) : (s.setTables a b c d).host = s.host := rfl
@[simp] theorem State.setTables_turns (s : State) (a : Vector Byte 2048) (b c : Vector Half 2048) (d : Vector Half 256) : (s.setTables a b c d).turns = s.turns := rfl
@[simp] theorem State.setTables_draws (s : State) (a : Vector Byte 2048) (b c : Vector Half 2048) (d : Vector Half 256) : (s.setTables a b c d).draws = s.draws := rfl

@[simp] theorem State.setHost_platform (s : State) (h : HostAgent) : (s.setHost h).platform = s.platform := rfl
@[simp] theorem State.setHost_mem (s : State) (h : HostAgent) : (s.setHost h).mem = s.mem := rfl
@[simp] theorem State.setHost_ctrl (s : State) (h : HostAgent) : (s.setHost h).ctrl = s.ctrl := rfl
@[simp] theorem State.setHost_cfgN (s : State) (h : HostAgent) : (s.setHost h).cfgN = s.cfgN := rfl
@[simp] theorem State.setHost_status (s : State) (h : HostAgent) : (s.setHost h).status = s.status := rfl
@[simp] theorem State.setHost_errcode (s : State) (h : HostAgent) : (s.setHost h).errcode = s.errcode := rfl
@[simp] theorem State.setHost_errinfo (s : State) (h : HostAgent) : (s.setHost h).errinfo = s.errinfo := rfl
@[simp] theorem State.setHost_cmd (s : State) (h : HostAgent) : (s.setHost h).cmd = s.cmd := rfl
@[simp] theorem State.setHost_result (s : State) (h : HostAgent) : (s.setHost h).result = s.result := rfl
@[simp] theorem State.setHost_result1 (s : State) (h : HostAgent) : (s.setHost h).result1 = s.result1 := rfl
@[simp] theorem State.setHost_arg0 (s : State) (h : HostAgent) : (s.setHost h).arg0 = s.arg0 := rfl
@[simp] theorem State.setHost_arg1 (s : State) (h : HostAgent) : (s.setHost h).arg1 = s.arg1 := rfl
@[simp] theorem State.setHost_arg2 (s : State) (h : HostAgent) : (s.setHost h).arg2 = s.arg2 := rfl
@[simp] theorem State.setHost_arg3 (s : State) (h : HostAgent) : (s.setHost h).arg3 = s.arg3 := rfl
@[simp] theorem State.setHost_rd (s : State) (h : HostAgent) : (s.setHost h).rd = s.rd := rfl
@[simp] theorem State.setHost_wr (s : State) (h : HostAgent) : (s.setHost h).wr = s.wr := rfl
@[simp] theorem State.setHost_hdr (s : State) (h : HostAgent) : (s.setHost h).hdr = s.hdr := rfl
@[simp] theorem State.setHost_xe (s : State) (h : HostAgent) : (s.setHost h).xe = s.xe := rfl
@[simp] theorem State.setHost_xd (s : State) (h : HostAgent) : (s.setHost h).xd = s.xd := rfl
@[simp] theorem State.setHost_rawf (s : State) (h : HostAgent) : (s.setHost h).rawf = s.rawf := rfl
@[simp] theorem State.setHost_freq (s : State) (h : HostAgent) : (s.setHost h).freq = s.freq := rfl
@[simp] theorem State.setHost_sym (s : State) (h : HostAgent) : (s.setHost h).sym = s.sym := rfl
@[simp] theorem State.setHost_frq (s : State) (h : HostAgent) : (s.setHost h).frq = s.frq := rfl
@[simp] theorem State.setHost_cum (s : State) (h : HostAgent) : (s.setHost h).cum = s.cum := rfl
@[simp] theorem State.setHost_cums (s : State) (h : HostAgent) : (s.setHost h).cums = s.cums := rfl
@[simp] theorem State.setHost_host (s : State) (h : HostAgent) : (s.setHost h).host = h := rfl
@[simp] theorem State.setHost_turns (s : State) (h : HostAgent) : (s.setHost h).turns = s.turns := rfl
@[simp] theorem State.setHost_draws (s : State) (h : HostAgent) : (s.setHost h).draws = s.draws := rfl

@[simp] theorem State.setTurns_platform (s : State) (t : List Turn) : (s.setTurns t).platform = s.platform := rfl
@[simp] theorem State.setTurns_mem (s : State) (t : List Turn) : (s.setTurns t).mem = s.mem := rfl
@[simp] theorem State.setTurns_ctrl (s : State) (t : List Turn) : (s.setTurns t).ctrl = s.ctrl := rfl
@[simp] theorem State.setTurns_cfgN (s : State) (t : List Turn) : (s.setTurns t).cfgN = s.cfgN := rfl
@[simp] theorem State.setTurns_status (s : State) (t : List Turn) : (s.setTurns t).status = s.status := rfl
@[simp] theorem State.setTurns_errcode (s : State) (t : List Turn) : (s.setTurns t).errcode = s.errcode := rfl
@[simp] theorem State.setTurns_errinfo (s : State) (t : List Turn) : (s.setTurns t).errinfo = s.errinfo := rfl
@[simp] theorem State.setTurns_cmd (s : State) (t : List Turn) : (s.setTurns t).cmd = s.cmd := rfl
@[simp] theorem State.setTurns_result (s : State) (t : List Turn) : (s.setTurns t).result = s.result := rfl
@[simp] theorem State.setTurns_result1 (s : State) (t : List Turn) : (s.setTurns t).result1 = s.result1 := rfl
@[simp] theorem State.setTurns_arg0 (s : State) (t : List Turn) : (s.setTurns t).arg0 = s.arg0 := rfl
@[simp] theorem State.setTurns_arg1 (s : State) (t : List Turn) : (s.setTurns t).arg1 = s.arg1 := rfl
@[simp] theorem State.setTurns_arg2 (s : State) (t : List Turn) : (s.setTurns t).arg2 = s.arg2 := rfl
@[simp] theorem State.setTurns_arg3 (s : State) (t : List Turn) : (s.setTurns t).arg3 = s.arg3 := rfl
@[simp] theorem State.setTurns_rd (s : State) (t : List Turn) : (s.setTurns t).rd = s.rd := rfl
@[simp] theorem State.setTurns_wr (s : State) (t : List Turn) : (s.setTurns t).wr = s.wr := rfl
@[simp] theorem State.setTurns_hdr (s : State) (t : List Turn) : (s.setTurns t).hdr = s.hdr := rfl
@[simp] theorem State.setTurns_xe (s : State) (t : List Turn) : (s.setTurns t).xe = s.xe := rfl
@[simp] theorem State.setTurns_xd (s : State) (t : List Turn) : (s.setTurns t).xd = s.xd := rfl
@[simp] theorem State.setTurns_rawf (s : State) (t : List Turn) : (s.setTurns t).rawf = s.rawf := rfl
@[simp] theorem State.setTurns_freq (s : State) (t : List Turn) : (s.setTurns t).freq = s.freq := rfl
@[simp] theorem State.setTurns_sym (s : State) (t : List Turn) : (s.setTurns t).sym = s.sym := rfl
@[simp] theorem State.setTurns_frq (s : State) (t : List Turn) : (s.setTurns t).frq = s.frq := rfl
@[simp] theorem State.setTurns_cum (s : State) (t : List Turn) : (s.setTurns t).cum = s.cum := rfl
@[simp] theorem State.setTurns_cums (s : State) (t : List Turn) : (s.setTurns t).cums = s.cums := rfl
@[simp] theorem State.setTurns_host (s : State) (t : List Turn) : (s.setTurns t).host = s.host := rfl
@[simp] theorem State.setTurns_turns (s : State) (t : List Turn) : (s.setTurns t).turns = t := rfl
@[simp] theorem State.setTurns_draws (s : State) (t : List Turn) : (s.setTurns t).draws = s.draws := rfl

@[simp] theorem State.setDraws_platform (s : State) (n : Nat) : (s.setDraws n).platform = s.platform := rfl
@[simp] theorem State.setDraws_mem (s : State) (n : Nat) : (s.setDraws n).mem = s.mem := rfl
@[simp] theorem State.setDraws_ctrl (s : State) (n : Nat) : (s.setDraws n).ctrl = s.ctrl := rfl
@[simp] theorem State.setDraws_cfgN (s : State) (n : Nat) : (s.setDraws n).cfgN = s.cfgN := rfl
@[simp] theorem State.setDraws_status (s : State) (n : Nat) : (s.setDraws n).status = s.status := rfl
@[simp] theorem State.setDraws_errcode (s : State) (n : Nat) : (s.setDraws n).errcode = s.errcode := rfl
@[simp] theorem State.setDraws_errinfo (s : State) (n : Nat) : (s.setDraws n).errinfo = s.errinfo := rfl
@[simp] theorem State.setDraws_cmd (s : State) (n : Nat) : (s.setDraws n).cmd = s.cmd := rfl
@[simp] theorem State.setDraws_result (s : State) (n : Nat) : (s.setDraws n).result = s.result := rfl
@[simp] theorem State.setDraws_result1 (s : State) (n : Nat) : (s.setDraws n).result1 = s.result1 := rfl
@[simp] theorem State.setDraws_arg0 (s : State) (n : Nat) : (s.setDraws n).arg0 = s.arg0 := rfl
@[simp] theorem State.setDraws_arg1 (s : State) (n : Nat) : (s.setDraws n).arg1 = s.arg1 := rfl
@[simp] theorem State.setDraws_arg2 (s : State) (n : Nat) : (s.setDraws n).arg2 = s.arg2 := rfl
@[simp] theorem State.setDraws_arg3 (s : State) (n : Nat) : (s.setDraws n).arg3 = s.arg3 := rfl
@[simp] theorem State.setDraws_rd (s : State) (n : Nat) : (s.setDraws n).rd = s.rd := rfl
@[simp] theorem State.setDraws_wr (s : State) (n : Nat) : (s.setDraws n).wr = s.wr := rfl
@[simp] theorem State.setDraws_hdr (s : State) (n : Nat) : (s.setDraws n).hdr = s.hdr := rfl
@[simp] theorem State.setDraws_xe (s : State) (n : Nat) : (s.setDraws n).xe = s.xe := rfl
@[simp] theorem State.setDraws_xd (s : State) (n : Nat) : (s.setDraws n).xd = s.xd := rfl
@[simp] theorem State.setDraws_rawf (s : State) (n : Nat) : (s.setDraws n).rawf = s.rawf := rfl
@[simp] theorem State.setDraws_freq (s : State) (n : Nat) : (s.setDraws n).freq = s.freq := rfl
@[simp] theorem State.setDraws_sym (s : State) (n : Nat) : (s.setDraws n).sym = s.sym := rfl
@[simp] theorem State.setDraws_frq (s : State) (n : Nat) : (s.setDraws n).frq = s.frq := rfl
@[simp] theorem State.setDraws_cum (s : State) (n : Nat) : (s.setDraws n).cum = s.cum := rfl
@[simp] theorem State.setDraws_cums (s : State) (n : Nat) : (s.setDraws n).cums = s.cums := rfl
@[simp] theorem State.setDraws_host (s : State) (n : Nat) : (s.setDraws n).host = s.host := rfl
@[simp] theorem State.setDraws_turns (s : State) (n : Nat) : (s.setDraws n).turns = s.turns := rfl
@[simp] theorem State.setDraws_draws (s : State) (n : Nat) : (s.setDraws n).draws = n := rfl

end Sys2Proof.Machine
end

