-- ==== Sys2Proof/Laws/Cmd.lean ====
section
/-!
SUPPORT. How the pieces of a rule run: one equation for each primitive, and for each shared operation one lemma that
says once all it can do.
-/
namespace Sys2Proof.Machine

/-! ## Sequencing -/

theorem Cmd.bind_run {α β : Type} (x : Cmd α) (f : α → Cmd β) (s : State) :
    (x >>= f) s = match x s with
      | .ok a s' => f a s'
      | .error e s' => .error e s' := by
  change EStateM.bind x f s = _
  unfold EStateM.bind
  cases x s <;> rfl

@[simp] theorem Cmd.pure_run {α : Type} (a : α) (s : State) : (pure a : Cmd α) s = .ok a s := rfl

@[simp] theorem Cmd.getState_run (s : State) : getState s = .ok s s := rfl

@[simp] theorem Cmd.set_run (s s' : State) : (set s' : Cmd PUnit) s = .ok ⟨⟩ s' := rfl

@[simp] theorem Cmd.modify_run (f : State → State) (s : State) : (modify f : Cmd PUnit) s = .ok ⟨⟩ (f s) := rfl

@[simp] theorem Cmd.raiseErr_run {α : Type} (e : Raised) (s : State) :
    (raiseErr e : Cmd α) s = .error (.raised e none) s := rfl

theorem Cmd.bind_of_ok {α β : Type} {x : Cmd α} {s s' : State} {a : α} (h : x s = .ok a s') (f : α → Cmd β) :
    (x >>= f) s = f a s' := by rw [Cmd.bind_run, h]

theorem Cmd.bind_of_error {α β : Type} {x : Cmd α} {s s' : State} {e : Stop} (h : x s = .error e s')
    (f : α → Cmd β) : (x >>= f) s = .error e s' := by rw [Cmd.bind_run, h]

/-- A sequence that ends well has a first part that ended well. -/
theorem Cmd.bind_ok {α β : Type} {x : Cmd α} {f : α → Cmd β} {s t : State} {b : β} (h : (x >>= f) s = .ok b t) :
    ∃ a s', x s = .ok a s' ∧ f a s' = .ok b t := by
  rw [Cmd.bind_run] at h
  cases hx : x s with
  | ok a s' => exact ⟨a, s', rfl, by simpa [hx] using h⟩
  | error e s' => simp [hx] at h

/-- A sequence that stops does so in its first part, or in the rest after the first part ended well. -/
theorem Cmd.bind_error {α β : Type} {x : Cmd α} {f : α → Cmd β} {s t : State} {e : Stop}
    (h : (x >>= f) s = .error e t) : x s = .error e t ∨ ∃ a s', x s = .ok a s' ∧ f a s' = .error e t := by
  rw [Cmd.bind_run] at h
  cases hx : x s with
  | ok a s' => exact .inr ⟨a, s', rfl, by simpa [hx] using h⟩
  | error e' s' => exact .inl (by simpa [hx] using h)

@[simp] theorem Cmd.getState_bind {β : Type} (f : State → Cmd β) (s : State) : (getState >>= f) s = f s s := rfl

@[simp] theorem Cmd.pure_bind_run {α β : Type} (a : α) (f : α → Cmd β) (s : State) :
    ((pure a : Cmd α) >>= f) s = f a s := rfl

theorem Cmd.require_of {p : Prop} [Decidable p] (h : p) (e : Raised) (s : State) : require p e s = .ok () s := by
  simp [require, h]

theorem Cmd.require_of_not {p : Prop} [Decidable p] (h : ¬p) (e : Raised) (s : State) :
    require p e s = .error (.raised e none) s := by
  simp [require, h]

theorem Cmd.require_bind {β : Type} {p : Prop} [Decidable p] (h : p) (e : Raised) (f : Unit → Cmd β) (s : State) :
    (require p e >>= f) s = f () s := Cmd.bind_of_ok (Cmd.require_of h e s) f

theorem Cmd.require_bind_not {β : Type} {p : Prop} [Decidable p] (h : ¬p) (e : Raised) (f : Unit → Cmd β)
    (s : State) : (require p e >>= f) s = .error (.raised e none) s := Cmd.bind_of_error (Cmd.require_of_not h e s) f

/-- All that `require` can do. -/
theorem Cmd.require_ok {p : Prop} [Decidable p] {e : Raised} {s t : State} {u : Unit} (h : require p e s = .ok u t) :
    p ∧ t = s := by
  by_cases hp : p
  · rw [Cmd.require_of hp] at h
    injection h with _ h
    exact ⟨hp, h.symm⟩
  · rw [Cmd.require_of_not hp] at h
    cases h

/-! ## Running a command to completion -/

theorem runCommand_ok {op : BitVec 8} {c : Cmd Unit} {s s' : State} {u : Unit} (h : c s = .ok u s') :
    runCommand op c s = .next s'.complete := by
  simp [runCommand, h]

theorem runCommand_raised {op : BitVec 8} {c : Cmd Unit} {s s' : State} {e : Raised} {x : Option Access}
    (h : c s = .error (.raised e x) s') : runCommand op c s = .next (s'.raise op e).complete := by
  simp [runCommand, h]

/-- All that running a command can do: its rule ended well, or raised an error of the block. -/
theorem runCommand_next {op : BitVec 8} {c : Cmd Unit} {s t : State} (h : runCommand op c s = .next t) :
    (∃ s', c s = .ok () s' ∧ t = s'.complete) ∨
      ∃ e x s', c s = .error (.raised e x) s' ∧ t = (s'.raise op e).complete := by
  unfold runCommand at h
  cases hc : c s with
  | ok u s' =>
    rw [hc] at h
    injection h with h
    exact .inl ⟨s', rfl, h.symm⟩
  | error e s' =>
    rw [hc] at h
    cases e with
    | raised e x =>
      injection h with h
      exact .inr ⟨e, x, s', rfl, h.symm⟩
    | fault f => cases h

theorem runCommand_not_refused {op : BitVec 8} {c : Cmd Unit} {s : State} {r : Refusal} :
    runCommand op c s ≠ .refused r := by
  unfold runCommand
  split <;> simp

/-- A command stops the model only by the fault its rule ends in. -/
theorem runCommand_fault {op : BitVec 8} {c : Cmd Unit} {s : State} {f : Fault} (h : runCommand op c s = .fault f) :
    ∃ s', c s = .error (.fault f) s' := by
  unfold runCommand at h
  split at h
  · cases h
  · cases h
  · rename_i g s' hc
    injection h with h
    exact ⟨s', by rw [hc, h]⟩

/-! ## Memory accesses -/

theorem memRead_ok {a lane : Nat} {n : Size} {s : State} (h : s.platform.accessError a n .read = none) :
    memRead a n lane s = .ok (s.mem.readLE a n.bytes) s := by
  simp [memRead, h]

theorem memRead_error {a lane : Nat} {n : Size} {s : State} {c : ErrCode}
    (h : s.platform.accessError a n .read = some c) :
    memRead a n lane s = .error (.raised ⟨c, 0, a, lane⟩ (some ⟨.read, a, n⟩)) s := by
  simp only [memRead, Cmd.getState_bind, h]
  rfl

/-- All that `MemRead` can do (R62). -/
theorem memRead_cases (a : Nat) (n : Size) (lane : Nat) (s : State) :
    (s.platform.accessError a n .read = none ∧ memRead a n lane s = .ok (s.mem.readLE a n.bytes) s) ∨
      ∃ c, s.platform.accessError a n .read = some c ∧
        memRead a n lane s = .error (.raised ⟨c, 0, a, lane⟩ (some ⟨.read, a, n⟩)) s := by
  cases h : s.platform.accessError a n .read with
  | none => exact .inl ⟨rfl, memRead_ok h⟩
  | some c => exact .inr ⟨c, rfl, memRead_error h⟩

theorem memWrite_ok {a v lane : Nat} {n : Size} {s : State} (h : s.platform.accessError a n .write = none) :
    memWrite a n v lane s = .ok () (s.setMem (s.mem.writeLE a v n.bytes)) := by
  simp [memWrite, h]

theorem memWrite_error {a v lane : Nat} {n : Size} {s : State} {c : ErrCode}
    (h : s.platform.accessError a n .write = some c) :
    memWrite a n v lane s = .error (.raised ⟨c, 0, a, lane⟩ (some ⟨.write, a, n⟩)) s := by
  simp only [memWrite, Cmd.getState_bind, h]
  rfl

/-- All that `MemWrite` can do (R63). -/
theorem memWrite_cases (a v : Nat) (n : Size) (lane : Nat) (s : State) :
    (s.platform.accessError a n .write = none ∧
        memWrite a n v lane s = .ok () (s.setMem (s.mem.writeLE a v n.bytes))) ∨
      ∃ c, s.platform.accessError a n .write = some c ∧
        memWrite a n v lane s = .error (.raised ⟨c, 0, a, lane⟩ (some ⟨.write, a, n⟩)) s := by
  cases h : s.platform.accessError a n .write with
  | none => exact .inl ⟨rfl, memWrite_ok h⟩
  | some c => exact .inr ⟨c, rfl, memWrite_error h⟩

/-- An access the platform answers lies inside the address space (R60, R65). -/
theorem accessError_none_le {p : Platform} {a : Nat} {n : Size} {k : AccessKind} (h : p.accessError a n k = none) :
    a + n.bytes ≤ Config.memBytes := by
  unfold Platform.accessError at h
  split at h
  · cases h
  · omega

/-- A platform that refuses nothing answers every access that lies below the CSR window. -/
theorem accessError_open {p : Platform} {a : Nat} {n : Size} {k : AccessKind} (hp : p.refused = [])
    (ha : a + n.bytes ≤ p.csrBase) (hm : p.csrBase ≤ Config.memBytes) : p.accessError a n k = none := by
  unfold Platform.accessError
  rw [if_neg (by omega), if_neg (by simp [overlaps]; omega)]
  simp [Platform.busOk, hp]

/-- The bytes a run of equal reads gives (R69). -/
theorem readEntries_ok {n : Size} {s : State} : ∀ (k a : Nat),
    (∀ i < k, s.platform.accessError (a + n.bytes * i) n .read = none) →
    readEntries n a k s = .ok ((List.range k).map fun i => s.mem.readLE (a + n.bytes * i) n.bytes) s
  | 0, _, _ => rfl
  | k + 1, a, h => by
    have h0 : s.platform.accessError a n .read = none := by simpa using h 0 (by omega)
    have ih := readEntries_ok (n := n) (s := s) k (a + n.bytes) (fun i hi => by
      have := h (i + 1) (by omega)
      rwa [Nat.mul_add, Nat.mul_one, Nat.add_comm (n.bytes * i), ← Nat.add_assoc] at this)
    unfold readEntries
    rw [Cmd.bind_of_ok (memRead_ok h0), Cmd.bind_of_ok ih]
    simp only [Cmd.pure_run, List.range_succ_eq_map, List.map_cons, List.map_map]
    congr 2
    refine List.map_congr_left fun i _ => ?_
    rw [Function.comp_apply, Nat.succ_eq_add_one, Nat.mul_add, Nat.mul_one, Nat.add_comm (n.bytes * i), Nat.add_assoc]

/-- A run of equal reads changes nothing, whichever way it ends. -/
theorem readEntries_state {n : Size} {s : State} : ∀ (k a : Nat),
    (∃ l, readEntries n a k s = .ok l s ∧ l.length = k) ∨ ∃ e x, readEntries n a k s = .error (.raised e x) s
  | 0, _ => .inl ⟨[], rfl, rfl⟩
  | k + 1, a => by
    unfold readEntries
    rcases memRead_cases a n 0 s with ⟨-, h⟩ | ⟨c, -, h⟩
    · rw [Cmd.bind_of_ok h]
      rcases readEntries_state (n := n) (s := s) k (a + n.bytes) with ⟨l, hl, hk⟩ | ⟨e, x, he⟩
      · exact .inl ⟨_ :: l, by rw [Cmd.bind_of_ok hl]; rfl, by simp [hk]⟩
      · exact .inr ⟨e, x, by rw [Cmd.bind_of_error he]⟩
    · exact .inr ⟨_, _, by rw [Cmd.bind_of_error h]⟩

/-- Memory after one store for each value, at rising addresses. -/
def storeEntries (n : Nat) : Memory → Nat → List Nat → Memory
  | m, _, [] => m
  | m, a, v :: vs => storeEntries n (m.writeLE a v n) (a + n) vs

/-- What a run of equal stores leaves (R69). -/
theorem writeEntries_ok {n : Size} : ∀ (l : List Nat) (a : Nat) {s : State},
    (∀ i < l.length, s.platform.accessError (a + n.bytes * i) n .write = none) →
    writeEntries n a l s = .ok () (s.setMem (storeEntries n.bytes s.mem a l))
  | [], _, s, _ => by simp [writeEntries, storeEntries, State.setMem]
  | v :: l, a, s, h => by
    have h0 : s.platform.accessError a n .write = none := by simpa using h 0 (by simp)
    have ih := writeEntries_ok (n := n) l (a + n.bytes) (s := s.setMem (s.mem.writeLE a v n.bytes)) (fun i hi => by
      have := h (i + 1) (by simpa using hi)
      rwa [Nat.mul_add, Nat.mul_one, Nat.add_comm (n.bytes * i), ← Nat.add_assoc] at this)
    unfold writeEntries
    rw [Cmd.bind_of_ok (memWrite_ok h0), ih]
    simp [storeEntries, State.setMem]

/-- A run of equal stores changes memory and nothing else, whichever way it ends (R232). -/
theorem writeEntries_state {n : Size} : ∀ (l : List Nat) (a : Nat) (s : State),
    ∃ m, writeEntries n a l s = .ok () (s.setMem m) ∨
      ∃ e x, writeEntries n a l s = .error (.raised e x) (s.setMem m)
  | [], _, s => ⟨s.mem, .inl rfl⟩
  | v :: l, a, s => by
    unfold writeEntries
    rcases memWrite_cases a v n 0 s with ⟨-, h⟩ | ⟨c, -, h⟩
    · rw [Cmd.bind_of_ok h]
      obtain ⟨m, hm⟩ := writeEntries_state (n := n) l (a + n.bytes) (s.setMem (s.mem.writeLE a v n.bytes))
      exact ⟨m, by simpa [State.setMem] using hm⟩
    · exact ⟨s.mem, .inr ⟨_, _, by rw [Cmd.bind_of_error h]; rfl⟩⟩

theorem storeEntries_wf {n : Nat} : ∀ (l : List Nat) {m : Memory} {a : Nat}, m.wf = true →
    a + n * l.length ≤ Config.memBytes → (storeEntries n m a l).wf = true
  | [], _, _, h, _ => h
  | v :: l, m, a, h, ha => by
    rw [List.length_cons, Nat.mul_add, Nat.mul_one] at ha
    exact storeEntries_wf l (Memory.wf_writeLE n h (by omega)) (by omega)

/-- Outside its region a run of stores changes nothing. -/
theorem storeEntries_outside {n : Nat} : ∀ (l : List Nat) {m : Memory} {a x : Nat}, m.wf = true →
    a + n * l.length ≤ Config.memBytes → (x < a ∨ a + n * l.length ≤ x) → (storeEntries n m a l).read x = m.read x
  | [], _, _, _, _, _, _ => rfl
  | v :: l, m, a, x, h, ha, hx => by
    rw [List.length_cons, Nat.mul_add, Nat.mul_one] at ha hx
    unfold storeEntries
    rw [storeEntries_outside l (Memory.wf_writeLE n h (by omega)) (by omega) (by omega),
      Memory.read_writeLE_outside n a v x h (by omega) (by omega)]

/-- Each entry of a run of stores reads back as the value stored. -/
theorem storeEntries_entry {n : Nat} : ∀ (l : List Nat) {m : Memory} {a : Nat}, m.wf = true →
    a + n * l.length ≤ Config.memBytes → ∀ i (hi : i < l.length),
    (storeEntries n m a l).readLE (a + n * i) n = l[i] % 256 ^ n
  | [], _, _, _, _, i, hi => by simp at hi
  | v :: l, m, a, h, ha, i, hi => by
    rw [List.length_cons, Nat.mul_add, Nat.mul_one] at ha
    have hw := Memory.wf_writeLE n h (a := a) (v := v) (by omega)
    unfold storeEntries
    cases i with
    | zero =>
      rw [Nat.mul_zero, Nat.add_zero, List.getElem_cons_zero, ← Memory.readLE_writeLE n a v h (by omega)]
      exact Memory.readLE_congr n a fun k hk => storeEntries_outside (n := n) l hw (by omega) (by omega)
    | succ i =>
      have := storeEntries_entry (n := n) l hw (a := a + n) (by omega) i (by simpa using hi)
      rw [List.getElem_cons_succ, ← this, Nat.mul_add, Nat.mul_one]
      congr 1
      omega

/-! ## Vectors and lanes -/

theorem entryAt_lt {α : Type} {n i : Nat} (v : Vector α n) (d : α) (h : i < n) : entryAt v i d = v[i] := by
  simp [entryAt, h]

theorem entryAt_ge {α : Type} {n i : Nat} (v : Vector α n) (d : α) (h : n ≤ i) : entryAt v i d = d := by
  simp [entryAt, h]

theorem entryAt_ofListD {α : Type} (n : Nat) (l : List α) (d : α) (i : Nat) (h : i < n) :
    entryAt (ofListD n l d) i d = (l[i]?).getD d := by
  rw [entryAt_lt _ _ h]
  simp only [ofListD, Vector.getElem_mk, List.getElem_toArray, List.getElem_take]
  rcases Nat.lt_or_ge i l.length with hl | hl
  · simp [List.getElem_append_left, hl]
  · simp [List.getElem_append_right, hl]

theorem entryAt_overlay {α : Type} {n : Nat} (v : Vector α n) (l : List α) (d : α) (i : Nat) (h : i < n) :
    entryAt (overlay v l) i d = if h' : i < l.length then l[i] else v[i] := by
  rw [entryAt_lt _ _ h]
  simp only [overlay, Vector.getElem_mk, List.getElem_toArray]
  split
  · rename_i hl
    rw [List.getElem_append_left (by simp; omega)]
    simp
  · rename_i hl
    rw [List.getElem_append_right (by simp; omega)]
    simp only [List.getElem_drop, List.length_take, Vector.getElem_toList]
    congr 1
    omega

theorem laneAt_setLane (x : Vector Word 32) (j v k : Nat) (hk : k < 32) :
    laneAt (setLane x j v) k = if k = j then v % 2 ^ 32 else laneAt x k := by
  rw [laneAt, laneAt, setLane, entryAt_lt _ _ hk, entryAt_lt _ _ hk, Vector.getElem_setIfInBounds]
  by_cases h : k = j
  · rw [if_pos h.symm, if_pos h, BitVec.toNat_ofNat]
  · rw [if_neg (Ne.symm h), if_neg h]

theorem laneAt_lt (x : Vector Word 32) (j : Nat) : laneAt x j < 2 ^ 32 := (entryAt x j 0).isLt

@[simp] theorem laneAt_resetLanes (j : Nat) (hj : j < 32) : laneAt resetLanes j = 2048 := by
  rw [laneAt, entryAt_lt _ _ hj, resetLanes, Vector.getElem_replicate]
  rfl

/-! ## Guarded array reads -/

theorem readRaw_ok {s : State} (h : s.status.rawValid = true) :
    readRaw s = .ok (s.rawf.toList.map BitVec.toNat) s := by
  unfold readRaw
  rw [Cmd.getState_bind, guardArray, if_pos h]
  rfl

theorem readFreq_ok {s : State} (h : s.status.histValid = true) :
    readFreq s = .ok (s.freq.toList.map BitVec.toNat) s := by
  unfold readFreq
  rw [Cmd.getState_bind, guardArray, if_pos h]
  rfl

theorem readStart_ok {s : State} (h : s.status.tblValid = true) (σ : Nat) :
    readStart σ s = .ok (entryAt s.cums σ 0).toNat s := by
  unfold readStart
  rw [Cmd.getState_bind, guardArray, if_pos h]
  rfl

theorem readSlot_ok {s : State} (h : s.status.tblValid = true) (slot : Nat) :
    readSlot slot s =
      .ok ((entryAt s.sym slot 0).toNat, (entryAt s.frq slot 0).toNat, (entryAt s.cum slot 0).toNat) s := by
  unfold readSlot
  rw [Cmd.getState_bind, guardArray, if_pos h]
  rfl

/-- The lane check of command decode (R85). -/
theorem checkLane_ok {lane : Nat} {s : State} (h : lane < s.lanes) : checkLane lane s = .ok () s := by
  simp [checkLane, require, h]

theorem checkLane_bad {lane : Nat} {s : State} (h : s.lanes ≤ lane) :
    checkLane lane s = .error (.raised ⟨.badLane, 0, lane, lane⟩ none) s := by
  simp [checkLane, require, Nat.not_lt.mpr h]

end Sys2Proof.Machine
end

