-- ==== Sys2Proof/Laws/BitIO.lean ====
section
/-!
SUPPORT. What the bit reader and writer can do: one lemma for each way `readBits`, `writeBits`, `brInit` and `bwInit`
end, one that lists all of them, and what the buffered bits are afterwards (41_bitio.md R110 to R114).
-/
namespace Sys2Proof.Machine

/-! ## The reader -/

/-- The next word stands where R112 says. -/
theorem Reader.nextWord_eq_some {r : Reader} {a : Nat} : r.nextWord = some a ↔ r.WordAt a := by
  unfold Reader.nextWord Reader.WordAt
  cases r.dir
  · by_cases h : r.base.toNat + 2 ≤ r.ptr.toNat <;> simp [h, eq_comm]
  · by_cases h : r.ptr.toNat + 2 ≤ r.lim.toNat <;> simp [h, eq_comm]

/-- No word is left exactly when the region does not hold another one. -/
theorem Reader.nextWord_eq_none {r : Reader} : r.nextWord = none ↔ ∀ a, ¬r.WordAt a := by
  constructor
  · intro h a ha
    rw [Reader.nextWord_eq_some.mpr ha] at h
    cases h
  · intro h
    cases hn : r.nextWord with
    | none => rfl
    | some a => exact absurd (Reader.nextWord_eq_some.mp hn) (h a)

theorem readBits_buffered {r : Reader} {n lane : Nat} {s : State} (h : n ≤ r.cnt.toNat) :
    readBits r n lane s = .ok (r.pop n) s := by
  unfold readBits
  rw [if_neg (by omega)]
  rfl

theorem readBits_load {r : Reader} {n lane a : Nat} {s : State} (h : r.cnt.toNat < n) (ha : r.nextWord = some a)
    (hp : s.platform.accessError a .b2 .read = none) :
    readBits r n lane s = .ok ((r.load (s.mem.readLE a 2)).pop n) s := by
  unfold readBits
  rw [if_pos h, ha]
  exact Cmd.bind_of_ok (memRead_ok hp) _

theorem readBits_noWord {r : Reader} {n lane : Nat} {s : State} (h : r.cnt.toNat < n) (ha : r.nextWord = none) :
    readBits r n lane s = .error (.raised ⟨.malformedStream, 0, r.ptr.toNat, lane⟩ none) s := by
  unfold readBits
  rw [if_pos h, ha]
  rfl

theorem readBits_refused {r : Reader} {n lane a : Nat} {s : State} {c : ErrCode} (h : r.cnt.toNat < n)
    (ha : r.nextWord = some a) (hp : s.platform.accessError a .b2 .read = some c) :
    readBits r n lane s = .error (.raised ⟨c, 0, a, lane⟩ (some ⟨.read, a, .b2⟩)) s := by
  unfold readBits
  rw [if_pos h, ha]
  exact Cmd.bind_of_error (memRead_error hp) _

/-- All that `readbits` can do: it leaves the state, and either takes buffered bits, or fetches one word and takes bits,
or raises an error (R112). -/
theorem readBits_cases (r : Reader) (n lane : Nat) (s : State) :
    (n ≤ r.cnt.toNat ∧ readBits r n lane s = .ok (r.pop n) s) ∨
      (∃ a, r.cnt.toNat < n ∧ r.nextWord = some a ∧ s.platform.accessError a .b2 .read = none ∧
        readBits r n lane s = .ok ((r.load (s.mem.readLE a 2)).pop n) s) ∨
      (r.cnt.toNat < n ∧ r.nextWord = none ∧
        readBits r n lane s = .error (.raised ⟨.malformedStream, 0, r.ptr.toNat, lane⟩ none) s) ∨
      ∃ a c, r.cnt.toNat < n ∧ r.nextWord = some a ∧ s.platform.accessError a .b2 .read = some c ∧
        readBits r n lane s = .error (.raised ⟨c, 0, a, lane⟩ (some ⟨.read, a, .b2⟩)) s := by
  rcases Nat.lt_or_ge r.cnt.toNat n with h | h
  · cases ha : r.nextWord with
    | none => exact .inr (.inr (.inl ⟨h, rfl, readBits_noWord h ha⟩))
    | some a =>
      cases hp : s.platform.accessError a .b2 .read with
      | none => exact .inr (.inl ⟨a, h, rfl, hp, readBits_load h ha hp⟩)
      | some c => exact .inr (.inr (.inr ⟨a, c, h, rfl, hp, readBits_refused h ha hp⟩))
  · exact .inl ⟨h, readBits_buffered h⟩

/-- `readbits` leaves the state, whichever way it ends. -/
theorem readBits_state (r : Reader) (n lane : Nat) (s : State) :
    (∃ r' v, readBits r n lane s = .ok (r', v) s) ∨ ∃ e x, readBits r n lane s = .error (.raised e x) s := by
  rcases readBits_cases r n lane s with ⟨-, h⟩ | ⟨a, -, -, -, h⟩ | ⟨-, -, h⟩ | ⟨a, c, -, -, -, h⟩
  · exact .inl ⟨_, _, h⟩
  · exact .inl ⟨_, _, h⟩
  · exact .inr ⟨_, _, h⟩
  · exact .inr ⟨_, _, h⟩

/-- A value that fits below the buffered bits is appended by adding it. -/
theorem shift_or_low (x w : Nat) (h : w < 65536) : x <<< 16 ||| w = x * 65536 + w := by
  rw [Nat.shiftLeft_eq, Nat.mul_comm x]
  exact (Nat.two_pow_add_eq_or_of_lt (i := 16) h x).symm

theorem Memory.readLE_two_lt (m : Memory) (a : Nat) : m.readLE a 2 < 65536 := Memory.readLE_lt m 2 a

/-- The buffered bits after a word is loaded (R112). -/
theorem Reader.load_buf {r : Reader} {wd : Nat} (hw : wd < 65536) (hb : r.buf.toNat < 65536) :
    (r.load wd).buf.toNat = r.buf.toNat * 65536 + wd := by
  have : r.buf.toNat * 65536 + wd < 2 ^ 32 := by omega
  simp only [Reader.load, shift_or_low _ _ hw, BitVec.toNat_ofNat, Nat.mod_eq_of_lt this]

/-- The number of buffered bits after a word is loaded (R112). -/
theorem Reader.load_cnt {r : Reader} {wd : Nat} (h : r.cnt.toNat ≤ 15) :
    (r.load wd).cnt.toNat = r.cnt.toNat + 16 := by
  have h16 : (16 : BitVec 5).toNat = 16 := rfl
  simp only [Reader.load, BitVec.toNat_add, h16]
  omega

@[simp] theorem Reader.load_base (r : Reader) (wd : Nat) : (r.load wd).base = r.base := rfl
@[simp] theorem Reader.load_lim (r : Reader) (wd : Nat) : (r.load wd).lim = r.lim := rfl
@[simp] theorem Reader.load_dir (r : Reader) (wd : Nat) : (r.load wd).dir = r.dir := rfl
@[simp] theorem Reader.pop_base (r : Reader) (n : Nat) : (r.pop n).1.base = r.base := rfl
@[simp] theorem Reader.pop_lim (r : Reader) (n : Nat) : (r.pop n).1.lim = r.lim := rfl
@[simp] theorem Reader.pop_ptr (r : Reader) (n : Nat) : (r.pop n).1.ptr = r.ptr := rfl
@[simp] theorem Reader.pop_dir (r : Reader) (n : Nat) : (r.pop n).1.dir = r.dir := rfl

theorem Reader.pop_cnt (r : Reader) (n : Nat) : (r.pop n).1.cnt.toNat = r.cnt.toNat - n := by
  have := r.cnt.isLt
  simp only [Reader.pop, BitVec.toNat_ofNat]
  omega

theorem Reader.pop_buf (r : Reader) (n : Nat) : (r.pop n).1.buf.toNat = r.buf.toNat % 2 ^ (r.cnt.toNat - n) := by
  have := r.buf.isLt
  have := Nat.mod_le r.buf.toNat (2 ^ (r.cnt.toNat - n))
  simp only [Reader.pop, BitVec.toNat_ofNat]
  omega

/-- What a read returns: the top `n` of the valid bits (R112). -/
theorem Reader.pop_value (r : Reader) (n : Nat) :
    (r.pop n).2 = r.buf.toNat / 2 ^ (r.cnt.toNat - n) % 2 ^ n := by
  simp only [Reader.pop, Nat.shiftRight_eq_div_pow]

theorem Reader.pop_value_lt (r : Reader) (n : Nat) : (r.pop n).2 < 2 ^ n := by
  rw [Reader.pop_value]
  exact Nat.mod_lt _ (by positivity)

/-- The pointer after a word is loaded: at the word backward, past it forward (R112). -/
theorem Reader.load_ptr {r : Reader} {wd a : Nat} (h : r.nextWord = some a) :
    (r.load wd).ptr.toNat = if r.dir then a + 2 else a := by
  have hw := Reader.nextWord_eq_some.mp h
  have := r.ptr.isLt
  have := r.lim.isLt
  rcases hw with ⟨hd, h1, h2⟩ | ⟨hd, h1, h2⟩
  · simp only [Reader.load, hd]
    rw [if_neg (by simp), if_neg (by simp), BitVec.toNat_sub]
    simp
    omega
  · simp only [Reader.load, hd, if_true, BitVec.toNat_add]
    simp
    omega

/-! ## The writer -/

/-- The pending bits with a value above them, as a sum (R110). -/
theorem Writer.append_eq {w : Writer} (v n : Nat) (h : w.buf.toNat < 2 ^ w.cnt.toNat) :
    w.append v n = w.buf.toNat + v % 2 ^ n * 2 ^ w.cnt.toNat := by
  rw [Writer.append, Nat.shiftLeft_eq, Nat.or_comm, Nat.mul_comm (v % 2 ^ n),
    ← Nat.two_pow_add_eq_or_of_lt h, Nat.add_comm]

/-- The writer after a value that completes no word (R114). -/
def Writer.pending (w : Writer) (v n : Nat) : Writer :=
  { w with buf := BitVec.ofNat 32 (w.append v n), cnt := BitVec.ofNat 5 (w.cnt.toNat + n) }

/-- The writer after a value that completes a word (R114). -/
def Writer.stored (w : Writer) (v n : Nat) : Writer :=
  { w with
    ptr := w.ptr + 2
    buf := BitVec.ofNat 32 (w.append v n >>> 16)
    cnt := BitVec.ofNat 5 (w.cnt.toNat + n - 16) }

theorem writeBits_pending {w : Writer} {v n lane : Nat} {s : State} (h : w.cnt.toNat + n < 16) :
    writeBits w v n lane s = .ok (w.pending v n, 0) s := by
  unfold writeBits
  rw [if_neg (by omega)]
  rfl

theorem writeBits_stored {w : Writer} {v n lane : Nat} {s : State} (h : 16 ≤ w.cnt.toNat + n)
    (hr : w.ptr.toNat + 2 ≤ w.lim.toNat) (hp : s.platform.accessError w.ptr.toNat .b2 .write = none) :
    writeBits w v n lane s =
      .ok (w.stored v n, 1) (s.setMem (s.mem.writeLE w.ptr.toNat (w.append v n % 65536) 2)) := by
  unfold writeBits
  simp only [if_pos h]
  rw [Cmd.require_bind hr, Cmd.bind_of_ok (memWrite_ok hp)]
  rfl

theorem writeBits_full {w : Writer} {v n lane : Nat} {s : State} (h : 16 ≤ w.cnt.toNat + n)
    (hr : w.lim.toNat < w.ptr.toNat + 2) :
    writeBits w v n lane s = .error (.raised ⟨.writeOverflow, 0, w.ptr.toNat, lane⟩ none) s := by
  unfold writeBits
  simp only [if_pos h]
  exact Cmd.require_bind_not (by omega) _ _ _

theorem writeBits_refused {w : Writer} {v n lane : Nat} {s : State} {c : ErrCode} (h : 16 ≤ w.cnt.toNat + n)
    (hr : w.ptr.toNat + 2 ≤ w.lim.toNat) (hp : s.platform.accessError w.ptr.toNat .b2 .write = some c) :
    writeBits w v n lane s =
      .error (.raised ⟨c, 0, w.ptr.toNat, lane⟩ (some ⟨.write, w.ptr.toNat, .b2⟩)) s := by
  unfold writeBits
  simp only [if_pos h]
  rw [Cmd.require_bind hr, Cmd.bind_of_error (memWrite_error hp)]

/-- All that `writebits` can do (R114). -/
theorem writeBits_cases (w : Writer) (v n lane : Nat) (s : State) :
    (w.cnt.toNat + n < 16 ∧ writeBits w v n lane s = .ok (w.pending v n, 0) s) ∨
      (16 ≤ w.cnt.toNat + n ∧ w.ptr.toNat + 2 ≤ w.lim.toNat ∧
        s.platform.accessError w.ptr.toNat .b2 .write = none ∧
        writeBits w v n lane s =
          .ok (w.stored v n, 1) (s.setMem (s.mem.writeLE w.ptr.toNat (w.append v n % 65536) 2))) ∨
      ∃ e x, 16 ≤ w.cnt.toNat + n ∧ writeBits w v n lane s = .error (.raised e x) s := by
  rcases Nat.lt_or_ge (w.cnt.toNat + n) 16 with h | h
  · exact .inl ⟨h, writeBits_pending h⟩
  · rcases Nat.lt_or_ge w.lim.toNat (w.ptr.toNat + 2) with hr | hr
    · exact .inr (.inr ⟨_, _, h, writeBits_full h hr⟩)
    · cases hp : s.platform.accessError w.ptr.toNat .b2 .write with
      | none => exact .inr (.inl ⟨h, hr, rfl, writeBits_stored h hr hp⟩)
      | some c => exact .inr (.inr ⟨_, _, h, writeBits_refused h hr hp⟩)

/-! ## The two inits -/

/-- The reader that `BR_INIT` sets up (R111). -/
def Reader.fresh (base lim : Nat) (dir : Bool) : Reader :=
  { base := BitVec.ofNat 32 base, lim := BitVec.ofNat 32 lim,
    ptr := if dir then BitVec.ofNat 32 base else BitVec.ofNat 32 lim, buf := 0, cnt := 0, dir := dir }

/-- The writer that `BW_INIT` sets up (R113). -/
def Writer.fresh (base lim : Nat) : Writer :=
  { base := BitVec.ofNat 32 base, lim := BitVec.ofNat 32 lim, ptr := BitVec.ofNat 32 base, buf := 0, cnt := 0 }

theorem brInit_ok {base lim : Nat} {dir : Bool} {s : State} (h : base ≤ lim ∧ (lim - base) % 2 = 0) :
    brInit base lim dir s = .ok () (s.setRd (Reader.fresh base lim dir)) := by
  unfold brInit
  rw [Cmd.require_bind h]
  rfl

theorem brInit_bad {base lim : Nat} {dir : Bool} {s : State} (h : ¬(base ≤ lim ∧ (lim - base) % 2 = 0)) :
    brInit base lim dir s = .error (.raised ⟨.badArg, 2, base, 0⟩ none) s := by
  unfold brInit
  exact Cmd.require_bind_not h _ _ _

theorem bwInit_ok {base lim : Nat} {s : State} (h : base ≤ lim ∧ (lim - base) % 2 = 0) :
    bwInit base lim s = .ok () (s.setWr (Writer.fresh base lim)) := by
  unfold bwInit
  rw [Cmd.require_bind h]
  rfl

theorem bwInit_bad {base lim : Nat} {s : State} (h : ¬(base ≤ lim ∧ (lim - base) % 2 = 0)) :
    bwInit base lim s = .error (.raised ⟨.badArg, 3, base, 0⟩ none) s := by
  unfold bwInit
  exact Cmd.require_bind_not h _ _ _

end Sys2Proof.Machine
end

