-- ==== Sys2Proof/Laws/Table.lean ====
section
/-!
SUPPORT. The rows and start slots of a table: how many there are, and which row stands at a slot (43_table.md R150,
R151).
-/
namespace Sys2Proof.Machine

@[simp] theorem startSlots_length : ∀ (c : Nat) (l : List Nat), (startSlots c l).length = l.length
  | _, [] => rfl
  | c, f :: fs => by simp [startSlots, startSlots_length]

/-- The start slot of a symbol is the sum of the frequencies before it (R150). -/
theorem startSlots_getElem : ∀ (c : Nat) (l : List Nat) (i : Nat) (h : i < l.length),
    (startSlots c l)[i]'(by simpa using h) = c + (l.take i).sum
  | _, [], _, h => by simp at h
  | c, f :: fs, 0, _ => by simp [startSlots]
  | c, f :: fs, i + 1, h => by
    simp only [startSlots, List.getElem_cons_succ, List.take_succ_cons, List.sum_cons]
    rw [startSlots_getElem (c + f) fs i (by simpa using h)]
    omega

@[simp] theorem slotRows_length : ∀ (σ c : Nat) (l : List Nat), (slotRows σ c l).length = l.sum
  | _, _, [] => rfl
  | σ, c, f :: fs => by simp [slotRows, slotRows_length]

/-- The row at a slot of symbol number `i` (R150). -/
theorem slotRows_getElem : ∀ (σ c : Nat) (l : List Nat) (i k : Nat) (hi : i < l.length), k < l[i] →
    (slotRows σ c l)[(l.take i).sum + k]? = some (σ + i, l[i], c + (l.take i).sum)
  | _, _, [], _, _, hi, _ => by simp at hi
  | σ, c, f :: fs, 0, k, _, hk => by
    have hk' : k < f := hk
    simp [slotRows, List.getElem?_append_left, hk']
  | σ, c, f :: fs, i + 1, k, hi, hk => by
    have ih := slotRows_getElem (σ + 1) (c + f) fs i k (by simpa using hi) hk
    simp only [slotRows, List.take_succ_cons, List.sum_cons, List.getElem_cons_succ]
    rw [List.getElem?_append_right (by simp; omega), List.length_replicate,
      show f + (fs.take i).sum + k - f = (fs.take i).sum + k by omega, ih]
    simp only [Option.some.injEq, Prod.mk.injEq, true_and]
    omega

/-- Each number below the sum of a list lies in the span of one of its entries. -/
theorem exists_span : ∀ (l : List Nat) (slot : Nat), slot < l.sum →
    ∃ i, ∃ h : i < l.length, (l.take i).sum ≤ slot ∧ slot < (l.take i).sum + l[i]
  | [], slot, h => by simp at h
  | f :: fs, slot, h => by
    rcases Nat.lt_or_ge slot f with hf | hf
    · exact ⟨0, by simp, by simp, by simpa using hf⟩
    · rw [List.sum_cons] at h
      obtain ⟨i, hi, h1, h2⟩ := exists_span fs (slot - f) (by omega)
      refine ⟨i + 1, by simpa using hi, ?_, ?_⟩
      · simp only [List.take_succ_cons, List.sum_cons]
        omega
      · simp only [List.take_succ_cons, List.sum_cons, List.getElem_cons_succ]
        omega

/-- The sums of the first entries of a list rise. -/
theorem sum_take_mono (l : List Nat) {i j : Nat} (h : i ≤ j) : (l.take i).sum ≤ (l.take j).sum := by
  obtain ⟨k, rfl⟩ := Nat.exists_eq_add_of_le h
  rw [List.take_add, List.sum_append]
  omega

theorem sum_take_succ (l : List Nat) {i : Nat} (h : i < l.length) :
    (l.take (i + 1)).sum = (l.take i).sum + l[i] := by
  rw [List.take_succ_eq_append_getElem h, List.sum_append, List.sum_singleton]

/-- A number lies in the span of one entry only. -/
theorem span_unique (l : List Nat) {i j slot : Nat} (hi : i < l.length) (hj : j < l.length)
    (h1 : (l.take i).sum ≤ slot) (h2 : slot < (l.take i).sum + l[i]) (h3 : (l.take j).sum ≤ slot)
    (h4 : slot < (l.take j).sum + l[j]) : i = j := by
  rw [← sum_take_succ l hi] at h2
  rw [← sum_take_succ l hj] at h4
  rcases Nat.lt_trichotomy i j with h | h | h
  · have := sum_take_mono l (show _ + 1 ≤ _ from h)
    omega
  · exact h
  · have := sum_take_mono l (show _ + 1 ≤ _ from h)
    omega

/-- A frequency and its start end at or below the sum. -/
theorem start_add_freq_le (l : List Nat) {i : Nat} (h : i < l.length) : (l.take i).sum + l[i] ≤ l.sum := by
  rw [← sum_take_succ l h]
  conv_rhs => rw [← List.take_append_drop (i + 1) l, List.sum_append]
  omega

theorem State.freqList_length (s : State) : s.freqList.length = 256 := by simp [State.freqList]

theorem State.rawList_length (s : State) : s.rawList.length = 512 := by simp [State.rawList]

/-- A frequency as an entry of the list of frequencies. -/
theorem State.freqOf_eq (s : State) {σ : Nat} (h : σ < 256) :
    s.freqOf σ = s.freqList[σ]'(by rw [State.freqList_length]; exact h) := by
  simp [State.freqOf, State.freqList, entryAt_lt _ _ h]

theorem State.freqOf_ge (s : State) {σ : Nat} (h : 256 ≤ σ) : s.freqOf σ = 0 := by
  simp [State.freqOf, entryAt_ge _ _ h]

theorem nth_eq {l : List Nat} {i : Nat} (h : i < l.length) : nth l i = l[i] := by simp [nth, h]

theorem nth_ge {l : List Nat} {i : Nat} (h : l.length ≤ i) : nth l i = 0 := by simp [nth, h]

theorem State.nth_freqList (s : State) (σ : Nat) : nth s.freqList σ = s.freqOf σ := by
  rcases Nat.lt_or_ge σ 256 with h | h
  · rw [nth_eq (by rw [State.freqList_length]; exact h), State.freqOf_eq s h]
  · rw [nth_ge (by rw [State.freqList_length]; exact h), State.freqOf_ge s h]

/-- What valid tables hold at a slot of a symbol (R43, R150). -/
theorem State.TablesMatch.slot {s : State} (h : s.TablesMatch) {σ k : Nat} (hσ : σ < 256) (hk : k < s.freqOf σ)
    (hM : s.startOf σ + k < 2048) :
    (entryAt s.sym (s.startOf σ + k) 0).toNat = σ ∧ (entryAt s.frq (s.startOf σ + k) 0).toNat = s.freqOf σ ∧
      (entryAt s.cum (s.startOf σ + k) 0).toNat = s.startOf σ := by
  have hrow := slotRows_getElem 0 0 s.freqList σ k (by rw [State.freqList_length]; exact hσ)
    (by rw [← State.freqOf_eq s hσ]; exact hk)
  rw [← State.freqOf_eq s hσ, Nat.zero_add, Nat.zero_add] at hrow
  obtain ⟨h1, h2, h3, -⟩ := h
  have g1 := congrArg (fun l => l[s.startOf σ + k]?) h1
  have g2 := congrArg (fun l => l[s.startOf σ + k]?) h2
  have g3 := congrArg (fun l => l[s.startOf σ + k]?) h3
  simp only [List.getElem?_map, State.startOf] at g1 g2 g3 hrow
  rw [hrow] at g1 g2 g3
  have e : (s.freqList.take σ).sum + k < 2048 := hM
  refine ⟨?_, ?_, ?_⟩ <;> rw [entryAt_lt _ _ hM]
  · simpa [Vector.getElem?_toList, e, State.startOf] using g1
  · simpa [Vector.getElem?_toList, e, State.startOf] using g2
  · simpa [Vector.getElem?_toList, e, State.startOf] using g3

/-- Valid tables hold the start of each symbol (R43, R150). -/
theorem State.TablesMatch.start {s : State} (h : s.TablesMatch) {σ : Nat} (hσ : σ < 256) :
    (entryAt s.cums σ 0).toNat = s.startOf σ := by
  have g := congrArg (fun l => l[σ]?) h.2.2.2
  simp only [List.getElem?_map] at g
  have e : (startSlots 0 s.freqList)[σ]? = some (s.startOf σ) := by
    rw [List.getElem?_eq_getElem (by rw [startSlots_length, State.freqList_length]; exact hσ),
      startSlots_getElem 0 _ _ (by rw [State.freqList_length]; exact hσ), Nat.zero_add, State.startOf]
  rw [e] at g
  rw [entryAt_lt _ _ hσ]
  simpa [Vector.getElem?_toList, hσ] using g

/-- The slot of a state, with valid tables that sum to `M`: its symbol, the symbol's frequency and start, and where the
slot lies in the symbol's span (R150). -/
theorem State.TablesMatch.slot_cases {s : State} (h : s.TablesMatch) (hsum : s.freqList.sum = 2048) {slot : Nat}
    (hs : slot < 2048) :
    ∃ σ, σ < 256 ∧ (entryAt s.sym slot 0).toNat = σ ∧ (entryAt s.frq slot 0).toNat = s.freqOf σ ∧
      (entryAt s.cum slot 0).toNat = s.startOf σ ∧ s.startOf σ ≤ slot ∧ slot < s.startOf σ + s.freqOf σ := by
  obtain ⟨σ, hσ, h1, h2⟩ := exists_span s.freqList slot (by omega)
  have hσ' : σ < 256 := by rwa [State.freqList_length] at hσ
  rw [← State.freqOf_eq s hσ'] at h2
  have hk : s.startOf σ + (slot - s.startOf σ) = slot := Nat.add_sub_cancel' h1
  have h2' : slot - s.startOf σ < s.freqOf σ := by
    have : slot < s.startOf σ + s.freqOf σ := h2
    omega
  have := h.slot hσ' h2' (by omega)
  rw [hk] at this
  exact ⟨σ, hσ', this.1, this.2.1, this.2.2, h1, h2⟩

/-- The spans of the symbols end at or below `M`. -/
theorem State.start_add_freq_le {s : State} (hsum : s.freqList.sum = 2048) {σ : Nat} (hσ : σ < 256) :
    s.startOf σ + s.freqOf σ ≤ 2048 := by
  rw [State.freqOf_eq s hσ, ← hsum]
  exact Machine.start_add_freq_le s.freqList (by rw [State.freqList_length]; exact hσ)

end Sys2Proof.Machine
end

