-- ==== Sys2Proof/Laws/Coder.lean ====
section
/-!
SUPPORT. What one lane's encode and decode can do (44_encoder.md R162 to R165; 45_decoder.md R182, R183).
-/
namespace Sys2Proof.Machine

/-! ## Encode -/

/-- The renormalization emits at most one word, since a lane holds 32 bits (R163). -/
theorem encRenorm_eq {F x : Nat} (hF : 0 < F) (hx : x < 2 ^ 32) :
    encRenorm 2 F x = if 65536 * F ≤ x then (x / 65536, [x % 65536]) else (x, []) := by
  have hs : x >>> 16 = x / 65536 := Nat.shiftRight_eq_div_pow x 16
  have h2 : ¬65536 * F ≤ x / 65536 := by
    have : x / 65536 < 65536 := by omega
    have : 65536 * 1 ≤ 65536 * F := Nat.mul_le_mul_left _ hF
    omega
  simp only [encRenorm, Config.B, hs, if_neg h2]

/-- The state before the division is below `B·F` (R164). -/
theorem encRenorm_lt {F x : Nat} (hF : 0 < F) (hx : x < 2 ^ 32) : (encRenorm 2 F x).1 < 65536 * F := by
  rw [encRenorm_eq hF hx]
  split
  · have : 65536 * 1 ≤ 65536 * F := Nat.mul_le_mul_left _ hF
    show x / 65536 < _
    omega
  · show x < _
    omega

/-- The new state of an encode as the claims say it (R162). -/
theorem encNext_eq {F C x : Nat} (hF : 0 < F) (hx : x < 2 ^ 32) :
    encNext F C (encRenorm 2 F x).1 = encodedState F C x := by
  rw [encRenorm_eq hF hx]
  unfold encNext encodedState
  simp only [Config.B, Config.M, Config.log2M, Nat.shiftLeft_eq]
  rcases Nat.lt_or_ge x (65536 * F) with h | h
  · have h' : ¬65536 * F ≤ x := Nat.not_le.mpr h
    simp only [h', if_false, Nat.reducePow]
  · simp only [show 65536 * F ≤ x from h, if_true, Nat.reducePow]

/-- The state before the division is at least `F`, from a legal lane (R164). -/
theorem encRenorm_ge {F x : Nat} (hF : 0 < F) (hF' : F ≤ 2048) (hx : LaneLegal x) : F ≤ (encRenorm 2 F x).1 := by
  obtain ⟨h1, h2⟩ := hx
  have h1' : 2048 ≤ x := h1
  have h2' : x < 134217728 := h2
  rw [encRenorm_eq hF (by omega)]
  split
  · show F ≤ x / 65536
    omega
  · show F ≤ x
    omega

/-- A legal lane stays legal under an encode (R164). -/
theorem encodedState_legal {F C x : Nat} (hF : 0 < F) (hC : C + F ≤ 2048) (hx : LaneLegal x) :
    LaneLegal (encodedState F C x) := by
  have h32 : x < 2 ^ 32 := by
    have : x < 134217728 := hx.2
    omega
  rw [← encNext_eq hF h32]
  have hlt := encRenorm_lt (x := x) hF h32
  have hge := encRenorm_ge hF (by omega) hx
  generalize (encRenorm 2 F x).1 = y at hlt hge
  have hq1 : 1 ≤ y / F := (Nat.one_le_div_iff hF).mpr hge
  have hq2 : y / F < 65536 := Nat.div_lt_of_lt_mul (by rwa [Nat.mul_comm] at hlt)
  have hr : y % F < F := Nat.mod_lt _ hF
  simp only [LaneLegal, encNext, Config.M, Config.B, Config.log2M, Nat.shiftLeft_eq]
  omega

/-- One lane's encode from a legal lane, with valid tables (R162): it leaves the state, and its `STATE_OVERFLOW` check
never fires (R165). -/
theorem encPlan_ok {s : State} {lane σ x : Nat} (hs : CodecSafe s) (ht : s.status.tblValid = true) (hσ : σ < 256)
    (hF : 0 < s.freqOf σ) (hx : LaneLegal x) :
    encPlan lane σ x s =
      .ok (encodedState (s.freqOf σ) (s.startOf σ) x,
        if 65536 * s.freqOf σ ≤ x then [x % 65536] else []) s := by
  obtain ⟨-, hsum, htab⟩ := hs
  obtain ⟨hh, htm⟩ := htab ht
  have h32 : x < 2 ^ 32 := by
    have : x < 134217728 := hx.2
    omega
  have hle := State.start_add_freq_le (hsum hh) hσ
  have hlegal := encodedState_legal hF hle hx
  have hn : nth (s.freq.toList.map BitVec.toNat) σ = s.freqOf σ := State.nth_freqList s σ
  have hc := htm.start hσ
  unfold encPlan
  rw [Cmd.bind_of_ok (readFreq_ok hh)]
  generalize nth (s.freq.toList.map BitVec.toNat) σ = F at hn
  subst hn
  rw [Cmd.require_bind hF]
  dsimp only
  rw [Cmd.bind_of_ok (readStart_ok ht σ)]
  generalize (entryAt s.cums σ 0).toNat = C at hc
  subst hc
  have ho : encNext (s.freqOf σ) (s.startOf σ) (encRenorm 2 (s.freqOf σ) x).1 ≤ 2 * Config.B * Config.M := by
    have : encodedState (s.freqOf σ) (s.startOf σ) x < 134217728 := hlegal.2
    rw [encNext_eq hF h32]
    simp only [Config.B, Config.M]
    omega
  rw [Cmd.require_bind ho, encNext_eq hF h32, encRenorm_eq hF h32]
  split <;> rfl

/-- One lane's encode of a symbol without a frequency raises the error of R162. -/
theorem encPlan_zeroFreq {s : State} {lane σ x : Nat} (hh : s.status.histValid = true) (hF : s.freqOf σ = 0) :
    encPlan lane σ x s = .error (.raised ⟨.zeroFreqSymbol, 0, σ, lane⟩ none) s := by
  have hn : nth (s.freq.toList.map BitVec.toNat) σ = s.freqOf σ := State.nth_freqList s σ
  unfold encPlan
  rw [Cmd.bind_of_ok (readFreq_ok hh)]
  exact Cmd.require_bind_not (by omega) _ _ _

/-- One lane's encode leaves the state, whichever way it ends. -/
theorem encPlan_state {s : State} (ht : s.status.tblValid = true → s.status.histValid = true)
    (h : s.status.tblValid = true) (lane σ x : Nat) :
    (∃ r, encPlan lane σ x s = .ok r s) ∨ ∃ e a, encPlan lane σ x s = .error (.raised e a) s := by
  unfold encPlan
  rw [Cmd.bind_of_ok (readFreq_ok (ht h))]
  by_cases hF : 0 < nth (s.freq.toList.map BitVec.toNat) σ
  · rw [Cmd.require_bind hF]
    dsimp only
    rw [Cmd.bind_of_ok (readStart_ok h σ)]
    by_cases ho : encNext (nth (s.freq.toList.map BitVec.toNat) σ) (entryAt s.cums σ 0).toNat
        (encRenorm 2 (nth (s.freq.toList.map BitVec.toNat) σ) x).1 ≤ 2 * Config.B * Config.M
    · rw [Cmd.require_bind ho]
      exact .inl ⟨_, rfl⟩
    · rw [Cmd.require_bind_not ho]
      exact .inr ⟨_, _, rfl⟩
  · rw [Cmd.require_bind_not hF]
    exact .inr ⟨_, _, rfl⟩

/-- The word stores of an encode change memory and nothing else, whichever way they end (R162, R232). -/
theorem storeWords_state (lane : Nat) : ∀ (ws : List Nat) (w : Writer) (s : State),
    ∃ m, (∃ w', storeWords lane w ws s = .ok w' (s.setMem m)) ∨
      ∃ e a, storeWords lane w ws s = .error (.raised e a) (s.setMem m)
  | [], w, s => ⟨s.mem, .inl ⟨w, rfl⟩⟩
  | wd :: ws, w, s => by
    unfold storeWords
    rcases writeBits_cases w wd 16 lane s with ⟨-, h⟩ | ⟨-, -, -, h⟩ | ⟨e, a, -, h⟩
    · rw [Cmd.bind_of_ok h]
      exact storeWords_state lane ws _ s
    · rw [Cmd.bind_of_ok h]
      exact storeWords_state lane ws _ (s.setMem _)
    · rw [Cmd.bind_of_error h]
      exact ⟨s.mem, .inr ⟨e, a, rfl⟩⟩

/-! ## Decode -/

/-- A round of a decode's loop that needs a word (R182). -/
theorem decRenorm_read {lane k x : Nat} {r r' : Reader} {v : Nat} {s : State} (hx : x < 2048)
    (hr : readBits r 16 lane s = .ok (r', v) s) (hv : v < 65536) (h : 1 ≤ x) :
    decRenorm lane (k + 2) x r s = .ok (x * 65536 + v, r', 1) s := by
  have hx' : x < Config.M := hx
  unfold decRenorm
  rw [if_pos hx', Cmd.bind_of_ok hr]
  simp only [shift_or_low x v hv]
  have : ¬x * 65536 + v < Config.M := by
    simp only [Config.M]
    omega
  unfold decRenorm
  rw [if_neg this]
  rfl

/-- A decode's loop that needs no word (R182). -/
theorem decRenorm_none {lane k x : Nat} {r : Reader} {s : State} (hx : 2048 ≤ x) :
    decRenorm lane k x r s = .ok (x, r, 0) s := by
  have hx' : ¬x < Config.M := Nat.not_lt.mpr hx
  cases k with
  | zero => rfl
  | succ k =>
    unfold decRenorm
    rw [if_neg hx']
    rfl

/-- A decode's loop whose read raises an error (R182). -/
theorem decRenorm_error {lane k x : Nat} {r : Reader} {e : Stop} {s : State} (hx : x < 2048)
    (hr : readBits r 16 lane s = .error e s) :
    decRenorm lane (k + 1) x r s = .error e s := by
  have hx' : x < Config.M := hx
  unfold decRenorm
  rw [if_pos hx', Cmd.bind_of_error hr]

/-- A decode's loop leaves the state, whichever way it ends. -/
theorem decRenorm_state (lane : Nat) : ∀ (k x : Nat) (r : Reader) (s : State),
    (∃ v, decRenorm lane k x r s = .ok v s) ∨ ∃ e a, decRenorm lane k x r s = .error (.raised e a) s
  | 0, x, r, s => .inl ⟨_, rfl⟩
  | k + 1, x, r, s => by
    unfold decRenorm
    split
    · rcases readBits_state r 16 lane s with ⟨r', v, h⟩ | ⟨e, a, h⟩
      · rw [Cmd.bind_of_ok h]
        dsimp only
        rcases decRenorm_state lane k (x <<< 16 ||| v) r' s with ⟨w, hw⟩ | ⟨e, a, he⟩
        · exact .inl ⟨_, by rw [Cmd.bind_of_ok hw]; rfl⟩
        · exact .inr ⟨_, _, by rw [Cmd.bind_of_error he]⟩
      · exact .inr ⟨_, _, by rw [Cmd.bind_of_error h]⟩
    · exact .inl ⟨_, rfl⟩

/-- One lane's decode leaves the state, whichever way it ends. -/
theorem decPlan_state {s : State} (ht : s.status.tblValid = true) (lane x : Nat) (r : Reader) :
    (∃ v, decPlan lane x r s = .ok v s) ∨ ∃ e a, decPlan lane x r s = .error (.raised e a) s := by
  unfold decPlan
  dsimp only
  rw [Cmd.bind_of_ok (readSlot_ok ht _)]
  dsimp only
  by_cases hF : 0 < (entryAt s.frq (x % Config.M) 0).toNat
  · rw [Cmd.require_bind hF]
    rcases decRenorm_state lane (r.wordsLeft + 2)
      (decFirst (entryAt s.frq (x % Config.M) 0).toNat (entryAt s.cum (x % Config.M) 0).toNat x) r s with
      ⟨v, hv⟩ | ⟨e, a, he⟩
    · exact .inl ⟨_, by rw [Cmd.bind_of_ok hv]; rfl⟩
    · exact .inr ⟨_, _, by rw [Cmd.bind_of_error he]⟩
  · rw [Cmd.require_bind_not hF]
    exact .inr ⟨_, _, rfl⟩

/-- The state of a decode before any word is read, from a legal lane and valid tables (R183). -/
theorem decFirst_bounds {s : State} (hs : CodecSafe s) (ht : s.status.tblValid = true) {x : Nat} (hx : LaneLegal x) :
    0 < (entryAt s.frq (x % 2048) 0).toNat ∧
      1 ≤ decFirst (entryAt s.frq (x % 2048) 0).toNat (entryAt s.cum (x % 2048) 0).toNat x ∧
      decFirst (entryAt s.frq (x % 2048) 0).toNat (entryAt s.cum (x % 2048) 0).toNat x < 134217728 := by
  obtain ⟨-, hsum, htab⟩ := hs
  obtain ⟨hh, htm⟩ := htab ht
  obtain ⟨σ, hσ, -, h2, h3, h4, h5⟩ := htm.slot_cases (hsum hh) (Nat.mod_lt x (by decide : 2048 > 0))
  have hle := State.start_add_freq_le (hsum hh) hσ
  obtain ⟨hx1, hx2⟩ := hx
  have hx1' : 2048 ≤ x := hx1
  have hx2' : x < 134217728 := hx2
  have hq : 1 ≤ x / 2048 := by omega
  have hq2 : x / 2048 < 65536 := by omega
  have hm : s.freqOf σ * 1 ≤ s.freqOf σ * (x / 2048) := Nat.mul_le_mul_left _ hq
  have hm2 : s.freqOf σ * (x / 2048) ≤ s.freqOf σ * 65535 := Nat.mul_le_mul_left _ (by omega)
  have hs11 : x >>> 11 = x / 2048 := Nat.shiftRight_eq_div_pow x 11
  simp only [decFirst, Config.log2M, Config.M, hs11, h2, h3]
  omega

end Sys2Proof.Machine
end

