-- ==== Sys2Proof/Laws/Errors.lean ====
section
/-!
SUPPORT. What raising an error, completing a command and clearing the error state leave and change, field by field.
-/
namespace Sys2Proof.Machine

/-- The error registers after an error (R231). -/
theorem State.raise_errcode (s : State) (op : BitVec 8) (e : Raised) :
    (s.raise op e).errcode = if s.status.err then s.errcode else e.word op := by
  unfold State.raise
  split <;> rfl

theorem State.raise_errinfo (s : State) (op : BitVec 8) (e : Raised) :
    (s.raise op e).errinfo = if s.status.err then s.errinfo else BitVec.ofNat 32 e.info := by
  unfold State.raise
  split <;> rfl

@[simp] theorem State.raise_status (s : State) (op : BitVec 8) (e : Raised) :
    (s.raise op e).status = s.status.withErr := by
  unfold State.raise
  split <;> rfl

@[simp] theorem State.raise_platform (s : State) (op : BitVec 8) (e : Raised) : (s.raise op e).platform = s.platform := by
  unfold State.raise
  split <;> rfl

@[simp] theorem State.raise_mem (s : State) (op : BitVec 8) (e : Raised) : (s.raise op e).mem = s.mem := by
  unfold State.raise
  split <;> rfl

@[simp] theorem State.raise_ctrl (s : State) (op : BitVec 8) (e : Raised) : (s.raise op e).ctrl = s.ctrl := by
  unfold State.raise
  split <;> rfl

@[simp] theorem State.raise_cfgN (s : State) (op : BitVec 8) (e : Raised) : (s.raise op e).cfgN = s.cfgN := by
  unfold State.raise
  split <;> rfl

@[simp] theorem State.raise_cmd (s : State) (op : BitVec 8) (e : Raised) : (s.raise op e).cmd = s.cmd := by
  unfold State.raise
  split <;> rfl

@[simp] theorem State.raise_result (s : State) (op : BitVec 8) (e : Raised) : (s.raise op e).result = s.result := by
  unfold State.raise
  split <;> rfl

@[simp] theorem State.raise_result1 (s : State) (op : BitVec 8) (e : Raised) : (s.raise op e).result1 = s.result1 := by
  unfold State.raise
  split <;> rfl

@[simp] theorem State.raise_arg0 (s : State) (op : BitVec 8) (e : Raised) : (s.raise op e).arg0 = s.arg0 := by
  unfold State.raise
  split <;> rfl

@[simp] theorem State.raise_arg1 (s : State) (op : BitVec 8) (e : Raised) : (s.raise op e).arg1 = s.arg1 := by
  unfold State.raise
  split <;> rfl

@[simp] theorem State.raise_arg2 (s : State) (op : BitVec 8) (e : Raised) : (s.raise op e).arg2 = s.arg2 := by
  unfold State.raise
  split <;> rfl

@[simp] theorem State.raise_arg3 (s : State) (op : BitVec 8) (e : Raised) : (s.raise op e).arg3 = s.arg3 := by
  unfold State.raise
  split <;> rfl

@[simp] theorem State.raise_rd (s : State) (op : BitVec 8) (e : Raised) : (s.raise op e).rd = s.rd := by
  unfold State.raise
  split <;> rfl

@[simp] theorem State.raise_wr (s : State) (op : BitVec 8) (e : Raised) : (s.raise op e).wr = s.wr := by
  unfold State.raise
  split <;> rfl

@[simp] theorem State.raise_hdr (s : State) (op : BitVec 8) (e : Raised) : (s.raise op e).hdr = s.hdr := by
  unfold State.raise
  split <;> rfl

@[simp] theorem State.raise_xe (s : State) (op : BitVec 8) (e : Raised) : (s.raise op e).xe = s.xe := by
  unfold State.raise
  split <;> rfl

@[simp] theorem State.raise_xd (s : State) (op : BitVec 8) (e : Raised) : (s.raise op e).xd = s.xd := by
  unfold State.raise
  split <;> rfl

@[simp] theorem State.raise_rawf (s : State) (op : BitVec 8) (e : Raised) : (s.raise op e).rawf = s.rawf := by
  unfold State.raise
  split <;> rfl

@[simp] theorem State.raise_freq (s : State) (op : BitVec 8) (e : Raised) : (s.raise op e).freq = s.freq := by
  unfold State.raise
  split <;> rfl

@[simp] theorem State.raise_sym (s : State) (op : BitVec 8) (e : Raised) : (s.raise op e).sym = s.sym := by
  unfold State.raise
  split <;> rfl

@[simp] theorem State.raise_frq (s : State) (op : BitVec 8) (e : Raised) : (s.raise op e).frq = s.frq := by
  unfold State.raise
  split <;> rfl

@[simp] theorem State.raise_cum (s : State) (op : BitVec 8) (e : Raised) : (s.raise op e).cum = s.cum := by
  unfold State.raise
  split <;> rfl

@[simp] theorem State.raise_cums (s : State) (op : BitVec 8) (e : Raised) : (s.raise op e).cums = s.cums := by
  unfold State.raise
  split <;> rfl

@[simp] theorem State.raise_host (s : State) (op : BitVec 8) (e : Raised) : (s.raise op e).host = s.host := by
  unfold State.raise
  split <;> rfl

@[simp] theorem State.raise_turns (s : State) (op : BitVec 8) (e : Raised) : (s.raise op e).turns = s.turns := by
  unfold State.raise
  split <;> rfl

@[simp] theorem State.raise_draws (s : State) (op : BitVec 8) (e : Raised) : (s.raise op e).draws = s.draws := by
  unfold State.raise
  split <;> rfl

/-- An error and its completion neither see nor change the platform or memory. -/
theorem State.raise_complete_beside (s : State) (p : Platform) (m : Memory) (op : BitVec 8) (e : Raised) :
    (State.raise { s with platform := p, mem := m } op e).complete =
      { (s.raise op e).complete with platform := p, mem := m } := by
  unfold State.raise
  by_cases h : s.status.err = true <;> simp only [h] <;> rfl

@[simp] theorem State.complete_platform (s : State) : s.complete.platform = s.platform := rfl
@[simp] theorem State.complete_mem (s : State) : s.complete.mem = s.mem := rfl
@[simp] theorem State.complete_ctrl (s : State) : s.complete.ctrl = s.ctrl := rfl
@[simp] theorem State.complete_cfgN (s : State) : s.complete.cfgN = s.cfgN := rfl
@[simp] theorem State.complete_errcode (s : State) : s.complete.errcode = s.errcode := rfl
@[simp] theorem State.complete_errinfo (s : State) : s.complete.errinfo = s.errinfo := rfl
@[simp] theorem State.complete_cmd (s : State) : s.complete.cmd = s.cmd := rfl
@[simp] theorem State.complete_result (s : State) : s.complete.result = s.result := rfl
@[simp] theorem State.complete_result1 (s : State) : s.complete.result1 = s.result1 := rfl
@[simp] theorem State.complete_arg0 (s : State) : s.complete.arg0 = s.arg0 := rfl
@[simp] theorem State.complete_arg1 (s : State) : s.complete.arg1 = s.arg1 := rfl
@[simp] theorem State.complete_arg2 (s : State) : s.complete.arg2 = s.arg2 := rfl
@[simp] theorem State.complete_arg3 (s : State) : s.complete.arg3 = s.arg3 := rfl
@[simp] theorem State.complete_rd (s : State) : s.complete.rd = s.rd := rfl
@[simp] theorem State.complete_wr (s : State) : s.complete.wr = s.wr := rfl
@[simp] theorem State.complete_hdr (s : State) : s.complete.hdr = s.hdr := rfl
@[simp] theorem State.complete_xe (s : State) : s.complete.xe = s.xe := rfl
@[simp] theorem State.complete_xd (s : State) : s.complete.xd = s.xd := rfl
@[simp] theorem State.complete_rawf (s : State) : s.complete.rawf = s.rawf := rfl
@[simp] theorem State.complete_freq (s : State) : s.complete.freq = s.freq := rfl
@[simp] theorem State.complete_sym (s : State) : s.complete.sym = s.sym := rfl
@[simp] theorem State.complete_frq (s : State) : s.complete.frq = s.frq := rfl
@[simp] theorem State.complete_cum (s : State) : s.complete.cum = s.cum := rfl
@[simp] theorem State.complete_cums (s : State) : s.complete.cums = s.cums := rfl
@[simp] theorem State.complete_host (s : State) : s.complete.host = s.host := rfl
@[simp] theorem State.complete_turns (s : State) : s.complete.turns = s.turns := rfl
@[simp] theorem State.complete_draws (s : State) : s.complete.draws = s.draws := rfl
@[simp] theorem State.complete_status (s : State) : s.complete.status = s.status.completed := rfl

@[simp] theorem State.clearError_platform (s : State) : s.clearError.platform = s.platform := rfl
@[simp] theorem State.clearError_mem (s : State) : s.clearError.mem = s.mem := rfl
@[simp] theorem State.clearError_ctrl (s : State) : s.clearError.ctrl = s.ctrl := rfl
@[simp] theorem State.clearError_cfgN (s : State) : s.clearError.cfgN = s.cfgN := rfl
@[simp] theorem State.clearError_errcode (s : State) : s.clearError.errcode = 0 := rfl
@[simp] theorem State.clearError_errinfo (s : State) : s.clearError.errinfo = 0 := rfl
@[simp] theorem State.clearError_cmd (s : State) : s.clearError.cmd = s.cmd := rfl
@[simp] theorem State.clearError_result (s : State) : s.clearError.result = s.result := rfl
@[simp] theorem State.clearError_result1 (s : State) : s.clearError.result1 = s.result1 := rfl
@[simp] theorem State.clearError_arg0 (s : State) : s.clearError.arg0 = s.arg0 := rfl
@[simp] theorem State.clearError_arg1 (s : State) : s.clearError.arg1 = s.arg1 := rfl
@[simp] theorem State.clearError_arg2 (s : State) : s.clearError.arg2 = s.arg2 := rfl
@[simp] theorem State.clearError_arg3 (s : State) : s.clearError.arg3 = s.arg3 := rfl
@[simp] theorem State.clearError_rd (s : State) : s.clearError.rd = s.rd := rfl
@[simp] theorem State.clearError_wr (s : State) : s.clearError.wr = s.wr := rfl
@[simp] theorem State.clearError_hdr (s : State) : s.clearError.hdr = s.hdr := rfl
@[simp] theorem State.clearError_xe (s : State) : s.clearError.xe = s.xe := rfl
@[simp] theorem State.clearError_xd (s : State) : s.clearError.xd = s.xd := rfl
@[simp] theorem State.clearError_rawf (s : State) : s.clearError.rawf = s.rawf := rfl
@[simp] theorem State.clearError_freq (s : State) : s.clearError.freq = s.freq := rfl
@[simp] theorem State.clearError_sym (s : State) : s.clearError.sym = s.sym := rfl
@[simp] theorem State.clearError_frq (s : State) : s.clearError.frq = s.frq := rfl
@[simp] theorem State.clearError_cum (s : State) : s.clearError.cum = s.cum := rfl
@[simp] theorem State.clearError_cums (s : State) : s.clearError.cums = s.cums := rfl
@[simp] theorem State.clearError_host (s : State) : s.clearError.host = s.host := rfl
@[simp] theorem State.clearError_turns (s : State) : s.clearError.turns = s.turns := rfl
@[simp] theorem State.clearError_draws (s : State) : s.clearError.draws = s.draws := rfl
@[simp] theorem State.clearError_status (s : State) : s.clearError.status = s.status.cleared := rfl

end Sys2Proof.Machine
end

