-- ==== Sys2Proof/Laws/Footprint.lean ====
section
/-!
SUPPORT. What shutting a region changes of a platform, and when a run uses a region (20_memory.md R70, R71).
-/
namespace Sys2Proof.Machine

/-- Every command is its rule run to completion. -/
theorem exec_eq_runCommand (i : Instr) (s : State) : exec i s = runCommand i.opcode (ruleOf i s) s := by
  cases i <;> rfl

@[simp] theorem Platform.shut_csrPage (p : Platform) (a n : Nat) : (p.shut a n).csrPage = p.csrPage := rfl
@[simp] theorem Platform.shut_irqLine (p : Platform) (a n : Nat) : (p.shut a n).irqLine = p.irqLine := rfl
@[simp] theorem Platform.shut_csrBase (p : Platform) (a n : Nat) : (p.shut a n).csrBase = p.csrBase := rfl

theorem Platform.shut_busOk (p : Platform) (a n x : Nat) (size : Size) (k : AccessKind) (hn : 0 < n) :
    (p.shut a n).busOk x size k = (p.busOk x size k && !overlaps x size.bytes a n) := by
  have h : ([AccessKind.read, .write].flatMap fun k =>
      [Size.b1, .b2, .b4, .b8].map fun size => (⟨k, size, a + 1 - size.bytes, a + n - 1⟩ : Refused)).any
        (fun r => r.covers x size k) = overlaps x size.bytes a n := by
    have h1 : ∀ b, 0 < b → (decide (a + 1 - b ≤ x) && decide (x ≤ a + n - 1)) = overlaps x b a n := by
      intro b hb
      rw [overlaps, Bool.eq_iff_iff]
      simp only [Bool.and_eq_true, decide_eq_true_eq]
      omega
    cases size
    · cases k <;> simpa [Refused.covers, Size.bytes] using h1 1 (by decide)
    · cases k <;> simpa [Refused.covers, Size.bytes] using h1 2 (by decide)
    · cases k <;> simpa [Refused.covers, Size.bytes] using h1 4 (by decide)
    · cases k <;> simpa [Refused.covers, Size.bytes] using h1 8 (by decide)
  rw [Platform.busOk, Platform.busOk, Platform.shut, List.any_append, h, Bool.not_or]

/-- With a region shut, the platform answers the accesses it answers without, but those that touch the region. -/
theorem Platform.shut_answers {p : Platform} {a n x : Nat} {size : Size} {k : AccessKind} (hn : 0 < n) :
    (p.shut a n).accessError x size k = none ↔
      p.accessError x size k = none ∧ overlaps x size.bytes a n = false := by
  unfold Platform.accessError
  rw [Platform.shut_csrBase, Platform.shut_busOk _ _ _ _ _ _ hn]
  split
  · simp
  · split
    · simp
    · cases p.busOk x size k <;> cases overlaps x size.bytes a n <;> simp

/-- When a run uses a region: with the region shut, it ends at an access the platform answers without. -/
theorem Cmd.uses_iff (c : Cmd Unit) (s : State) (a n : Nat) :
    Cmd.uses c s a n = true ↔
      ∃ e x t, c { s with platform := s.platform.shut a n } = .error (.raised e (some x)) t ∧
        s.platform.accessError x.addr x.size x.kind = none := by
  unfold Cmd.uses
  split
  · rename_i h
    simp [h]
  · rename_i h
    simp [h]
  · rename_i e x t h
    simp only [decide_eq_true_eq, h]
    constructor
    · exact fun hx => ⟨e, x, t, rfl, hx⟩
    · rintro ⟨e', x', t', ht, hx⟩
      cases ht
      exact hx
  · rename_i h
    simp [h]

/-- A run that touches the region nowhere, because it ends well with the region shut, does not use it. -/
theorem Cmd.uses_of_ok {c : Cmd Unit} {s t : State} {a n : Nat} {u : Unit}
    (h : c { s with platform := s.platform.shut a n } = .ok u t) : Cmd.uses c s a n = false := by
  simp [Cmd.uses, h]

/-- An access of the host races with a command exactly when the command's run uses the bytes (R70.3). -/
theorem State.racesWith_of_busy {s : State} {i : Instr} (hb : s.status.busy = true) (hi : decode s.cmd = .ok i)
    (a n : Nat) : s.racesWith a n = Cmd.uses (ruleOf i s) s a n := by
  simp [State.racesWith, hb, hi]

end Sys2Proof.Machine
end

