-- ==== Sys2Proof/Laws/Histogram.lean ====
section
/-!
SUPPORT. Facts of the normalizer's list functions (42_histogram.md R132 to R136), and how the histogram commands' rules
end.
-/
namespace Sys2Proof.Machine

/-! ## The greatest entry -/

theorem greatest_cons (a : Nat) (l : List Nat) : greatest (a :: l) = max a (greatest l) := rfl

theorem le_greatest : ∀ {l : List Nat} {a : Nat}, a ∈ l → a ≤ greatest l
  | b :: l, a, h => by
    rw [greatest_cons]
    rcases List.mem_cons.mp h with rfl | h
    · omega
    · have := le_greatest h
      omega

theorem greatest_mem : ∀ {l : List Nat}, l ≠ [] → greatest l ∈ l
  | [], h => absurd rfl h
  | [a], _ => by simp [greatest]
  | a :: b :: l, _ => by
    have ih := greatest_mem (l := b :: l) (by simp)
    rw [greatest_cons]
    rcases Nat.le_total a (greatest (b :: l)) with h | h
    · rw [Nat.max_eq_right h]
      exact List.mem_cons_of_mem _ ih
    · rw [Nat.max_eq_left h]
      exact List.mem_cons_self

theorem indexOfGreatest_lt {l : List Nat} (h : l ≠ []) : indexOfGreatest l < l.length :=
  List.idxOf_lt_length_of_mem (greatest_mem h)

theorem getElem_indexOfGreatest {l : List Nat} (h : l ≠ []) :
    l[indexOfGreatest l]'(indexOfGreatest_lt h) = greatest l := List.getElem_idxOf (indexOfGreatest_lt h)

theorem nth_le_greatest (l : List Nat) (i : Nat) : nth l i ≤ greatest l := by
  rcases Nat.lt_or_ge i l.length with h | h
  · rw [nth_eq h]
    exact le_greatest (List.getElem_mem h)
  · rw [nth_ge h]
    omega

/-- The model's largest entry is the one R134 names. -/
theorem isLargest_indexOfGreatest {l : List Nat} (h : l ≠ []) : IsLargest l (indexOfGreatest l) := by
  have hlt := indexOfGreatest_lt h
  have hg : nth l (indexOfGreatest l) = greatest l := by rw [nth_eq hlt, getElem_indexOfGreatest h]
  refine ⟨hlt, fun k => hg ▸ nth_le_greatest l k, fun k hk => ?_⟩
  rw [hg]
  refine lt_of_le_of_ne (nth_le_greatest l k) fun he => ?_
  have hk' : k < l.length := hk.trans hlt
  rw [nth_eq hk'] at he
  have := List.not_of_lt_findIdx (p := fun x => x == greatest l) (xs := l) (i := k) hk
  simp [he] at this

/-- There is one largest entry in the sense of R134. -/
theorem IsLargest.unique {l : List Nat} {i j : Nat} (hi : IsLargest l i) (hj : IsLargest l j) : i = j := by
  rcases Nat.lt_trichotomy i j with h | h | h
  · have := hj.2.2 i h
    have := hi.2.1 j
    omega
  · exact h
  · have := hi.2.2 j h
    have := hj.2.1 i
    omega

/-! ## Sums -/

theorem sum_le_length_mul (b : Nat) : ∀ {l : List Nat}, (∀ a ∈ l, a ≤ b) → l.sum ≤ l.length * b
  | [], _ => by simp
  | a :: l, h => by
    have ih := sum_le_length_mul b (l := l) fun x hx => h x (List.mem_cons_of_mem _ hx)
    have ha := h a List.mem_cons_self
    rw [List.sum_cons, List.length_cons, Nat.succ_mul]
    omega

theorem sum_set : ∀ {l : List Nat} {i : Nat} (v : Nat) (h : i < l.length), (l.set i v).sum + l[i] = l.sum + v
  | [], _, _, h => by simp at h
  | a :: l, 0, v, _ => by
    simp only [List.set_cons_zero, List.sum_cons, List.getElem_cons_zero]
    omega
  | a :: l, i + 1, v, h => by
    have ih := sum_set v (l := l) (i := i) (by simpa using h)
    simp only [List.set_cons_succ, List.sum_cons, List.getElem_cons_succ]
    omega

/-- One unit less in the greatest entry, as an update of it. -/
theorem lowerGreatest_eq (F : List Nat) : lowerGreatest F = F.set (indexOfGreatest F) (greatest F - 1) := by
  rcases eq_or_ne F [] with rfl | h
  · rfl
  · rw [lowerGreatest, List.modify_eq_set_getElem?, List.getElem?_eq_getElem (indexOfGreatest_lt h),
      getElem_indexOfGreatest h]
    rfl

@[simp] theorem lowerGreatest_length (F : List Nat) : (lowerGreatest F).length = F.length := by
  simp [lowerGreatest]

@[simp] theorem lowerTimes_length : ∀ (k : Nat) (F : List Nat), (lowerTimes k F).length = F.length
  | 0, _ => rfl
  | k + 1, F => by rw [lowerTimes, lowerTimes_length k, lowerGreatest_length]

/-- At most 256 entries that sum to more than 256 have one of at least 2 (R135). -/
theorem two_le_greatest {F : List Nat} (hl : F.length ≤ 256) (hs : 256 < F.sum) : 2 ≤ greatest F := by
  by_contra h
  have h1 : ∀ a ∈ F, a ≤ 1 := fun a ha => by
    have := le_greatest ha
    omega
  have := sum_le_length_mul 1 h1
  omega

/-- One decrement takes one unit off the sum and keeps every entry's zero-ness (R135). -/
theorem lowerGreatest_sum {F : List Nat} (hl : F.length ≤ 256) (hs : 256 < F.sum) :
    (lowerGreatest F).sum + 1 = F.sum ∧ ∀ i, nth (lowerGreatest F) i = 0 ↔ nth F i = 0 := by
  have hne : F ≠ [] := fun h => by simp [h] at hs
  have hlt := indexOfGreatest_lt hne
  have h2 := two_le_greatest hl hs
  have hg := getElem_indexOfGreatest hne
  constructor
  · have := sum_set (greatest F - 1) hlt
    rw [lowerGreatest_eq]
    omega
  · intro i
    rw [lowerGreatest_eq]
    simp only [nth, List.getElem?_set]
    split
    · rename_i h
      subst h
      rw [List.getElem?_eq_getElem hlt, hg]
      simp only [Option.getD_some]
      omega
    · rfl

/-- The decrements of the fallback take their number off the sum and keep every entry's zero-ness (R135, R136). -/
theorem lowerTimes_sum : ∀ (k : Nat) {F : List Nat}, F.length ≤ 256 → 256 + k ≤ F.sum →
    (lowerTimes k F).sum + k = F.sum ∧ ∀ i, nth (lowerTimes k F) i = 0 ↔ nth F i = 0
  | 0, _, _, _ => ⟨rfl, fun _ => Iff.rfl⟩
  | k + 1, F, hl, hs => by
    have h1 := lowerGreatest_sum hl (by omega)
    have h2 := lowerTimes_sum k (F := lowerGreatest F) (by simpa using hl) (by omega)
    rw [lowerTimes]
    exact ⟨by omega, fun i => (h2.2 i).trans (h1.2 i)⟩

/-! ## The correction -/

@[simp] theorem correct_length (F : List Nat) (imax : Nat) : (correct F imax).1.length = F.length := by
  unfold correct
  dsimp only
  split <;> simp

/-- The corrected table sums to `M` (R136 (a)). -/
theorem correct_sum {F : List Nat} {imax : Nat} (hl : F.length ≤ 256) (hi : imax < F.length) :
    (correct F imax).1.sum = 2048 := by
  unfold correct residue
  simp only [Config.M, nth_eq hi]
  split
  · rename_i h
    have := sum_set ((F[imax] : Int) + ((2048 : Nat) - (F.sum : Int))).toNat hi
    dsimp only
    omega
  · have := lowerTimes_sum (-((2048 : Nat) - (F.sum : Int))).toNat hl (by omega)
    dsimp only
    omega

/-- A corrected entry is zero exactly where the rounded one is (R136 (b)). -/
theorem correct_zero {F : List Nat} {imax : Nat} (hl : F.length ≤ 256) (hi : imax < F.length) (h0 : 0 < F[imax])
    (i : Nat) : nth (correct F imax).1 i = 0 ↔ nth F i = 0 := by
  unfold correct residue
  simp only [Config.M, nth_eq hi]
  split
  · rename_i h
    simp only [nth, List.getElem?_set]
    split
    · rename_i he
      subst he
      rw [List.getElem?_eq_getElem hi]
      simp only [Option.getD_some]
      omega
    · rfl
  · exact (lowerTimes_sum (-((2048 : Nat) - (F.sum : Int))).toNat hl (by omega)).2 i

/-! ## The rounded table -/

theorem roundCount_eq (T c : Nat) : roundCount T c = roundedCount T c := rfl

theorem roundCount_zero {T c : Nat} : roundCount T c = 0 ↔ c = 0 := by
  unfold roundCount
  split
  · simp_all
  · simp_all

/-- A table that sums to `M` is not changed by the rounding (R136 (d)). -/
theorem roundCount_self (c : Nat) : roundCount 2048 c = c := by
  unfold roundCount
  simp only [Config.M]
  split <;> omega

theorem roundedTable_length {raw : List Nat} (h : 256 ≤ raw.length) : (roundedTable raw).length = 256 := by
  simp [roundedTable, h]

theorem nth_roundedTable {raw : List Nat} {i : Nat} (h : i < 256) (hl : 256 ≤ raw.length) :
    nth (roundedTable raw) i = roundCount raw.sum (nth raw i) := by
  rw [nth_eq (by rw [roundedTable_length hl]; exact h), nth_eq (by omega)]
  simp [roundedTable]

/-! ## The highest used index -/

/-- The highest used index is the one R132 names. -/
theorem isHighest_highestUsed {raw : List Nat} (h : 0 < raw.sum) : IsHighest raw (highestUsed raw) := by
  unfold highestUsed
  generalize hL : ((raw.zipIdx.filter (fun p => decide (0 < p.1))).map Prod.snd) = L
  have hmem : ∀ i, i ∈ L ↔ 0 < nth raw i := by
    intro i
    rw [← hL]
    simp only [List.mem_map, List.mem_filter, decide_eq_true_eq, Prod.exists, exists_eq_right]
    constructor
    · rintro ⟨a, h1, h2⟩
      rw [List.mem_zipIdx_iff_getElem?] at h1
      rw [nth, h1]
      exact h2
    · intro hi
      rcases Nat.lt_or_ge i raw.length with hl | hl
      · refine ⟨raw[i], ?_, by rwa [nth_eq hl] at hi⟩
        rw [List.mem_zipIdx_iff_getElem?]
        exact List.getElem?_eq_getElem hl
      · rw [nth_ge hl] at hi
        omega
  have hne : L ≠ [] := by
    intro he
    have h0 : ∀ a ∈ raw, a ≤ 0 := by
      intro a ha
      obtain ⟨i, hi, rfl⟩ := List.getElem_of_mem ha
      by_contra hc
      have : i ∈ L := (hmem i).mpr (by rw [nth_eq hi]; omega)
      simp [he] at this
    have := sum_le_length_mul 0 h0
    omega
  refine ⟨(hmem _).mp (greatest_mem hne), fun k hk => ?_⟩
  by_contra hc
  have := le_greatest ((hmem k).mpr (by omega))
  omega

theorem IsHighest.unique {raw : List Nat} {i j : Nat} (hi : IsHighest raw i) (hj : IsHighest raw j) : i = j := by
  rcases Nat.lt_trichotomy i j with h | h | h
  · have := hi.2 j h
    have := hj.1
    omega
  · exact h
  · have := hj.2 i h
    have := hi.1
    omega

theorem IsHighest.sum_pos {raw : List Nat} {i : Nat} (h : IsHighest raw i) : 0 < raw.sum := by
  have h1 := h.1
  have hl : i < raw.length := by
    by_contra hc
    rw [nth_ge (by omega)] at h1
    omega
  rw [nth_eq hl] at h1
  have := List.single_le_sum (l := raw) (by simp) _ (List.getElem_mem hl)
  omega

/-! ## How the rules end -/

/-- The state after a successful `HIST_NORM` (R132). -/
def State.normalizedBy (s : State) : State :=
  (((s.setFreq (ofListD 256 ((normalizeTable s.rawList).1.map (BitVec.ofNat 16)) 0)).setStatus
    (s.status.normalized (normalizeTable s.rawList).2)).setResult (BitVec.ofNat 32 (highestUsed s.rawList + 1))).setResult1
    (BitVec.ofNat 32 (indexOfGreatest s.rawList))

theorem readRaw_list {s : State} (h : s.status.rawValid = true) : readRaw s = .ok s.rawList s := readRaw_ok h

theorem histNorm_ok {s : State} (hv : s.status.rawValid = true) (hT : 0 < s.rawList.sum)
    (hh : highestUsed s.rawList < 256) : histNorm s = .ok () s.normalizedBy := by
  unfold histNorm
  rw [Cmd.getState_bind, Cmd.require_bind hv, Cmd.bind_of_ok (readRaw_list hv), Cmd.require_bind hT, Cmd.require_bind hh]
  rfl

/-- All that `HIST_NORM` can do: it commits a normalized table, or leaves the state and raises an error (R132). -/
theorem histNorm_cases (s : State) :
    (s.status.rawValid = true ∧ 0 < s.rawList.sum ∧ highestUsed s.rawList < 256 ∧ histNorm s = .ok () s.normalizedBy) ∨
      ∃ e, histNorm s = .error (.raised e none) s := by
  by_cases hv : s.status.rawValid = true
  · by_cases hT : 0 < s.rawList.sum
    · by_cases hh : highestUsed s.rawList < 256
      · exact .inl ⟨hv, hT, hh, histNorm_ok hv hT hh⟩
      · refine .inr ⟨⟨.alphabetTooLarge, 0, highestUsed s.rawList, 0⟩, ?_⟩
        unfold histNorm
        rw [Cmd.getState_bind, Cmd.require_bind hv, Cmd.bind_of_ok (readRaw_list hv), Cmd.require_bind hT,
          Cmd.require_bind_not hh]
    · refine .inr ⟨⟨.emptyHistogram, 0, 0, 0⟩, ?_⟩
      unfold histNorm
      rw [Cmd.getState_bind, Cmd.require_bind hv, Cmd.bind_of_ok (readRaw_list hv), Cmd.require_bind_not hT]
  · refine .inr ⟨⟨.notReady, 0, 0, 0⟩, ?_⟩
    unfold histNorm
    rw [Cmd.getState_bind, Cmd.require_bind_not hv]

/-- The count of bytes leaves the state; each entry grows by how often its byte occurs (R130). -/
theorem countBytes_ok {s : State} : ∀ (k a : Nat) (raw : Vector Word 512), s.CanRead .b1 a k →
    ∃ raw', countBytes a k raw s = .ok raw' s ∧ ∀ i, i < 512 → entryAt raw' i 0 = entryAt raw i 0 +
      BitVec.ofNat 32 ((List.range k).countP fun j => decide ((s.mem.read (a + j)).toNat = i))
  | 0, a, raw, _ => ⟨raw, rfl, fun i _ => by simp⟩
  | k + 1, a, raw, h => by
    have h0 : s.platform.accessError a .b1 .read = none := by simpa using h 0 (by omega)
    have hb : s.mem.readLE a Size.b1.bytes = (s.mem.read a).toNat := by simp [Memory.readLE, Size.bytes]
    obtain ⟨raw', h1, h2⟩ := countBytes_ok k (a + 1) (bump raw (s.mem.read a).toNat) (fun j hj => by
      have := h (j + 1) (by omega)
      simpa [Size.bytes, Nat.add_assoc, Nat.add_comm 1 j] using this)
    refine ⟨raw', ?_, fun i hi => ?_⟩
    · unfold countBytes
      rw [Cmd.bind_of_ok (memRead_ok h0), hb, h1]
    · have hlt : (s.mem.read a).toNat < 512 := by
        have := (s.mem.read a).isLt
        omega
      rw [h2 i hi, List.range_succ_eq_map, List.countP_cons, List.countP_map]
      have hc : (fun j => decide ((s.mem.read (a + 1 + j)).toNat = i)) =
          (fun j => decide ((s.mem.read (a + j)).toNat = i)) ∘ Nat.succ := by
        funext j
        rw [Function.comp_apply, Nat.succ_eq_add_one, Nat.add_assoc, Nat.add_comm 1 j]
      rw [← hc, entryAt_lt _ _ hi, entryAt_lt _ _ hi, bump, Vector.getElem_setIfInBounds, Nat.add_zero]
      by_cases he : (s.mem.read a).toNat = i
      · rw [if_pos he, if_pos (by simpa using he), entryAt_lt _ _ hlt]
        subst he
        rw [BitVec.ofNat_add]
        ac_rfl
      · rw [if_neg he, if_neg (by simpa using he)]
        rfl

/-- The count of bytes leaves the state, whichever way it ends. -/
theorem countBytes_state {s : State} : ∀ (k a : Nat) (raw : Vector Word 512),
    (∃ raw', countBytes a k raw s = .ok raw' s) ∨ ∃ e x, countBytes a k raw s = .error (.raised e x) s
  | 0, _, raw => .inl ⟨raw, rfl⟩
  | k + 1, a, raw => by
    unfold countBytes
    rcases memRead_cases a .b1 0 s with ⟨-, h⟩ | ⟨c, -, h⟩
    · rw [Cmd.bind_of_ok h]
      exact countBytes_state k (a + 1) _
    · exact .inr ⟨_, _, by rw [Cmd.bind_of_error h]⟩

end Sys2Proof.Machine
end

