-- ==== Sys2Proof/Laws/Locality.lean ====
section
/-!
SUPPORT. A command depends on memory and changes it only through the accesses its run makes (20_memory.md R69, R70.4):
a run that uses no byte of a region runs alike whatever the region holds, and leaves what it holds.
-/
namespace Sys2Proof.Machine

/-- A canonical memory is determined by what its addresses read as. -/
theorem Memory.ext_of_wfFrom : ∀ {lo : Nat} {m m' : Memory}, Memory.wfFrom lo m = true →
    Memory.wfFrom lo m' = true → (∀ a, m.read a = m'.read a) → m = m'
  | _, [], [], _, _, _ => rfl
  | _, [], (k, b) :: t, _, h', h => by
    obtain ⟨-, -, hb, ht⟩ := Memory.wfFrom_cons.mp h'
    exact absurd ((h k).symm.trans rfl) (by simpa [Memory.read_cons] using hb)
  | _, (k, b) :: t, [], h', _, h => by
    obtain ⟨-, -, hb, ht⟩ := Memory.wfFrom_cons.mp h'
    exact absurd ((h k).trans rfl) (by simpa [Memory.read_cons] using hb)
  | _, (k, b) :: t, (k', b') :: t', hm, hm', h => by
    obtain ⟨-, -, hb, ht⟩ := Memory.wfFrom_cons.mp hm
    obtain ⟨-, -, hb', ht'⟩ := Memory.wfFrom_cons.mp hm'
    have hk : k = k' := by
      rcases Nat.lt_trichotomy k k' with hlt | he | hlt
      · have := h k
        rw [Memory.read_cons, Memory.read_cons, if_pos rfl, if_neg (by omega), Memory.read_of_lt (by omega) ht'] at this
        exact absurd this hb
      · exact he
      · have := h k'
        rw [Memory.read_cons, Memory.read_cons, if_pos rfl, if_neg (by omega), Memory.read_of_lt (by omega) ht] at this
        exact absurd this.symm hb'
    subst hk
    have hbb : b = b' := by simpa [Memory.read_cons] using h k
    subst hbb
    congr 1
    refine Memory.ext_of_wfFrom ht ht' fun a => ?_
    have := h a
    rw [Memory.read_cons, Memory.read_cons] at this
    by_cases ha : a = k
    · subst ha
      rw [Memory.read_of_lt (Nat.lt_succ_self a) ht, Memory.read_of_lt (Nat.lt_succ_self a) ht']
    · rwa [if_neg ha, if_neg ha] at this

theorem Memory.ext_of_wf {m m' : Memory} (h : m.wf = true) (h' : m'.wf = true) (hr : ∀ a, m.read a = m'.read a) :
    m = m' := Memory.ext_of_wfFrom h h' hr

/-- An error of a platform stays when a region is shut. -/
theorem Platform.shut_accessError {p : Platform} {a n x : Nat} {size : Size} {k : AccessKind} {c : ErrCode}
    (hn : 0 < n) (h : p.accessError x size k = some c) : (p.shut a n).accessError x size k = some c := by
  unfold Platform.accessError at h ⊢
  rw [Platform.shut_csrBase, Platform.shut_busOk _ _ _ _ _ _ hn]
  split
  · rwa [if_pos ‹_›] at h
  · rw [if_neg ‹_›] at h
    split
    · rwa [if_pos ‹_›] at h
    · rw [if_neg ‹_›] at h
      cases hb : p.busOk x size k
      · simpa [hb] using h
      · simp [hb] at h

/-- `t`, the state a run reached with `[a, a + n)` shut, beside memory `m'`, the memory the same run reached from `m`:
the two agree outside the region, and in it both are as they were. -/
structure Beside (s : State) (m : Memory) (a n : Nat) (t : State) (m' : Memory) : Prop where
  platform : t.platform = s.platform.shut a n
  wf : t.mem.wf = true
  wf' : m'.wf = true
  outside : ∀ b, (b < a ∨ a + n ≤ b) → m'.read b = t.mem.read b
  inside : ∀ b, a ≤ b → b < a + n → t.mem.read b = s.mem.read b ∧ m'.read b = m.read b

/-- A rule that sees memory only through its accesses: from `s` with a region shut it either ends at an access the
platform answers without, or runs as from `s` with any memory that agrees outside the region. -/
def Cmd.Local {α : Type} (c : Cmd α) : Prop :=
  ∀ (s : State) (m : Memory) (a n : Nat), 0 < n → s.mem.wf = true → m.wf = true →
    (∀ b, (b < a ∨ a + n ≤ b) → m.read b = s.mem.read b) →
    (∃ e y t, c { s with platform := s.platform.shut a n } = .error (.raised e (some y)) t ∧
      s.platform.accessError y.addr y.size y.kind = none) ∨
    (∃ v t m', c { s with platform := s.platform.shut a n } = .ok v t ∧
      c { s with mem := m } = .ok v { t with platform := s.platform, mem := m' } ∧ Beside s m a n t m') ∨
    ∃ e t m', c { s with platform := s.platform.shut a n } = .error e t ∧
      c { s with mem := m } = .error e { t with platform := s.platform, mem := m' } ∧ Beside s m a n t m'

namespace Cmd.Local

theorem beside_self {s : State} {m : Memory} {a n : Nat} (hs : s.mem.wf = true) (hm : m.wf = true)
    (h : ∀ b, (b < a ∨ a + n ≤ b) → m.read b = s.mem.read b) :
    Beside s m a n { s with platform := s.platform.shut a n } m :=
  ⟨rfl, hs, hm, h, fun _ _ _ => ⟨rfl, rfl⟩⟩

theorem pure {α : Type} (v : α) : Cmd.Local (Pure.pure v : Cmd α) := fun s m a n _ hs hm h =>
  .inr (.inl ⟨v, { s with platform := s.platform.shut a n }, m, rfl, rfl, beside_self hs hm h⟩)

theorem raiseErr {α : Type} (e : Raised) : Cmd.Local (Machine.raiseErr e : Cmd α) := fun s m a n _ hs hm h =>
  .inr (.inr ⟨_, { s with platform := s.platform.shut a n }, m, rfl, rfl, beside_self hs hm h⟩)

theorem require {p : Prop} [Decidable p] (e : Raised) : Cmd.Local (Machine.require p e) := by
  unfold Machine.require
  split
  · exact Cmd.Local.pure ()
  · exact Cmd.Local.raiseErr e

theorem guardArray {α : Type} (valid : Bool) (v : α) : Cmd.Local (Machine.guardArray valid v) := by
  unfold Machine.guardArray
  split
  · exact Cmd.Local.pure v
  · exact fun s m a n _ hs hm h =>
      .inr (.inr ⟨_, { s with platform := s.platform.shut a n }, m, rfl, rfl, beside_self hs hm h⟩)

theorem bind {α β : Type} {c : Cmd α} {f : α → Cmd β} (hc : Cmd.Local c) (hf : ∀ v, Cmd.Local (f v)) :
    Cmd.Local (c >>= f) := by
  intro s m a n hn hs hm h
  rcases hc s m a n hn hs hm h with ⟨e, y, t, h0, hy⟩ | ⟨v, t, m', h0, h1, hb⟩ | ⟨e, t, m', h0, h1, hb⟩
  · exact .inl ⟨e, y, t, Cmd.bind_of_error h0 f, hy⟩
  · rw [Cmd.bind_of_ok h0, Cmd.bind_of_ok h1]
    have ht : t = { ({ t with platform := s.platform } : State) with platform := s.platform.shut a n } := by
      rw [← hb.platform]
    rcases hf v { t with platform := s.platform } m' a n hn hb.wf hb.wf' hb.outside with
      ⟨e, y, u, g0, hy⟩ | ⟨w, u, m2, g0, g1, gb⟩ | ⟨e, u, m2, g0, g1, gb⟩
    · exact .inl ⟨e, y, u, by rw [ht]; exact g0, hy⟩
    · refine .inr (.inl ⟨w, u, m2, by rw [ht]; exact g0, g1, gb.platform, gb.wf, gb.wf', gb.outside,
        fun b h1 h2 => ?_⟩)
      exact ⟨(gb.inside b h1 h2).1.trans (hb.inside b h1 h2).1, (gb.inside b h1 h2).2.trans (hb.inside b h1 h2).2⟩
    · refine .inr (.inr ⟨e, u, m2, by rw [ht]; exact g0, g1, gb.platform, gb.wf, gb.wf', gb.outside,
        fun b h1 h2 => ?_⟩)
      exact ⟨(gb.inside b h1 h2).1.trans (hb.inside b h1 h2).1, (gb.inside b h1 h2).2.trans (hb.inside b h1 h2).2⟩
  · exact .inr (.inr ⟨e, t, m', Cmd.bind_of_error h0 f, Cmd.bind_of_error h1 f, hb⟩)

/-- A rule that looks at the state, but not at the platform or memory. -/
theorem getState {β : Type} {f : State → Cmd β}
    (hx : ∀ (s : State) (p : Platform) (m : Memory), f { s with platform := p, mem := m } = f s)
    (hf : ∀ s, Cmd.Local (f s)) : Cmd.Local (Machine.getState >>= f) := by
  intro s m a n hn hs hm h
  have h0 : f { s with platform := s.platform.shut a n } = f s := hx s (s.platform.shut a n) s.mem
  have h1 : f { s with mem := m } = f s := hx s s.platform m
  rw [Cmd.getState_bind, Cmd.getState_bind, h0, h1]
  exact hf s s m a n hn hs hm h

/-- An update that neither sees nor changes the platform or memory. -/
theorem modify {g : State → State}
    (hg : ∀ (s : State) (p : Platform) (m : Memory), g { s with platform := p, mem := m } =
      { g s with platform := p, mem := m }) : Cmd.Local (modify g : Cmd PUnit) := by
  intro s m a n hn hs hm h
  have hg0 := hg s (s.platform.shut a n) s.mem
  have hg1 := hg s s.platform m
  refine .inr (.inl ⟨⟨⟩, g { s with platform := s.platform.shut a n }, m, rfl, ?_, ?_, ?_, hm, ?_, ?_⟩)
  · rw [Cmd.modify_run]
    exact congrArg _ (hg1.trans (by rw [hg0]))
  · rw [hg0]
  · rw [hg0]
    exact hs
  · rw [hg0]
    exact h
  · intro b _ _
    rw [hg0]
    exact ⟨rfl, rfl⟩

theorem memRead (x : Nat) (size : Size) (lane : Nat) : Cmd.Local (Machine.memRead x size lane) := by
  intro s m a n hn hs hm h
  rcases memRead_cases x size lane { s with platform := s.platform.shut a n } with ⟨h0, hr⟩ | ⟨c, h0, hr⟩
  · obtain ⟨hp, ho⟩ := (Platform.shut_answers hn).mp h0
    refine .inr (.inl ⟨_, _, m, hr, ?_, beside_self hs hm h⟩)
    rw [memRead_ok (s := { s with mem := m }) hp]
    refine congrArg (fun v => EStateM.Result.ok v _) (Memory.readLE_congr _ _ fun k hk => h _ ?_)
    simp only [overlaps, Bool.and_eq_false_iff, decide_eq_false_iff_not] at ho
    omega
  · cases hp : s.platform.accessError x size .read with
    | none => exact .inl ⟨_, _, _, hr, hp⟩
    | some c' =>
      have hc := (Platform.shut_accessError (a := a) hn hp).symm.trans h0
      injection hc with hc
      subst hc
      exact .inr (.inr ⟨_, _, m, hr, memRead_error (s := { s with mem := m }) hp, beside_self hs hm h⟩)

theorem memWrite (x : Nat) (size : Size) (v lane : Nat) : Cmd.Local (Machine.memWrite x size v lane) := by
  intro s m a n hn hs hm h
  rcases memWrite_cases x v size lane { s with platform := s.platform.shut a n } with ⟨h0, hr⟩ | ⟨c, h0, hr⟩
  · obtain ⟨hp, ho⟩ := (Platform.shut_answers hn).mp h0
    have hle := accessError_none_le hp
    simp only [overlaps, Bool.and_eq_false_iff, decide_eq_false_iff_not] at ho
    refine .inr (.inl ⟨_, _, m.writeLE x v size.bytes, hr, memWrite_ok (s := { s with mem := m }) hp, rfl,
      Memory.wf_writeLE _ hs hle, Memory.wf_writeLE _ hm hle, fun b hb => ?_, fun b h1 h2 => ⟨?_, ?_⟩⟩)
    · change _ = (s.mem.writeLE x v size.bytes).read b
      rw [Memory.read_writeLE _ _ _ _ hm hle, Memory.read_writeLE _ _ _ _ hs hle, h b hb]
    · exact Memory.read_writeLE_outside _ _ _ _ hs hle (by omega)
    · exact Memory.read_writeLE_outside _ _ _ _ hm hle (by omega)
  · cases hp : s.platform.accessError x size .write with
    | none => exact .inl ⟨_, _, _, hr, hp⟩
    | some c' =>
      have hc := (Platform.shut_accessError (a := a) hn hp).symm.trans h0
      injection hc with hc
      subst hc
      exact .inr (.inr ⟨_, _, m, hr, memWrite_error (s := { s with mem := m }) hp, beside_self hs hm h⟩)

end Cmd.Local

/-! ## The shared operations -/

theorem readEntries_local (size : Size) : ∀ (k a : Nat), Cmd.Local (readEntries size a k)
  | 0, _ => Cmd.Local.pure []
  | k + 1, a => (Cmd.Local.memRead a size 0).bind fun _ => (readEntries_local size k _).bind fun _ => Cmd.Local.pure _

theorem writeEntries_local (size : Size) : ∀ (l : List Nat) (a : Nat), Cmd.Local (writeEntries size a l)
  | [], _ => Cmd.Local.pure ()
  | v :: vs, a => (Cmd.Local.memWrite a size v 0).bind fun _ => writeEntries_local size vs _

theorem readRaw_local : Cmd.Local readRaw := Cmd.Local.getState (fun _ _ _ => rfl) fun _ => Cmd.Local.guardArray _ _

theorem readFreq_local : Cmd.Local readFreq := Cmd.Local.getState (fun _ _ _ => rfl) fun _ => Cmd.Local.guardArray _ _

theorem readStart_local (σ : Nat) : Cmd.Local (readStart σ) :=
  Cmd.Local.getState (fun _ _ _ => rfl) fun _ => Cmd.Local.guardArray _ _

theorem readSlot_local (slot : Nat) : Cmd.Local (readSlot slot) :=
  Cmd.Local.getState (fun _ _ _ => rfl) fun _ => Cmd.Local.guardArray _ _

theorem checkLane_local (lane : Nat) : Cmd.Local (checkLane lane) :=
  Cmd.Local.getState (fun _ _ _ => rfl) fun _ => Cmd.Local.require _

/-! ## The rules of the commands -/

theorem softReset_local : Cmd.Local softReset :=
  Cmd.Local.modify (g := fun s => { s.resetElements with cmd := s.cmd }) fun _ _ _ => rfl

theorem readBits_local (r : Reader) (n lane : Nat) : Cmd.Local (readBits r n lane) := by
  unfold readBits
  split
  · split
    · exact Cmd.Local.raiseErr _
    · exact (Cmd.Local.memRead _ _ _).bind fun _ => Cmd.Local.pure _
  · exact Cmd.Local.pure _

theorem writeBits_local (w : Writer) (v n lane : Nat) : Cmd.Local (writeBits w v n lane) := by
  unfold writeBits
  dsimp only
  split
  · exact (Cmd.Local.require _).bind fun _ => (Cmd.Local.memWrite _ _ _ _).bind fun _ => Cmd.Local.pure _
  · exact Cmd.Local.pure _

theorem brInit_local (base lim : Nat) (dir : Bool) : Cmd.Local (brInit base lim dir) :=
  (Cmd.Local.require _).bind fun _ => Cmd.Local.modify fun _ _ _ => rfl

theorem brRead_local (n : Nat) : Cmd.Local (brRead n) :=
  Cmd.Local.getState (fun _ _ _ => rfl) fun _ => (readBits_local _ _ _).bind fun _ => Cmd.Local.modify fun _ _ _ => rfl

theorem bwInit_local (base lim : Nat) : Cmd.Local (bwInit base lim) :=
  (Cmd.Local.require _).bind fun _ => Cmd.Local.modify fun _ _ _ => rfl

theorem bwWrite_local (v n : Nat) : Cmd.Local (bwWrite v n) :=
  Cmd.Local.getState (fun _ _ _ => rfl) fun _ => (writeBits_local _ _ _ _).bind fun _ =>
    Cmd.Local.modify fun _ _ _ => rfl

theorem countBytes_local : ∀ (k a : Nat) (raw : Vector Word 512), Cmd.Local (countBytes a k raw)
  | 0, _, _ => Cmd.Local.pure _
  | k + 1, a, _ => (Cmd.Local.memRead a _ 0).bind fun _ => countBytes_local k _ _

theorem histCount_local (a c : Nat) : Cmd.Local (histCount a c) :=
  (Cmd.Local.require _).bind fun _ => (countBytes_local _ _ _).bind fun _ => Cmd.Local.modify fun _ _ _ => rfl

theorem histLoad_local (a : Nat) : Cmd.Local (histLoad a) :=
  (Cmd.Local.require _).bind fun _ => (readEntries_local _ _ _).bind fun _ => Cmd.Local.modify fun _ _ _ => rfl

theorem histNorm_local : Cmd.Local histNorm :=
  Cmd.Local.getState (fun _ _ _ => rfl) fun _ => (Cmd.Local.require _).bind fun _ => readRaw_local.bind fun _ =>
    (Cmd.Local.require _).bind fun _ => (Cmd.Local.require _).bind fun _ => Cmd.Local.modify fun _ _ _ => rfl

theorem histStore_local (a : Nat) : Cmd.Local (histStore a) :=
  Cmd.Local.getState (fun _ _ _ => rfl) fun _ => (Cmd.Local.require _).bind fun _ => (Cmd.Local.require _).bind fun _ =>
    readFreq_local.bind fun _ => writeEntries_local _ _ _

theorem rawQuery_local (i : Nat) : Cmd.Local (rawQuery i) :=
  Cmd.Local.getState (fun _ _ _ => rfl) fun _ => (Cmd.Local.require _).bind fun _ => (Cmd.Local.require _).bind fun _ =>
    readRaw_local.bind fun _ => Cmd.Local.modify fun _ _ _ => rfl

theorem freqQuery_local (i : Nat) : Cmd.Local (freqQuery i) :=
  Cmd.Local.getState (fun _ _ _ => rfl) fun _ => (Cmd.Local.require _).bind fun _ => (Cmd.Local.require _).bind fun _ =>
    readFreq_local.bind fun _ => Cmd.Local.modify fun _ _ _ => rfl

theorem tblBuild_local : Cmd.Local tblBuild :=
  Cmd.Local.getState (fun _ _ _ => rfl) fun _ => (Cmd.Local.require _).bind fun _ => readFreq_local.bind fun _ =>
    Cmd.Local.modify fun _ _ _ => rfl

theorem tblQuery_local (slot : Nat) : Cmd.Local (tblQuery slot) :=
  Cmd.Local.getState (fun _ _ _ => rfl) fun _ => (Cmd.Local.require _).bind fun _ => (Cmd.Local.require _).bind fun _ =>
    (readSlot_local _).bind fun _ => Cmd.Local.modify fun _ _ _ => rfl

theorem encInit_local : Cmd.Local encInit := Cmd.Local.modify fun _ _ _ => rfl

theorem encPlan_local (lane σ x : Nat) : Cmd.Local (encPlan lane σ x) :=
  readFreq_local.bind fun _ => (Cmd.Local.require _).bind fun _ => (readStart_local _).bind fun _ =>
    (Cmd.Local.require _).bind fun _ => Cmd.Local.pure _

theorem storeWords_local (lane : Nat) : ∀ (ws : List Nat) (w : Writer), Cmd.Local (storeWords lane w ws)
  | [], _ => Cmd.Local.pure _
  | _ :: ws, w => (writeBits_local w _ _ _).bind fun _ => storeWords_local lane ws _

theorem encSym_local (lane σ : Nat) : Cmd.Local (encSym lane σ) :=
  Cmd.Local.getState (fun _ _ _ => rfl) fun _ => (Cmd.Local.require _).bind fun _ => (Cmd.Local.require _).bind fun _ =>
    (encPlan_local _ _ _).bind fun _ => (Cmd.Local.require _).bind fun _ => (storeWords_local _ _ _).bind fun _ =>
      Cmd.Local.modify fun _ _ _ => rfl

theorem encLanes_local (syms : List Nat) : ∀ (k : Nat) (xe : Vector Word 32), Cmd.Local (encLanes syms k xe)
  | 0, _ => Cmd.Local.pure _
  | k + 1, _ => (encPlan_local _ _ _).bind fun _ => (encLanes_local syms k _).bind fun _ => Cmd.Local.pure _

theorem encStep_local (a k : Nat) : Cmd.Local (encStep a k) :=
  Cmd.Local.getState (fun _ _ _ => rfl) fun _ => (Cmd.Local.require _).bind fun _ => (Cmd.Local.require _).bind fun _ =>
    (Cmd.Local.require _).bind fun _ => (readEntries_local _ _ _).bind fun _ => (encLanes_local _ _ _).bind fun _ =>
      (Cmd.Local.require _).bind fun _ => (storeWords_local _ _ _).bind fun _ => Cmd.Local.modify fun _ _ _ => rfl

theorem decRenorm_local (lane : Nat) : ∀ (k x : Nat) (r : Reader), Cmd.Local (decRenorm lane k x r)
  | 0, _, _ => Cmd.Local.pure _
  | k + 1, x, r => by
    unfold decRenorm
    split
    · exact (readBits_local _ _ _).bind fun _ => (decRenorm_local lane k _ _).bind fun _ => Cmd.Local.pure _
    · exact Cmd.Local.pure _

theorem decPlan_local (lane x : Nat) (r : Reader) : Cmd.Local (decPlan lane x r) :=
  (readSlot_local _).bind fun _ => (Cmd.Local.require _).bind fun _ => (decRenorm_local _ _ _ _).bind fun _ =>
    Cmd.Local.pure _

theorem decInit_local (lane x : Nat) : Cmd.Local (decInit lane x) :=
  (Cmd.Local.require _).bind fun _ => Cmd.Local.modify fun _ _ _ => rfl

theorem decSym_local (lane : Nat) : Cmd.Local (decSym lane) :=
  Cmd.Local.getState (fun _ _ _ => rfl) fun _ => (Cmd.Local.require _).bind fun _ => (decPlan_local _ _ _).bind fun _ =>
    (Cmd.Local.modify fun _ _ _ => rfl).bind fun _ => Cmd.Local.pure _

theorem decLanes_local : ∀ (k lane : Nat) (xd : Vector Word 32) (r : Reader), Cmd.Local (decLanes lane k xd r)
  | 0, _, _, _ => Cmd.Local.pure _
  | k + 1, _, _, _ => (decPlan_local _ _ _).bind fun _ => (decLanes_local k _ _ _).bind fun _ => Cmd.Local.pure _

theorem decStep_local (a k : Nat) : Cmd.Local (decStep a k) :=
  Cmd.Local.getState (fun _ _ _ => rfl) fun _ => (Cmd.Local.require _).bind fun _ => (Cmd.Local.require _).bind fun _ =>
    (Cmd.Local.require _).bind fun _ => (decLanes_local _ _ _ _).bind fun _ => (writeEntries_local _ _ _).bind fun _ =>
      Cmd.Local.modify fun _ _ _ => rfl

theorem checkHeader_local (FL W H PB S0 S1 S2 S3 : Nat) : Cmd.Local (checkHeader FL W H PB S0 S1 S2 S3) :=
  Cmd.Local.getState (fun _ _ _ => rfl) fun _ => (Cmd.Local.require _).bind fun _ => (Cmd.Local.require _).bind fun _ =>
    (Cmd.Local.require _).bind fun _ => (Cmd.Local.require _).bind fun _ => (Cmd.Local.require _).bind fun _ =>
      (Cmd.Local.require _).bind fun _ => Cmd.Local.modify fun _ _ _ => rfl

theorem frmParseBody_local (A FL : Nat) : Cmd.Local (frmParseBody A FL) :=
  (Cmd.Local.require _).bind fun _ => (Cmd.Local.require _).bind fun _ => (Cmd.Local.memRead _ _ _).bind fun _ =>
    (Cmd.Local.memRead _ _ _).bind fun _ => (Cmd.Local.memRead _ _ _).bind fun _ =>
      (Cmd.Local.memRead _ _ _).bind fun _ => (Cmd.Local.memRead _ _ _).bind fun _ => (Cmd.Local.memRead _ _ _).bind fun _ =>
        (Cmd.Local.memRead _ _ _).bind fun _ => checkHeader_local _ _ _ _ _ _ _ _

theorem frmParse_local (A FL : Nat) : Cmd.Local (frmParse A FL) := by
  intro s m a n hn hs hm h
  rcases frmParseBody_local A FL s m a n hn hs hm h with
    ⟨e, y, t, h0, hy⟩ | ⟨v, t, m', h0, h1, hb⟩ | ⟨e, t, m', h0, h1, hb⟩
  · exact .inl ⟨e, y, t.setStatus (t.status.withHdr false), by simp only [frmParse, h0], hy⟩
  · exact .inr (.inl ⟨v, t, m', by simp only [frmParse, h0], by simp only [frmParse, h1], hb⟩)
  · exact .inr (.inr ⟨e, t.setStatus (t.status.withHdr false), m', by simp only [frmParse, h0],
      by simp only [frmParse, h1]; rfl, hb.platform, hb.wf, hb.wf', hb.outside, hb.inside⟩)

theorem frmHdrWrite_local (A : Nat) : Cmd.Local (frmHdrWrite A) :=
  Cmd.Local.getState (fun _ _ _ => rfl) fun _ => (Cmd.Local.require _).bind fun _ =>
    (Cmd.Local.memWrite _ _ _ _).bind fun _ => (Cmd.Local.memWrite _ _ _ _).bind fun _ =>
      (Cmd.Local.memWrite _ _ _ _).bind fun _ => (Cmd.Local.memWrite _ _ _ _).bind fun _ =>
        (Cmd.Local.memWrite _ _ _ _).bind fun _ => (Cmd.Local.memWrite _ _ _ _).bind fun _ => Cmd.Local.memWrite _ _ _ _

theorem loadLanes_local (body : Nat) : ∀ (k lane : Nat), Cmd.Local (loadLanes body lane k)
  | 0, _ => Cmd.Local.pure _
  | k + 1, _ => (Cmd.Local.memRead _ _ _).bind fun _ => (decInit_local _ _).bind fun _ => loadLanes_local body k _

theorem decodeStep_local : ∀ (k lane : Nat), Cmd.Local (decodeStep lane k)
  | 0, _ => Cmd.Local.pure _
  | k + 1, _ => (decSym_local _).bind fun _ => (decodeStep_local k _).bind fun _ => Cmd.Local.pure _

theorem decodeSteps_local (C N : Nat) : ∀ (i : Nat) (out : List Nat), Cmd.Local (decodeSteps C N i out)
  | 0, _ => Cmd.Local.pure _
  | i + 1, _ => (decodeStep_local _ _).bind fun _ => decodeSteps_local C N i _

theorem checkLanesBack_local (xd : Vector Word 32) : ∀ (k lane : Nat), Cmd.Local (checkLanesBack xd lane k)
  | 0, _ => Cmd.Local.pure _
  | k + 1, _ => (Cmd.Local.require _).bind fun _ => checkLanesBack_local xd k _

theorem decodePayload_local (N P size C : Nat) : Cmd.Local (decodePayload N P size C) :=
  (histLoad_local _).bind fun _ => histNorm_local.bind fun _ => tblBuild_local.bind fun _ =>
    (loadLanes_local _ _ _).bind fun _ => (brInit_local _ _ _).bind fun _ => (decodeSteps_local _ _ _ _).bind fun _ =>
      Cmd.Local.getState (fun _ _ _ => rfl) fun _ => (checkLanesBack_local _ _ _).bind fun _ =>
        (Cmd.Local.require _).bind fun _ => Cmd.Local.pure _

theorem frmDecPayload_local (p : Payload) (A D : Nat) : Cmd.Local (frmDecPayload p A D) :=
  Cmd.Local.getState (fun _ _ _ => rfl) fun _ => (Cmd.Local.require _).bind fun _ => (Cmd.Local.require _).bind fun _ =>
    (Cmd.Local.require _).bind fun _ => (Cmd.Local.require _).bind fun _ => (decodePayload_local _ _ _ _).bind fun _ =>
      (writeEntries_local _ _ _).bind fun _ => Cmd.Local.modify fun _ _ _ => rfl

theorem encodeStep_local (a : Nat) : ∀ k : Nat, Cmd.Local (encodeStep a k)
  | 0 => Cmd.Local.pure _
  | k + 1 => (Cmd.Local.memRead _ _ _).bind fun _ => (encSym_local _ _).bind fun _ => encodeStep_local a k

theorem encodeSteps_local (src C N : Nat) : ∀ (k i : Nat), Cmd.Local (encodeSteps src C N i k)
  | 0, _ => Cmd.Local.pure _
  | k + 1, _ => (encodeStep_local _ _).bind fun _ => encodeSteps_local src C N k _

theorem frmEncPayload_local (p : Payload) (src P C CAP : Nat) : Cmd.Local (frmEncPayload p src P C CAP) :=
  Cmd.Local.getState (fun _ _ _ => rfl) fun _ => (Cmd.Local.require _).bind fun _ => (Cmd.Local.require _).bind fun _ =>
    (Cmd.Local.require _).bind fun _ => (Cmd.Local.require _).bind fun _ => (Cmd.Local.require _).bind fun _ =>
      (histCount_local _ _).bind fun _ => histNorm_local.bind fun _ => tblBuild_local.bind fun _ =>
        (histStore_local _).bind fun _ => encInit_local.bind fun _ => (bwInit_local _ _).bind fun _ =>
          (encodeSteps_local _ _ _ _ _).bind fun _ => Cmd.Local.getState (fun _ _ _ => rfl) fun _ =>
            (writeEntries_local _ _ _).bind fun _ => Cmd.Local.modify fun _ _ _ => rfl

/-- Every command's rule sees memory only through its accesses. -/
theorem ruleOf_local (i : Instr) (s : State) : Cmd.Local (ruleOf i s) := by
  cases i with
  | nop => exact Cmd.Local.pure _
  | softReset => exact softReset_local
  | clrStatus => exact Cmd.Local.modify fun _ _ _ => rfl
  | brInit => exact brInit_local _ _ _
  | brRead n => exact brRead_local _
  | bwInit => exact bwInit_local _ _
  | bwWrite n => exact bwWrite_local _ _
  | histCount => exact histCount_local _ _
  | histLoad => exact histLoad_local _
  | histNorm => exact histNorm_local
  | histStore => exact histStore_local _
  | rawQuery => exact rawQuery_local _
  | freqQuery => exact freqQuery_local _
  | tblBuild => exact tblBuild_local
  | tblQuery => exact tblQuery_local _
  | encInit => exact encInit_local
  | encSym lane => exact (checkLane_local _).bind fun _ => encSym_local _ _
  | encStep => exact encStep_local _ _
  | decInit lane => exact (checkLane_local _).bind fun _ => decInit_local _ _
  | decSym lane => exact (checkLane_local _).bind fun _ => (decSym_local _).bind fun _ => Cmd.Local.pure _
  | decStep => exact decStep_local _ _
  | frmParse => exact frmParse_local _ _
  | frmHdrWrite => exact frmHdrWrite_local _
  | frmDecPayload p => exact frmDecPayload_local _ _ _
  | frmEncPayload p => exact frmEncPayload_local _ _ _ _ _

end Sys2Proof.Machine
end

