-- ==== Sys2Proof/Laws/PerInstr.lean ====
section
/-!
SUPPORT. The per-command family `EncodeMatches`: the word of a well-formed command agrees with the command's opcode on
the mask of its kind, so that its field bits lie in the free bits (30_encoding.md R82).
-/
namespace Sys2Proof.Laws

/-- The encoded word matches the command's row of the opcode map (R82). -/
def EncodeMatches.Statement (i : Instr) : Prop :=
  i.wellFormed = true → encode i &&& i.field.mask = i.opcode.setWidth 32

/-- The lane field lies in bits 12:8, whatever the opcode (R80). -/
theorem lane_matches (op : BitVec 8) (lane : Nat) (h : laneFits lane = true) :
    (op.setWidth 32 ||| BitVec.ofNat 32 lane <<< 8) &&& WordField.lane.mask = op.setWidth 32 := by
  have key : ∀ l : Fin 32, BitVec.ofNat 32 l.val <<< 8 &&& WordField.lane.mask = 0 := by decide
  have hop : op.setWidth 32 &&& WordField.lane.mask = op.setWidth 32 := by
    revert op
    decide
  have hl : lane < 32 := by simpa [laneFits] using h
  rw [BitVec.and_comm, BitVec.and_or_distrib_left, BitVec.and_comm, hop, BitVec.and_comm, key ⟨lane, hl⟩]
  exact BitVec.or_zero

/-- The count field lies in bits 19:16, whatever the opcode (R80). -/
theorem width_matches (op : BitVec 8) (n : Nat) (h : widthFits n = true) :
    (op.setWidth 32 ||| BitVec.ofNat 32 (n - 1) <<< 16) &&& WordField.nm1.mask = op.setWidth 32 := by
  have key : ∀ l : Fin 16, BitVec.ofNat 32 l.val <<< 16 &&& WordField.nm1.mask = 0 := by decide
  have hop : op.setWidth 32 &&& WordField.nm1.mask = op.setWidth 32 := by
    revert op
    decide
  have hn : n - 1 < 16 := by
    simp [widthFits] at h
    omega
  rw [BitVec.and_comm, BitVec.and_or_distrib_left, BitVec.and_comm, hop, BitVec.and_comm, key ⟨n - 1, hn⟩]
  exact BitVec.or_zero

/-- The payload field lies in bits 21:20, whatever the opcode (R80). -/
theorem pay_matches (op : BitVec 8) (pay : Payload) :
    (op.setWidth 32 ||| BitVec.ofNat 32 pay.index <<< 20) &&& WordField.pay.mask = op.setWidth 32 := by
  have key : BitVec.ofNat 32 pay.index <<< 20 &&& WordField.pay.mask = 0 := by cases pay <;> decide
  have hop : op.setWidth 32 &&& WordField.pay.mask = op.setWidth 32 := by
    revert op
    decide
  rw [BitVec.and_comm, BitVec.and_or_distrib_left, BitVec.and_comm, hop, BitVec.and_comm, key]
  exact BitVec.or_zero

theorem EncodeMatches.nop : EncodeMatches.Statement .nop := fun _ => by decide

theorem EncodeMatches.softReset : EncodeMatches.Statement .softReset := fun _ => by decide

theorem EncodeMatches.clrStatus : EncodeMatches.Statement .clrStatus := fun _ => by decide

theorem EncodeMatches.brInit : EncodeMatches.Statement .brInit := fun _ => by decide

theorem EncodeMatches.brRead (n : Nat) : EncodeMatches.Statement (.brRead n) := fun h => width_matches _ n h

theorem EncodeMatches.bwInit : EncodeMatches.Statement .bwInit := fun _ => by decide

theorem EncodeMatches.bwWrite (n : Nat) : EncodeMatches.Statement (.bwWrite n) := fun h => width_matches _ n h

theorem EncodeMatches.histCount : EncodeMatches.Statement .histCount := fun _ => by decide

theorem EncodeMatches.histLoad : EncodeMatches.Statement .histLoad := fun _ => by decide

theorem EncodeMatches.histNorm : EncodeMatches.Statement .histNorm := fun _ => by decide

theorem EncodeMatches.histStore : EncodeMatches.Statement .histStore := fun _ => by decide

theorem EncodeMatches.rawQuery : EncodeMatches.Statement .rawQuery := fun _ => by decide

theorem EncodeMatches.freqQuery : EncodeMatches.Statement .freqQuery := fun _ => by decide

theorem EncodeMatches.tblBuild : EncodeMatches.Statement .tblBuild := fun _ => by decide

theorem EncodeMatches.tblQuery : EncodeMatches.Statement .tblQuery := fun _ => by decide

theorem EncodeMatches.encInit : EncodeMatches.Statement .encInit := fun _ => by decide

theorem EncodeMatches.encSym (lane : Nat) : EncodeMatches.Statement (.encSym lane) := fun h => lane_matches _ lane h

theorem EncodeMatches.encStep : EncodeMatches.Statement .encStep := fun _ => by decide

theorem EncodeMatches.decInit (lane : Nat) : EncodeMatches.Statement (.decInit lane) := fun h => lane_matches _ lane h

theorem EncodeMatches.decSym (lane : Nat) : EncodeMatches.Statement (.decSym lane) := fun h => lane_matches _ lane h

theorem EncodeMatches.decStep : EncodeMatches.Statement .decStep := fun _ => by decide

theorem EncodeMatches.frmParse : EncodeMatches.Statement .frmParse := fun _ => by decide

theorem EncodeMatches.frmHdrWrite : EncodeMatches.Statement .frmHdrWrite := fun _ => by decide

theorem EncodeMatches.frmDecPayload (pay : Payload) : EncodeMatches.Statement (.frmDecPayload pay) := fun _ => pay_matches _ pay

theorem EncodeMatches.frmEncPayload (pay : Payload) : EncodeMatches.Statement (.frmEncPayload pay) := fun _ => pay_matches _ pay

end Sys2Proof.Laws
end

