-- ==== Sys2Proof/Laws/Platform.lean ====
section
/-!
SUPPORT. Which accesses a platform answers that refuses nothing outside the CSR window (20_memory.md R62, R67), and what
an open region gives.
-/
namespace Sys2Proof.Machine

/-- A platform that refuses nothing has every region below the CSR window open. -/
theorem open_below {s : State} {a n : Nat} (hp : s.platform.refused = []) (h : a + n ≤ s.platform.csrBase)
    (hm : s.platform.csrBase ≤ Config.memBytes) : s.Open a n :=
  fun _ _ _ _ h2 => accessError_open hp (h2.trans h) hm

/-- The accesses of a run inside an open region are answered. -/
theorem State.Open.canRead {s : State} {a n k b : Nat} {size : Size} (h : s.Open a n) (hb : a ≤ b)
    (hk : b + size.bytes * k ≤ a + n) : s.CanRead size b k := fun i hi =>
  h size .read _ (by omega) (by
    have : size.bytes * (i + 1) ≤ size.bytes * k := Nat.mul_le_mul_left _ hi
    rw [Nat.mul_add, Nat.mul_one] at this
    omega)

theorem State.Open.canWrite {s : State} {a n k b : Nat} {size : Size} (h : s.Open a n) (hb : a ≤ b)
    (hk : b + size.bytes * k ≤ a + n) : s.CanWrite size b k := fun i hi =>
  h size .write _ (by omega) (by
    have : size.bytes * (i + 1) ≤ size.bytes * k := Nat.mul_le_mul_left _ hi
    rw [Nat.mul_add, Nat.mul_one] at this
    omega)

/-- The header fields of an open header region are answered (R200). -/
theorem State.Open.header {s : State} {A : Nat} (h : s.Open A 48) (k : AccessKind) :
    ∀ f ∈ headerLayout, s.platform.accessError (A + f.1) f.2 k = none := by
  intro f hf
  simp only [headerLayout, List.mem_cons, List.not_mem_nil, or_false] at hf
  rcases hf with rfl | rfl | rfl | rfl | rfl | rfl | rfl <;> exact h _ _ _ (by omega) (by simp [Size.bytes])

/-- An open region does not depend on what is not the platform. -/
theorem State.Open.of_platform {s t : State} {a n : Nat} (h : s.Open a n) (hp : t.platform = s.platform) :
    t.Open a n := fun size k x h1 h2 => hp ▸ h size k x h1 h2

end Sys2Proof.Machine
end

