-- ==== Sys2Proof/Laws/Status.lean ====
section
/-!
SUPPORT. What each update of the `STATUS` bits leaves and changes, bit by bit (10_state.md R27).
-/
namespace Sys2Proof.Machine

@[simp] theorem Status.accepted_busy (f : Status) : f.accepted.busy = true := rfl
@[simp] theorem Status.accepted_done (f : Status) : f.accepted.done = false := rfl
@[simp] theorem Status.accepted_err (f : Status) : f.accepted.err = f.err := rfl
@[simp] theorem Status.accepted_wbusy (f : Status) : f.accepted.wbusy = f.wbusy := rfl
@[simp] theorem Status.accepted_rawValid (f : Status) : f.accepted.rawValid = f.rawValid := rfl
@[simp] theorem Status.accepted_histValid (f : Status) : f.accepted.histValid = f.histValid := rfl
@[simp] theorem Status.accepted_tblValid (f : Status) : f.accepted.tblValid = f.tblValid := rfl
@[simp] theorem Status.accepted_hdrValid (f : Status) : f.accepted.hdrValid = f.hdrValid := rfl
@[simp] theorem Status.accepted_fallback (f : Status) : f.accepted.fallback = f.fallback := rfl

@[simp] theorem Status.completed_busy (f : Status) : f.completed.busy = false := rfl
@[simp] theorem Status.completed_done (f : Status) : f.completed.done = true := rfl
@[simp] theorem Status.completed_err (f : Status) : f.completed.err = f.err := rfl
@[simp] theorem Status.completed_wbusy (f : Status) : f.completed.wbusy = f.wbusy := rfl
@[simp] theorem Status.completed_rawValid (f : Status) : f.completed.rawValid = f.rawValid := rfl
@[simp] theorem Status.completed_histValid (f : Status) : f.completed.histValid = f.histValid := rfl
@[simp] theorem Status.completed_tblValid (f : Status) : f.completed.tblValid = f.tblValid := rfl
@[simp] theorem Status.completed_hdrValid (f : Status) : f.completed.hdrValid = f.hdrValid := rfl
@[simp] theorem Status.completed_fallback (f : Status) : f.completed.fallback = f.fallback := rfl

@[simp] theorem Status.withErr_busy (f : Status) : f.withErr.busy = f.busy := rfl
@[simp] theorem Status.withErr_done (f : Status) : f.withErr.done = f.done := rfl
@[simp] theorem Status.withErr_err (f : Status) : f.withErr.err = true := rfl
@[simp] theorem Status.withErr_wbusy (f : Status) : f.withErr.wbusy = f.wbusy := rfl
@[simp] theorem Status.withErr_rawValid (f : Status) : f.withErr.rawValid = f.rawValid := rfl
@[simp] theorem Status.withErr_histValid (f : Status) : f.withErr.histValid = f.histValid := rfl
@[simp] theorem Status.withErr_tblValid (f : Status) : f.withErr.tblValid = f.tblValid := rfl
@[simp] theorem Status.withErr_hdrValid (f : Status) : f.withErr.hdrValid = f.hdrValid := rfl
@[simp] theorem Status.withErr_fallback (f : Status) : f.withErr.fallback = f.fallback := rfl

@[simp] theorem Status.cleared_busy (f : Status) : f.cleared.busy = f.busy := rfl
@[simp] theorem Status.cleared_done (f : Status) : f.cleared.done = f.done := rfl
@[simp] theorem Status.cleared_err (f : Status) : f.cleared.err = false := rfl
@[simp] theorem Status.cleared_wbusy (f : Status) : f.cleared.wbusy = false := rfl
@[simp] theorem Status.cleared_rawValid (f : Status) : f.cleared.rawValid = f.rawValid := rfl
@[simp] theorem Status.cleared_histValid (f : Status) : f.cleared.histValid = f.histValid := rfl
@[simp] theorem Status.cleared_tblValid (f : Status) : f.cleared.tblValid = f.tblValid := rfl
@[simp] theorem Status.cleared_hdrValid (f : Status) : f.cleared.hdrValid = f.hdrValid := rfl
@[simp] theorem Status.cleared_fallback (f : Status) : f.cleared.fallback = f.fallback := rfl

@[simp] theorem Status.droppedWrite_busy (f : Status) : f.droppedWrite.busy = f.busy := rfl
@[simp] theorem Status.droppedWrite_done (f : Status) : f.droppedWrite.done = f.done := rfl
@[simp] theorem Status.droppedWrite_err (f : Status) : f.droppedWrite.err = f.err := rfl
@[simp] theorem Status.droppedWrite_wbusy (f : Status) : f.droppedWrite.wbusy = true := rfl
@[simp] theorem Status.droppedWrite_rawValid (f : Status) : f.droppedWrite.rawValid = f.rawValid := rfl
@[simp] theorem Status.droppedWrite_histValid (f : Status) : f.droppedWrite.histValid = f.histValid := rfl
@[simp] theorem Status.droppedWrite_tblValid (f : Status) : f.droppedWrite.tblValid = f.tblValid := rfl
@[simp] theorem Status.droppedWrite_hdrValid (f : Status) : f.droppedWrite.hdrValid = f.hdrValid := rfl
@[simp] theorem Status.droppedWrite_fallback (f : Status) : f.droppedWrite.fallback = f.fallback := rfl

@[simp] theorem Status.rawLoaded_busy (f : Status) : f.rawLoaded.busy = f.busy := rfl
@[simp] theorem Status.rawLoaded_done (f : Status) : f.rawLoaded.done = f.done := rfl
@[simp] theorem Status.rawLoaded_err (f : Status) : f.rawLoaded.err = f.err := rfl
@[simp] theorem Status.rawLoaded_wbusy (f : Status) : f.rawLoaded.wbusy = f.wbusy := rfl
@[simp] theorem Status.rawLoaded_rawValid (f : Status) : f.rawLoaded.rawValid = true := rfl
@[simp] theorem Status.rawLoaded_histValid (f : Status) : f.rawLoaded.histValid = f.histValid := rfl
@[simp] theorem Status.rawLoaded_tblValid (f : Status) : f.rawLoaded.tblValid = f.tblValid := rfl
@[simp] theorem Status.rawLoaded_hdrValid (f : Status) : f.rawLoaded.hdrValid = f.hdrValid := rfl
@[simp] theorem Status.rawLoaded_fallback (f : Status) : f.rawLoaded.fallback = f.fallback := rfl

@[simp] theorem Status.normalized_busy (f : Status) (fb : Bool) : (f.normalized fb).busy = f.busy := rfl
@[simp] theorem Status.normalized_done (f : Status) (fb : Bool) : (f.normalized fb).done = f.done := rfl
@[simp] theorem Status.normalized_err (f : Status) (fb : Bool) : (f.normalized fb).err = f.err := rfl
@[simp] theorem Status.normalized_wbusy (f : Status) (fb : Bool) : (f.normalized fb).wbusy = f.wbusy := rfl
@[simp] theorem Status.normalized_rawValid (f : Status) (fb : Bool) : (f.normalized fb).rawValid = f.rawValid := rfl
@[simp] theorem Status.normalized_histValid (f : Status) (fb : Bool) : (f.normalized fb).histValid = true := rfl
@[simp] theorem Status.normalized_tblValid (f : Status) (fb : Bool) : (f.normalized fb).tblValid = false := rfl
@[simp] theorem Status.normalized_hdrValid (f : Status) (fb : Bool) : (f.normalized fb).hdrValid = f.hdrValid := rfl
@[simp] theorem Status.normalized_fallback (f : Status) (fb : Bool) : (f.normalized fb).fallback = fb := rfl

@[simp] theorem Status.tableBuilt_busy (f : Status) : f.tableBuilt.busy = f.busy := rfl
@[simp] theorem Status.tableBuilt_done (f : Status) : f.tableBuilt.done = f.done := rfl
@[simp] theorem Status.tableBuilt_err (f : Status) : f.tableBuilt.err = f.err := rfl
@[simp] theorem Status.tableBuilt_wbusy (f : Status) : f.tableBuilt.wbusy = f.wbusy := rfl
@[simp] theorem Status.tableBuilt_rawValid (f : Status) : f.tableBuilt.rawValid = f.rawValid := rfl
@[simp] theorem Status.tableBuilt_histValid (f : Status) : f.tableBuilt.histValid = f.histValid := rfl
@[simp] theorem Status.tableBuilt_tblValid (f : Status) : f.tableBuilt.tblValid = true := rfl
@[simp] theorem Status.tableBuilt_hdrValid (f : Status) : f.tableBuilt.hdrValid = f.hdrValid := rfl
@[simp] theorem Status.tableBuilt_fallback (f : Status) : f.tableBuilt.fallback = f.fallback := rfl

@[simp] theorem Status.withHdr_busy (f : Status) (v : Bool) : (f.withHdr v).busy = f.busy := rfl
@[simp] theorem Status.withHdr_done (f : Status) (v : Bool) : (f.withHdr v).done = f.done := rfl
@[simp] theorem Status.withHdr_err (f : Status) (v : Bool) : (f.withHdr v).err = f.err := rfl
@[simp] theorem Status.withHdr_wbusy (f : Status) (v : Bool) : (f.withHdr v).wbusy = f.wbusy := rfl
@[simp] theorem Status.withHdr_rawValid (f : Status) (v : Bool) : (f.withHdr v).rawValid = f.rawValid := rfl
@[simp] theorem Status.withHdr_histValid (f : Status) (v : Bool) : (f.withHdr v).histValid = f.histValid := rfl
@[simp] theorem Status.withHdr_tblValid (f : Status) (v : Bool) : (f.withHdr v).tblValid = f.tblValid := rfl
@[simp] theorem Status.withHdr_hdrValid (f : Status) (v : Bool) : (f.withHdr v).hdrValid = v := rfl
@[simp] theorem Status.withHdr_fallback (f : Status) (v : Bool) : (f.withHdr v).fallback = f.fallback := rfl

@[simp] theorem Status.writeOneClears_busy (f : Status) (v : Word) : (f.writeOneClears v).busy = f.busy := rfl
@[simp] theorem Status.writeOneClears_done (f : Status) (v : Word) : (f.writeOneClears v).done = (f.done && !v.getLsbD 1) := rfl
@[simp] theorem Status.writeOneClears_err (f : Status) (v : Word) : (f.writeOneClears v).err = (f.err && !v.getLsbD 2) := rfl
@[simp] theorem Status.writeOneClears_wbusy (f : Status) (v : Word) : (f.writeOneClears v).wbusy = (f.wbusy && !v.getLsbD 3) := rfl
@[simp] theorem Status.writeOneClears_rawValid (f : Status) (v : Word) : (f.writeOneClears v).rawValid = f.rawValid := rfl
@[simp] theorem Status.writeOneClears_histValid (f : Status) (v : Word) : (f.writeOneClears v).histValid = f.histValid := rfl
@[simp] theorem Status.writeOneClears_tblValid (f : Status) (v : Word) : (f.writeOneClears v).tblValid = f.tblValid := rfl
@[simp] theorem Status.writeOneClears_hdrValid (f : Status) (v : Word) : (f.writeOneClears v).hdrValid = f.hdrValid := rfl
@[simp] theorem Status.writeOneClears_fallback (f : Status) (v : Word) : (f.writeOneClears v).fallback = f.fallback := rfl

end Sys2Proof.Machine
end

