-- ==== Sys2Proof/Tests/Slice0.lean ====
section
/-!
SUPPORT. Tests of the model against the spec's own encodings and worked examples, and for each statement with
hypotheses a state and operands that meet all of them together.
-/
namespace Sys2Proof.Tests
open Sys2Proof Sys2Proof.Machine

-- One kernel evaluation at a time.
set_option Elab.async false

/-! ## Helpers -/

/-- Whether a command answers a next state. -/
def completes (i : Instr) (s : State) : Bool :=
  match exec i s with
  | .next _ => true
  | .fault _ => false
  | .refused _ => false

/-- The state after a command. -/
def after (i : Instr) (s : State) : State :=
  match exec i s with
  | .next t => t
  | .fault _ => s
  | .refused _ => s

theorem exec_eq_after {i : Instr} {s : State} (h : completes i s = true) : exec i s = .next (after i s) := by
  unfold completes at h
  unfold after
  split at h
  · rename_i t ht
    rw [ht]
  · cases h
  · cases h

/-- The reset state with the argument registers written. -/
def args (s : State) (a0 a1 a2 a3 : Word) : State := { s with arg0 := a0, arg1 := a1, arg2 := a2, arg3 := a3 }

/-- The reset state with an interleave factor. -/
def lanesOf (n : Nat) : State := { State.reset with cfgN := BitVec.ofNat 6 n }

/-- Bytes stored from an address up. -/
def put (m : Memory) (a : Nat) (l : List Nat) : Memory := storeEntries 1 m a l

/-- The bytes from an address up. -/
def get (m : Memory) (a n : Nat) : List Nat := (List.range n).map fun k => (m.read (a + k)).toNat

/-- A raw table is loaded. -/
def rawState (l : List Nat) (s : State) : State :=
  { s with rawf := ofListD 512 (l.map (BitVec.ofNat 32)) 0, status := { s.status with rawValid := true } }

/-- A raw table is loaded, normalized and built. -/
def tables (l : List Nat) (s : State) : State := after .tblBuild (after .histNorm (rawState l s))

/-- A state with the normalized table `F` and the decoding tables built from it. -/
def built (F : List Nat) (s : State) : State :=
  { s with
    rawf := ofListD 512 (F.map (BitVec.ofNat 32)) 0
    freq := ofListD 256 (F.map (BitVec.ofNat 16)) 0
    sym := ofListD 2048 ((slotRows 0 0 F).map fun r => BitVec.ofNat 8 r.1) 0
    frq := ofListD 2048 ((slotRows 0 0 F).map fun r => BitVec.ofNat 16 r.2.1) 0
    cum := ofListD 2048 ((slotRows 0 0 F).map fun r => BitVec.ofNat 16 r.2.2) 0
    cums := ofListD 256 ((startSlots 0 (F ++ List.replicate (256 - F.length) 0)).map (BitVec.ofNat 16)) 0
    status := { s.status with rawValid := true, histValid := true, tblValid := true } }

/-- The table of R151's example. -/
def five : State := built [473, 315, 158, 629, 473] State.reset

/-- The reset state with a word accepted. -/
def running (w : Word) (s : State) : State := s.latchCommand w

/-- A platform that refuses reads and writes of one width at one address. -/
def refusing (n : Size) (a : Nat) : Platform :=
  { csrPage := 0xFFFFF, refused := [⟨.read, n, a, a⟩, ⟨.write, n, a, a⟩], irqLine := 0 }

/-- The parts of a list of outcomes that the claims of R117 read. -/
theorem getD_of_isSome {α : Type} {o : Option α} {d : α} (h : o.isSome = true) : o = some (o.getD d) := by
  cases o
  · cases h
  · rfl

/-! ## `WellFormed` refuses ill-formed terms -/

theorem test_brRead_zero_illformed : (Instr.brRead 0).wellFormed = false := by decide
theorem test_brRead_seventeen_illformed : (Instr.brRead 17).wellFormed = false := by decide
theorem test_bwWrite_zero_illformed : (Instr.bwWrite 0).wellFormed = false := by decide
theorem test_bwWrite_seventeen_illformed : (Instr.bwWrite 17).wellFormed = false := by decide
theorem test_encSym_lane32_illformed : (Instr.encSym 32).wellFormed = false := by decide
theorem test_decInit_lane32_illformed : (Instr.decInit 32).wellFormed = false := by decide
theorem test_decSym_lane32_illformed : (Instr.decSym 32).wellFormed = false := by decide

/-! ## Decoding of words written out from R80: reserved 31:22, `PAY`, `NM1`, reserved 15:13, `LANE`, `OP` -/

theorem test_decode_nop : decode (0#10 ++ 0#2 ++ 0#4 ++ 0#3 ++ 0#5 ++ 0b00000000#8) = .ok .nop := by rfl
theorem test_decode_softReset : decode (0#10 ++ 0#2 ++ 0#4 ++ 0#3 ++ 0#5 ++ 0b00000001#8) = .ok .softReset := by rfl
theorem test_decode_clrStatus : decode (0#10 ++ 0#2 ++ 0#4 ++ 0#3 ++ 0#5 ++ 0b00000010#8) = .ok .clrStatus := by rfl
theorem test_decode_brInit : decode (0#10 ++ 0#2 ++ 0#4 ++ 0#3 ++ 0#5 ++ 0b00010000#8) = .ok .brInit := by rfl
theorem test_decode_brRead : decode (0#10 ++ 0#2 ++ 0b1111#4 ++ 0#3 ++ 0#5 ++ 0b00010001#8) = .ok (.brRead 16) := by rfl
theorem test_decode_bwInit : decode (0#10 ++ 0#2 ++ 0#4 ++ 0#3 ++ 0#5 ++ 0b00010010#8) = .ok .bwInit := by rfl
theorem test_decode_bwWrite : decode (0#10 ++ 0#2 ++ 0b0100#4 ++ 0#3 ++ 0#5 ++ 0b00010011#8) = .ok (.bwWrite 5) := by rfl
theorem test_decode_histCount : decode (0#10 ++ 0#2 ++ 0#4 ++ 0#3 ++ 0#5 ++ 0b00100000#8) = .ok .histCount := by rfl
theorem test_decode_histLoad : decode (0#10 ++ 0#2 ++ 0#4 ++ 0#3 ++ 0#5 ++ 0b00100001#8) = .ok .histLoad := by rfl
theorem test_decode_histNorm : decode (0#10 ++ 0#2 ++ 0#4 ++ 0#3 ++ 0#5 ++ 0b00100010#8) = .ok .histNorm := by rfl
theorem test_decode_histStore : decode (0#10 ++ 0#2 ++ 0#4 ++ 0#3 ++ 0#5 ++ 0b00100011#8) = .ok .histStore := by rfl
theorem test_decode_rawQuery : decode (0#10 ++ 0#2 ++ 0#4 ++ 0#3 ++ 0#5 ++ 0b00100100#8) = .ok .rawQuery := by rfl
theorem test_decode_freqQuery : decode (0#10 ++ 0#2 ++ 0#4 ++ 0#3 ++ 0#5 ++ 0b00100101#8) = .ok .freqQuery := by rfl
theorem test_decode_tblBuild : decode (0#10 ++ 0#2 ++ 0#4 ++ 0#3 ++ 0#5 ++ 0b00101000#8) = .ok .tblBuild := by rfl
theorem test_decode_tblQuery : decode (0#10 ++ 0#2 ++ 0#4 ++ 0#3 ++ 0#5 ++ 0b00101001#8) = .ok .tblQuery := by rfl
theorem test_decode_encInit : decode (0#10 ++ 0#2 ++ 0#4 ++ 0#3 ++ 0#5 ++ 0b00110000#8) = .ok .encInit := by rfl
theorem test_decode_encSym : decode (0#10 ++ 0#2 ++ 0#4 ++ 0#3 ++ 0b10110#5 ++ 0b00110001#8) = .ok (.encSym 22) := by rfl
theorem test_decode_encStep : decode (0#10 ++ 0#2 ++ 0#4 ++ 0#3 ++ 0#5 ++ 0b00110010#8) = .ok .encStep := by rfl
theorem test_decode_decInit : decode (0#10 ++ 0#2 ++ 0#4 ++ 0#3 ++ 0b11111#5 ++ 0b01000000#8) = .ok (.decInit 31) := by
  rfl
theorem test_decode_decSym : decode (0#10 ++ 0#2 ++ 0#4 ++ 0#3 ++ 0b00011#5 ++ 0b01000001#8) = .ok (.decSym 3) := by rfl
theorem test_decode_decStep : decode (0#10 ++ 0#2 ++ 0#4 ++ 0#3 ++ 0#5 ++ 0b01000010#8) = .ok .decStep := by rfl
theorem test_decode_frmParse : decode (0#10 ++ 0#2 ++ 0#4 ++ 0#3 ++ 0#5 ++ 0b01010000#8) = .ok .frmParse := by rfl
theorem test_decode_frmHdrWrite : decode (0#10 ++ 0#2 ++ 0#4 ++ 0#3 ++ 0#5 ++ 0b01010001#8) = .ok .frmHdrWrite := by rfl
theorem test_decode_frmDecPayload :
    decode (0#10 ++ 0b10#2 ++ 0#4 ++ 0#3 ++ 0#5 ++ 0b01010010#8) = .ok (.frmDecPayload .palette) := by rfl
theorem test_decode_frmEncPayload :
    decode (0#10 ++ 0b01#2 ++ 0#4 ++ 0#3 ++ 0#5 ++ 0b01010011#8) = .ok (.frmEncPayload .chroma) := by rfl

/-- Unlisted opcodes (R84). -/
theorem test_decode_unknown_opcodes :
    [0x03, 0x0F, 0x14, 0x26, 0x2A, 0x33, 0x43, 0x54, 0xFF].map decode =
      List.replicate 9 (.error .unknownOpcode) := by rfl

/-- Bits outside the free bits: a lane for NOP, bit 13, a lane for BR_READ, `NM1` for ENC_SYM, bit 22 (R82, R84). -/
theorem test_decode_bits_not_zero :
    [0x00000100, 0x00002031, 0x00000111, 0x00010031, 0x00400052].map decode =
      List.replicate 5 (.error .bitsNotZero) := by rfl

/-- Three lines of the assembler, and two that it refuses (R86). -/
theorem test_assemble :
    assemble "DEC_SYM" (some (.lane 3)) = some 0x00000341 ∧ assemble "BR_READ" (some (.n 16)) = some 0x000F0011 ∧
      assemble "FRM_DEC_PAYLOAD" (some (.pay 2)) = some 0x00200052 ∧ assemble "NOP" (some (.lane 0)) = none ∧
      assemble "ENC_SYM" (some (.lane 32)) = none := by decide

/-! ## One or two steps of each command, from the examples of its rule -/

theorem test_nop_only_completes : after .nop State.reset = { State.reset with status := State.reset.status.finished } := by
  rfl

/-- R101's example. -/
theorem test_softReset_after_error :
    let s := { State.reset with
      status := { State.reset.status with err := true }, errcode := 0x41000007,
      xd := setLane resetLanes 0 0x1234, wr := { State.reset.wr with cnt := 3 } }
    (after .softReset s).statusWord = 2 ∧ (after .softReset s).errcode = 0 ∧ laneAt (after .softReset s).xd 0 = 0x800 := by
  decide +kernel

/-- R102's example. -/
theorem test_clrStatus_after_error :
    let f := { State.reset.status with done := true, err := true, rawValid := true, histValid := true, tblValid := true }
    let s := { State.reset with status := f, errcode := 7, errinfo := 9 }
    s.statusWord = 0x76 ∧ (after .clrStatus s).statusWord = 0x72 ∧ (after .clrStatus s).errinfo = 0 := by decide +kernel

/-- R111's examples. -/
theorem test_brInit_backward_and_forward :
    (after .brInit (args State.reset 0x2000 0x2006 0 0)).rd = ⟨0x2000, 0x2006, 0x2006, 0, 0, false⟩ ∧
      (after .brInit { args State.reset 0x2000 0x2006 0 0 with ctrl := ⟨false, true⟩ }).csrValue 0x044 = 0x100 := by
  decide +kernel

theorem test_brInit_reversed :
    (after .brInit (args State.reset 0x2006 0x2000 0 0)).errcode = 0x10000203 := by decide +kernel

/-- R112's example. -/
theorem test_brRead_buffered :
    let t := after (.brRead 3) { State.reset with rd := ⟨0, 0, 0, 5, 3, false⟩ }
    t.result = 5 ∧ t.rd.cnt = 0 ∧ t.status.err = false := by decide +kernel

theorem test_brRead_fetches_below :
    let t := after (.brRead 4)
      { State.reset with mem := put [] 0x10 [0x34, 0xA2], rd := ⟨0x10, 0x12, 0x12, 0, 0, false⟩ }
    t.result = 0xA ∧ t.rd = ⟨0x10, 0x12, 0x10, 0x234, 12, false⟩ := by decide +kernel

theorem test_bwInit_region :
    (after .bwInit (args State.reset 0x2000 0x2100 0 0)).wr = ⟨0x2000, 0x2100, 0x2000, 0, 0⟩ := by decide +kernel

/-- R114's example. -/
theorem test_bwWrite_three_values :
    let s := after .bwInit (args State.reset 0x2000 0x2100 0 0)
    let t := after (.bwWrite 8) (args (after (.bwWrite 5) (args (after (.bwWrite 3) (args s 5 0 0 0)) 0x1A 0 0 0))
      0xFF 0 0 0)
    get t.mem 0x2000 2 = [0xd5, 0xff] ∧ t.wr = ⟨0x2000, 0x2100, 0x2002, 0, 0⟩ ∧ t.result = 1 := by decide +kernel

theorem test_bwWrite_no_room :
    let t := after (.bwWrite 16) { State.reset with wr := ⟨0x2000, 0x2000, 0x2000, 0, 0⟩ }
    t.errcode = 0x1300000A ∧ t.errinfo = 0x2000 := by decide +kernel

/-- R130's example. -/
theorem test_histCount_bytes :
    let t := after .histCount (args { State.reset with mem := put [] 0x700 [2, 2, 2, 2, 0, 3, 1, 4] } 0x700 8 0 0)
    t.rawList.take 6 = [1, 1, 4, 1, 1, 0] ∧ t.result = 8 ∧ t.status.rawValid = true := by decide +kernel

theorem test_histCount_wrap :
    let t := after .histCount (args State.reset 0xFFFFFFF0 0x20 0 0)
    t.errcode = 0x2000000D ∧ t.errinfo = 0xFFFFFFF0 := by decide +kernel

/-- R131's example. -/
theorem test_histLoad_table :
    let t := after .histLoad
      (args { State.reset with mem := storeEntries 4 [] 0x4000 [80, 300, 2, 14, 1, 1, 1, 20] } 0x4000 0 0 0)
    t.result = 419 ∧ t.result1 = 0 ∧ t.rawList.take 3 = [80, 300, 2] := by decide +kernel

/-- R132's example. -/
theorem test_histNorm_five :
    let t := after .histNorm (rawState [3, 2, 1, 4, 3] State.reset)
    t.freqList.take 6 = [473, 315, 158, 629, 473, 0] ∧ t.result = 5 ∧ t.result1 = 3 ∧ t.status.fallback = false := by
  decide +kernel

/-- R135's example of the fallback. -/
theorem test_histNorm_fallback :
    let t := after .histNorm
      (rawState (147945 :: (List.replicate 200 9500 ++ List.replicate 55 1)) State.reset)
    t.freqList = List.replicate 17 9 ++ List.replicate 184 10 ++ List.replicate 55 1 ∧ t.status.fallback = true := by
  decide +kernel

/-- R137's example, its first 20 bytes, with the sixth entry refused (R232). -/
theorem test_histStore_bytes :
    let t := after .histStore { args five 0x4000 0 0 0 with platform := refusing .b4 0x4014 }
    get t.mem 0x4000 24 =
      [0xd9, 1, 0, 0, 0x3b, 1, 0, 0, 0x9e, 0, 0, 0, 0x75, 2, 0, 0, 0xd9, 1, 0, 0, 0, 0, 0, 0] ∧
      t.errcode = 0x2300000C ∧ t.errinfo = 0x4014 := by decide +kernel

/-- R138's example. -/
theorem test_rawQuery_entry :
    (after .rawQuery (args (rawState [1, 1, 4, 1, 1] State.reset) 2 0 0 0)).result = 4 ∧
      (after .rawQuery (args (rawState [1] State.reset) 512 0 0 0)).errcode = 0x24000103 := by decide +kernel

/-- R139's example. -/
theorem test_freqQuery_entry :
    let t := after .freqQuery (args five 4 0 0 0)
    t.result = 473 ∧ t.result1 = 1575 := by decide +kernel

/-- R151's example. -/
theorem test_tblBuild_slots :
    let t := tables [3, 2, 1, 4, 3] State.reset
    t.cums.toList.take 5 = [0, 473, 788, 946, 1575] ∧ t.sym[472] = 0 ∧ t.sym[473] = 1 ∧ t.sym[2047] = 4 ∧
      t.frq[1600] = 473 ∧ t.cum[1600] = 1575 := by decide +kernel

/-- R152's example. -/
theorem test_tblQuery_row :
    let t := after .tblQuery (args five 946 0 0 0)
    t.result = 0x02750003 ∧ t.result1 = 946 := by decide +kernel

/-- R161's example. -/
theorem test_encInit_lane :
    laneAt (after .encInit { State.reset with xe := setLane resetLanes 5 0x1791 }).xe 5 = 0x800 := by decide +kernel

/-- R162's examples. -/
theorem test_encSym_without_a_word :
    let t := after (.encSym 0) (args five 2 0 0 0)
    t.result = 0 ∧ t.result1 = 25516 ∧ laneAt t.xe 0 = 25516 := by decide +kernel

theorem test_encSym_with_a_word :
    let t := after (.encSym 0)
      { args five 0 0 0 0 with xe := setLane resetLanes 0 55544740, wr := ⟨0x2000, 0x2100, 0x2000, 0, 0⟩ }
    t.result = 1 ∧ t.result1 = 2422 ∧ get t.mem 0x2000 2 = [0xA4, 0x8B] := by decide +kernel

/-- The table of R166's example. -/
def eight : State := built [391, 1466, 10, 68, 5, 5, 5, 98] (lanesOf 3)

/-- R166's example, its second step. -/
theorem test_encStep_two_lanes :
    let t := after .encStep
      { args eight 0x1000 2 0 0 with
        mem := put [] 0x1000 [6, 4], wr := ⟨0x2000, 0x2100, 0x2000, 0, 0⟩,
        xe := setLane (setLane (setLane resetLanes 0 0xCCF92) 1 0xCCF97) 2 0xCCF9C }
    get t.mem 0x2000 4 = [0x97, 0xcf, 0x92, 0xcf] ∧ t.result = 2 ∧ laneAt t.xe 0 = 0x179B ∧ laneAt t.xe 1 = 0x1791 := by
  decide +kernel

/-- R181's examples. -/
theorem test_decInit_range :
    laneAt (after (.decInit 0) (args State.reset 216640 0 0 0)).xd 0 = 216640 ∧
      (after (.decInit 0) (args State.reset 0x7FF 0 0 0)).errcode = 0x40000207 := by decide +kernel

/-- R182's examples. -/
theorem test_decSym_without_a_word :
    let t := after (.decSym 0) { five with xd := setLane resetLanes 0 216640 }
    t.result = 4 ∧ t.result1 = 49690 := by decide +kernel

theorem test_decSym_with_a_word :
    let t := after (.decSym 0)
      { five with
        xd := setLane resetLanes 0 2422, mem := put [] 0x2000 [0xA4, 0x8B], rd := ⟨0x2000, 0x2002, 0x2002, 0, 0, false⟩ }
    t.result = 0 ∧ t.result1 = 55544740 ∧ t.rd.ptr = 0x2000 := by decide +kernel

/-- R186's example, its first step. -/
theorem test_decStep_two_lanes :
    let t := after .decStep
      { args eight 0x3000 2 0 0 with
        mem := put [] 0x2000 [0x97, 0xcf, 0x92, 0xcf], rd := ⟨0x2000, 0x2004, 0x2004, 0, 0, false⟩,
        xd := setLane (setLane (setLane resetLanes 0 0x179B) 1 0x1791) 2 0xCCF9C }
    get t.mem 0x3000 2 = [6, 4] ∧ laneAt t.xd 0 = 0xCCF92 ∧ laneAt t.xd 1 = 0xCCF97 ∧ t.result = 2 := by decide +kernel

/-- The header of R204's example at 0x5000. -/
def container (w : Nat) : Memory :=
  storeEntries 8 (storeEntries 4 [] 0x5000 [w, 4]) 0x5008 [3, 8, 8, 8, 8]

/-- R204's examples. -/
theorem test_frmParse_accepts :
    let t := after .frmParse { args (lanesOf 2) 0x5000 8272 0 0 with mem := container 4 }
    t.result = 1 ∧ t.result1 = 8 ∧ t.status.hdrValid = true ∧ t.hdr = ⟨4, 4, 3, 8, 8, 8, 8⟩ := by decide +kernel

theorem test_frmParse_bad_width :
    let t := after .frmParse { args (lanesOf 2) 0x5000 8272 0 0 with mem := container 6 }
    t.errcode = 0x5000010B ∧ t.errinfo = 6 ∧ t.status.hdrValid = false := by decide +kernel

/-- R205's example. -/
theorem test_frmHdrWrite_bytes :
    let t := after .frmHdrWrite { args State.reset 0x5000 0 0 0 with hdr := ⟨8, 8, 3, 6, 6, 4, 4⟩ }
    get t.mem 0x5000 48 =
      [8, 0, 0, 0, 8, 0, 0, 0, 3, 0, 0, 0, 0, 0, 0, 0, 6, 0, 0, 0, 0, 0, 0, 0,
        6, 0, 0, 0, 0, 0, 0, 0, 4, 0, 0, 0, 0, 0, 0, 0, 4, 0, 0, 0, 0, 0, 0, 0] := by decide +kernel

/-- R206's example. -/
theorem test_frmDecPayload_plane :
    let m := put (storeEntries 4 [] 0x5030 (List.replicate 8 256)) 0x5830 [0x02, 0x77, 0x09, 0, 0, 0x9c]
    let t := after (.frmDecPayload .Y)
      { args (lanesOf 1) 0x5000 0x9000 0 0 with
        mem := m, hdr := ⟨8, 8, 3, 6, 6, 4, 4⟩, status := { State.reset.status with hdrValid := true } }
    get t.mem 0x9000 8 = [0, 1, 2, 3, 4, 5, 6, 7] ∧ t.result = 8 ∧ t.status.err = false := by decide +kernel

/-- R207's example, cut off by a refused entry of its table: what was committed before stays (R232). -/
theorem test_frmEncPayload_cut_off :
    let t := after (.frmEncPayload .Y)
      { args (lanesOf 1) 0x100 0x5030 8 2100 with
        mem := put [] 0x100 [0, 1, 2, 3, 4, 5, 6, 7], platform := refusing .b4 0x5038 }
    get t.mem 0x5030 9 = [0, 1, 0, 0, 0, 1, 0, 0, 0] ∧ t.errcode = 0x5300000C ∧ t.errinfo = 0x5038 ∧
      t.status.tblValid = true := by decide +kernel

/-! ## Each statement's hypotheses are met -/

theorem platform_open {s : State} {a n : Nat} (hp : s.platform = State.reset.platform) (h : a + n ≤ 0xFFFFF000) :
    s.Open a n :=
  open_below (by rw [hp]; rfl) (by rw [hp]; exact h) (by rw [hp]; decide)

theorem can_read {s : State} {n : Size} {a k : Nat} (hp : s.platform = State.reset.platform)
    (h : a + n.bytes * k ≤ 0xFFFFF000) : s.CanRead n a k :=
  (platform_open (n := n.bytes * k) hp h).canRead le_rfl le_rfl

theorem can_write {s : State} {n : Size} {a k : Nat} (hp : s.platform = State.reset.platform)
    (h : a + n.bytes * k ≤ 0xFFFFF000) : s.CanWrite n a k :=
  (platform_open (n := n.bytes * k) hp h).canWrite le_rfl le_rfl

/-- The lanes are legal and the tables those of a safe state. -/
theorem codecSafe_of {s t : State} (h : CodecSafe s) (h1 : t.freq = s.freq) (h2 : t.sym = s.sym) (h3 : t.frq = s.frq)
    (h4 : t.cum = s.cum) (h5 : t.cums = s.cums) (h6 : t.status = s.status)
    (hl : ∀ j, j < 32 → LaneLegal (laneAt t.xe j) ∧ LaneLegal (laneAt t.xd j)) : CodecSafe t := by
  refine ⟨hl, ?_, ?_⟩
  · simpa only [State.freqList, h1, h6] using h.2.1
  · simpa only [State.TablesMatch, State.freqList, h1, h2, h3, h4, h5, h6] using h.2.2

theorem five_codecSafe : CodecSafe five := by decide +kernel

theorem eight_codecSafe : CodecSafe eight := by decide +kernel

theorem isHighest_of {l : List Nat} {hi : Nat} (h : 0 < l.sum ∧ highestUsed l = hi) : IsHighest l hi :=
  h.2 ▸ isHighest_highestUsed h.1

theorem isLargest_of {l : List Nat} {i : Nat} (h : l ≠ [] ∧ indexOfGreatest l = i) : IsLargest l i :=
  h.2 ▸ isLargest_indexOfGreatest h.1

/-- Below the one address it refuses, such a platform answers. -/
theorem refusing_below {m n : Size} {a x : Nat} {k : AccessKind} (h : x < a) (hx : x + n.bytes ≤ 0xFFFFF000) :
    (refusing m a).accessError x n k = none := by
  have hb : (refusing m a).csrBase = 0xFFFFF000 := by simp [refusing, Platform.csrBase, Config.csrBytes]
  unfold Platform.accessError
  rw [if_neg (by simp only [Config.memBytes]; omega), if_neg (by rw [hb]; simp [overlaps]; omega)]
  have : (refusing m a).busOk x n k = true := by
    simp only [Platform.busOk, refusing, Refused.covers, List.any_cons, List.any_nil]
    simp [Nat.not_le.mpr h]
  rw [this, if_pos rfl]

theorem can_read_below {s : State} {m n : Size} {a b k : Nat} (hp : s.platform = refusing m b)
    (h : a + n.bytes * k ≤ b) (hb : b ≤ 0xFFFFF000) : s.CanRead n a k := fun i hi => by
  have : n.bytes * (i + 1) ≤ n.bytes * k := Nat.mul_le_mul_left _ hi
  rw [Nat.mul_add, Nat.mul_one] at this
  have : 0 < n.bytes := by cases n <;> decide
  rw [hp]
  exact refusing_below (by omega) (by omega)

theorem can_write_below {s : State} {m n : Size} {a b k : Nat} (hp : s.platform = refusing m b)
    (h : a + n.bytes * k ≤ b) (hb : b ≤ 0xFFFFF000) : s.CanWrite n a k := fun i hi => by
  have : n.bytes * (i + 1) ≤ n.bytes * k := Nat.mul_le_mul_left _ hi
  rw [Nat.mul_add, Nat.mul_one] at this
  have : 0 < n.bytes := by cases n <;> decide
  rw [hp]
  exact refusing_below (by omega) (by omega)

theorem witness_DecodeOfEncode :
    (Instr.brRead 1).wellFormed = true ∧ (Instr.brRead 16).wellFormed = true ∧ (Instr.encSym 31).wellFormed = true ∧
      (Instr.frmEncPayload .indices).wellFormed = true := by decide

theorem witness_EncodeOfDecode : decode 0x000F0011 = .ok (.brRead 16) ∧ decode 0x00000000 = .ok .nop := by decide

theorem witness_CommandWordsByMaskAndMatch :
    decode 0x00001F31 = .ok (.encSym 31) ∧ decode 0x00000040 = .ok (.decInit 0) ∧ decode 0x00001F41 = .ok (.decSym 31) ∧
      decode 0x00000011 = .ok (.brRead 1) ∧ decode 0x000F0013 = .ok (.bwWrite 16) ∧
      decode 0x00300052 = .ok (.frmDecPayload .indices) ∧ decode 0x00000053 = .ok (.frmEncPayload .Y) := by decide

/-- An unknown opcode, a bit outside the free bits, the first lane that takes no part, the last lane. -/
theorem witness_CommandDecodeChecks :
    (let s := running 0x00000003 State.reset;
      s.status.busy = true ∧ (opcodeBits s.cmd).toNat = 3) ∧
    (let s := running 0x00000100 State.reset;
      s.status.busy = true ∧ opcodeBits s.cmd = Instr.nop.opcode ∧
        s.cmd &&& Instr.nop.field.mask ≠ Instr.nop.opcode.setWidth 32) ∧
    (let s := running 0x00000141 (lanesOf 1);
      s.status.busy = true ∧ opcodeBits s.cmd = (Instr.decSym 0).opcode ∧
        s.cmd &&& (Instr.decSym 0).field.mask = (Instr.decSym 0).opcode.setWidth 32 ∧ s.lanes ≤ s.cmd.toNat / 2 ^ 8 % 32) ∧
    (let s := running 0x00001F41 State.reset;
      s.status.busy = true ∧ opcodeBits s.cmd = (Instr.decSym 0).opcode ∧
        s.cmd &&& (Instr.decSym 0).field.mask = (Instr.decSym 0).opcode.setWidth 32) := by decide +kernel

theorem witness_StepRunsTheDecodedCommand :
    (let s := running 0 State.reset;
      s.turns = [] ∧ s.status.busy = true ∧ decode s.cmd = .ok .nop) ∧
    (let s := { running 0 State.reset with turns := [.sequencer, .host] };
      s.turns = [.sequencer, .host] ∧ s.status.busy = true ∧ decode s.cmd = .ok .nop) := by decide +kernel

/-- A command runs, and none does. -/
theorem witness_CsrReadsReturnTheRegisters :
    (running 0x00000030 State.reset).status.busy = true ∧ (lanesOf 5).status.busy = false := by decide

/-- R27's layout: `ERR`, `HIST_VALID`, the live `WPEND` and `FALLBACK` set, nothing else. -/
theorem test_status_word :
    (csrRead 0x00C
      { State.reset with
        wr := ⟨0, 0, 0, 1, 1⟩
        status := { State.reset.status with err := true, histValid := true, fallback := true } }).1 = 0x324 := by decide

/-- R87: `run BR_READ n=16 a1=7`, the first argument left out. -/
theorem test_run_optional_arguments :
    runOps (.brRead 16) none (some (.const 7)) none none 0 9 =
      [.csrw 0x028 (.const 7), .csrw 0x018 (.const 0x000F0011), .label 9, .csrr 0 0x00C, .andi 0 0 1, .bnez 0 9] := by
  decide

theorem witness_HostRegisterWrites : State.reset.status.busy = false := by decide

theorem witness_CfgHoldsALegalInterleaveFactor : (lanesOf 5).status.busy = false ∧ (33 : Word).toNat % 64 = 33 := by
  decide

theorem witness_CsrAccessesWhileBusy : (running 0x00000030 State.reset).status.busy = true := by decide

/-- `HIST_COUNT` of the eight bytes at 0x700 runs. -/
def counting : State := running 0x00000020 (args State.reset 0x700 8 0 0)

/-- Idle: the last bytes below the window, a halfword across its edge, its first and its last register, a word across
the last address inside the window and beyond it. -/
theorem witness_HostMemoryAccesses_idle :
    let s := State.reset
    s.status.busy = false ∧ s.mem.wf = true ∧
    (overlaps 0xFFFFEFFC 4 s.platform.csrBase 4096 = false ∧ s.racesWith 0xFFFFEFFC 4 = false) ∧
    (overlaps 0xFFFFEFFF 2 s.platform.csrBase 4096 = true ∧ ¬(Size.b2 = Size.b4 ∧ 0xFFFFEFFF % 4 = 0)) ∧
    (overlaps 0xFFFFFFFE 4 s.platform.csrBase 4096 = true ∧ ¬(Size.b4 = Size.b4 ∧ 0xFFFFFFFE % 4 = 0)) ∧
    (overlaps 0xFFFFF000 4 s.platform.csrBase 4096 = true ∧ 0xFFFFF000 % 4 = 0) ∧
    (overlaps 0xFFFFFFFC 4 s.platform.csrBase 4096 = true ∧ 0xFFFFFFFC % 4 = 0) ∧
    (let u := { s with platform := { s.platform with csrPage := 0 } };
      overlaps 0xFFFFFFFE 4 u.platform.csrBase 4096 = false ∧ 2 ^ 32 < 0xFFFFFFFE + Size.b4.bytes) := by decide +kernel

/-- Busy: words just below and just above the bytes the command counts, and words that touch the first and the last. -/
theorem witness_HostMemoryAccesses_busy :
    let s := counting
    (∃ t, sequencerMove s = .next t) ∧ s.status.busy = true ∧ s.mem.wf = true ∧
    overlaps 0x6FC 4 s.platform.csrBase 4096 = false ∧ s.racesWith 0x6FC 4 = false ∧ s.racesWith 0x708 4 = false ∧
    s.racesWith 0x6FD 4 = true ∧ s.racesWith 0x707 4 = true :=
  ⟨⟨_, exec_eq_after (i := .histCount) (s := counting) (by decide +kernel)⟩, by decide +kernel⟩

/-- A word of each command whose bytes are stated. -/
theorem witness_HostMemoryAccesses_commands :
    counting.status.busy = true ∧ decode counting.cmd = .ok .histCount ∧ decode 0x00000022 = .ok .histNorm ∧
      decode 0x00001F40 = .ok (.decInit 31) ∧ decode 0x000F0011 = .ok (.brRead 16) ∧
      decode 0x00000013 = .ok (.bwWrite 1) ∧ decode 0x00000021 = .ok .histLoad ∧ decode 0x00000023 = .ok .histStore ∧
      decode 0x00000050 = .ok .frmParse ∧ decode 0x00000051 = .ok .frmHdrWrite := by decide +kernel

/-- Bytes a run does not get to are not used: a count of no byte, a count past a refused byte, a read that buffered
bits serve, a header too short to be read, a payload without room for its table (R70.3, R70.4). -/
theorem test_race_unused_bytes :
    (running 0x00000020 (args State.reset 0x700 0 0 0)).racesWith 0x6FE 4 = false ∧
    (let s := { counting with platform := refusing .b1 0x702 };
      s.racesWith 0x701 1 = true ∧ s.racesWith 0x702 4 = false) ∧
    (running 0x00000011 { State.reset with rd := ⟨0x10, 0x12, 0x12, 1, 1, false⟩ }).racesWith 0x10 2 = false ∧
    (running 0x00000050 (args State.reset 0x5000 47 0 0)).racesWith 0x5000 4 = false ∧
    (running 0x00000053 (args (lanesOf 1) 0x100 0x5000 8 2051)).racesWith 0x100 4 = false := by decide +kernel

/-- Bytes a run gets to are used: the word of a read, the last byte of a header field, a stored word (R71). -/
theorem test_race_used_bytes :
    (running 0x00000011 { State.reset with rd := ⟨0x10, 0x12, 0x12, 0, 0, false⟩ }).racesWith 0x11 1 = true ∧
    (running 0x00000050 (args State.reset 0x5000 48 0 0)).racesWith 0x502F 1 = true ∧
    (running 0x000F0013 { State.reset with wr := ⟨0x20, 0x22, 0x20, 0, 0⟩ }).racesWith 0x21 1 = true := by decide +kernel

/-- The error state, for each clause of the acceptance. -/
def failedState : State := { State.reset with status := { State.reset.status with err := true, done := true } }

theorem witness_CommandAcceptance :
    (running 0 State.reset).status.busy = true ∧
    (failedState.status.busy = false ∧ failedState.status.err = true ∧ (3 : Word).toNat % 256 ≠ 1 ∧
      (3 : Word).toNat % 256 ≠ 2) ∧
    (State.reset.status.busy = false ∧ State.reset.status.err = false ∧
      decode 0x00000030 = .ok .encInit) ∧
    decode 0x00000002 = .ok .clrStatus := by decide +kernel

theorem witness_RaiseRecordsTheFirstError :
    let e : Raised := ⟨.badArg, 255, 0xFFFFFFFF, 31⟩
    e.sub < 256 ∧ e.lane < 32 ∧ e.info < 2 ^ 32 ∧ State.reset.status.err = false ∧ failedState.status.err = true := by
  decide

theorem witness_ErrorWordFields :
    let e : Raised := ⟨.badLane, 255, 31, 31⟩
    State.reset.status.err = false ∧ e.sub < 256 ∧ e.lane < 32 := by decide

theorem witness_EveryCommandCompletes :
    (State.reset.status.tblValid = true → State.reset.status.histValid = true) ∧
      (five.status.tblValid = true ∧ five.status.histValid = true) := by decide +kernel

/-- A command of each of the three groups that raises an error. -/
theorem witness_AtomicCommandsCommitNothingOnError :
    (State.reset.status.err = false ∧ exec (.brRead 1) State.reset = .next (after (.brRead 1) State.reset) ∧
      (after (.brRead 1) State.reset).status.err = true) ∧
    (State.reset.status.err = false ∧ exec .histStore State.reset = .next (after .histStore State.reset) ∧
      (after .histStore State.reset).status.err = true) ∧
    (State.reset.status.err = false ∧ exec .frmParse State.reset = .next (after .frmParse State.reset) ∧
      (after .frmParse State.reset).status.err = true) ∧
    (let s := { args State.reset 0x5000 0 0 0 with hdr := ⟨4, 4, 3, 8, 8, 8, 8⟩, platform := refusing .b8 0x5008 };
      exec .frmHdrWrite s = .next (after .frmHdrWrite s) ∧ s.status.err = false ∧ s.mem.wf = true ∧
        (after .frmHdrWrite s).status.err = true ∧ (after .frmHdrWrite s).mem ≠ s.mem) :=
  ⟨⟨rfl, exec_eq_after (by decide +kernel), by decide +kernel⟩, ⟨rfl, exec_eq_after (by decide +kernel), by decide +kernel⟩,
    ⟨rfl, exec_eq_after (by decide +kernel), by decide +kernel⟩, ⟨exec_eq_after (by decide +kernel), by decide +kernel⟩⟩

/-- The reset input while a store command runs. -/
theorem witness_HardwareResetRestoresResetValues :
    let s := { running 0x00000051 (args State.reset 0x5000 0 0 0) with turns := [.reset] }
    s.turns = .reset :: [] ∧ s.mem.wf = true ∧ s.status.busy = true := by decide

theorem witness_InterruptLevel :
    (exec .nop State.reset = .next (after .nop State.reset) ∧ Instr.nop ≠ .softReset) ∧
    exec .softReset State.reset = .next (after .softReset State.reset) ∧
    (let s := { State.reset with turns := [.reset] };
      s.turns = .reset :: [] ∧ ∃ t, step s = .next t) ∧
    (failedState.status.busy = false ∧ failedState.status.done = true) ∧
    (csrWrite 0x018 0 State.reset).status.busy = true :=
  ⟨⟨rfl, by decide⟩, rfl, ⟨rfl, _, rfl⟩, by decide, by decide⟩

/-- An empty region at the top of memory, a region of odd length, and a reversed one. -/
theorem witness_StreamInits :
    (let s := args State.reset 0xFFFFFFFF 0xFFFFFFFF 0 0;
      s.arg0.toNat ≤ s.arg1.toNat ∧ (s.arg1.toNat - s.arg0.toNat) % 2 = 0) ∧
    (let s := args State.reset 0x2000 0x2001 0 0;
      ¬(s.arg0.toNat ≤ s.arg1.toNat ∧ (s.arg1.toNat - s.arg0.toNat) % 2 = 0)) ∧
    (let s := args State.reset 0x2002 0x2000 0 0;
      ¬(s.arg0.toNat ≤ s.arg1.toNat ∧ (s.arg1.toNat - s.arg0.toNat) % 2 = 0)) := by decide

/-- 15 buffered bits; 16 wanted with a word on either side of the pointer, answered and refused; no word. -/
theorem witness_BrReadTakesTheTopBits :
    (let s := { State.reset with rd := ⟨0, 0, 0, 0x7FFF, 15, false⟩ };
      s.rd.cnt.toNat ≤ 15 ∧ s.rd.buf.toNat < 2 ^ s.rd.cnt.toNat ∧ 15 ≤ s.rd.cnt.toNat) ∧
    (let s := { State.reset with rd := ⟨0x10, 0x12, 0x12, 0x7FFF, 15, false⟩ };
      s.rd.cnt.toNat ≤ 15 ∧ s.rd.buf.toNat < 2 ^ s.rd.cnt.toNat ∧ s.rd.cnt.toNat < 16 ∧ s.rd.WordAt 0x10 ∧
        s.platform.accessError 0x10 .b2 .read = none) ∧
    (let s := { State.reset with rd := ⟨0x10, 0x12, 0x10, 0, 0, true⟩, platform := refusing .b2 0x10 };
      s.rd.cnt.toNat ≤ 15 ∧ s.rd.buf.toNat < 2 ^ s.rd.cnt.toNat ∧ s.rd.cnt.toNat < 1 ∧ s.rd.WordAt 0x10 ∧
        s.platform.accessError 0x10 .b2 .read = some .busError) ∧
    (let s := State.reset;
      s.rd.cnt.toNat ≤ 15 ∧ s.rd.buf.toNat < 2 ^ s.rd.cnt.toNat ∧ s.rd.cnt.toNat < 1 ∧ ∀ a, ¬s.rd.WordAt a) :=
  ⟨by decide, by decide +kernel, by decide +kernel, by decide, by decide, by decide, by
    intro a h
    rcases h with ⟨_, h, _⟩ | ⟨h, _⟩
    · exact absurd h (by decide)
    · exact absurd h (by decide)⟩

/-- 15 bits after a write; a full word with exactly its room, answered and refused; one byte of room too few. -/
theorem witness_BwWriteAppendsBits :
    (let s := { State.reset with wr := ⟨0x2000, 0x2002, 0x2000, 0x3FFF, 14⟩ };
      s.wr.cnt.toNat ≤ 15 ∧ s.wr.buf.toNat < 2 ^ s.wr.cnt.toNat ∧ s.mem.wf = true ∧ s.wr.cnt.toNat + 1 < 16) ∧
    (let s := { State.reset with wr := ⟨0x2000, 0x2002, 0x2000, 0x7FFF, 15⟩ };
      s.wr.cnt.toNat ≤ 15 ∧ s.wr.buf.toNat < 2 ^ s.wr.cnt.toNat ∧ s.mem.wf = true ∧ 16 ≤ s.wr.cnt.toNat + 1 ∧
        s.wr.ptr.toNat + 2 ≤ s.wr.lim.toNat ∧ s.platform.accessError s.wr.ptr.toNat .b2 .write = none) ∧
    (let s := { State.reset with wr := ⟨0x2000, 0x2002, 0x2000, 0, 0⟩, platform := refusing .b2 0x2000 };
      16 ≤ s.wr.cnt.toNat + 16 ∧ s.wr.ptr.toNat + 2 ≤ s.wr.lim.toNat ∧
        s.platform.accessError s.wr.ptr.toNat .b2 .write = some .busError) ∧
    (let s := { State.reset with wr := ⟨0x2000, 0x2001, 0x2000, 0, 0⟩ };
      16 ≤ s.wr.cnt.toNat + 16 ∧ s.wr.lim.toNat < s.wr.ptr.toNat + 2) := by decide +kernel

/-- R117's values: two words, read backward where they were written, and forward from a reversed copy. -/
theorem witness_StreamReversal :
    let s := { State.reset with wr := ⟨0x2000, 0x2004, 0x2000, 0, 0⟩ }
    let ws := [(5, 3), (0x1A, 5), (0xFF, 8), (0x1234, 16)]
    let t := (writeAll ws s).getD s
    let u := { State.reset with mem := put [] 0x3000 [0x34, 0x12, 0xd5, 0xff], rd := ⟨0x3000, 0x3004, 0x3000, 0, 0, true⟩ }
    s.mem.wf = true ∧ s.status.err = false ∧ (∀ w ∈ ws, 1 ≤ w.2 ∧ w.2 ≤ 16) ∧ (ws.map Prod.snd).sum % 16 = 0 ∧
    writeAll ws s = some t ∧ t.CanRead .b2 0x2000 2 ∧ u.status.err = false ∧ u.CanRead .b2 0x3000 2 ∧
    (∀ k, k < 2 → u.mem.readLE (0x3000 + 2 * k) 2 = t.mem.readLE (0x2000 + 2 * (2 - 1 - k)) 2) :=
  ⟨by decide, by decide, by decide, by decide, getD_of_isSome (by decide +kernel),
    can_read (by decide +kernel) (by decide), by decide, can_read rfl (by decide), by decide +kernel⟩

/-- The last buffer below the window; the first refused byte is the third; a buffer past `2^32`. -/
theorem witness_HistCountCountsBytes :
    (let s := args State.reset 0xFFFFEFF8 8 0 0;
      s.arg0.toNat + s.arg1.toNat ≤ 2 ^ 32 ∧ s.CanRead .b1 s.arg0.toNat s.arg1.toNat) ∧
    (let s := { args State.reset 0x700 8 0 0 with platform := refusing .b1 0x702 };
      s.arg0.toNat + s.arg1.toNat ≤ 2 ^ 32 ∧ 2 < s.arg1.toNat ∧ s.CanRead .b1 s.arg0.toNat 2 ∧
        s.platform.accessError (s.arg0.toNat + 2) .b1 .read = some .busError) ∧
    (let s := args State.reset 0xFFFFFFFF 2 0 0;
      2 ^ 32 < s.arg0.toNat + s.arg1.toNat) :=
  ⟨⟨by decide, can_read rfl (by decide)⟩, ⟨by decide, by decide, can_read_below rfl (by decide) (by decide), by decide +kernel⟩, by decide⟩

/-- The same for a table of 512 entries; the refused entry is the last. -/
theorem witness_HistLoadReadsATable :
    (let s := args State.reset 0xFFFFE800 0 0 0;
      s.arg0.toNat + 2048 ≤ 2 ^ 32 ∧ s.CanRead .b4 s.arg0.toNat 512) ∧
    (let s := { args State.reset 0x4000 0 0 0 with platform := refusing .b4 0x47FC };
      s.arg0.toNat + 2048 ≤ 2 ^ 32 ∧ s.CanRead .b4 s.arg0.toNat 511 ∧
        s.platform.accessError (s.arg0.toNat + 4 * 511) .b4 .read = some .busError) ∧
    (let s := args State.reset 0xFFFFF801 0 0 0;
      2 ^ 32 < s.arg0.toNat + 2048) :=
  ⟨⟨by decide, can_read rfl (by decide)⟩, ⟨by decide, can_read_below rfl (by decide) (by decide), by decide +kernel⟩, by decide⟩

/-- A table of one symbol, R132's, and one whose sum is already `M`. -/
theorem witness_NormalizationTotality :
    (let s := rawState (List.replicate 255 0 ++ [1]) State.reset;
      s.status.rawValid = true ∧ IsHighest s.rawList 255) ∧
    (let s := rawState [2047, 1] State.reset;
      s.status.rawValid = true ∧ IsHighest s.rawList 1 ∧ s.rawList.sum = 2048) :=
  ⟨⟨rfl, isHighest_of (by decide +kernel)⟩, ⟨rfl, isHighest_of (by decide +kernel), by decide +kernel⟩⟩

theorem witness_NormalizationCorrectivePass :
    let s := rawState [3, 2, 1, 4, 3] State.reset
    s.status.rawValid = true ∧ IsHighest s.rawList 4 ∧ IsLargest s.rawList 3 ∧
      1 ≤ (roundedCount s.rawList.sum (nth s.rawList 3) : Int) + rawResidue s.rawList :=
  ⟨rfl, isHighest_of (by decide +kernel), isLargest_of (by decide +kernel), by decide +kernel⟩

theorem witness_NormalizationFallback :
    let s := rawState (147945 :: (List.replicate 200 9500 ++ List.replicate 55 1)) State.reset
    s.status.rawValid = true ∧ IsHighest s.rawList 255 ∧ IsLargest s.rawList 0 ∧
      (roundedCount s.rawList.sum (nth s.rawList 0) : Int) + rawResidue s.rawList < 1 :=
  ⟨rfl, isHighest_of (by decide +kernel), isLargest_of (by decide +kernel), by decide +kernel⟩

theorem witness_NormalizationErrors :
    State.reset.status.rawValid = false ∧
    (let s := rawState [] State.reset;
      s.status.rawValid = true ∧ s.rawList.sum = 0) ∧
    (let s := rawState (List.replicate 256 0 ++ [1]) State.reset;
      s.status.rawValid = true ∧ IsHighest s.rawList 256) :=
  ⟨rfl, ⟨rfl, by decide +kernel⟩, ⟨rfl, isHighest_of (by decide +kernel)⟩⟩

theorem witness_HistStoreWritesATable :
    (let s := args five 0xFFFFE800 0 0 0;
      s.mem.wf = true ∧ s.status.histValid = true ∧ s.arg0.toNat + 2048 ≤ 2 ^ 32 ∧ s.CanWrite .b4 s.arg0.toNat 512) ∧
    (let s := { args five 0x4000 0 0 0 with platform := refusing .b4 0x47FC };
      s.mem.wf = true ∧ s.status.histValid = true ∧ s.arg0.toNat + 2048 ≤ 2 ^ 32 ∧ s.CanWrite .b4 s.arg0.toNat 511 ∧
        s.platform.accessError (s.arg0.toNat + 4 * 511) .b4 .write = some .busError) ∧
    (let s := args five 0xFFFFF801 0 0 0;
      s.mem.wf = true ∧ s.status.histValid = true ∧ 2 ^ 32 < s.arg0.toNat + 2048) ∧
    State.reset.status.histValid = false :=
  ⟨⟨by decide +kernel, by decide +kernel, by decide, can_write (by decide +kernel) (by decide)⟩,
    ⟨by decide +kernel, by decide +kernel, by decide, can_write_below rfl (by decide) (by decide), by decide +kernel⟩,
    by decide +kernel, rfl⟩

theorem witness_Queries :
    (let s := args five 511 0 0 0;
      s.status.rawValid = true ∧ s.arg0.toNat < 512 ∧ s.status.histValid = true ∧ 256 ≤ s.arg0.toNat) ∧
    (let s := args five 2047 0 0 0;
      s.status.tblValid = true ∧ s.arg0.toNat < 2048 ∧ s.status.rawValid = true ∧ 512 ≤ s.arg0.toNat) ∧
    (let s := args five 255 0 0 0;
      s.status.histValid = true ∧ s.arg0.toNat < 256) ∧
    (let s := args five 2048 0 0 0;
      s.status.tblValid = true ∧ 2048 ≤ s.arg0.toNat) ∧
    (State.reset.status.rawValid = false ∧ State.reset.status.histValid = false ∧
      State.reset.status.tblValid = false) := by decide +kernel

theorem witness_TableLayout :
    (five.status.histValid = true ∧ five.freqList.sum = 2048) ∧ State.reset.status.histValid = false := by
  decide +kernel

/-! ### Encoder and decoder -/

/-- R162's second example, with exactly the room its word needs. -/
def emitting : State :=
  { five with xe := setLane resetLanes 0 55544740, wr := ⟨0x2000, 0x2002, 0x2000, 0, 0⟩ }

theorem emitting_codecSafe : CodecSafe emitting :=
  codecSafe_of five_codecSafe rfl rfl rfl rfl rfl rfl (by decide +kernel)

theorem witness_EncInitSetsEveryLane : CodecSafe emitting ∧ emitting.xe ≠ Vector.replicate 32 2048 :=
  ⟨emitting_codecSafe, by decide +kernel⟩

/-- The last lane without a word; lane 0 with a word and exactly its room. -/
theorem witness_EncSymCodesASymbol :
    (let s := args five 2 0 0 0;
      CodecSafe s ∧ s.mem.wf = true ∧ s.wr.cnt.toNat ≤ 15 ∧ s.wr.buf.toNat < 2 ^ s.wr.cnt.toNat ∧
        s.status.tblValid = true ∧ 31 < s.lanes ∧ s.arg0.toNat < 256 ∧ 0 < s.freqOf s.arg0.toNat ∧
        laneAt s.xe 31 < 65536 * s.freqOf s.arg0.toNat ∧ s.wr.ptr.toNat ≤ s.wr.lim.toNat) ∧
    (let s := emitting;
      CodecSafe s ∧ s.mem.wf = true ∧ s.wr.cnt.toNat ≤ 15 ∧ s.wr.buf.toNat < 2 ^ s.wr.cnt.toNat ∧
        s.status.tblValid = true ∧ 0 < s.lanes ∧ s.arg0.toNat < 256 ∧ 0 < s.freqOf s.arg0.toNat ∧
        65536 * s.freqOf s.arg0.toNat ≤ laneAt s.xe 0 ∧ s.wr.ptr.toNat + 2 ≤ s.wr.lim.toNat ∧
        s.platform.accessError s.wr.ptr.toNat .b2 .write = none) :=
  ⟨⟨codecSafe_of five_codecSafe rfl rfl rfl rfl rfl rfl five_codecSafe.1, by decide +kernel⟩,
    ⟨emitting_codecSafe, by decide +kernel⟩⟩

/-- One state for each error of `ENC_SYM`. -/
theorem witness_EncoderErrors_encSym :
    (State.reset.status.tblValid = false ∧ 31 < State.reset.lanes) ∧
    (let s := args five 256 0 0 0;
      s.status.tblValid = true ∧ 256 ≤ s.arg0.toNat) ∧
    (let s := args five 255 0 0 0;
      s.status.tblValid = true ∧ s.status.histValid = true ∧ s.arg0.toNat < 256 ∧ s.freqOf s.arg0.toNat = 0) ∧
    (let s := { emitting with wr := ⟨0x2000, 0x2001, 0x2000, 0, 0⟩ };
      CodecSafe s ∧ s.status.tblValid = true ∧ s.arg0.toNat < 256 ∧ 0 < s.freqOf s.arg0.toNat ∧
        65536 * s.freqOf s.arg0.toNat ≤ laneAt s.xe 0 ∧ s.wr.lim.toNat < s.wr.ptr.toNat + 2) ∧
    (let s := { emitting with platform := refusing .b2 0x2000 };
      CodecSafe s ∧ s.status.tblValid = true ∧ s.arg0.toNat < 256 ∧ 0 < s.freqOf s.arg0.toNat ∧
        65536 * s.freqOf s.arg0.toNat ≤ laneAt s.xe 0 ∧ s.wr.ptr.toNat + 2 ≤ s.wr.lim.toNat ∧
        s.platform.accessError s.wr.ptr.toNat .b2 .write = some .busError) :=
  ⟨by decide +kernel, by decide +kernel, by decide +kernel,
    ⟨codecSafe_of emitting_codecSafe rfl rfl rfl rfl rfl rfl emitting_codecSafe.1, by decide +kernel⟩,
    ⟨codecSafe_of emitting_codecSafe rfl rfl rfl rfl rfl rfl emitting_codecSafe.1, by decide +kernel⟩⟩

/-- R166's example, before its second step: two lanes take part, and both emit a word. -/
def stepping : State :=
  { args eight 0x1000 2 0 0 with
    mem := put [] 0x1000 [6, 4]
    wr := ⟨0x2000, 0x2004, 0x2000, 0, 0⟩
    xe := setLane (setLane (setLane resetLanes 0 0xCCF92) 1 0xCCF97) 2 0xCCF9C }

theorem stepping_codecSafe : CodecSafe stepping :=
  codecSafe_of eight_codecSafe rfl rfl rfl rfl rfl rfl (by decide +kernel)

/-- One state for each error of `ENC_STEP`. -/
theorem witness_EncoderErrors_encStep :
    State.reset.status.tblValid = false ∧
    ((args five 0 0 0 0).status.tblValid = true ∧ (args five 0 0 0 0).arg1.toNat = 0) ∧
    ((args five 0 33 0 0).status.tblValid = true ∧ (args five 0 33 0 0).lanes < (args five 0 33 0 0).arg1.toNat) ∧
    (let s := args five 0xFFFFFFFF 2 0 0;
      s.status.tblValid = true ∧ 1 ≤ s.arg1.toNat ∧ s.arg1.toNat ≤ s.lanes ∧ 2 ^ 32 < s.arg0.toNat + s.arg1.toNat) ∧
    (let s := { stepping with platform := refusing .b1 0x1001 };
      s.status.tblValid = true ∧ s.arg1.toNat = 2 ∧ s.arg1.toNat ≤ s.lanes ∧ s.CanRead .b1 s.arg0.toNat 1 ∧
        s.platform.accessError (s.arg0.toNat + 1) .b1 .read = some .busError) ∧
    (let s := { stepping with mem := put [] 0x1000 [255, 4] };
      CodecSafe s ∧ s.lanes ≤ 32 ∧ s.CanRead .b1 s.arg0.toNat s.arg1.toNat ∧
        s.freqOf (s.mem.read 0x1000).toNat = 0 ∧ 0 < s.freqOf (s.mem.read 0x1001).toNat) ∧
    (let s := { stepping with wr := ⟨0x2000, 0x2002, 0x2000, 0, 0⟩ };
      let syms := fun j => (s.mem.read (s.arg0.toNat + j)).toNat
      CodecSafe s ∧ s.CanRead .b1 s.arg0.toNat s.arg1.toNat ∧ (∀ j, j < 2 → 0 < s.freqOf (syms j)) ∧
        s.wr.lim.toNat < s.wr.ptr.toNat + 2 * (s.emittedWords syms s.arg1.toNat).length) ∧
    (let s := { stepping with platform := refusing .b2 0x2002 };
      let syms := fun j => (s.mem.read (s.arg0.toNat + j)).toNat
      CodecSafe s ∧ s.CanRead .b1 s.arg0.toNat s.arg1.toNat ∧ s.CanWrite .b2 s.wr.ptr.toNat 1 ∧ s.mem.wf = true ∧
        (∀ j, j < 2 → 0 < s.freqOf (syms j)) ∧ (s.emittedWords syms s.arg1.toNat).length = 2 ∧
        s.wr.ptr.toNat + 2 * 2 ≤ s.wr.lim.toNat ∧ s.wr.cnt.toNat ≤ 15 ∧ s.wr.buf.toNat < 2 ^ s.wr.cnt.toNat ∧
        s.platform.accessError (s.wr.ptr.toNat + 2 * 1) .b2 .write = some .busError) :=
  ⟨rfl, by decide +kernel, by decide +kernel, by decide +kernel,
    ⟨by decide +kernel, by decide +kernel, by decide +kernel, can_read_below rfl (by decide) (by decide), by decide +kernel⟩,
    ⟨codecSafe_of stepping_codecSafe rfl rfl rfl rfl rfl rfl stepping_codecSafe.1, by decide +kernel,
      can_read (by decide +kernel) (by decide +kernel), by decide +kernel⟩,
    ⟨codecSafe_of stepping_codecSafe rfl rfl rfl rfl rfl rfl stepping_codecSafe.1,
      can_read (by decide +kernel) (by decide +kernel), by decide +kernel⟩,
    ⟨codecSafe_of stepping_codecSafe rfl rfl rfl rfl rfl rfl stepping_codecSafe.1,
      can_read_below rfl (by decide +kernel) (by decide), can_write_below rfl (by decide +kernel) (by decide),
      by decide +kernel⟩⟩

theorem witness_EncStepCodesALaneEach :
    let s := stepping
    let syms := fun j => (s.mem.read (s.arg0.toNat + j)).toNat
    CodecSafe s ∧ s.CanRead .b1 s.arg0.toNat s.arg1.toNat ∧ s.CanWrite .b2 s.wr.ptr.toNat 2 ∧
    s.mem.wf = true ∧ s.wr.cnt.toNat ≤ 15 ∧ s.wr.buf.toNat < 2 ^ s.wr.cnt.toNat ∧ s.status.tblValid = true ∧
    s.lanes ≤ 32 ∧ 1 ≤ s.arg1.toNat ∧ s.arg1.toNat ≤ s.lanes ∧ s.arg0.toNat + s.arg1.toNat ≤ 2 ^ 32 ∧
    (∀ j, j < s.arg1.toNat → 0 < s.freqOf (syms j)) ∧ s.emittedWords syms s.arg1.toNat = [0xCF97, 0xCF92] ∧
    s.wr.ptr.toNat + 2 * 2 ≤ s.wr.lim.toNat :=
  ⟨stepping_codecSafe, can_read (by decide +kernel) (by decide +kernel),
    can_write (by decide +kernel) (by decide +kernel), by decide +kernel⟩

theorem witness_AtMostOneWordPerSymbol :
    (CodecSafe emitting ∧ exec (.encSym 0) emitting = .next (after (.encSym 0) emitting) ∧
      emitting.status.err = false ∧ (after (.encSym 0) emitting).status.err = false ∧
      (after (.encSym 0) emitting).result = 1) ∧
    (CodecSafe stepping ∧ exec .encStep stepping = .next (after .encStep stepping) ∧ stepping.lanes ≤ 32 ∧
      stepping.status.err = false ∧ (after .encStep stepping).status.err = false ∧
      (after .encStep stepping).result = 2) :=
  ⟨⟨emitting_codecSafe, exec_eq_after (by decide +kernel), by decide +kernel⟩,
    ⟨stepping_codecSafe, exec_eq_after (by decide +kernel), by decide +kernel⟩⟩

theorem witness_StateOverflowNeverRaised :
    CodecSafe emitting ∧ exec (.encSym 0) emitting = .next (after (.encSym 0) emitting) ∧ emitting.lanes ≤ 32 ∧
      emitting.status.err = false ∧ emitting.errcode = 0 :=
  ⟨emitting_codecSafe, exec_eq_after (by decide +kernel), by decide +kernel⟩

/-- The ends of the legal range, and the values next to them outside it. -/
theorem witness_DecInitLoadsALane :
    31 < State.reset.lanes ∧
    (2048 ≤ (args State.reset 2048 0 0 0).arg0.toNat ∧ (args State.reset 2048 0 0 0).arg0.toNat < 134217728) ∧
    (2048 ≤ (args State.reset 134217727 0 0 0).arg0.toNat ∧
      (args State.reset 134217727 0 0 0).arg0.toNat < 134217728) ∧
    (args State.reset 2047 0 0 0).arg0.toNat < 2048 ∧ 134217728 ≤ (args State.reset 134217728 0 0 0).arg0.toNat := by
  decide +kernel

/-- R182's second example, its word at the bottom of the reader's region. -/
def reading : State :=
  { five with
    xd := setLane resetLanes 0 2422, mem := put [] 0x2000 [0xA4, 0x8B], rd := ⟨0x2000, 0x2002, 0x2002, 0, 0, false⟩ }

theorem reading_codecSafe : CodecSafe reading :=
  codecSafe_of five_codecSafe rfl rfl rfl rfl rfl rfl (by decide +kernel)

theorem witness_DecSymDecodesASymbol :
    (State.reset.status.tblValid = false ∧ 31 < State.reset.lanes) ∧
    (let s := { State.reset with status := five.status };
      s.status.tblValid = true ∧ (entryAt s.frq (laneAt s.xd 0 % 2048) 0).toNat = 0) ∧
    (let s := { five with xd := setLane resetLanes 31 216640 };
      CodecSafe s ∧ s.status.tblValid = true ∧ s.rd.cnt.toNat ≤ 15 ∧ s.rd.buf.toNat < 2 ^ s.rd.cnt.toNat ∧
        2048 ≤ s.decodeBase 31) ∧
    (CodecSafe reading ∧ reading.rd.HasWords 1 ∧ reading.status.tblValid = true ∧ reading.rd.cnt.toNat ≤ 15 ∧
      reading.rd.buf.toNat < 2 ^ reading.rd.cnt.toNat ∧ reading.decodeBase 0 < 2048 ∧
      reading.platform.accessError (reading.rd.wordAddr 0) .b2 .read = none) ∧
    (let s := { reading with platform := refusing .b2 0x2000 };
      CodecSafe s ∧ s.rd.HasWords 1 ∧ s.decodeBase 0 < 2048 ∧
        s.platform.accessError (s.rd.wordAddr 0) .b2 .read = some .busError) ∧
    (let s := { reading with rd := ⟨0x2000, 0x2000, 0x2000, 0, 0, true⟩ };
      CodecSafe s ∧ ¬s.rd.HasWords 1 ∧ s.decodeBase 0 < 2048) :=
  ⟨by decide +kernel, by decide +kernel,
    ⟨codecSafe_of five_codecSafe rfl rfl rfl rfl rfl rfl (by decide +kernel), by decide +kernel⟩,
    ⟨reading_codecSafe, (by decide : 0x2000 + 2 * 1 ≤ 0x2002), by decide +kernel⟩,
    ⟨codecSafe_of reading_codecSafe rfl rfl rfl rfl rfl rfl reading_codecSafe.1, (by decide : 0x2000 + 2 * 1 ≤ 0x2002),
      by decide +kernel⟩,
    ⟨codecSafe_of reading_codecSafe rfl rfl rfl rfl rfl rfl reading_codecSafe.1,
      (by decide : ¬(0x2000 + 2 * 1 ≤ 0x2000)), by decide +kernel⟩⟩

/-- R184 without a word and with one, decoded in another lane. -/
theorem witness_DecSymInvertsEncSym :
    (let s := args five 2 0 0 0;
      let t := after (.encSym 0) s
      let u := { five with xd := setLane resetLanes 31 (laneAt t.xe 0) }
      CodecSafe s ∧ exec (.encSym 0) s = .next t ∧ s.status.err = false ∧ 0 < s.lanes ∧ t.status.err = false ∧
        t.result = 0 ∧ u.status.tblValid = true ∧ u.sym = s.sym ∧ u.frq = s.frq ∧ u.cum = s.cum ∧
        u.status.err = false ∧ 31 < u.lanes ∧ laneAt u.xd 31 = laneAt t.xe 0) ∧
    (let s := emitting;
      let t := after (.encSym 0) s
      let u := { reading with mem := t.mem }
      CodecSafe s ∧ exec (.encSym 0) s = .next t ∧ exec (.brRead 16) u = .next (after (.brRead 16) u) ∧
        s.status.err = false ∧ t.status.err = false ∧ t.result = 1 ∧ u.status.tblValid = true ∧ u.sym = s.sym ∧
        u.frq = s.frq ∧ u.cum = s.cum ∧ u.status.err = false ∧ 0 < u.lanes ∧ laneAt u.xd 0 = laneAt t.xe 0 ∧
        (after (.brRead 16) u).status.err = false ∧
        (after (.brRead 16) u).result.toNat = (entryAt s.xe 0 0).toNat % 65536) :=
  ⟨⟨codecSafe_of five_codecSafe rfl rfl rfl rfl rfl rfl five_codecSafe.1, exec_eq_after (by decide +kernel),
      by decide +kernel, by decide +kernel, by decide +kernel, by decide +kernel, by decide +kernel, rfl, rfl, rfl,
      by decide +kernel, by decide +kernel, by decide +kernel⟩,
    ⟨emitting_codecSafe, exec_eq_after (by decide +kernel), exec_eq_after (by decide +kernel),
      by decide +kernel, by decide +kernel, by decide +kernel, by decide +kernel, rfl, rfl, rfl,
      by decide +kernel, by decide +kernel, by decide +kernel, by decide +kernel, by decide +kernel⟩⟩

/-- R186's example, before its first step: two lanes decode, and both read a word. -/
def undoing : State :=
  { args eight 0x3000 2 0 0 with
    mem := put [] 0x2000 [0x97, 0xcf, 0x92, 0xcf]
    rd := ⟨0x2000, 0x2004, 0x2004, 0, 0, false⟩
    xd := setLane (setLane (setLane resetLanes 0 0x179B) 1 0x1791) 2 0xCCF9C }

theorem undoing_codecSafe : CodecSafe undoing :=
  codecSafe_of eight_codecSafe rfl rfl rfl rfl rfl rfl (by decide +kernel)

theorem witness_DecStepDecodesALaneEach :
    State.reset.status.tblValid = false ∧
    ((args five 0 33 0 0).status.tblValid = true ∧ (args five 0 33 0 0).lanes < (args five 0 33 0 0).arg1.toNat) ∧
    (let s := args five 0xFFFFFFFF 2 0 0;
      s.status.tblValid = true ∧ 1 ≤ s.arg1.toNat ∧ s.arg1.toNat ≤ s.lanes ∧ 2 ^ 32 < s.arg0.toNat + s.arg1.toNat) ∧
    (let s := { undoing with rd := ⟨0x2000, 0x2004, 0x2002, 0, 0, false⟩ };
      CodecSafe s ∧ s.rd.HasWords 1 ∧ ¬s.rd.HasWords 2 ∧ s.decodeBase 1 < 2048 ∧ s.wordsBelow 1 = 1 ∧
        s.lanes ≤ 32 ∧ s.mem.wf = true ∧ s.platform.accessError (s.rd.wordAddr 0) .b2 .read = none) ∧
    (let s := { undoing with platform := refusing .b2 0x2000 };
      CodecSafe s ∧ s.rd.HasWords 2 ∧ s.decodeBase 1 < 2048 ∧ s.wordsBelow 1 = 1 ∧
        s.platform.accessError (s.rd.wordAddr 0) .b2 .read = none ∧
        s.platform.accessError (s.rd.wordAddr 1) .b2 .read = some .busError) ∧
    (let s := { undoing with platform := refusing .b1 0x3001 };
      CodecSafe s ∧ s.rd.HasWords 2 ∧ s.CanWrite .b1 s.arg0.toNat 1 ∧ s.wordsBelow 2 = 2 ∧
        (∀ k, k < 2 → s.platform.accessError (s.rd.wordAddr k) .b2 .read = none) ∧
        s.platform.accessError (s.arg0.toNat + 1) .b1 .write = some .busError) ∧
    (let s := undoing;
      CodecSafe s ∧ s.rd.HasWords 2 ∧ s.CanWrite .b1 s.arg0.toNat 2 ∧ s.status.tblValid = true ∧ s.arg1.toNat = 2 ∧
        s.arg1.toNat ≤ s.lanes ∧ s.arg0.toNat + s.arg1.toNat ≤ 2 ^ 32 ∧ s.lanes ≤ 32 ∧ s.mem.wf = true ∧
        s.rd.cnt.toNat ≤ 15 ∧ s.rd.buf.toNat < 2 ^ s.rd.cnt.toNat ∧ s.wordsBelow 2 = 2 ∧
        ∀ k, k < 2 → s.platform.accessError (s.rd.wordAddr k) .b2 .read = none) :=
  ⟨rfl, by decide +kernel, by decide +kernel,
    ⟨codecSafe_of undoing_codecSafe rfl rfl rfl rfl rfl rfl undoing_codecSafe.1,
      (by decide : 0x2000 + 2 * 1 ≤ 0x2002), (by decide : ¬(0x2000 + 2 * 2 ≤ 0x2002)), by decide +kernel⟩,
    ⟨codecSafe_of undoing_codecSafe rfl rfl rfl rfl rfl rfl undoing_codecSafe.1,
      (by decide : 0x2000 + 2 * 2 ≤ 0x2004), by decide +kernel⟩,
    ⟨codecSafe_of undoing_codecSafe rfl rfl rfl rfl rfl rfl undoing_codecSafe.1,
      (by decide : 0x2000 + 2 * 2 ≤ 0x2004), can_write_below rfl (by decide +kernel) (by decide), by decide +kernel⟩,
    ⟨undoing_codecSafe, (by decide : 0x2000 + 2 * 2 ≤ 0x2004), can_write (by decide +kernel) (by decide +kernel),
      by decide +kernel⟩⟩

theorem witness_InterleavedStepInverts :
    let s := stepping
    let t := after .encStep s
    let u := { undoing with mem := t.mem }
    CodecSafe s ∧ exec .encStep s = .next t ∧ CodecSafe u ∧ u.sym = s.sym ∧ u.frq = s.frq ∧ u.cum = s.cum ∧
    u.CanRead .b2 s.wr.ptr.toNat 2 ∧ u.CanWrite .b1 u.arg0.toNat u.arg1.toNat ∧
    s.mem.wf = true ∧ s.status.err = false ∧ s.wr.cnt = 0 ∧ s.wr.buf = 0 ∧ s.lanes ≤ 32 ∧ t.status.err = false ∧
    t.result = 2 ∧ u.mem.wf = true ∧ u.status.err = false ∧ u.status.tblValid = true ∧ u.lanes ≤ 32 ∧
    u.arg1 = s.arg1 ∧ s.arg1.toNat ≤ u.lanes ∧ (∀ j, j < s.arg1.toNat → laneAt u.xd j = laneAt t.xe j) ∧
    u.rd.dir = false ∧ u.rd.cnt = 0 ∧ u.rd.buf = 0 ∧ u.rd.ptr = t.wr.ptr ∧ u.rd.base.toNat ≤ s.wr.ptr.toNat ∧
    u.arg0.toNat + u.arg1.toNat ≤ 2 ^ 32 :=
  ⟨stepping_codecSafe, exec_eq_after (by decide +kernel),
    codecSafe_of undoing_codecSafe rfl rfl rfl rfl rfl rfl undoing_codecSafe.1, rfl, rfl, rfl,
    can_read (by decide +kernel) (by decide +kernel), can_write (by decide +kernel) (by decide +kernel),
    by decide +kernel⟩

/-! ### Framer -/

/-- R204's example: a container of two lanes at 0x5000. -/
def parsing (w : Nat) : State := { args (lanesOf 2) 0x5000 8272 0 0 with mem := container w }

theorem witness_FrmParseAcceptsAHeader :
    let s := parsing 4
    let h : Header := ⟨4, 4, 3, 8, 8, 8, 8⟩
    s.arg0.toNat + s.arg1.toNat ≤ 2 ^ 32 ∧
    (∀ f ∈ headerLayout, s.platform.accessError (s.arg0.toNat + f.1) f.2 .read = none) ∧
    s.headerFields s.arg0.toNat = h.fields ∧ h.Checked s.lanes ∧ h.containerBytes = s.arg1.toNat := by decide +kernel

/-- A state of `FRM_PARSE` with these header fields and this length. -/
def parsed (w h : Nat) (l : List Nat) (FL : Word) : State :=
  { args (lanesOf 2) 0x5000 FL 0 0 with mem := storeEntries 8 (storeEntries 4 [] 0x5000 [w, h]) 0x5008 l }

/-- The header fields before and after `PB`. -/
def early : List (Nat × Size) := [(0, .b4), (4, .b4)]

def late : List (Nat × Size) := [(16, .b8), (24, .b8), (32, .b8), (40, .b8)]

/-- One state for each error of `FRM_PARSE`: past `2^32`, one byte too short, a field of 8 bytes refused. -/
theorem witness_FrmParseErrors_access :
    (let s := args State.reset 0xFFFFFFFF 2 0 0;
      2 ^ 32 < s.arg0.toNat + s.arg1.toNat) ∧
    (let s := args State.reset 0x5000 47 0 0;
      s.arg0.toNat + s.arg1.toNat ≤ 2 ^ 32 ∧ s.arg1.toNat < 48) ∧
    (let s := { args State.reset 0x5000 48 0 0 with platform := refusing .b8 0x5008 };
      s.arg0.toNat + s.arg1.toNat ≤ 2 ^ 32 ∧ 48 ≤ s.arg1.toNat ∧
        headerLayout = early ++ (8, .b8) :: late ∧
        (∀ g ∈ early, s.platform.accessError (s.arg0.toNat + g.1) g.2 .read = none) ∧
        s.platform.accessError (s.arg0.toNat + 8) .b8 .read = some .busError) := by decide +kernel

/-- Width, height, a zero field, a field of `2^32`, too many blocks, another length, a body too short, an odd body. -/
theorem witness_FrmParseErrors_fields :
    (∀ f ∈ headerLayout, (parsing 4).platform.accessError ((parsing 4).arg0.toNat + f.1) f.2 .read = none) ∧
    nth ((parsed 6 4 [3, 8, 8, 8, 8] 8272).headerFields 0x5000) 0 % 4 ≠ 0 ∧
    nth ((parsed 4 5 [3, 8, 8, 8, 8] 8272).headerFields 0x5000) 1 % 4 ≠ 0 ∧
    (let f := nth ((parsed 4 4 [3, 8, 8, 8, 0] 8264).headerFields 0x5000);
      f 0 % 4 = 0 ∧ f 1 % 4 = 0 ∧ f 6 = 0 ∧ ∀ j, j < 6 → f j ≠ 0) ∧
    (let f := nth ((parsed 4 4 [2 ^ 32, 8, 8, 8, 8] 8272).headerFields 0x5000);
      (∀ k, k < 7 → f k ≠ 0) ∧ 2 ^ 32 ≤ f 2 ∧ ∀ j, j < 2 → f j < 2 ^ 32) ∧
    (let f := nth ((parsed 131072 131072 [3, 8, 8, 8, 8] 8272).headerFields 0x5000);
      (∀ k, k < 7 → f k ≠ 0) ∧ (∀ k, k < 7 → f k < 2 ^ 32) ∧ 2 ^ 32 ≤ 4 * (f 0 * f 1 / 16)) ∧
    (let s := parsed 4 4 [3, 8, 8, 8, 8] 8273;
      let f := nth (s.headerFields 0x5000)
      4 * (f 0 * f 1 / 16) < 2 ^ 32 ∧ 48 + 4 * 2048 + f 3 + f 4 + f 5 + f 6 ≠ s.arg1.toNat) ∧
    (let s := parsed 4 4 [3, 8, 8, 8, 9] 8273;
      let f := nth (s.headerFields 0x5000)
      48 + 4 * 2048 + f 3 + f 4 + f 5 + f 6 = s.arg1.toNat ∧
        (f (3 + 3) < 4 * s.lanes ∨ (f (3 + 3) - 4 * s.lanes) % 2 ≠ 0) ∧
        ∀ q, q < 3 → 4 * s.lanes ≤ f (3 + q) ∧ (f (3 + q) - 4 * s.lanes) % 2 = 0) ∧
    (let s := parsed 4 4 [3, 7, 8, 8, 8] 8271;
      let f := nth (s.headerFields 0x5000)
      48 + 4 * 2048 + f 3 + f 4 + f 5 + f 6 = s.arg1.toNat ∧ f (3 + 0) < 4 * s.lanes) := by decide +kernel

/-- A header just below the window; a refused field; a header past `2^32`. -/
theorem witness_FrmHdrWriteStoresTheHeader :
    (let s := args State.reset 0xFFFFEFD0 0 0 0;
      s.mem.wf = true ∧ s.arg0.toNat + 48 ≤ 2 ^ 32 ∧
        ∀ f ∈ headerLayout, s.platform.accessError (s.arg0.toNat + f.1) f.2 .write = none) ∧
    (let s := { args State.reset 0x5000 0 0 0 with platform := refusing .b8 0x5008 };
      s.mem.wf = true ∧ s.arg0.toNat + 48 ≤ 2 ^ 32 ∧
        headerLayout = early ++ (8, .b8) :: late ∧
        (∀ g ∈ early, s.platform.accessError (s.arg0.toNat + g.1) g.2 .write = none) ∧
        s.platform.accessError (s.arg0.toNat + 8) .b8 .write = some .busError) ∧
    (let s := args State.reset 0xFFFFFFD1 0 0 0;
      2 ^ 32 < s.arg0.toNat + 48) := by decide +kernel

theorem witness_HeaderRoundTrip :
    let s := { args State.reset 0x5000 0 0 0 with hdr := ⟨4, 4, 3, 8, 8, 8, 8⟩ }
    let t := after .frmHdrWrite s
    let u := { args (lanesOf 2) 0x5000 8272 0 0 with mem := t.mem }
    exec .frmHdrWrite s = .next t ∧ u.Open u.arg0.toNat 48 ∧ s.mem.wf = true ∧ s.status.err = false ∧
    t.status.err = false ∧ s.hdr.Checked u.lanes ∧ u.arg0 = s.arg0 ∧ u.arg1.toNat = s.hdr.containerBytes ∧
    u.arg0.toNat + u.arg1.toNat ≤ 2 ^ 32 :=
  ⟨exec_eq_after (by decide +kernel), platform_open rfl (by decide +kernel), by decide +kernel⟩

/-- A valid header with a payload of the least size. -/
def checked (A D : Word) : State :=
  { args (lanesOf 1) A D 0 0 with hdr := ⟨8, 8, 3, 4, 4, 4, 4⟩, status := { State.reset.status with hdrValid := true } }

theorem witness_FramerOperandChecks_decode :
    State.reset.status.hdrValid = false ∧
    (let s := checked 0xFFFFF7CD 0;
      s.status.hdrValid = true ∧ 2 ^ 32 < s.arg0.toNat + s.hdr.payloadOffset .Y + (2048 + (s.hdr.size .Y).toNat)) ∧
    (let s := checked 0x5000 0xFFFFFFF9;
      s.arg0.toNat + s.hdr.payloadOffset .Y + (2048 + (s.hdr.size .Y).toNat) ≤ 2 ^ 32 ∧
        2 ^ 32 < s.arg1.toNat + s.hdr.planeBytes .Y) ∧
    (let s := checked 0x5000 0x5833;
      s.arg0.toNat + s.hdr.payloadOffset .Y + (2048 + (s.hdr.size .Y).toNat) ≤ 2 ^ 32 ∧
        s.arg1.toNat + s.hdr.planeBytes .Y ≤ 2 ^ 32 ∧
        s.arg1.toNat < s.arg0.toNat + s.hdr.payloadOffset .Y + (2048 + (s.hdr.size .Y).toNat) ∧
        s.arg0.toNat + s.hdr.payloadOffset .Y < s.arg1.toNat + s.hdr.planeBytes .Y) := by decide +kernel

theorem witness_FramerOperandChecks_encode :
    State.reset.arg2.toNat = 0 ∧
    (let s := args State.reset 0xFFFFFFFF 0x5000 2 0;
      0 < s.arg2.toNat ∧ 2 ^ 32 < s.arg0.toNat + s.arg2.toNat) ∧
    (let s := args State.reset 0x1000 0xFFFFFFFF 1 2;
      s.arg0.toNat + s.arg2.toNat ≤ 2 ^ 32 ∧ 2 ^ 32 < s.arg1.toNat + s.arg3.toNat) ∧
    (let s := args State.reset 0x1000 0x1007 8 4096;
      s.arg1.toNat + s.arg3.toNat ≤ 2 ^ 32 ∧ s.arg0.toNat < s.arg1.toNat + s.arg3.toNat ∧
        s.arg1.toNat < s.arg0.toNat + s.arg2.toNat) ∧
    (let s := args State.reset 0x1000 0x1008 8 2175;
      0 < s.arg2.toNat ∧ s.arg0.toNat + s.arg2.toNat ≤ s.arg1.toNat ∧ s.arg3.toNat < 2048 + 4 * s.lanes) := by
  decide +kernel

/-! ### A payload written and read back: R207's example -/

/-- Eight bytes at 0x100, and room for a word for each symbol at 0x5030. -/
def encoding : State :=
  { args (lanesOf 1) 0x100 0x5030 8 2068 with mem := put [] 0x100 [0, 1, 2, 3, 4, 5, 6, 7] }

theorem witness_FrmEncPayloadWritesAPayload :
    let s := encoding
    s.Open s.arg0.toNat s.arg2.toNat ∧ s.Open s.arg1.toNat s.arg3.toNat ∧ s.mem.wf = true ∧ 1 ≤ s.lanes ∧ s.lanes ≤ 32 ∧
    0 < s.arg2.toNat ∧ s.arg0.toNat + s.arg2.toNat ≤ 2 ^ 32 ∧ s.arg1.toNat + s.arg3.toNat < 2 ^ 32 ∧
    s.arg0.toNat + s.arg2.toNat ≤ s.arg1.toNat ∧ 2048 + 4 * s.lanes + 2 * s.arg2.toNat ≤ s.arg3.toNat :=
  ⟨platform_open rfl (by decide +kernel), platform_open rfl (by decide +kernel), by decide +kernel⟩

/-- The value and the state of a rule that ends well. -/
def stateOf {α : Type} (c : Cmd α) (s : State) : State :=
  match c s with
  | .ok _ t => t
  | .error _ t => t

def endsWell {α : Type} (c : Cmd α) (s : State) : Bool :=
  match c s with
  | .ok _ _ => true
  | .error _ _ => false

theorem ok_of_endsWell {c : Cmd Unit} {s : State} (h : endsWell c s = true) : c s = .ok () (stateOf c s) := by
  unfold endsWell at h
  unfold stateOf
  split at h
  · rename_i hc
    rw [hc]
  · cases h

theorem storeEntries_append (n : Nat) : ∀ (l l' : List Nat) (m : Memory) (a : Nat),
    storeEntries n m a (l ++ l') = storeEntries n (storeEntries n m a l) (a + n * l.length) l'
  | [], _, _, _ => rfl
  | v :: l, l', m, a => by
    rw [List.cons_append, storeEntries, storeEntries, storeEntries_append n l l', List.length_cons,
      show a + n + n * l.length = a + n * (l.length + 1) by rw [Nat.mul_add]; omega]

/-- Zeros stored past the last entry leave memory as it is. -/
theorem write_zero : ∀ (m : Memory) (a : Nat), (∀ c ∈ m, c.1 < a) → m.write a 0 = m
  | [], _, _ => rfl
  | (k, c) :: t, a, h => by
    have hk : k < a := h (k, c) (by simp)
    rw [Memory.write, if_neg (by omega), if_neg (by omega), write_zero t a fun c hc => h c (by simp [hc])]

theorem writeLE_zero (n : Nat) : ∀ (m : Memory) (a : Nat), (∀ c ∈ m, c.1 < a) → m.writeLE a 0 n = m := by
  induction n with
  | zero => intros; rfl
  | succ n ih =>
    intro m a h
    rw [Memory.writeLE, show BitVec.ofNat 8 0 = 0 from rfl, write_zero m a h]
    exact ih m (a + 1) fun c hc => (h c hc).trans (Nat.lt_succ_self a)

theorem storeEntries_zeros (n : Nat) : ∀ (k : Nat) (m : Memory) (a : Nat), (∀ c ∈ m, c.1 < a) →
    storeEntries n m a (List.replicate k 0) = m
  | 0, _, _, _ => rfl
  | k + 1, m, a, h => by
    rw [List.replicate_succ, storeEntries, writeLE_zero n m a h]
    exact storeEntries_zeros n k m (a + n) fun c hc => (h c hc).trans_le (by omega)

/-- After the count, the normalization and the table build of the encode. -/
def built3 : State := stateOf tblBuild (stateOf histNorm (stateOf (histCount 0x100 8) encoding))

/-- The memory after the table is stored: eight entries of 256, then zeros. -/
def tableMem : Memory := storeEntries 4 encoding.mem 0x5030 (List.replicate 8 256)

theorem histStore_encoding : histStore 0x5030 built3 = .ok () (built3.setMem tableMem) := by
  have hf : built3.freq.toList.map BitVec.toNat ++ List.replicate 256 0 = List.replicate 8 256 ++ List.replicate 504 0 := by
    decide +kernel
  have hm : built3.mem = encoding.mem := by decide +kernel
  have hp : built3.platform = State.reset.platform := by decide +kernel
  have hh : built3.status.histValid = true := by decide +kernel
  unfold histStore
  rw [Cmd.getState_bind, Cmd.require_bind hh, Cmd.require_bind (by decide), Cmd.bind_of_ok (readFreq_ok hh), hf,
    writeEntries_ok _ _ (fun i hi => can_write (n := .b4) (k := 512) hp (by decide) i (by
      rw [List.length_append, List.length_replicate, List.length_replicate] at hi
      exact hi)),
    storeEntries_append, storeEntries_zeros, hm]
  · rfl
  · rw [hm]
    decide +kernel

/-- R207's example whole: the counts, and the bytes of the body. -/
theorem test_frmEncPayload_body :
    ∃ t, frmEncPayload .Y 0x100 0x5030 8 2068 encoding = .ok () t ∧ t.status.err = false ∧ t.hdr.sy = 6 ∧
      t.mem.wf = true ∧ t.result = 6 ∧ t.result1 = 2 ∧ get t.mem 0x5830 6 = [0x02, 0x77, 0x09, 0, 0, 0x9c] := by
  unfold frmEncPayload
  rw [Cmd.getState_bind, Cmd.require_bind (by decide), Cmd.require_bind (by decide), Cmd.require_bind (by decide),
    Cmd.require_bind (by decide), Cmd.require_bind (by decide),
    Cmd.bind_of_ok (ok_of_endsWell (c := histCount 0x100 8) (s := encoding) (by decide +kernel)),
    Cmd.bind_of_ok (ok_of_endsWell (c := histNorm) (by decide +kernel)),
    Cmd.bind_of_ok (ok_of_endsWell (c := tblBuild) (by decide +kernel)), ← built3, Cmd.bind_of_ok histStore_encoding]
  exact ⟨_, ok_of_endsWell (by decide +kernel), by decide +kernel⟩

/-- The eight bytes decoded to 0x9000 from where they were encoded. -/
theorem witness_PayloadRoundTrip :
    ∃ t, exec (.frmEncPayload .Y) encoding = .next t ∧ t.status.err = false ∧
      let s := encoding
      let u := { checked 0x5000 0x9000 with mem := t.mem, hdr := ⟨8, 8, 3, t.hdr.sy, 6, 4, 4⟩ }
      let n := 2048 + (t.hdr.size .Y).toNat
      s.mem.wf = true ∧ s.status.err = false ∧ 1 ≤ s.lanes ∧ s.lanes ≤ 32 ∧ u.mem.wf = true ∧ u.status.err = false ∧
      u.lanes = s.lanes ∧ u.status.hdrValid = true ∧ u.arg0.toNat + u.hdr.payloadOffset .Y = s.arg1.toNat ∧
      u.hdr.size .Y = t.hdr.size .Y ∧ u.hdr.planeBytes .Y = s.arg2.toNat ∧ s.arg1.toNat + n < 2 ^ 32 ∧
      u.arg1.toNat + s.arg2.toNat ≤ 2 ^ 32 ∧ s.arg1.toNat + n ≤ u.arg1.toNat ∧ u.Open s.arg1.toNat n ∧
      u.Open u.arg1.toNat s.arg2.toNat := by
  obtain ⟨t, h, he, hy, hw, _⟩ := test_frmEncPayload_body
  have hx : exec (.frmEncPayload .Y) encoding = .next t.complete := by
    unfold exec execFrmEncPayload
    rw [show encoding.arg0.toNat = 0x100 by decide +kernel, show encoding.arg1.toNat = 0x5030 by decide +kernel,
      show encoding.arg2.toNat = 8 by decide +kernel, show encoding.arg3.toNat = 2068 by decide +kernel]
    exact runCommand_ok h
  refine ⟨t.complete, hx, he, ?_⟩
  have hs : t.complete.hdr.size .Y = 6 := hy
  have hy' : t.complete.hdr.sy = 6 := hy
  simp only [hs, hy']
  exact ⟨by decide +kernel, rfl, by decide +kernel, by decide +kernel, hw, rfl, rfl, rfl, by decide +kernel, rfl, by decide +kernel,
    by decide +kernel, by decide +kernel, by decide +kernel, platform_open rfl (by decide +kernel),
    platform_open rfl (by decide +kernel)⟩

/-- A payload of the symbol 255 alone, its one lane state `x` stored after the table, and `size` bytes of body. -/
def alone (x size : Nat) : State :=
  { checked 0x5000 0x9000 with
    mem := storeEntries 4 (storeEntries 4 [] 0x542C [1]) 0x5830 [x], hdr := ⟨8, 8, 3, BitVec.ofNat 32 size, 4, 4, 4⟩ }

theorem witness_FrmDecPayloadOfOneSymbol :
    (∀ p ∈ ([(2048, 4), (2049, 4), (2048, 6)] : List (Nat × Nat)),
      let s := alone p.1 p.2
      let P := s.arg0.toNat + s.hdr.payloadOffset .Y
      s.mem.wf = true ∧ s.status.hdrValid = true ∧ s.status.err = false ∧ s.lanes = 1 ∧ P = 0x5030 ∧
      (s.hdr.size .Y).toNat = p.2 ∧ s.hdr.planeBytes .Y = 8 ∧ s.arg1.toNat = 0x9000 ∧ 4 * s.lanes ≤ p.2 ∧
      (p.2 - 4 * s.lanes) % 2 = 0 ∧ (∀ i, i < 512 → s.mem.readLE (P + 4 * i) 4 = if i = 255 then 1 else 0) ∧
      s.mem.readLE (P + 2048) 4 = p.1) ∧
    (alone 2048 4).Open 0x5030 2052 ∧ (alone 2049 4).Open 0x5030 2052 ∧ (alone 2048 6).Open 0x5030 2054 ∧
    (alone 2048 4).Open 0x9000 8 ∧ (alone 2049 4).Open 0x9000 8 ∧ (alone 2048 6).Open 0x9000 8 :=
  ⟨by decide +kernel, platform_open rfl (by decide), platform_open rfl (by decide), platform_open rfl (by decide),
    platform_open rfl (by decide), platform_open rfl (by decide), platform_open rfl (by decide)⟩

/-- The sub-steps of a payload decode up to the table build, each as a command of its own. -/
def loaded (s : State) (P : Word) : State := after .histLoad { s with arg0 := P }

/-- A refused table entry, an empty table, and a lane state next to its range. -/
theorem witness_PayloadErrorsKeepWhatWasCommitted_decode :
    (let s := { checked 0x5000 0x9000 with platform := refusing .b4 0x5030 };
      exec (.frmDecPayload .Y) s = .next (after (.frmDecPayload .Y) s) ∧
        exec .histLoad { s with arg0 := 0x5030 } = .next (loaded s 0x5030) ∧
        exec .histNorm (loaded s 0x5030) = .next (after .histNorm (loaded s 0x5030)) ∧
        exec .tblBuild (after .histNorm (loaded s 0x5030)) =
          .next (after .tblBuild (after .histNorm (loaded s 0x5030))) ∧
        (loaded s 0x5030).status.err = true) ∧
    (let s := checked 0x5000 0x9000;
      exec (.frmDecPayload .Y) s = .next (after (.frmDecPayload .Y) s) ∧
        exec .histLoad { s with arg0 := 0x5030 } = .next (loaded s 0x5030) ∧
        exec .histNorm (loaded s 0x5030) = .next (after .histNorm (loaded s 0x5030)) ∧
        exec .tblBuild (after .histNorm (loaded s 0x5030)) =
          .next (after .tblBuild (after .histNorm (loaded s 0x5030))) ∧
        s.status.err = false ∧ s.status.hdrValid = true ∧ s.arg0.toNat + s.hdr.payloadOffset .Y = 0x5030 ∧
        (s.hdr.size .Y).toNat = 4 ∧ s.arg1.toNat + s.hdr.planeBytes .Y ≤ 2 ^ 32 ∧ 0x5030 + 2052 ≤ s.arg1.toNat ∧
        (loaded s 0x5030).status.err = false ∧ (after .histNorm (loaded s 0x5030)).status.err = true ∧
        (after (.frmDecPayload .Y) s).status.err = true ∧
        (after (.frmDecPayload .Y) s).errcode.toNat % 256 ≠ 0x0C) ∧
    (let s := alone 2047 4;
      s.CanRead .b4 (0x5030 + 2048) 1 ∧ exec (.frmDecPayload .Y) s = .next (after (.frmDecPayload .Y) s) ∧
        exec .histLoad { s with arg0 := 0x5030 } = .next (loaded s 0x5030) ∧
        exec .histNorm (loaded s 0x5030) = .next (after .histNorm (loaded s 0x5030)) ∧
        exec .tblBuild (after .histNorm (loaded s 0x5030)) =
          .next (after .tblBuild (after .histNorm (loaded s 0x5030))) ∧
        (after .histNorm (loaded s 0x5030)).status.err = false ∧ 0 < s.lanes ∧ s.lanes ≤ 32 ∧
        ¬LaneLegal (s.mem.readLE (0x5030 + 2048) 4)) :=
  ⟨⟨exec_eq_after (by decide +kernel), exec_eq_after (by decide +kernel), exec_eq_after (by decide +kernel),
      exec_eq_after (by decide +kernel), by decide +kernel⟩,
    ⟨exec_eq_after (by decide +kernel), exec_eq_after (by decide +kernel), exec_eq_after (by decide +kernel),
      exec_eq_after (by decide +kernel), by decide +kernel⟩,
    ⟨can_read rfl (by decide), exec_eq_after (by decide +kernel), exec_eq_after (by decide +kernel),
      exec_eq_after (by decide +kernel), exec_eq_after (by decide +kernel), by decide +kernel⟩⟩

/-- The counts of a payload encode as a command of its own. -/
def counted (s : State) : State := after .histCount { s with arg1 := s.arg2 }

/-- A refused table entry of R207's example, and the example with nothing refused. -/
theorem witness_PayloadErrorsKeepWhatWasCommitted_encode :
    (let s := { encoding with platform := refusing .b4 0x5038 };
      exec (.frmEncPayload .Y) s = .next (after (.frmEncPayload .Y) s) ∧ s.status.err = false ∧ s.mem.wf = true ∧
        (after (.frmEncPayload .Y) s).status.err = true) ∧
    (let s := { encoding with platform := refusing .b1 0x107 };
      exec (.frmEncPayload .Y) s = .next (after (.frmEncPayload .Y) s) ∧
        exec .histCount { s with arg1 := s.arg2 } = .next (counted s) ∧
        exec .histNorm (counted s) = .next (after .histNorm (counted s)) ∧
        exec .tblBuild (after .histNorm (counted s)) = .next (after .tblBuild (after .histNorm (counted s))) ∧
        (after .histNorm (counted s)).status.err = true) ∧
    (let s := encoding;
      (∃ t, exec (.frmEncPayload .Y) s = .next t) ∧ s.CanWrite .b4 s.arg1.toNat 512 ∧
        exec .histCount { s with arg1 := s.arg2 } = .next (counted s) ∧
        exec .histNorm (counted s) = .next (after .histNorm (counted s)) ∧
        exec .tblBuild (after .histNorm (counted s)) = .next (after .tblBuild (after .histNorm (counted s))) ∧
        (after .histNorm (counted s)).status.err = false ∧ s.mem.wf = true ∧ 0 < s.arg2.toNat ∧
        s.arg0.toNat + s.arg2.toNat ≤ s.arg1.toNat ∧ s.arg1.toNat + s.arg3.toNat ≤ 2 ^ 32 ∧
        2048 + 4 * s.lanes ≤ s.arg3.toNat) :=
  ⟨⟨exec_eq_after (by decide +kernel), by decide +kernel⟩,
    ⟨exec_eq_after (by decide +kernel), exec_eq_after (by decide +kernel), exec_eq_after (by decide +kernel),
      exec_eq_after (by decide +kernel), by decide +kernel⟩,
    ⟨let ⟨t, h, _⟩ := witness_PayloadRoundTrip; ⟨t, h⟩, can_write rfl (by decide +kernel),
      exec_eq_after (by decide +kernel), exec_eq_after (by decide +kernel), exec_eq_after (by decide +kernel),
      by decide +kernel⟩⟩

/-- Commands that change the writer and the lanes, one of each kind that stores, and one in the error state. -/
theorem witness_OnlyNamedCommandsChangeEachElement :
    (let s := args State.reset 0x2000 0x2100 0 0;
      exec .bwInit s = .next (after .bwInit s) ∧ Instr.bwInit ≠ .softReset ∧ (after .bwInit s).wr ≠ s.wr) ∧
    (let s := { State.reset with xe := setLane resetLanes 5 0x1791 };
      exec .encInit s = .next (after .encInit s) ∧ (after .encInit s).xe ≠ s.xe) ∧
    (exec (.encSym 0) emitting = .next (after (.encSym 0) emitting) ∧ emitting.mem.wf = true ∧
      (after (.encSym 0) emitting).mem ≠ emitting.mem ∧ (after (.encSym 0) emitting).result1 ≠ emitting.result1) ∧
    (exec .encStep stepping = .next (after .encStep stepping) ∧ stepping.mem.wf = true ∧
      (after .encStep stepping).mem ≠ stepping.mem ∧ (after .encStep stepping).result ≠ stepping.result) ∧
    (exec .decStep undoing = .next (after .decStep undoing) ∧ undoing.mem.wf = true ∧
      (after .decStep undoing).mem ≠ undoing.mem) ∧
    (let s := alone 2048 4;
      exec (.frmDecPayload .Y) s = .next (after (.frmDecPayload .Y) s) ∧ s.mem.wf = true ∧
        (after (.frmDecPayload .Y) s).mem ≠ s.mem) ∧
    (∃ t, exec (.frmEncPayload .Y) encoding = .next t) ∧
    (exec .histStore State.reset = .next (after .histStore State.reset) ∧
      (after .histStore State.reset).errcode ≠ State.reset.errcode) ∧
    (exec .clrStatus failedState = .next (after .clrStatus failedState) ∧ failedState.status.err = true ∧
      (after .clrStatus failedState).status.err = false) :=
  ⟨⟨exec_eq_after (by decide +kernel), by decide, by decide +kernel⟩,
    ⟨exec_eq_after (by decide +kernel), by decide +kernel⟩, ⟨exec_eq_after (by decide +kernel), by decide +kernel⟩,
    ⟨exec_eq_after (by decide +kernel), by decide +kernel⟩, ⟨exec_eq_after (by decide +kernel), by decide +kernel⟩,
    ⟨exec_eq_after (by decide +kernel), by decide +kernel⟩, let ⟨t, h, _⟩ := witness_PayloadRoundTrip; ⟨t, h⟩,
    ⟨exec_eq_after (by decide +kernel), by decide +kernel⟩, ⟨exec_eq_after (by decide +kernel), by decide +kernel⟩⟩

/-! ### The invariants -/

/-- The state after a step. -/
def stepped (s : State) : State :=
  match step s with
  | .next t => t
  | .fault _ => s
  | .refused _ => s

def steps (s : State) : Bool :=
  match step s with
  | .next _ => true
  | .fault _ => false
  | .refused _ => false

theorem step_eq_stepped {s : State} (h : steps s = true) : step s = .next (stepped s) := by
  unfold steps at h
  unfold stepped
  split at h
  · rename_i ht
    rw [ht]
  · cases h
  · cases h

/-- The sequencer is about to run `ENC_SYM`, whose word fills the writer's region. -/
theorem witness_EveryStepKeeps :
    let s := running 0x00000031 emitting
    CodecSafe s ∧ step s = .next (stepped s) ∧ MemorySafe s ∧ FlagsSafe s ∧ StreamsSafe s ∧ (stepped s).mem ≠ s.mem ∧
      (stepped s).xe ≠ s.xe ∧ (stepped s).wr ≠ s.wr :=
  ⟨⟨emitting_codecSafe.1, emitting_codecSafe.2.1, emitting_codecSafe.2.2⟩, step_eq_stepped (by decide +kernel),
    by decide +kernel⟩

/-- The host is about to write a header register of a valid header. -/
theorem witness_EveryStepKeepsHeaderSafe :
    let s := { checked 0 0 with turns := [.host], host := ⟨[.csrw 0x060 (.const 5)], 0, []⟩ }
    HeaderSafe s ∧ s.status.hdrValid = true ∧ step s = .next (stepped s) ∧ (stepped s).hdr.w = 5 :=
  ⟨by decide +kernel, rfl, step_eq_stepped (by decide +kernel), by decide +kernel⟩

end Sys2Proof.Tests
end

section
/-!
SUPPORT. What holds where a rule ends: one predicate on a rule, a state and what is claimed of the two ways of ending, and
its law for each primitive of a rule.
-/
namespace Sys2Proof.Machine

/-- From `s` the rule ends well only with `Q` of its answer and the state, and early only with `E` of the stop and the
state. -/
def Cmd.Ends {α : Type} (c : Cmd α) (s : State) (Q : α → State → Prop) (E : Stop → State → Prop) : Prop :=
  (∀ v t, c s = .ok v t → Q v t) ∧ ∀ e t, c s = .error e t → E e t

theorem Cmd.Ends.mono {α : Type} {c : Cmd α} {s : State} {Q Q' : α → State → Prop} {E E' : Stop → State → Prop}
    (h : Cmd.Ends c s Q E) (hQ : ∀ v t, Q v t → Q' v t) (hE : ∀ e t, E e t → E' e t) : Cmd.Ends c s Q' E' :=
  ⟨fun v t hc => hQ v t (h.1 v t hc), fun e t hc => hE e t (h.2 e t hc)⟩

theorem Cmd.Ends.of_ok {α : Type} {c : Cmd α} {s t : State} {v : α} {Q : α → State → Prop} {E : Stop → State → Prop}
    (hc : c s = .ok v t) (h : Q v t) : Cmd.Ends c s Q E := by
  constructor
  · intro v' t' hc'
    cases hc.symm.trans hc'
    exact h
  · intro e t' hc'
    cases hc.symm.trans hc'

theorem Cmd.Ends.of_error {α : Type} {c : Cmd α} {s t : State} {e : Stop} {Q : α → State → Prop}
    {E : Stop → State → Prop} (hc : c s = .error e t) (h : E e t) : Cmd.Ends c s Q E := by
  constructor
  · intro v t' hc'
    cases hc.symm.trans hc'
  · intro e' t' hc'
    cases hc.symm.trans hc'
    exact h

theorem Cmd.Ends.pure {α : Type} {v : α} {s : State} {Q : α → State → Prop} {E : Stop → State → Prop} (h : Q v s) :
    Cmd.Ends (Pure.pure v : Cmd α) s Q E := .of_ok rfl h

theorem Cmd.Ends.modify {f : State → State} {s : State} {Q : PUnit → State → Prop} {E : Stop → State → Prop}
    (h : Q ⟨⟩ (f s)) : Cmd.Ends (modify f : Cmd PUnit) s Q E := .of_ok rfl h

/-- A sequence ends as its first part does early, or as the rest does from where the first part ends well. -/
theorem Cmd.Ends.bind {α β : Type} {c : Cmd α} {f : α → Cmd β} {s : State} {Q : β → State → Prop}
    {E : Stop → State → Prop} (h : Cmd.Ends c s (fun v t => Cmd.Ends (f v) t Q E) E) :
    Cmd.Ends (c >>= f) s Q E := by
  constructor
  · intro v t hc
    obtain ⟨a, s', ha, hf⟩ := Cmd.bind_ok hc
    exact (h.1 a s' ha).1 v t hf
  · intro e t hc
    rcases Cmd.bind_error hc with ha | ⟨a, s', ha, hf⟩
    · exact h.2 e t ha
    · exact (h.1 a s' ha).2 e t hf

theorem Cmd.Ends.getState {β : Type} {f : State → Cmd β} {s : State} {Q : β → State → Prop} {E : Stop → State → Prop}
    (h : Cmd.Ends (f s) s Q E) : Cmd.Ends (Machine.getState >>= f) s Q E := h

theorem Cmd.Ends.require {β : Type} {p : Prop} [Decidable p] {r : Raised} {f : Unit → Cmd β} {s : State}
    {Q : β → State → Prop} {E : Stop → State → Prop} (hE : ¬p → E (.raised r none) s)
    (h : p → Cmd.Ends (f ()) s Q E) : Cmd.Ends (Machine.require p r >>= f) s Q E := by
  by_cases hp : p
  · exact .bind (.of_ok (Cmd.require_of hp r s) (h hp))
  · exact .bind (.of_error (Cmd.require_of_not hp r s) (hE hp))

/-- The rule ends with `P` of the state, well or early. -/
abbrev Cmd.EndsIn {α : Type} (c : Cmd α) (s : State) (P : State → Prop) : Prop :=
  Cmd.Ends c s (fun _ t => P t) fun _ t => P t

/-- A rule that leaves the state, whichever way it ends, and ends well only with `Q` of its answer. -/
abbrev Cmd.Answers {α : Type} (c : Cmd α) (s : State) (Q : α → Prop) : Prop :=
  Cmd.Ends c s (fun v t => t = s ∧ Q v) fun _ t => t = s

theorem Cmd.Answers.pure {α : Type} {v : α} {s : State} {Q : α → Prop} (h : Q v) :
    Cmd.Answers (Pure.pure v : Cmd α) s Q := .of_ok rfl ⟨rfl, h⟩

theorem Cmd.Answers.mono {α : Type} {c : Cmd α} {s : State} {Q Q' : α → Prop} (h : Cmd.Answers c s Q)
    (hQ : ∀ v, Q v → Q' v) : Cmd.Answers c s Q' := Cmd.Ends.mono h (fun v _ hv => ⟨hv.1, hQ v hv.2⟩) fun _ _ he => he

/-- What two facts say of an answer. -/
theorem Cmd.Answers.and {α : Type} {c : Cmd α} {s : State} {Q Q' : α → Prop} (h : Cmd.Answers c s Q)
    (h' : Cmd.Answers c s Q') : Cmd.Answers c s fun v => Q v ∧ Q' v :=
  ⟨fun v t hc => ⟨(h.1 v t hc).1, (h.1 v t hc).2, (h'.1 v t hc).2⟩, h.2⟩

/-- A sequence whose first part leaves the state. -/
theorem Cmd.Answers.bind {α β : Type} {c : Cmd α} {f : α → Cmd β} {s : State} {R : α → Prop} {Q : β → State → Prop}
    {E : Stop → State → Prop} (hc : Cmd.Answers c s R) (hE : ∀ e, E e s) (hf : ∀ v, R v → Cmd.Ends (f v) s Q E) :
    Cmd.Ends (c >>= f) s Q E := by
  refine .bind (Cmd.Ends.mono hc ?_ ?_)
  · rintro v t ⟨rfl, hv⟩
    exact hf v hv
  · rintro e t rfl
    exact hE e

theorem Cmd.Answers.memRead (a : Nat) (n : Size) (lane : Nat) (s : State) :
    Cmd.Answers (Machine.memRead a n lane) s fun v => v = s.mem.readLE a n.bytes := by
  rcases memRead_cases a n lane s with ⟨-, h⟩ | ⟨c, -, h⟩
  · exact .of_ok h ⟨rfl, rfl⟩
  · exact .of_error h rfl

theorem Cmd.Answers.guardArray {α : Type} (valid : Bool) (v : α) (s : State) :
    Cmd.Answers (Machine.guardArray valid v) s fun w => w = v := by
  cases valid
  · exact .of_error rfl rfl
  · exact .of_ok rfl ⟨rfl, rfl⟩

theorem Cmd.Answers.readEntries {n : Size} {s : State} : ∀ (k a : Nat),
    Cmd.Answers (Machine.readEntries n a k) s fun l => l.length = k ∧ ∀ v ∈ l, v < 256 ^ n.bytes
  | 0, _ => .pure ⟨rfl, by simp⟩
  | k + 1, a => by
    refine (Cmd.Answers.memRead a n 0 s).bind (fun _ => rfl) fun v hv => ?_
    refine (Cmd.Answers.readEntries k (a + n.bytes)).bind (fun _ => rfl) fun l hl => .pure ?_
    have hv : v < 256 ^ n.bytes := hv ▸ Memory.readLE_lt s.mem n.bytes a
    simpa [hl.1, hv] using hl.2

theorem Cmd.Answers.readRaw (s : State) : Cmd.Answers Machine.readRaw s fun l => l = s.rawList :=
  Cmd.Answers.guardArray _ _ s

theorem Cmd.Answers.readFreq (s : State) : Cmd.Answers Machine.readFreq s fun l => l = s.freqList :=
  Cmd.Answers.guardArray _ _ s

theorem Cmd.Answers.readStart (σ : Nat) (s : State) :
    Cmd.Answers (Machine.readStart σ) s fun v => v = (entryAt s.cums σ 0).toNat := Cmd.Answers.guardArray _ _ s

theorem Cmd.Answers.readSlot (slot : Nat) (s : State) :
    Cmd.Answers (Machine.readSlot slot) s fun v =>
      v = ((entryAt s.sym slot 0).toNat, (entryAt s.frq slot 0).toNat, (entryAt s.cum slot 0).toNat) :=
  Cmd.Answers.guardArray _ _ s

theorem Cmd.Answers.checkLane (lane : Nat) (s : State) :
    Cmd.Answers (Machine.checkLane lane) s fun _ => lane < s.lanes := by
  rcases Nat.lt_or_ge lane s.lanes with h | h
  · exact .of_ok (checkLane_ok h) ⟨rfl, h⟩
  · exact .of_error (checkLane_bad h) rfl

end Sys2Proof.Machine
end

section
/-!
SUPPORT. What a rule may change: the state elements one by one, the bytes of memory a store may touch, and the relation of
two states that differ in the elements of a list and in the bytes of a region only.
-/
namespace Sys2Proof.Machine

/-! ## Stores -/

/-- `m'` is `m` but for bytes that `R` picks, and keeps the canonical form. -/
structure Stored (R : Nat → Prop) (m m' : Memory) : Prop where
  wf : m.wf = true → m'.wf = true
  outside : m.wf = true → ∀ x, ¬R x → m'.read x = m.read x

theorem Stored.refl (R : Nat → Prop) (m : Memory) : Stored R m m := ⟨id, fun _ _ _ => rfl⟩

theorem Stored.trans {R : Nat → Prop} {m m' m'' : Memory} (h : Stored R m m') (h' : Stored R m' m'') :
    Stored R m m'' :=
  ⟨fun hm => h'.wf (h.wf hm), fun hm x hx => (h'.outside (h.wf hm) x hx).trans (h.outside hm x hx)⟩

theorem Stored.mono {R R' : Nat → Prop} {m m' : Memory} (h : Stored R m m') (hR : ∀ x, R x → R' x) :
    Stored R' m m' := ⟨h.wf, fun hm x hx => h.outside hm x fun hr => hx (hR x hr)⟩

theorem Stored.writeLE (m : Memory) {a v n : Nat} (h : a + n ≤ Config.memBytes) :
    Stored (InRegion a n) m (m.writeLE a v n) :=
  ⟨fun hm => Memory.wf_writeLE n hm h, fun hm x hx => Memory.read_writeLE_outside n a v x hm h (by omega)⟩

/-- A rule that changes memory only, in the bytes that `R` picks, whichever way it ends, and ends well only with `Q` of its
answer. -/
abbrev Cmd.Stores {α : Type} (c : Cmd α) (s : State) (R : Nat → Prop) (Q : α → Prop) : Prop :=
  Cmd.Ends c s (fun v t => (∃ m, t = s.setMem m ∧ Stored R s.mem m) ∧ Q v)
    fun _ t => ∃ m, t = s.setMem m ∧ Stored R s.mem m

@[simp] theorem State.setMem_setMem (s : State) (m m' : Memory) : (s.setMem m).setMem m' = s.setMem m' := rfl

@[simp] theorem State.setMem_self (s : State) : s.setMem s.mem = s := rfl

theorem Cmd.Stores.pure {α : Type} {v : α} {s : State} {R : Nat → Prop} {Q : α → Prop} (h : Q v) :
    Cmd.Stores (Pure.pure v : Cmd α) s R Q := .of_ok rfl ⟨⟨s.mem, rfl, .refl R s.mem⟩, h⟩

theorem Cmd.Stores.mono {α : Type} {c : Cmd α} {s : State} {R R' : Nat → Prop} {Q Q' : α → Prop}
    (h : Cmd.Stores c s R Q) (hR : ∀ x, R x → R' x) (hQ : ∀ v, Q v → Q' v) : Cmd.Stores c s R' Q' := by
  refine Cmd.Ends.mono h ?_ ?_
  · rintro v t ⟨⟨m, hm, hs⟩, hv⟩
    exact ⟨⟨m, hm, hs.mono hR⟩, hQ v hv⟩
  · rintro e t ⟨m, hm, hs⟩
    exact ⟨m, hm, hs.mono hR⟩

/-- A sequence whose first part stores. -/
theorem Cmd.Stores.bind {α β : Type} {c : Cmd α} {f : α → Cmd β} {s : State} {R : Nat → Prop} {Q : α → Prop}
    {P : β → State → Prop} {E : Stop → State → Prop} (hc : Cmd.Stores c s R Q)
    (hE : ∀ e m, Stored R s.mem m → E e (s.setMem m))
    (hf : ∀ v m, Stored R s.mem m → Q v → Cmd.Ends (f v) (s.setMem m) P E) : Cmd.Ends (c >>= f) s P E := by
  refine .bind (Cmd.Ends.mono hc ?_ ?_)
  · rintro v t ⟨⟨m, rfl, hm⟩, hv⟩
    exact hf v m hm hv
  · rintro e t ⟨m, rfl, hm⟩
    exact hE e m hm

/-- A sequence of two parts that store. -/
theorem Cmd.Stores.seq {α β : Type} {c : Cmd α} {f : α → Cmd β} {s : State} {R : Nat → Prop} {Q : α → Prop}
    {Q' : β → Prop} (hc : Cmd.Stores c s R Q) (hf : ∀ v m, Q v → Cmd.Stores (f v) (s.setMem m) R Q') :
    Cmd.Stores (c >>= f) s R Q' := by
  refine hc.bind (fun e m hm => ⟨m, rfl, hm⟩) fun v m hm hv => Cmd.Ends.mono (hf v m hv) ?_ ?_
  · rintro w t ⟨⟨m', rfl, hm'⟩, hw⟩
    exact ⟨⟨m', rfl, hm.trans hm'⟩, hw⟩
  · rintro e t ⟨m', rfl, hm'⟩
    exact ⟨m', rfl, hm.trans hm'⟩

theorem Cmd.Stores.memWrite (a v : Nat) (n : Size) (lane : Nat) (s : State) :
    Cmd.Stores (Machine.memWrite a n v lane) s (InRegion a n.bytes) fun _ => True := by
  rcases memWrite_cases a v n lane s with ⟨hp, h⟩ | ⟨c, -, h⟩
  · exact .of_ok h ⟨⟨_, rfl, Stored.writeLE s.mem (accessError_none_le hp)⟩, trivial⟩
  · exact .of_error h ⟨s.mem, rfl, .refl _ _⟩

theorem Cmd.Stores.writeEntries {n : Size} : ∀ (l : List Nat) (a : Nat) (s : State),
    Cmd.Stores (Machine.writeEntries n a l) s (InRegion a (n.bytes * l.length)) fun _ => True
  | [], _, _ => .pure trivial
  | v :: l, a, s => by
    have hlen : n.bytes * (v :: l).length = n.bytes + n.bytes * l.length := by
      rw [List.length_cons, Nat.mul_add, Nat.mul_one, Nat.add_comm]
    refine Cmd.Stores.seq ((Cmd.Stores.memWrite a v n 0 s).mono ?_ fun _ => id) fun _ m _ =>
      (Cmd.Stores.writeEntries l (a + n.bytes) (s.setMem m)).mono ?_ fun _ => id
    all_goals
      rw [hlen]
      rintro x ⟨h1, h2⟩
      constructor <;> omega

/-! ## The state elements -/

/-- The state elements, one for each register, bit of `STATUS`, array, and part of the model's own state. -/
inductive Elem where
  | platform | mem | ctrl | cfgN | busy | done | err | wbusy | rawValid | histValid | tblValid | hdrValid | fallback
  | errcode | errinfo | cmd | result | result1 | arg0 | arg1 | arg2 | arg3 | rd | wr | hdr | xe | xd | rawf | freq
  | sym | frq | cum | cums | host | turns | draws
  deriving DecidableEq

/-- The element is the same in both states. -/
@[simp] def Elem.Same (s t : State) : Elem → Prop
  | .platform => t.platform = s.platform
  | .mem => t.mem = s.mem
  | .ctrl => t.ctrl = s.ctrl
  | .cfgN => t.cfgN = s.cfgN
  | .busy => t.status.busy = s.status.busy
  | .done => t.status.done = s.status.done
  | .err => t.status.err = s.status.err
  | .wbusy => t.status.wbusy = s.status.wbusy
  | .rawValid => t.status.rawValid = s.status.rawValid
  | .histValid => t.status.histValid = s.status.histValid
  | .tblValid => t.status.tblValid = s.status.tblValid
  | .hdrValid => t.status.hdrValid = s.status.hdrValid
  | .fallback => t.status.fallback = s.status.fallback
  | .errcode => t.errcode = s.errcode
  | .errinfo => t.errinfo = s.errinfo
  | .cmd => t.cmd = s.cmd
  | .result => t.result = s.result
  | .result1 => t.result1 = s.result1
  | .arg0 => t.arg0 = s.arg0
  | .arg1 => t.arg1 = s.arg1
  | .arg2 => t.arg2 = s.arg2
  | .arg3 => t.arg3 = s.arg3
  | .rd => t.rd = s.rd
  | .wr => t.wr = s.wr
  | .hdr => t.hdr = s.hdr
  | .xe => t.xe = s.xe
  | .xd => t.xd = s.xd
  | .rawf => t.rawf = s.rawf
  | .freq => t.freq = s.freq
  | .sym => t.sym = s.sym
  | .frq => t.frq = s.frq
  | .cum => t.cum = s.cum
  | .cums => t.cums = s.cums
  | .host => t.host = s.host
  | .turns => t.turns = s.turns
  | .draws => t.draws = s.draws

theorem Elem.same_refl (s : State) (e : Elem) : e.Same s s := by cases e <;> rfl

theorem Elem.Same.trans {s t u : State} {e : Elem} (h : e.Same s t) (h' : e.Same t u) : e.Same s u := by
  cases e <;> exact Eq.trans h' h

/-- `t` is `s` but for the elements of `W`. -/
def SameBut (W : List Elem) (s t : State) : Prop := ∀ e, e ∈ W ∨ e.Same s t

/-- What is not in the list is the same. -/
theorem SameBut.get {W : List Elem} {s t : State} (h : SameBut W s t) (e : Elem) (he : e ∉ W) : e.Same s t :=
  (h e).resolve_left he

theorem SameBut.trans {W W' : List Elem} {s t u : State} (h : SameBut W s t) (h' : SameBut W' t u) :
    SameBut (W ++ W') s u := fun e => by
  rcases h e with he | he
  · exact .inl (List.mem_append_left W' he)
  · exact (h' e).imp (List.mem_append_right W) he.trans

/-- `t` is `s` but for the elements of `W` and, in memory, the bytes that `R` picks. -/
structure Changed (W : List Elem) (R : Nat → Prop) (s t : State) : Prop where
  same : SameBut W s t
  stored : Stored R s.mem t.mem

theorem Changed.refl (W : List Elem) (R : Nat → Prop) (s : State) : Changed W R s s :=
  ⟨fun e => .inr (e.same_refl s), .refl R s.mem⟩

theorem Changed.trans {W : List Elem} {R : Nat → Prop} {s t u : State} (h : Changed W R s t) (h' : Changed W R t u) :
    Changed W R s u :=
  ⟨fun e => (h.same.trans h'.same e).imp_left fun he => (List.mem_append.mp he).elim id id,
    h.stored.trans h'.stored⟩

theorem Changed.mono {W W' : List Elem} {R R' : Nat → Prop} {s t : State} (h : Changed W R s t) (hW : W ⊆ W')
    (hR : ∀ x, R x → R' x) : Changed W' R' s t := ⟨fun e => (h.same e).imp_left (@hW e), h.stored.mono hR⟩

theorem Changed.get {W : List Elem} {R : Nat → Prop} {s t : State} (h : Changed W R s t) (e : Elem) (he : e ∉ W) :
    e.Same s t := h.same.get e he

/-- An update of registers, memory being left. -/
theorem Changed.of_registers {W : List Elem} {R : Nat → Prop} {s t : State} (h : SameBut W s t)
    (hm : t.mem = s.mem := by rfl) : Changed W R s t := ⟨h, hm ▸ .refl R s.mem⟩

theorem Changed.of_setMem {R : Nat → Prop} {s : State} {m : Memory} (h : Stored R s.mem m) :
    Changed [.mem] R s (s.setMem m) := ⟨fun e => by cases e <;> simp, h⟩

end Sys2Proof.Machine
end

section
/-!
SUPPORT. What a rule keeps: the relation of the state before and after that says what changed and that each invariant of the
codec, the streams and the header is kept (10_state.md R27, R33, R34, R37, R40, R43).
-/
namespace Sys2Proof.Machine

/-! ## Elements an invariant speaks of -/

/-- The elements of the tables that `CodecSafe` speaks of. -/
def tableElems : List Elem := [.freq, .sym, .frq, .cum, .cums, .histValid, .tblValid]

/-- The elements that `CodecSafe` speaks of. -/
def codecElems : List Elem := .xe :: .xd :: tableElems

/-- The elements that `HeaderSafe` speaks of. -/
def headerElems : List Elem := [.hdr, .hdrValid, .cfgN]

/-- The elements that `FlagsSafe` speaks of. -/
def flagElems : List Elem := [.busy, .done, .err, .errcode, .errinfo, .cfgN]

/-- Every lane is legal (R37). -/
abbrev LanesLegal (x : Vector Word 32) : Prop := ∀ j, j < 32 → LaneLegal (laneAt x j)

theorem CodecSafe.encoder {s : State} (h : CodecSafe s) : LanesLegal s.xe := fun j hj => (h.1 j hj).1

theorem CodecSafe.decoder {s : State} (h : CodecSafe s) : LanesLegal s.xd := fun j hj => (h.1 j hj).2

/-- With the tables the same, the lanes alone decide. -/
theorem CodecSafe.of_lanes {W : List Elem} {s t : State} (h : SameBut W s t)
    (hW : ∀ e ∈ tableElems, e ∉ W) (hs : CodecSafe s) (hxe : LanesLegal t.xe) (hxd : LanesLegal t.xd) :
    CodecSafe t := by
  have same (e : Elem) (he : e ∈ tableElems) : e.Same s t := h.get e (hW e he)
  have hfreq : t.freq = s.freq := same .freq (by decide)
  have hsym : t.sym = s.sym := same .sym (by decide)
  have hfrq : t.frq = s.frq := same .frq (by decide)
  have hcum : t.cum = s.cum := same .cum (by decide)
  have hcums : t.cums = s.cums := same .cums (by decide)
  have hhist : t.status.histValid = s.status.histValid := same .histValid (by decide)
  have htbl : t.status.tblValid = s.status.tblValid := same .tblValid (by decide)
  refine ⟨fun j hj => ⟨hxe j hj, hxd j hj⟩, ?_⟩
  simpa only [State.TablesMatch, State.freqList, hfreq, hsym, hfrq, hcum, hcums, hhist, htbl] using hs.2

theorem CodecSafe.of_same {W : List Elem} {s t : State} (h : SameBut W s t)
    (hW : ∀ e ∈ codecElems, e ∉ W) (hs : CodecSafe s) : CodecSafe t := by
  have hxe : t.xe = s.xe := h.get .xe (hW _ (by decide))
  have hxd : t.xd = s.xd := h.get .xd (hW _ (by decide))
  exact .of_lanes h (fun e he => hW e (by simp [codecElems, he])) hs (hxe ▸ hs.encoder) (hxd ▸ hs.decoder)

theorem StreamsSafe.of_same {W : List Elem} {s t : State} (h : SameBut W s t)
    (hrd : .rd ∉ W) (hwr : .wr ∉ W) (hs : StreamsSafe s) : StreamsSafe t := by
  have h1 : t.rd = s.rd := h.get .rd hrd
  have h2 : t.wr = s.wr := h.get .wr hwr
  rwa [StreamsSafe, h1, h2]

theorem HeaderSafe.of_same {W : List Elem} {s t : State} (h : SameBut W s t)
    (hW : ∀ e ∈ headerElems, e ∉ W) (hs : HeaderSafe s) : HeaderSafe t := by
  have hhdr : t.hdr = s.hdr := h.get .hdr (hW _ (by decide))
  have hvalid : t.status.hdrValid = s.status.hdrValid := h.get .hdrValid (hW _ (by decide))
  have hn : t.cfgN = s.cfgN := h.get .cfgN (hW _ (by decide))
  simpa only [HeaderSafe, State.lanes, hhdr, hvalid, hn] using hs

theorem FlagsSafe.of_same {W : List Elem} {s t : State} (h : SameBut W s t)
    (hW : ∀ e ∈ flagElems, e ∉ W) (hs : FlagsSafe s) : FlagsSafe t := by
  have hbusy : t.status.busy = s.status.busy := h.get .busy (hW _ (by decide))
  have hdone : t.status.done = s.status.done := h.get .done (hW _ (by decide))
  have herr : t.status.err = s.status.err := h.get .err (hW _ (by decide))
  have hcode : t.errcode = s.errcode := h.get .errcode (hW _ (by decide))
  have hinfo : t.errinfo = s.errinfo := h.get .errinfo (hW _ (by decide))
  have hn : t.cfgN = s.cfgN := h.get .cfgN (hW _ (by decide))
  simpa only [FlagsSafe, State.lanes, hbusy, hdone, herr, hcode, hinfo, hn] using hs

/-! ## The relation -/

/-- `t` is `s` but for the elements of `W` and the bytes that `R` picks, and the invariants that hold in `s` hold in `t`. -/
structure Kept (W : List Elem) (R : Nat → Prop) (s t : State) : Prop where
  changed : Changed W R s t
  flags : FlagsSafe s → FlagsSafe t
  codec : CodecSafe s → CodecSafe t
  streams : StreamsSafe s → StreamsSafe t
  header : HeaderSafe s → HeaderSafe t

theorem Kept.refl (W : List Elem) (R : Nat → Prop) (s : State) : Kept W R s s := ⟨.refl W R s, id, id, id, id⟩

theorem Kept.trans {W : List Elem} {R : Nat → Prop} {s t u : State} (h : Kept W R s t) (h' : Kept W R t u) :
    Kept W R s u :=
  ⟨h.changed.trans h'.changed, h'.flags ∘ h.flags, h'.codec ∘ h.codec, h'.streams ∘ h.streams,
    h'.header ∘ h.header⟩

theorem Kept.mono {W W' : List Elem} {R R' : Nat → Prop} {s t : State} (h : Kept W R s t) (hW : W ⊆ W')
    (hR : ∀ x, R x → R' x) : Kept W' R' s t := ⟨h.changed.mono hW hR, h.flags, h.codec, h.streams, h.header⟩

/-- A change of elements that neither the flags nor the header are among, with the codec and the streams kept. -/
theorem Changed.keptWith {W : List Elem} {R : Nat → Prop} {s t : State} (h : Changed W R s t)
    (hW : ∀ e ∈ flagElems ++ headerElems, e ∉ W) (hcodec : CodecSafe s → CodecSafe t)
    (hstreams : StreamsSafe s → StreamsSafe t) : Kept W R s t :=
  ⟨h, .of_same h.same fun e he => hW e (by simp [he]), hcodec, hstreams,
    .of_same h.same fun e he => hW e (by simp [he])⟩

/-- A change of elements that no invariant speaks of. -/
theorem Changed.kept {W : List Elem} {R : Nat → Prop} {s t : State} (h : Changed W R s t)
    (hW : ∀ e ∈ .rd :: .wr :: (codecElems ++ (flagElems ++ headerElems)), e ∉ W) : Kept W R s t :=
  h.keptWith (fun e he => hW e (by rw [List.mem_append] at he; simp [he]))
    (.of_same h.same fun e he => hW e (by simp [he])) (.of_same h.same (hW _ (by simp)) (hW _ (by simp)))

/-- A change of elements that only the flags speak of. -/
theorem Changed.keptFlags {W : List Elem} {R : Nat → Prop} {s t : State} (h : Changed W R s t)
    (hW : ∀ e ∈ .rd :: .wr :: (codecElems ++ headerElems), e ∉ W) (hflags : FlagsSafe s → FlagsSafe t) :
    Kept W R s t :=
  ⟨h, hflags, .of_same h.same fun e he => hW e (by simp [he]),
    .of_same h.same (hW _ (by simp)) (hW _ (by simp)), .of_same h.same fun e he => hW e (by simp [he])⟩

theorem Kept.of_setMem {R : Nat → Prop} {s : State} {m : Memory} (h : Stored R s.mem m) :
    Kept [.mem] R s (s.setMem m) := (Changed.of_setMem h).kept (by decide)

/-- A rule that keeps the invariants and changes no more than `W` and `R`, whichever way it ends. -/
abbrev Cmd.Keeps {α : Type} (c : Cmd α) (s : State) (W : List Elem) (R : Nat → Prop) : Prop :=
  Cmd.EndsIn c s (Kept W R s)

theorem Cmd.EndsIn.mono {α : Type} {c : Cmd α} {s : State} {P P' : State → Prop} (h : Cmd.EndsIn c s P)
    (hP : ∀ t, P t → P' t) : Cmd.EndsIn c s P' := Cmd.Ends.mono h (fun _ => hP) fun _ => hP

theorem Cmd.Keeps.mono {α : Type} {c : Cmd α} {s : State} {W W' : List Elem} {R R' : Nat → Prop}
    (h : Cmd.Keeps c s W R) (hW : W ⊆ W') (hR : ∀ x, R x → R' x) : Cmd.Keeps c s W' R' :=
  Cmd.EndsIn.mono h fun _ ht => ht.mono hW hR

/-- Two parts of a rule that each keep. -/
theorem Cmd.Keeps.bind {α β : Type} {c : Cmd α} {f : α → Cmd β} {s : State} {W : List Elem} {R : Nat → Prop}
    (hc : Cmd.Keeps c s W R) (hf : ∀ v t, Kept W R s t → Cmd.Keeps (f v) t W R) : Cmd.Keeps (c >>= f) s W R :=
  Cmd.Ends.bind ⟨fun v t h => Cmd.EndsIn.mono (hf v t (hc.1 v t h)) fun _ hu => (hc.1 v t h).trans hu, hc.2⟩

/-! ## Bit reader and writer (41_bitio.md) -/

theorem Reader.Safe.pop {r : Reader} (h : r.Safe) (n : Nat) : (r.pop n).1.Safe := by
  obtain ⟨hcnt, hbuf, hptr⟩ := h
  refine ⟨by rw [Reader.pop_cnt]; omega, ?_, hptr⟩
  rw [Reader.pop_buf, Reader.pop_cnt]
  exact Nat.mod_lt _ (by positivity)

/-- The pointer of a reader with a word left moves inside the region. -/
theorem Reader.Safe.load_region {r : Reader} (h : r.Safe) {a : Nat} (ha : r.nextWord = some a) (wd : Nat) :
    r.base.toNat ≤ (r.load wd).ptr.toNat ∧ (r.load wd).ptr.toNat ≤ r.lim.toNat ∧
      ((r.load wd).ptr.toNat - r.base.toNat) % 2 = 0 ∧ (r.lim.toNat - r.base.toNat) % 2 = 0 := by
  rw [Reader.load_ptr ha]
  obtain ⟨-, -, ⟨h1, h2, h3, h4⟩ | ⟨h1, h2, h3⟩⟩ := h
  · rcases Reader.nextWord_eq_some.mp ha with ⟨hd, hw, rfl⟩ | ⟨hd, hw, rfl⟩
    · rw [hd, if_neg (by decide)]
      omega
    · rw [hd, if_pos rfl]
      omega
  · rcases Reader.nextWord_eq_some.mp ha with ⟨hd, hw, rfl⟩ | ⟨hd, hw, rfl⟩
    · omega
    · rw [h3] at hd
      cases hd

theorem Reader.Safe.load_pop {r : Reader} (h : r.Safe) {a n : Nat} (ha : r.nextWord = some a) (hn : r.cnt.toNat < n)
    (wd : Nat) : ((r.load wd).pop n).1.Safe := by
  refine ⟨?_, ?_, .inl (h.load_region ha wd)⟩
  · rw [Reader.pop_cnt, Reader.load_cnt h.1]
    omega
  · rw [Reader.pop_buf, Reader.pop_cnt]
    exact Nat.mod_lt _ (by positivity)

/-- `readbits` leaves the state and a safe reader safe (R112). -/
theorem readBits_answers (r : Reader) (n lane : Nat) (s : State) :
    Cmd.Answers (readBits r n lane) s fun p => (r.Safe → p.1.Safe) ∧ p.2 < 2 ^ n := by
  rcases readBits_cases r n lane s with ⟨-, h⟩ | ⟨a, hn, ha, -, h⟩ | ⟨-, -, h⟩ | ⟨a, c, -, -, -, h⟩
  · exact .of_ok h ⟨rfl, fun hr => hr.pop n, Reader.pop_value_lt r n⟩
  · exact .of_ok h ⟨rfl, fun hr => hr.load_pop ha hn _, Reader.pop_value_lt _ n⟩
  · exact .of_error h rfl
  · exact .of_error h rfl

/-- The pending bits with a value above them fit in that many bits. -/
theorem Writer.append_lt {w : Writer} (v n : Nat) (h : w.buf.toNat < 2 ^ w.cnt.toNat) :
    w.append v n < 2 ^ (w.cnt.toNat + n) := by
  have hv : v % 2 ^ n + 1 ≤ 2 ^ n := Nat.mod_lt v (by positivity)
  calc w.append v n = w.buf.toNat + v % 2 ^ n * 2 ^ w.cnt.toNat := Writer.append_eq v n h
    _ < (v % 2 ^ n + 1) * 2 ^ w.cnt.toNat := by rw [Nat.succ_mul]; omega
    _ ≤ 2 ^ n * 2 ^ w.cnt.toNat := Nat.mul_le_mul_right _ hv
    _ = 2 ^ (w.cnt.toNat + n) := by rw [Nat.pow_add, Nat.mul_comm]

theorem Writer.Safe.pending {w : Writer} (h : w.Safe) {n : Nat} (hn : w.cnt.toNat + n < 16) (v : Nat) :
    (w.pending v n).Safe := by
  obtain ⟨hcnt, hbuf, hptr⟩ := h
  have hc : (w.pending v n).cnt.toNat = w.cnt.toNat + n := by simp [Writer.pending]; omega
  refine ⟨by omega, ?_, hptr⟩
  rw [hc]
  exact (BitVec.toNat_ofNat (w.append v n) 32 ▸ Nat.mod_le _ _).trans_lt (Writer.append_lt v n hbuf)

theorem Writer.stored_ptr {w : Writer} (h : w.ptr.toNat + 2 ≤ w.lim.toNat) (v n : Nat) :
    (w.stored v n).ptr.toNat = w.ptr.toNat + 2 := by
  have := w.lim.isLt
  have h2 : (2 : Word).toNat = 2 := rfl
  simp only [Writer.stored, BitVec.toNat_add, h2]
  omega

theorem Writer.Safe.stored {w : Writer} (h : w.Safe) {n : Nat} (hn : 16 ≤ w.cnt.toNat + n) (hn' : n ≤ 16)
    (hr : w.ptr.toNat + 2 ≤ w.lim.toNat) (v : Nat) : (w.stored v n).Safe := by
  obtain ⟨hcnt, hbuf, hbase, hpar, hlim⟩ := h
  have hc : (w.stored v n).cnt.toNat = w.cnt.toNat + n - 16 := by simp [Writer.stored]; omega
  have hp := Writer.stored_ptr hr v n
  have hlt : w.append v n >>> 16 < 2 ^ (w.cnt.toNat + n - 16) := by
    rw [Nat.shiftRight_eq_div_pow]
    apply Nat.div_lt_of_lt_mul
    rw [← Nat.pow_add, show 16 + (w.cnt.toNat + n - 16) = w.cnt.toNat + n by omega]
    exact Writer.append_lt v n hbuf
  refine ⟨by omega, ?_, ?_⟩
  · rw [hc]
    exact (BitVec.toNat_ofNat (w.append v n >>> 16) 32 ▸ Nat.mod_le _ _).trans_lt hlt
  · rw [hp]
    change w.base.toNat ≤ _ ∧ (_ - w.base.toNat) % 2 = 0 ∧ (_ ≤ w.lim.toNat ∨ w.lim.toNat = 0)
    omega

/-- `writebits` of at most 16 bits leaves a safe writer safe, and stores at the pointer only (R114). -/
theorem writeBits_stores (w : Writer) (v n lane : Nat) (s : State) :
    Cmd.Stores (writeBits w v n lane) s (InRegion w.ptr.toNat 2) fun p => n ≤ 16 → w.Safe → p.1.Safe := by
  rcases writeBits_cases w v n lane s with ⟨hn, h⟩ | ⟨hn, hr, -, h⟩ | ⟨e, x, -, h⟩
  · exact .of_ok h ⟨⟨s.mem, rfl, .refl _ _⟩, fun _ hw => hw.pending hn v⟩
  · have := w.lim.isLt
    exact .of_ok h ⟨⟨_, rfl, Stored.writeLE s.mem (by simp only [Config.memBytes]; omega)⟩,
      fun hn' hw => hw.stored hn hn' hr v⟩
  · exact .of_error h ⟨s.mem, rfl, .refl _ _⟩

/-- The words of an encode, when they fit, go to the bytes from the pointer up (R162, R166). -/
theorem storeWords_stores (lane : Nat) : ∀ (ws : List Nat) (w : Writer) (s : State),
    w.ptr.toNat + 2 * ws.length ≤ w.lim.toNat →
    Cmd.Stores (storeWords lane w ws) s (InRegion w.ptr.toNat (2 * ws.length)) fun w' =>
      (w.Safe → w'.Safe) ∧ w'.lim = w.lim ∧ w.ptr.toNat ≤ w'.ptr.toNat
  | [], w, s, _ => .pure ⟨id, rfl, Nat.le_refl _⟩
  | wd :: ws, w, s, hfit => by
    rw [List.length_cons] at hfit ⊢
    unfold storeWords
    rcases writeBits_cases w wd 16 lane s with ⟨hn, -⟩ | ⟨hn, hr, hp, h⟩ | ⟨e, x, hn, h⟩
    · omega
    · have hptr := Writer.stored_ptr hr wd 16
      have hst : Stored (InRegion w.ptr.toNat (2 * (ws.length + 1))) s.mem
          (s.mem.writeLE w.ptr.toNat (w.append wd 16 % 65536) 2) :=
        (Stored.writeLE s.mem (accessError_none_le hp)).mono fun x hx => by
          obtain ⟨h1, h2⟩ := hx
          have : Size.b2.bytes = 2 := rfl
          constructor <;> omega
      have first : Cmd.Stores (writeBits w wd 16 lane) s (InRegion w.ptr.toNat (2 * (ws.length + 1)))
          fun p => p.1 = w.stored wd 16 := .of_ok h ⟨⟨_, rfl, hst⟩, rfl⟩
      refine first.seq ?_
      rintro ⟨w', k⟩ m rfl
      have hlim : (w.stored wd 16).lim = w.lim := rfl
      refine (storeWords_stores lane ws (w.stored wd 16) (s.setMem m) (by rw [hptr, hlim]; omega)).mono ?_ ?_
      · rintro x ⟨h1, h2⟩
        constructor <;> omega
      · rintro w' ⟨h1, h2, h3⟩
        exact ⟨fun hw => h1 (hw.stored hn (Nat.le_refl 16) hr wd), h2, by omega⟩
    · exact Cmd.Ends.bind (.of_error h ⟨s.mem, rfl, .refl _ _⟩)

theorem Reader.Safe.fresh {base lim : Nat} {dir : Bool} (h : base ≤ lim ∧ (lim - base) % 2 = 0)
    (hlim : lim < 2 ^ 32 ∨ lim = 2 ^ 32 ∧ dir = false) : (Reader.fresh base lim dir).Safe := by
  obtain ⟨hle, heven⟩ := h
  refine ⟨by simp [Reader.fresh], by simp [Reader.fresh], ?_⟩
  rcases hlim with hlt | ⟨rfl, rfl⟩
  · left
    have hb : base % 4294967296 = base := Nat.mod_eq_of_lt (by omega)
    have hl : lim % 4294967296 = lim := Nat.mod_eq_of_lt (by omega)
    cases dir <;> simp [Reader.fresh, hb, hl, hle, heven]
  · right
    simp [Reader.fresh]

theorem Writer.Safe.fresh {base lim : Nat} (h : base ≤ lim ∧ (lim - base) % 2 = 0) (hlim : lim ≤ 2 ^ 32) :
    (Writer.fresh base lim).Safe := by
  obtain ⟨hle, -⟩ := h
  refine ⟨by simp [Writer.fresh], by simp [Writer.fresh], by simp [Writer.fresh], by simp [Writer.fresh], ?_⟩
  simp only [Writer.fresh, BitVec.toNat_ofNat]
  omega

theorem brInit_keeps {base lim : Nat} {dir : Bool} (hlim : lim < 2 ^ 32 ∨ lim = 2 ^ 32 ∧ dir = false) (s : State) :
    Cmd.Keeps (brInit base lim dir) s [.rd] fun _ => False := by
  by_cases h : base ≤ lim ∧ (lim - base) % 2 = 0
  · have hc : Changed [.rd] (fun _ => False) s (s.setRd (Reader.fresh base lim dir)) :=
      .of_registers fun e => by cases e <;> simp
    exact .of_ok (brInit_ok h) (hc.keptWith (by decide) (.of_same hc.same (by decide)) fun hs => ⟨.fresh h hlim, hs.2⟩)
  · exact .of_error (brInit_bad h) (.refl _ _ s)

theorem bwInit_keeps {base lim : Nat} (hlim : lim ≤ 2 ^ 32) (s : State) :
    Cmd.Keeps (bwInit base lim) s [.wr] fun _ => False := by
  by_cases h : base ≤ lim ∧ (lim - base) % 2 = 0
  · have hc : Changed [.wr] (fun _ => False) s (s.setWr (Writer.fresh base lim)) :=
      .of_registers fun e => by cases e <;> simp
    exact .of_ok (bwInit_ok h) (hc.keptWith (by decide) (.of_same hc.same (by decide)) fun hs => ⟨hs.1, .fresh h hlim⟩)
  · exact .of_error (bwInit_bad h) (.refl _ _ s)

theorem brRead_keeps (n : Nat) (s : State) : Cmd.Keeps (brRead n) s [.rd, .result] fun _ => False := by
  refine .getState ((readBits_answers s.rd n 0 s).bind (fun _ => .refl _ _ s) ?_)
  rintro ⟨r, v⟩ ⟨hr, -⟩
  have hc : Changed [.rd, .result] (fun _ => False) s ((s.setRd r).setResult (BitVec.ofNat 32 v)) :=
    .of_registers fun e => by cases e <;> simp
  exact .modify (hc.keptWith (by decide) (.of_same hc.same (by decide)) fun hs => ⟨hr hs.1, hs.2⟩)

/-- What `BW_WRITE` changes, and that it keeps the writer safe for the widths of R81. -/
theorem bwWrite_ends (v n : Nat) (s : State) :
    Cmd.EndsIn (bwWrite v n) s fun t => Changed [.mem, .wr, .result] (InRegion s.wr.ptr.toNat 2) s t ∧
      (n ≤ 16 → StreamsSafe s → StreamsSafe t) := by
  refine .getState ((writeBits_stores s.wr v n 0 s).bind (fun e m hm => ?_) ?_)
  · exact ⟨(Changed.of_setMem hm).mono (by decide) fun _ => id, fun _ hs => hs⟩
  · rintro ⟨w, k⟩ m hm hw
    exact .modify ⟨⟨fun e => by cases e <;> simp, hm⟩, fun hn hs => ⟨hs.1, hw hn hs.2⟩⟩

theorem bwWrite_keeps (v : Nat) {n : Nat} (hn : n ≤ 16) (s : State) :
    Cmd.Keeps (bwWrite v n) s [.mem, .wr, .result] (InRegion s.wr.ptr.toNat 2) :=
  Cmd.EndsIn.mono (bwWrite_ends v n s) fun _ ht =>
    ht.1.keptWith (by decide) (.of_same ht.1.same (by decide)) (ht.2 hn)

end Sys2Proof.Machine
end

section
/-!
SUPPORT. What the rules of the histogram, the table, the encoder and the decoder keep (42_histogram.md, 43_table.md,
44_encoder.md, 45_decoder.md).
-/
namespace Sys2Proof.Machine

/-! ## Histogram -/

theorem histCount_keeps (a c : Nat) (s : State) :
    Cmd.Keeps (histCount a c) s [.rawf, .rawValid, .result] fun _ => False := by
  refine .require (fun _ => .refl _ _ s) fun _ => ?_
  have hcount : Cmd.Answers (countBytes a c (Vector.replicate 512 0)) s fun _ => True := by
    rcases countBytes_state (s := s) c a (Vector.replicate 512 0) with ⟨raw, h⟩ | ⟨e, x, h⟩
    · exact .of_ok h ⟨rfl, trivial⟩
    · exact .of_error h rfl
  refine hcount.bind (fun _ => .refl _ _ s) fun raw _ => .modify (Changed.kept (.of_registers fun e => ?_) (by decide))
  cases e <;> simp

theorem histLoad_keeps (a : Nat) (s : State) :
    Cmd.Keeps (histLoad a) s [.rawf, .rawValid, .result, .result1] fun _ => False := by
  refine .require (fun _ => .refl _ _ s) fun _ => ?_
  refine (Cmd.Answers.readEntries 512 a).bind (fun _ => .refl _ _ s) fun raw _ =>
    .modify (Changed.kept (.of_registers fun e => ?_) (by decide))
  cases e <;> simp

/-- The largest count stands at or below the highest used index (R132). -/
theorem indexOfGreatest_le_highestUsed {raw : List Nat} (h : 0 < raw.sum) :
    indexOfGreatest raw ≤ highestUsed raw := by
  have hne : raw ≠ [] := by
    rintro rfl
    simp at h
  have hhi := isHighest_highestUsed h
  have hla := isLargest_indexOfGreatest hne
  by_contra hlt
  have h0 := hhi.2 _ (Nat.lt_of_not_le hlt)
  have h1 := hla.2.1 (highestUsed raw)
  have h2 := hhi.1
  omega

/-- The normalized table sums to `M` (R136). -/
theorem normalizeTable_sum {raw : List Nat} (hl : raw.length = 512) (hT : 0 < raw.sum) (hh : highestUsed raw < 256) :
    (normalizeTable raw).1.length = 256 ∧ (normalizeTable raw).1.sum = 2048 := by
  have hlen := roundedTable_length (raw := raw) (by omega)
  have hi := indexOfGreatest_le_highestUsed hT
  exact ⟨by rw [normalizeTable, correct_length, hlen], correct_sum (by omega) (by omega)⟩

/-- The numbers of a vector made of a list that fits it. -/
theorem ofListD_toNat {k n : Nat} {l : List Nat} (hl : l.length = n) (hb : ∀ v ∈ l, v < 2 ^ k) :
    (ofListD n (l.map (BitVec.ofNat k)) 0).toList.map BitVec.toNat = l := by
  have hlist : (ofListD n (l.map (BitVec.ofNat k)) 0).toList = l.map (BitVec.ofNat k) := by
    simp [ofListD, Vector.toList, hl]
  rw [hlist, List.map_map]
  refine (List.map_congr_left fun v hv => ?_).trans (List.map_id l)
  simpa using Nat.mod_eq_of_lt (hb v hv)

theorem le_of_mem_of_sum {l : List Nat} {v b : Nat} (h : l.sum = b) (hv : v ∈ l) : v ≤ b :=
  h ▸ List.single_le_sum (by simp) v hv

theorem normalizedBy_freqList {s : State} (hT : 0 < s.rawList.sum) (hh : highestUsed s.rawList < 256) :
    s.normalizedBy.freqList.sum = 2048 := by
  obtain ⟨hlen, hsum⟩ := normalizeTable_sum s.rawList_length hT hh
  have : s.normalizedBy.freqList = (normalizeTable s.rawList).1 :=
    ofListD_toNat hlen fun v hv => (le_of_mem_of_sum hsum hv).trans_lt (by decide)
  rw [this, hsum]

theorem histNorm_keeps (s : State) :
    Cmd.Keeps histNorm s [.freq, .histValid, .tblValid, .fallback, .result, .result1] fun _ => False := by
  rcases histNorm_cases s with ⟨-, hT, hh, h⟩ | ⟨e, h⟩
  · have hc : Changed [.freq, .histValid, .tblValid, .fallback, .result, .result1] (fun _ => False) s
        s.normalizedBy := .of_registers fun e => by cases e <;> simp [State.normalizedBy]
    have hxe : s.normalizedBy.xe = s.xe := hc.get .xe (by decide)
    have hxd : s.normalizedBy.xd = s.xd := hc.get .xd (by decide)
    have htbl : s.normalizedBy.status.tblValid ≠ true := by simp [State.normalizedBy]
    refine .of_ok h (hc.keptWith (by decide)
      (fun hs => ⟨?_, fun _ => normalizedBy_freqList hT hh, fun ht => absurd ht htbl⟩)
      (.of_same hc.same (by decide) (by decide)))
    rw [hxe, hxd]
    exact hs.1
  · exact .of_error h (.refl _ _ s)

theorem histStore_keeps (a : Nat) (s : State) : Cmd.Keeps (histStore a) s [.mem] (InRegion a 2048) := by
  refine .getState (.require (fun _ => .refl _ _ s) fun _ => .require (fun _ => .refl _ _ s) fun _ => ?_)
  refine (Cmd.Answers.readFreq s).bind (fun _ => .refl _ _ s) ?_
  rintro F rfl
  have hlen : Size.b4.bytes * (s.freqList ++ List.replicate 256 0).length = 2048 := by
    rw [List.length_append, State.freqList_length, List.length_replicate]
    rfl
  refine Cmd.Ends.mono (hlen ▸ Cmd.Stores.writeEntries (s.freqList ++ List.replicate 256 0) a s) ?_ ?_
  · rintro _ t ⟨⟨m, rfl, hm⟩, -⟩
    exact .of_setMem hm
  · rintro _ t ⟨m, rfl, hm⟩
    exact .of_setMem hm

theorem rawQuery_keeps (i : Nat) (s : State) : Cmd.Keeps (rawQuery i) s [.result] fun _ => False := by
  refine .getState (.require (fun _ => .refl _ _ s) fun _ => .require (fun _ => .refl _ _ s) fun _ => ?_)
  refine (Cmd.Answers.readRaw s).bind (fun _ => .refl _ _ s) fun _ _ =>
    .modify (Changed.kept (.of_registers fun e => ?_) (by decide))
  cases e <;> simp

theorem freqQuery_keeps (i : Nat) (s : State) : Cmd.Keeps (freqQuery i) s [.result, .result1] fun _ => False := by
  refine .getState (.require (fun _ => .refl _ _ s) fun _ => .require (fun _ => .refl _ _ s) fun _ => ?_)
  refine (Cmd.Answers.readFreq s).bind (fun _ => .refl _ _ s) fun _ _ =>
    .modify (Changed.kept (.of_registers fun e => ?_) (by decide))
  cases e <;> simp

/-! ## Table -/

theorem slotRows_bounds : ∀ (σ c : Nat) (l : List Nat) (r : Nat × Nat × Nat), r ∈ slotRows σ c l →
    r.1 < σ + l.length ∧ r.2.1 ≤ l.sum ∧ r.2.2 ≤ c + l.sum
  | _, _, [], r, h => by simp [slotRows] at h
  | σ, c, f :: fs, r, h => by
    rw [slotRows, List.mem_append] at h
    simp only [List.length_cons, List.sum_cons]
    rcases h with h | h
    · rw [(List.mem_replicate.mp h).2]
      dsimp only
      omega
    · have := slotRows_bounds (σ + 1) (c + f) fs r h
      omega

theorem startSlots_le (l : List Nat) (v : Nat) (h : v ∈ startSlots 0 l) : v ≤ l.sum := by
  obtain ⟨i, hi, rfl⟩ := List.getElem_of_mem h
  rw [startSlots_length] at hi
  rw [startSlots_getElem 0 l i hi]
  have := start_add_freq_le l hi
  omega

/-- The numbers of a vector overlaid by a list of its own length. -/
theorem overlay_toNat {k n : Nat} (v : Vector (BitVec k) n) {l : List Nat} (hl : l.length = n)
    (hb : ∀ x ∈ l, x < 2 ^ k) : (overlay v (l.map (BitVec.ofNat k))).toList.map BitVec.toNat = l := by
  have hlist : (overlay v (l.map (BitVec.ofNat k))).toList = l.map (BitVec.ofNat k) := by
    simp [overlay, hl, List.take_of_length_le, List.drop_of_length_le]
  rw [hlist, List.map_map]
  refine (List.map_congr_left fun x hx => ?_).trans (List.map_id l)
  simpa using Nat.mod_eq_of_lt (hb x hx)

/-- The state that `TBL_BUILD` commits (R151). -/
def State.builtTables (s : State) : State :=
  (s.setTables (overlay s.sym ((slotRows 0 0 s.freqList).map fun r => BitVec.ofNat 8 r.1))
    (overlay s.frq ((slotRows 0 0 s.freqList).map fun r => BitVec.ofNat 16 r.2.1))
    (overlay s.cum ((slotRows 0 0 s.freqList).map fun r => BitVec.ofNat 16 r.2.2))
    (ofListD 256 ((startSlots 0 s.freqList).map (BitVec.ofNat 16)) 0)).setStatus s.status.tableBuilt

/-- One column of the rows, put over a whole array, is that column (R150). -/
theorem overlay_column {k : Nat} (v : Vector (BitVec k) 2048) {F : List Nat} (hF : F.sum = 2048)
    (col : Nat × Nat × Nat → Nat) (hb : ∀ r ∈ slotRows 0 0 F, col r < 2 ^ k) :
    (overlay v ((slotRows 0 0 F).map fun r => BitVec.ofNat k (col r))).toList.map BitVec.toNat =
      (slotRows 0 0 F).map col := by
  have := overlay_toNat v (l := (slotRows 0 0 F).map col) (by simp [hF]) fun x hx => by
    obtain ⟨r, hr, rfl⟩ := List.mem_map.mp hx
    exact hb r hr
  rwa [List.map_map] at this

/-- Tables built from frequencies that sum to `M` are those of the frequencies (R43). -/
theorem State.builtTables_match {s : State} (hF : s.freqList.sum = 2048) : s.builtTables.TablesMatch := by
  have hfreq : s.builtTables.freqList = s.freqList := rfl
  have hb := slotRows_bounds 0 0 s.freqList
  rw [State.freqList_length, hF] at hb
  rw [State.TablesMatch, hfreq]
  refine ⟨overlay_column s.sym hF _ fun r hr => ?_, overlay_column s.frq hF _ fun r hr => ?_,
    overlay_column s.cum hF _ fun r hr => ?_, ofListD_toNat ?_ fun v hv => ?_⟩
  · exact (hb r hr).1
  · exact (hb r hr).2.1.trans_lt (by decide)
  · exact (hb r hr).2.2.trans_lt (by decide)
  · rw [startSlots_length, State.freqList_length]
  · exact (hF ▸ startSlots_le s.freqList v hv).trans_lt (by decide)

theorem tblBuild_keeps (s : State) :
    Cmd.Keeps tblBuild s [.sym, .frq, .cum, .cums, .tblValid] fun _ => False := by
  refine .getState (.require (fun _ => .refl _ _ s) fun hh => ?_)
  refine (Cmd.Answers.readFreq s).bind (fun _ => .refl _ _ s) ?_
  rintro F rfl
  have hc : Changed [.sym, .frq, .cum, .cums, .tblValid] (fun _ => False) s s.builtTables :=
    .of_registers fun e => by cases e <;> simp [State.builtTables]
  exact .modify (hc.keptWith (by decide)
    (fun hs => ⟨hs.1, hs.2.1, fun _ => ⟨hh, s.builtTables_match (hs.2.1 hh)⟩⟩)
    (.of_same hc.same (by decide) (by decide)))

theorem tblQuery_keeps (slot : Nat) (s : State) :
    Cmd.Keeps (tblQuery slot) s [.result, .result1] fun _ => False := by
  refine .getState (.require (fun _ => .refl _ _ s) fun _ => .require (fun _ => .refl _ _ s) fun _ => ?_)
  refine (Cmd.Answers.readSlot slot s).bind (fun _ => .refl _ _ s) fun _ _ =>
    .modify (Changed.kept (.of_registers fun e => ?_) (by decide))
  cases e <;> simp

/-! ## Lanes -/

theorem LanesLegal.setLane {x : Vector Word 32} (h : LanesLegal x) {j v : Nat} (hv : j < 32 → LaneLegal v) :
    LanesLegal (setLane x j v) := by
  intro k hk
  rw [laneAt_setLane x j v k hk]
  split
  · rename_i he
    have hl := hv (he ▸ hk)
    have hlt : v < 134217728 := hl.2
    rwa [Nat.mod_eq_of_lt (by omega)]
  · exact h k hk

theorem lanesLegal_reset : LanesLegal resetLanes := fun j hj => by
  rw [laneAt_resetLanes j hj]
  decide

/-! ## Encoder -/

/-- One lane's encode leaves the state and emits at most one word; from a legal lane it gives a legal one (R162, R164). -/
theorem encPlan_answers (lane σ : Nat) {x : Nat} (hx : x < 2 ^ 32) (s : State) :
    Cmd.Answers (encPlan lane σ x) s fun p =>
      p.2.length ≤ 1 ∧ (CodecSafe s → s.status.tblValid = true → LaneLegal x → LaneLegal p.1) := by
  have words : Cmd.Answers (encPlan lane σ x) s fun p => p.2.length ≤ 1 := by
    refine (Cmd.Answers.readFreq s).bind (fun _ => rfl) fun F _ => .require (fun _ => rfl) fun hF => ?_
    have hw : (encRenorm 2 (nth F σ) x).2.length ≤ 1 := by
      rw [encRenorm_eq hF hx]
      split <;> simp
    generalize encRenorm 2 (nth F σ) x = p at hw
    refine (Cmd.Answers.readStart σ s).bind (fun _ => rfl) fun C _ => .require (fun _ => rfl) fun _ => .pure ⟨rfl, hw⟩
  refine words.and ⟨fun p t hp => ⟨(words.1 p t hp).1, fun hs ht hl => ?_⟩, words.2⟩
  rcases Nat.eq_zero_or_pos (s.freqOf σ) with h0 | hpos
  · rw [encPlan_zeroFreq (hs.2.2 ht).1 h0] at hp
    cases hp
  · have hσ : σ < 256 := by
      by_contra h
      rw [State.freqOf_ge s (by omega)] at hpos
      omega
    rw [encPlan_ok hs ht hσ hpos hl] at hp
    cases hp
    exact encodedState_legal hpos (State.start_add_freq_le (hs.2.1 (hs.2.2 ht).1) hσ) hl

/-- The lanes of a step leave the state and emit at most one word each; legal lanes give legal ones (R164, R166). -/
theorem encLanes_answers (syms : List Nat) (s : State) : ∀ (k : Nat) (xe : Vector Word 32),
    Cmd.Answers (encLanes syms k xe) s fun p =>
      p.2.length ≤ k ∧ (CodecSafe s → s.status.tblValid = true → LanesLegal xe → LanesLegal p.1)
  | 0, _ => .pure ⟨Nat.le_refl 0, fun _ _ h => h⟩
  | j + 1, xe => by
    refine (encPlan_answers j (nth syms j) (laneAt_lt xe j) s).bind (fun _ => rfl) ?_
    rintro ⟨x', ws⟩ ⟨hlen, hlegal⟩
    refine (encLanes_answers syms s j (setLane xe j x')).bind (fun _ => rfl) ?_
    rintro ⟨xe', rest⟩ ⟨hlen', hlegal'⟩
    have hsum : (ws ++ rest).length ≤ j + 1 := by
      rw [List.length_append]
      dsimp only at hlen hlen'
      omega
    exact .pure ⟨rfl, hsum, fun hs ht (hxe : LanesLegal xe) =>
      hlegal' hs ht (hxe.setLane fun hj => hlegal hs ht (hxe j hj))⟩

/-- The elements that an encode of any number of lanes changes (R162, R166). -/
@[simp] def encodeElems : List Elem := [.mem, .xe, .wr, .result]

/-- The lanes, the writer and the results replaced by an encode that kept lanes and writer safe. -/
theorem Kept.of_encode {W : List Elem} {R : Nat → Prop} {s t : State} (hc : Changed W R s t)
    (hW : ∀ e ∈ .xd :: .rd :: (tableElems ++ (flagElems ++ headerElems)), e ∉ W)
    (hxe : CodecSafe s → LanesLegal t.xe) (hwr : s.wr.Safe → t.wr.Safe) : Kept W R s t := by
  have hxd : t.xd = s.xd := hc.get .xd (hW _ (by simp))
  have hrd : t.rd = s.rd := hc.get .rd (hW _ (by simp))
  exact hc.keptWith (fun e he => hW e (by rw [List.mem_append] at he; simp [he]))
    (fun hs => .of_lanes hc.same (fun e he => hW e (by simp [he])) hs (hxe hs) (hxd ▸ hs.decoder))
    fun hs => ⟨hrd ▸ hs.1, hwr hs.2⟩

/-- `ENC_SYM` stores at most one word, from the pointer up and inside the region (R162). -/
theorem encSym_ends (lane σ : Nat) (s : State) :
    Cmd.EndsIn (encSym lane σ) s fun t => ∃ n, n ≤ 2 ∧ (n = 0 ∨ s.wr.ptr.toNat + n ≤ s.wr.lim.toNat) ∧
      t.wr.lim = s.wr.lim ∧ s.wr.ptr.toNat ≤ t.wr.ptr.toNat ∧
      Kept (.result1 :: encodeElems) (InRegion s.wr.ptr.toNat n) s t := by
  have stay : ∃ n, n ≤ 2 ∧ (n = 0 ∨ s.wr.ptr.toNat + n ≤ s.wr.lim.toNat) ∧ s.wr.lim = s.wr.lim ∧
      s.wr.ptr.toNat ≤ s.wr.ptr.toNat ∧ Kept (.result1 :: encodeElems) (InRegion s.wr.ptr.toNat n) s s :=
    ⟨0, by omega, .inl rfl, rfl, Nat.le_refl _, .refl _ _ s⟩
  refine .getState (.require (fun _ => stay) fun ht => .require (fun _ => stay) fun _ => ?_)
  refine (encPlan_answers lane σ (laneAt_lt s.xe lane) s).bind (fun _ => stay) ?_
  rintro ⟨x', ws⟩ ⟨hlen, hlegal⟩
  refine .require (fun _ => stay) fun hfit => ?_
  have hlen2 : 2 * ws.length ≤ 2 := Nat.mul_le_mul_left 2 hlen
  refine (storeWords_stores lane ws s.wr s hfit).bind (fun e m hm => ?_) fun w m hm hw => .modify ?_
  · exact ⟨2 * ws.length, hlen2, .inr hfit, rfl, Nat.le_refl _, (Kept.of_setMem hm).mono (by decide) fun _ => id⟩
  · obtain ⟨hsafe, hlim, hptr⟩ := hw
    refine ⟨2 * ws.length, hlen2, .inr hfit, hlim, hptr, .of_encode ⟨fun e => ?_, hm⟩ (by decide) (fun hs => ?_)
      hsafe⟩
    · cases e <;> simp
    · exact hs.encoder.setLane fun hj => hlegal hs ht (hs.encoder lane hj)

theorem encSym_keeps (lane σ : Nat) (s : State) :
    Cmd.Keeps (encSym lane σ) s (.result1 :: encodeElems) (InRegion s.wr.ptr.toNat 2) :=
  Cmd.EndsIn.mono (encSym_ends lane σ s) fun _ ⟨n, hn, _, _, _, h⟩ =>
    h.mono (fun _ => id) fun _ hx => ⟨hx.1, by have := hx.2; omega⟩

theorem encInit_keeps (s : State) : Cmd.Keeps encInit s [.xe] fun _ => False := by
  have hc : Changed [.xe] (fun _ => False) s (s.setXe resetLanes) :=
    .of_registers fun e => by cases e <;> simp
  exact .modify (hc.keptWith (by decide)
    (fun hs => .of_lanes hc.same (by decide) hs lanesLegal_reset hs.decoder)
    (.of_same hc.same (by decide) (by decide)))

/-- `ENC_STEP` of `k` symbols stores at most `k` words, from the pointer up (R166). -/
theorem encStep_keeps (a k : Nat) (s : State) :
    Cmd.Keeps (encStep a k) s encodeElems (InRegion s.wr.ptr.toNat (2 * k)) := by
  have stay := Kept.refl encodeElems (InRegion s.wr.ptr.toNat (2 * k)) s
  refine .getState (.require (fun _ => stay) fun ht => .require (fun _ => stay) fun _ => .require (fun _ => stay)
    fun _ => ?_)
  refine (Cmd.Answers.readEntries k a).bind (fun _ => stay) fun syms _ => ?_
  refine (encLanes_answers syms s k s.xe).bind (fun _ => stay) ?_
  rintro ⟨xe, ws⟩ ⟨hlen, hlegal⟩
  refine .require (fun _ => stay) fun hfit => ?_
  have hlen2 : 2 * ws.length ≤ 2 * k := Nat.mul_le_mul_left 2 hlen
  have inside (x : Nat) (hx : InRegion s.wr.ptr.toNat (2 * ws.length) x) : InRegion s.wr.ptr.toNat (2 * k) x :=
    ⟨hx.1, by have := hx.2; omega⟩
  refine (storeWords_stores 0 ws s.wr s hfit).bind (fun e m hm => ?_) fun w m hm hw => .modify ?_
  · exact (Kept.of_setMem hm).mono (by decide) inside
  · refine .of_encode ⟨fun e => ?_, hm.mono inside⟩ (by decide) (fun hs => hlegal hs ht hs.encoder) hw.1
    cases e <;> simp

/-! ## Decoder -/

/-- A decode's loop leaves the state and a safe reader safe; a state from 1 up below `B·M` becomes a legal lane (R183). -/
theorem decRenorm_answers (lane : Nat) (s : State) : ∀ (k x : Nat) (r : Reader),
    Cmd.Answers (decRenorm lane k x r) s fun p => (r.Safe → p.2.1.Safe) ∧
      (1 ≤ x → x < Config.B * Config.M → Config.M ≤ x ∨ 2 ≤ k → LaneLegal p.1)
  | 0, x, r => .pure ⟨id, fun _ hlt hk => ⟨by omega, hlt⟩⟩
  | k + 1, x, r => by
    unfold decRenorm
    by_cases hx : x < Config.M
    · rw [if_pos hx]
      refine (readBits_answers r 16 lane s).bind (fun _ => rfl) ?_
      rintro ⟨r', v⟩ ⟨hr, hv⟩
      refine (decRenorm_answers lane s k (x <<< 16 ||| v) r').bind (fun _ => rfl) ?_
      rintro ⟨y, r'', n⟩ ⟨hr', hy⟩
      refine .pure ⟨rfl, fun h => hr' (hr h), fun h1 hlt hk => hy ?_ ?_ ?_⟩
      all_goals
        have hv' : v < 65536 := hv
        have hM : Config.M = 2048 := rfl
        have hBM : Config.B * Config.M = 134217728 := rfl
        rw [shift_or_low x v hv']
        omega
    · rw [if_neg hx]
      exact .pure ⟨id, fun _ hlt _ => ⟨Nat.le_of_not_lt hx, hlt⟩⟩

/-- One lane's decode leaves the state and a safe reader safe; a legal lane gives a legal one (R182, R183). -/
theorem decPlan_answers (lane x : Nat) (r : Reader) (s : State) :
    Cmd.Answers (decPlan lane x r) s fun p => (r.Safe → p.2.2.1.Safe) ∧
      (CodecSafe s → s.status.tblValid = true → LaneLegal x → LaneLegal p.2.1) := by
  refine (Cmd.Answers.readSlot (x % Config.M) s).bind (fun _ => rfl) ?_
  rintro _ rfl
  refine .require (fun _ => rfl) fun _ => ?_
  refine (decRenorm_answers lane s _ _ r).bind (fun _ => rfl) ?_
  rintro ⟨x', r', n⟩ ⟨hr, hlegal⟩
  refine .pure ⟨rfl, hr, fun hs ht hx => ?_⟩
  obtain ⟨-, h1, h2⟩ := decFirst_bounds hs ht hx
  exact hlegal h1 h2 (.inr (Nat.le_add_left 2 _))

/-- The lanes of a step leave the state and a safe reader safe, answer one symbol each, and stay legal (R186). -/
theorem decLanes_answers (s : State) : ∀ (k lane : Nat) (xd : Vector Word 32) (r : Reader),
    Cmd.Answers (decLanes lane k xd r) s fun p => (r.Safe → p.2.1.Safe) ∧ p.2.2.1.length = k ∧
      (CodecSafe s → s.status.tblValid = true → LanesLegal xd → LanesLegal p.1)
  | 0, _, _, _ => .pure ⟨id, rfl, fun _ _ h => h⟩
  | k + 1, lane, xd, r => by
    refine (decPlan_answers lane (laneAt xd lane) r s).bind (fun _ => rfl) ?_
    rintro ⟨sym, x', r', n⟩ ⟨hr, hlegal⟩
    refine (decLanes_answers s k (lane + 1) (setLane xd lane x') r').bind (fun _ => rfl) ?_
    rintro ⟨xd', r'', syms, n'⟩ ⟨hr', hlen, hlegal'⟩
    exact .pure ⟨rfl, fun h => hr' (hr h), congrArg (· + 1) hlen, fun hs ht (hxd : LanesLegal xd) =>
      hlegal' hs ht (hxd.setLane fun hj => hlegal hs ht (hxd lane hj))⟩

/-- The elements that a decode of any number of lanes changes (R182, R186). -/
@[simp] def decodeElems : List Elem := [.xd, .rd, .result]

/-- The lanes, the reader and the results replaced by a decode that kept lanes and reader safe. -/
theorem Kept.of_decode {W : List Elem} {R : Nat → Prop} {s t : State} (hc : Changed W R s t)
    (hW : ∀ e ∈ .xe :: .wr :: (tableElems ++ (flagElems ++ headerElems)), e ∉ W) (hxd : CodecSafe s → LanesLegal t.xd)
    (hrd : s.rd.Safe → t.rd.Safe) : Kept W R s t := by
  have hxe : t.xe = s.xe := hc.get .xe (hW _ (by simp))
  have hwr : t.wr = s.wr := hc.get .wr (hW _ (by simp))
  exact hc.keptWith (fun e he => hW e (by rw [List.mem_append] at he; simp [he]))
    (fun hs => .of_lanes hc.same (fun e he => hW e (by simp [he])) hs (hxe ▸ hs.encoder) (hxd hs))
    fun hs => ⟨hrd hs.1, hwr ▸ hs.2⟩

theorem decInit_keeps (lane x : Nat) (s : State) : Cmd.Keeps (decInit lane x) s [.xd] fun _ => False := by
  refine .require (fun _ => .refl _ _ s) fun hx => .modify ?_
  have hc : Changed [.xd] (fun _ => False) s (s.setXd (setLane s.xd lane x)) :=
    .of_registers fun e => by cases e <;> simp
  exact hc.keptWith (by decide)
    (fun hs => .of_lanes hc.same (by decide) hs hs.encoder (hs.decoder.setLane fun _ => hx))
    (.of_same hc.same (by decide) (by decide))

theorem decSym_keeps (lane : Nat) (s : State) :
    Cmd.Keeps (decSym lane) s (.result1 :: decodeElems) fun _ => False := by
  have stay := Kept.refl (.result1 :: decodeElems) (fun _ => False) s
  refine .getState (.require (fun _ => stay) fun ht => ?_)
  refine (decPlan_answers lane (laneAt s.xd lane) s.rd s).bind (fun _ => stay) ?_
  rintro ⟨sym, x', r, n⟩ ⟨hr, hlegal⟩
  refine .bind (.modify (.pure ?_))
  refine .of_decode (.of_registers fun e => ?_) (by decide) (fun hs => ?_) hr
  · cases e <;> simp
  · exact hs.decoder.setLane fun hj => hlegal hs ht (hs.decoder lane hj)

theorem decStep_keeps (a k : Nat) (s : State) : Cmd.Keeps (decStep a k) s (.mem :: decodeElems) (InRegion a k) := by
  have stay := Kept.refl (.mem :: decodeElems) (InRegion a k) s
  refine .getState (.require (fun _ => stay) fun ht => .require (fun _ => stay) fun _ => .require (fun _ => stay)
    fun _ => ?_)
  refine (decLanes_answers s k 0 s.xd s.rd).bind (fun _ => stay) ?_
  rintro ⟨xd, r, syms, n⟩ ⟨hr, hlen, hlegal⟩
  have hbytes : Size.b1.bytes * syms.length = k := by
    rw [show syms.length = k from hlen]
    exact Nat.one_mul k
  refine (hbytes ▸ Cmd.Stores.writeEntries syms a s).bind (fun e m hm => ?_) fun _ m hm _ => .modify ?_
  · exact (Kept.of_setMem hm).mono (by decide) fun _ => id
  · refine .of_decode ⟨fun e => ?_, hm⟩ (by decide) (fun hs => hlegal hs ht hs.decoder) hr
    cases e <;> simp

end Sys2Proof.Machine
end

section
/-!
SUPPORT. What the rules of the framer keep (46_framer.md R204 to R209): the payload commands keep what each of their
sub-steps keeps.
-/
namespace Sys2Proof.Machine

/-! ## Header -/

/-- The elements that `FRM_PARSE` changes (R204). -/
@[simp] def parseElems : List Elem := [.hdr, .hdrValid, .result, .result1]

/-- `HDR_VALID` cleared, whatever the header registers hold. -/
theorem Kept.of_headerInvalid {W : List Elem} {R : Nat → Prop} {s t : State} (hc : Changed W R s t)
    (hW : ∀ e ∈ .rd :: .wr :: (codecElems ++ flagElems), e ∉ W) (ht : t.status.hdrValid ≠ true) : Kept W R s t :=
  ⟨hc, .of_same hc.same fun e he => hW e (by simp [he]), .of_same hc.same fun e he => hW e (by simp [he]),
    .of_same hc.same (hW _ (by simp)) (hW _ (by simp)), fun _ hv => absurd hv ht⟩

/-- The header of the fields read, as registers (R204). -/
def Header.ofFields (W H PB S0 S1 S2 S3 : Nat) : Header :=
  { w := BitVec.ofNat 32 W, h := BitVec.ofNat 32 H, pb := BitVec.ofNat 32 PB, sy := BitVec.ofNat 32 S0,
    sc := BitVec.ofNat 32 S1, sp := BitVec.ofNat 32 S2, si := BitVec.ofNat 32 S3 }

/-- The checks of `FRM_PARSE` make a checked header (R204). -/
theorem Header.checked_ofFields {N W H PB S0 S1 S2 S3 : Nat} (h4 : W % 4 = 0 ∧ H % 4 = 0)
    (hpos : ∀ v ∈ [W, H, PB, S0, S1, S2, S3], v ≠ 0) (hlt : ∀ v ∈ [W, H, PB, S0, S1, S2, S3], v < 2 ^ 32)
    (hNB : 4 * (W * H / 16) < 2 ^ 32) (hS : ∀ v ∈ [S0, S1, S2, S3], bodyFits N v = true) :
    (Header.ofFields W H PB S0 S1 S2 S3).Checked N := by
  have toNat (v : Nat) (hv : v ∈ [W, H, PB, S0, S1, S2, S3]) : (BitVec.ofNat 32 v).toNat = v := by
    rw [BitVec.toNat_ofNat, Nat.mod_eq_of_lt (hlt v hv)]
  have ne (v : Nat) (hv : v ∈ [W, H, PB, S0, S1, S2, S3]) : BitVec.ofNat 32 v ≠ 0 := fun h => by
    have := congrArg BitVec.toNat h
    rw [toNat v hv] at this
    exact hpos v hv this
  have fits (v : Nat) (hv : v ∈ [S0, S1, S2, S3]) : 4 * N ≤ v ∧ (v - 4 * N) % 2 = 0 := by
    simpa [bodyFits] using hS v hv
  simp only [Header.Checked, Header.blocks, Header.ofFields, toNat W (by simp), toNat H (by simp),
    toNat S0 (by simp), toNat S1 (by simp), toNat S2 (by simp), toNat S3 (by simp)]
  exact ⟨h4.1, h4.2, ne W (by simp), ne H (by simp), ne PB (by simp), hNB, (fits S0 (by simp)).1,
    (fits S0 (by simp)).2, (fits S1 (by simp)).1, (fits S1 (by simp)).2, (fits S2 (by simp)).1,
    (fits S2 (by simp)).2, (fits S3 (by simp)).1, (fits S3 (by simp)).2, ne S0 (by simp), ne S1 (by simp),
    ne S2 (by simp), ne S3 (by simp)⟩

theorem checkHeader_keeps (FL W H PB S0 S1 S2 S3 : Nat) (s : State) :
    Cmd.Keeps (checkHeader FL W H PB S0 S1 S2 S3) s parseElems fun _ => False := by
  have stay := Kept.refl parseElems (fun _ => False) s
  refine .getState (.require (fun _ => stay) fun h4 => .require (fun _ => stay) fun hpos => .require (fun _ => stay)
    fun hlt => .require (fun _ => stay) fun hNB => .require (fun _ => stay) fun _ => .require (fun _ => stay)
    fun hS => .modify ?_)
  have hc : Changed parseElems (fun _ => False) s
      ((((s.setHdr (Header.ofFields W H PB S0 S1 S2 S3)).setStatus (s.status.withHdr true)).setResult
        (BitVec.ofNat 32 (W * H / 16))).setResult1 (BitVec.ofNat 32 (8 * (W * H / 16)))) :=
    .of_registers fun e => by cases e <;> simp
  have checked : (Header.ofFields W H PB S0 S1 S2 S3).Checked s.lanes :=
    Header.checked_ofFields h4 (by simpa using hpos) (by simpa using hlt) hNB (by simpa using hS)
  exact ⟨hc, .of_same hc.same (by decide), .of_same hc.same (by decide), .of_same hc.same (by decide) (by decide),
    fun _ _ => checked⟩

theorem frmParse_keeps (A FL : Nat) (s : State) : Cmd.Keeps (frmParse A FL) s parseElems fun _ => False := by
  have stay := Kept.refl parseElems (fun _ => False) s
  have read (a : Nat) (n : Size) {f : Nat → Cmd Unit} (h : ∀ v, Cmd.Keeps (f v) s parseElems fun _ => False) :
      Cmd.Keeps (memRead a n >>= f) s parseElems fun _ => False :=
    (Cmd.Answers.memRead a n 0 s).bind (fun _ => stay) fun v _ => h v
  have body : Cmd.Keeps (frmParseBody A FL) s parseElems fun _ => False :=
    .require (fun _ => stay) fun _ => .require (fun _ => stay) fun _ => read _ _ fun _ => read _ _ fun _ =>
      read _ _ fun _ => read _ _ fun _ => read _ _ fun _ => read _ _ fun _ => read _ _ fun _ =>
        checkHeader_keeps _ _ _ _ _ _ _ _ s
  unfold frmParse
  constructor
  · intro v t h
    cases hb : frmParseBody A FL s with
    | ok u s' =>
      simp only [hb] at h
      cases h
      exact body.1 _ _ hb
    | error e s' => simp [hb] at h
  · intro e t h
    cases hb : frmParseBody A FL s with
    | ok u s' => simp [hb] at h
    | error e' s' =>
      simp only [hb] at h
      cases h
      have clear : Changed parseElems (fun _ => False) s' (s'.setStatus (s'.status.withHdr false)) :=
        .of_registers fun e => by cases e <;> simp
      exact .of_headerInvalid ((body.2 _ _ hb).changed.trans clear) (by decide) (by simp)

theorem frmHdrWrite_keeps (A : Nat) (s : State) : Cmd.Keeps (frmHdrWrite A) s [.mem] (InRegion A 48) := by
  refine .getState (.require (fun _ => .refl _ _ s) fun _ => ?_)
  have field (k : Nat) (n : Size) (v : Nat) (t : State) (hk : k + n.bytes ≤ 48) :
      Cmd.Stores (memWrite (A + k) n v) t (InRegion A 48) fun _ => True :=
    (Cmd.Stores.memWrite (A + k) v n 0 t).mono (fun x hx => ⟨by omega, by omega⟩) fun _ => id
  have all : Cmd.Stores (do
      memWrite A .b4 s.hdr.w.toNat
      memWrite (A + 4) .b4 s.hdr.h.toNat
      memWrite (A + 8) .b8 s.hdr.pb.toNat
      memWrite (A + 16) .b8 s.hdr.sy.toNat
      memWrite (A + 24) .b8 s.hdr.sc.toNat
      memWrite (A + 32) .b8 s.hdr.sp.toNat
      memWrite (A + 40) .b8 s.hdr.si.toNat) s (InRegion A 48) fun _ => True :=
    (field 0 .b4 _ _ (by decide)).seq fun _ _ _ => (field 4 .b4 _ _ (by decide)).seq fun _ _ _ =>
      (field 8 .b8 _ _ (by decide)).seq fun _ _ _ => (field 16 .b8 _ _ (by decide)).seq fun _ _ _ =>
        (field 24 .b8 _ _ (by decide)).seq fun _ _ _ => (field 32 .b8 _ _ (by decide)).seq fun _ _ _ =>
          field 40 .b8 _ _ (by decide)
  refine Cmd.Ends.mono all ?_ ?_
  · rintro _ t ⟨⟨m, rfl, hm⟩, -⟩
    exact .of_setMem hm
  · rintro _ t ⟨m, rfl, hm⟩
    exact .of_setMem hm

/-! ## Payloads -/

/-- Two parts of a rule that each end in one of the same states. -/
theorem Cmd.EndsIn.bind {α β : Type} {c : Cmd α} {f : α → Cmd β} {s : State} {P : State → Prop}
    (hc : Cmd.EndsIn c s P) (hf : ∀ v t, P t → Cmd.EndsIn (f v) t P) : Cmd.EndsIn (c >>= f) s P :=
  Cmd.Ends.bind ⟨fun v t h => hf v t (hc.1 v t h), hc.2⟩

/-- A rule that keeps, seen from a state before it. -/
theorem Cmd.Keeps.since {α : Type} {c : Cmd α} {s t : State} {W W' : List Elem} {R R' : Nat → Prop}
    (h : Cmd.Keeps c t W' R') (hst : Kept W R s t) (hW : W' ⊆ W) (hR : ∀ x, R' x → R x) :
    Cmd.EndsIn c t (Kept W R s) := Cmd.EndsIn.mono h fun _ hu => hst.trans (hu.mono hW hR)

/-- The elements that the commands of a payload change before its symbols are coded (R206, R207). -/
@[simp] def tableLoadElems : List Elem :=
  [.rawf, .rawValid, .freq, .histValid, .tblValid, .fallback, .sym, .frq, .cum, .cums, .result, .result1]

/-- The elements that `FRM_DEC_PAYLOAD` changes (R206). -/
@[simp] def decPayloadElems : List Elem := [.mem, .xd, .rd] ++ tableLoadElems

theorem loadLanes_keeps (body : Nat) : ∀ (k lane : Nat) (s : State),
    Cmd.Keeps (loadLanes body lane k) s [.xd] fun _ => False
  | 0, _, s => .pure (.refl _ _ s)
  | k + 1, lane, s =>
    (Cmd.Answers.memRead _ _ _ s).bind (fun _ => .refl _ _ s) fun x _ =>
      (decInit_keeps lane x s).bind fun _ t _ => loadLanes_keeps body k (lane + 1) t

/-- A step of a payload's decode answers one symbol for each lane (R206). -/
theorem decodeStep_ends : ∀ (k lane : Nat) (s : State),
    Cmd.Ends (decodeStep lane k) s (fun l t => Kept (.result1 :: decodeElems) (fun _ => False) s t ∧ l.length = k)
      fun _ t => Kept (.result1 :: decodeElems) (fun _ => False) s t
  | 0, _, s => .pure ⟨.refl _ _ s, rfl⟩
  | k + 1, lane, s => by
    refine .bind (Cmd.Ends.mono (decSym_keeps lane s) (fun sym t ht => ?_) fun _ _ => id)
    refine .bind (Cmd.Ends.mono (decodeStep_ends k (lane + 1) t) ?_ fun _ _ hu => ht.trans hu)
    rintro l u ⟨hu, hl⟩
    exact .pure ⟨ht.trans hu, congrArg (· + 1) hl⟩

/-- The lanes of the steps below `i + 1` (R208). -/
theorem stepLanes_sum (C N i : Nat) : min ((i + 1) * N) C = min (i * N) C + stepLanes C N i := by
  rw [stepLanes, Nat.succ_mul]
  omega

/-- The steps of a payload's decode answer the symbols of their lanes before those given (R206, R208). -/
theorem decodeSteps_ends (C N : Nat) : ∀ (i : Nat) (out : List Nat) (s : State),
    Cmd.Ends (decodeSteps C N i out) s
      (fun l t => Kept (.result1 :: decodeElems) (fun _ => False) s t ∧ l.length = out.length + min (i * N) C)
      fun _ t => Kept (.result1 :: decodeElems) (fun _ => False) s t
  | 0, out, s => .pure ⟨.refl _ _ s, by simp⟩
  | i + 1, out, s => by
    refine .bind (Cmd.Ends.mono (decodeStep_ends (stepLanes C N i) 0 s) ?_ fun _ _ => id)
    rintro syms t ⟨ht, hlen⟩
    refine Cmd.Ends.mono (decodeSteps_ends C N i (syms ++ out) t) ?_ fun _ _ hu => ht.trans hu
    rintro l u ⟨hu, hl⟩
    refine ⟨ht.trans hu, ?_⟩
    rw [hl, List.length_append, hlen, stepLanes_sum]
    omega

theorem checkLanesBack_answers (xd : Vector Word 32) (s : State) : ∀ (k lane : Nat),
    Cmd.Answers (checkLanesBack xd lane k) s fun _ => True
  | 0, _ => .pure trivial
  | k + 1, lane => .require (fun _ => rfl) fun _ => checkLanesBack_answers xd s k (lane + 1)

/-- A payload's decode leaves memory and answers no more symbols than the plane has (R206). -/
theorem decodePayload_ends {N P size C : Nat} (hP : P + Config.tableBytes + size ≤ Config.memBytes) (s : State) :
    Cmd.Ends (decodePayload N P size C) s
      (fun l t => Kept decPayloadElems (fun _ => False) s t ∧ l.length ≤ C)
      fun _ t => Kept decPayloadElems (fun _ => False) s t := by
  have hlim : P + Config.tableBytes + size < 2 ^ 32 ∨ P + Config.tableBytes + size = 2 ^ 32 ∧ false = false :=
    (Nat.lt_or_eq_of_le hP).imp_right fun h => ⟨h, rfl⟩
  have step {α : Type} {c : Cmd α} {f : α → Cmd (List Nat)} {W : List Elem} {t : State}
      (hc : Cmd.Keeps c t W fun _ => False) (ht : Kept decPayloadElems (fun _ => False) s t)
      (hW : W ⊆ decPayloadElems) (hf : ∀ v u, Kept decPayloadElems (fun _ => False) s u →
        Cmd.Ends (f v) u (fun l t => Kept decPayloadElems (fun _ => False) s t ∧ l.length ≤ C)
          fun _ t => Kept decPayloadElems (fun _ => False) s t) :
      Cmd.Ends (c >>= f) t (fun l t => Kept decPayloadElems (fun _ => False) s t ∧ l.length ≤ C)
        fun _ t => Kept decPayloadElems (fun _ => False) s t :=
    .bind (Cmd.Ends.mono (hc.since ht hW fun _ => id) hf fun _ _ => id)
  refine step (histLoad_keeps P s) (.refl _ _ s) (by decide) fun _ s1 h1 => ?_
  refine step (histNorm_keeps s1) h1 (by decide) fun _ s2 h2 => ?_
  refine step (tblBuild_keeps s2) h2 (by decide) fun _ s3 h3 => ?_
  refine step (loadLanes_keeps _ N 0 s3) h3 (by decide) fun _ s4 h4 => ?_
  refine step (brInit_keeps hlim s4) h4 (by decide) fun _ s5 h5 => ?_
  have wide {u : State} (hu : Kept (.result1 :: decodeElems) (fun _ => False) s5 u) : Kept decPayloadElems (fun _ => False) s u :=
    h5.trans (hu.mono (by decide) fun _ => id)
  refine .bind (Cmd.Ends.mono (decodeSteps_ends C N (stepCount C N) [] s5) ?_ fun _ _ hu => wide hu)
  rintro out s6 ⟨h6, hlen⟩
  refine .getState ((checkLanesBack_answers s6.xd s6 N 0).bind (fun _ => wide h6) fun _ _ =>
    .require (fun _ => wide h6) fun _ => .pure ⟨wide h6, ?_⟩)
  rw [hlen]
  exact (Nat.zero_add _).trans_le (Nat.min_le_right _ _)

theorem frmDecPayload_keeps (p : Payload) (A D : Nat) (s : State) :
    Cmd.Keeps (frmDecPayload p A D) s decPayloadElems (InRegion D (s.hdr.planeBytes p)) := by
  have stay := Kept.refl decPayloadElems (InRegion D (s.hdr.planeBytes p)) s
  refine .getState (.require (fun _ => stay) fun _ => .require (fun _ => stay) fun hP => .require (fun _ => stay)
    fun _ => .require (fun _ => stay) fun _ => ?_)
  refine .bind (Cmd.Ends.mono (decodePayload_ends hP s) ?_ fun _ _ h => h.mono (fun _ => id) fun _ => False.elim)
  rintro out t ⟨ht, hlen⟩
  have ht := ht.mono (R' := InRegion D (s.hdr.planeBytes p)) (fun _ => id) fun _ => False.elim
  have hbytes : Size.b1.bytes * out.length = out.length := Nat.one_mul _
  have stores := (hbytes ▸ Cmd.Stores.writeEntries (n := .b1) out D t).mono
    (R' := InRegion D (s.hdr.planeBytes p)) (fun x hx => ⟨hx.1, by have := hx.2; omega⟩) fun _ => id
  refine stores.bind (fun _ m hm => ht.trans ((Kept.of_setMem hm).mono (by decide) fun _ => id)) fun _ m hm _ =>
    .modify (ht.trans (Changed.kept ⟨fun e => ?_, hm⟩ (by decide) |>.mono (W := [.mem, .result]) (by decide) fun _ => id))
  cases e <;> simp

/-- The elements that `FRM_ENC_PAYLOAD` changes (R207). -/
@[simp] def encPayloadElems : List Elem := [.mem, .xe, .wr, .hdr, .hdrValid] ++ tableLoadElems

/-- The writer stores inside `[P, P + CAP)` only: it has no room at all, or its pointer and its end lie there. -/
def Writer.Inside (P CAP : Nat) (w : Writer) : Prop :=
  w.lim.toNat = 0 ∨ P ≤ w.ptr.toNat ∧ w.lim.toNat ≤ P + CAP

/-- The state of a payload's encode that began in `s`, between two symbols: its writer stores inside the region. -/
def Encoding (P CAP : Nat) (s t : State) : Prop :=
  Kept encPayloadElems (InRegion P CAP) s t ∧ t.wr.Inside P CAP

theorem encSym_encoding {P CAP : Nat} {s t : State} (h : Encoding P CAP s t) (lane σ : Nat) :
    Cmd.EndsIn (encSym lane σ) t (Encoding P CAP s) := by
  obtain ⟨ht, hin⟩ := h
  refine Cmd.EndsIn.mono (encSym_ends lane σ t) ?_
  rintro u ⟨n, hn, hfit, hlim, hptr, hu⟩
  refine ⟨ht.trans (hu.mono (by decide) ?_), ?_⟩
  · rintro x ⟨h1, h2⟩
    rcases hin with h0 | ⟨h3, h4⟩ <;> constructor <;> omega
  · rw [Writer.Inside, hlim]
    exact hin.imp_right fun h => ⟨h.1.trans hptr, h.2⟩

theorem encodeStep_encoding {P CAP : Nat} {s : State} (a : Nat) : ∀ (k : Nat) {t : State}, Encoding P CAP s t →
    Cmd.EndsIn (encodeStep a k) t (Encoding P CAP s)
  | 0, _, h => .pure h
  | k + 1, t, h =>
    (Cmd.Answers.memRead _ _ _ t).bind (fun _ => h) fun σ _ =>
      (encSym_encoding h k σ).bind fun _ _ hu => encodeStep_encoding a k hu

theorem encodeSteps_encoding {P CAP : Nat} {s : State} (src C N : Nat) : ∀ (k i : Nat) {t : State},
    Encoding P CAP s t → Cmd.EndsIn (encodeSteps src C N i k) t (Encoding P CAP s)
  | 0, _, _, h => .pure h
  | k + 1, i, _, h => (encodeStep_encoding _ _ h).bind fun _ _ hu => encodeSteps_encoding src C N k (i + 1) hu

/-- A writer set up inside `[P, P + CAP)` stores inside it, also where the region ends at `2^32` (log 10). -/
theorem bwInit_inside {P CAP base lim : Nat} (hP : P ≤ base) (hlim : lim ≤ P + CAP) (hmem : P + CAP ≤ 2 ^ 32)
    (s : State) : Cmd.Ends (bwInit base lim) s (fun _ t => t.wr.Inside P CAP) fun _ _ => True := by
  by_cases h : base ≤ lim ∧ (lim - base) % 2 = 0
  · refine .of_ok (bwInit_ok h) ?_
    simp only [Writer.Inside, State.setWr_wr, Writer.fresh, BitVec.toNat_ofNat]
    omega
  · exact .of_error (bwInit_bad h) trivial

theorem frmEncPayload_keeps (p : Payload) (src P C CAP : Nat) (s : State) :
    Cmd.Keeps (frmEncPayload p src P C CAP) s encPayloadElems (InRegion P CAP) := by
  have stay := Kept.refl encPayloadElems (InRegion P CAP) s
  refine .getState (.require (fun _ => stay) fun _ => .require (fun _ => stay) fun _ => .require (fun _ => stay)
    fun hmem => .require (fun _ => stay) fun _ => .require (fun _ => stay) fun hcap => ?_)
  have hmem' : P + CAP ≤ 2 ^ 32 := hmem
  have htb : Config.tableBytes = 2048 := rfl
  refine ((histCount_keeps src C s).since stay (by decide) fun _ => False.elim).bind fun _ s1 h1 => ?_
  refine ((histNorm_keeps s1).since h1 (by decide) fun _ => False.elim).bind fun _ s2 h2 => ?_
  refine ((tblBuild_keeps s2).since h2 (by decide) fun _ => False.elim).bind fun _ s3 h3 => ?_
  refine ((histStore_keeps P s3).since h3 (by decide) fun x hx => ⟨hx.1, by have := hx.2; omega⟩).bind
    fun _ s4 h4 => ?_
  refine ((encInit_keeps s4).since h4 (by decide) fun _ => False.elim).bind fun _ s5 h5 => ?_
  have hlim : P + Config.tableBytes + 4 * s.lanes + 2 * ((CAP - Config.tableBytes - 4 * s.lanes) / 2) ≤ P + CAP := by
    omega
  have hinit := (bwInit_keeps (base := P + Config.tableBytes + 4 * s.lanes) (hlim.trans hmem') s5).since h5
    (by decide) fun _ => False.elim
  have hin := bwInit_inside (base := P + Config.tableBytes + 4 * s.lanes) (by omega) hlim hmem' s5
  refine Cmd.Ends.bind ⟨fun v s6 hv => ?_, hinit.2⟩
  have h6 : Encoding P CAP s s6 := ⟨hinit.1 v s6 hv, hin.1 v s6 hv⟩
  refine .bind (Cmd.Ends.mono (encodeSteps_encoding src C s.lanes (stepCount C s.lanes) 0 h6)
    (fun _ s7 h7 => ?_) fun _ _ h => h.1)
  refine .getState ?_
  have hlen : Size.b4.bytes * ((s7.xe.toList.take s.lanes).map BitVec.toNat).length ≤ 4 * s.lanes := by
    rw [List.length_map, List.length_take]
    exact Nat.mul_le_mul_left 4 (Nat.min_le_left _ _)
  have stores := (Cmd.Stores.writeEntries (n := .b4) ((s7.xe.toList.take s.lanes).map BitVec.toNat)
    (P + Config.tableBytes) s7).mono (R' := InRegion P CAP)
      (fun x hx => ⟨by have := hx.1; omega, by have := hx.2; omega⟩) fun _ => id
  refine stores.bind (fun _ m hm => h7.1.trans ((Kept.of_setMem hm).mono (by decide) fun _ => id)) fun _ m hm _ =>
    .modify (h7.1.trans (.mono (W := [.mem, .hdr, .hdrValid, .result, .result1])
      (.of_headerInvalid ⟨fun e => ?_, hm⟩ (by decide) (by simp)) (by decide) fun _ => id))
  cases e <;> simp

end Sys2Proof.Machine
end

section
/-!
SUPPORT. What a command, a host move and a step keep: every command by the rule it runs, and every step by the agent that
makes it (10_state.md R20; 60_exceptions.md R235 to R237).
-/
namespace Sys2Proof.Machine

/-! ## Commands -/

/-- The elements that a command's rule may change, but for `SOFT_RESET`, which resets them all (R101). -/
@[simp] def changedElems : Instr → List Elem
  | .nop => []
  | .softReset => []
  | .clrStatus => [.err, .wbusy, .errcode, .errinfo]
  | .brInit => [.rd]
  | .brRead _ => [.rd, .result]
  | .bwInit => [.wr]
  | .bwWrite _ => [.mem, .wr, .result]
  | .histCount => [.rawf, .rawValid, .result]
  | .histLoad => [.rawf, .rawValid, .result, .result1]
  | .histNorm => [.freq, .histValid, .tblValid, .fallback, .result, .result1]
  | .histStore => [.mem]
  | .rawQuery => [.result]
  | .freqQuery => [.result, .result1]
  | .tblBuild => [.sym, .frq, .cum, .cums, .tblValid]
  | .tblQuery => [.result, .result1]
  | .encInit => [.xe]
  | .encSym _ => .result1 :: encodeElems
  | .encStep => encodeElems
  | .decInit _ => [.xd]
  | .decSym _ => .result1 :: decodeElems
  | .decStep => .mem :: decodeElems
  | .frmParse => parseElems
  | .frmHdrWrite => [.mem]
  | .frmDecPayload _ => decPayloadElems
  | .frmEncPayload _ => encPayloadElems

/-- The bytes that a command may store to (R71). -/
def storedBytes (s : State) : Instr → Nat → Prop
  | .bwWrite _ => InRegion s.wr.ptr.toNat 2
  | .histStore => InRegion s.arg0.toNat 2048
  | .encSym _ => InRegion s.wr.ptr.toNat 2
  | .encStep => InRegion s.wr.ptr.toNat (2 * s.arg1.toNat)
  | .decStep => InRegion s.arg0.toNat s.arg1.toNat
  | .frmHdrWrite => InRegion s.arg0.toNat 48
  | .frmDecPayload p => InRegion s.arg1.toNat (s.hdr.planeBytes p)
  | .frmEncPayload _ => InRegion s.arg1.toNat s.arg3.toNat
  | _ => fun _ => False

theorem clearError_keeps (s : State) :
    Cmd.Keeps (modify State.clearError) s [.err, .wbusy, .errcode, .errinfo] fun _ => False :=
  .modify (Changed.keptFlags (.of_registers fun e => by cases e <;> simp) (by decide)
    fun hs => ⟨hs.1, fun _ => ⟨rfl, rfl⟩, hs.2.2⟩)

/-- A lane command is its lane check and its rule. -/
theorem checkLane_keeps {α : Type} {lane : Nat} {c : Cmd α} {s : State} {W : List Elem} {R : Nat → Prop}
    (h : Cmd.Keeps c s W R) : Cmd.Keeps (checkLane lane >>= fun _ => c) s W R :=
  (Cmd.Answers.checkLane lane s).bind (fun _ => .refl _ _ s) fun _ _ => h

/-- Every rule but that of `SOFT_RESET` keeps the invariants, and changes its own elements and bytes only. -/
theorem ruleOf_keeps {i : Instr} (hi : i.wellFormed = true) (hr : i ≠ .softReset) (s : State) :
    Cmd.Keeps (ruleOf i s) s (changedElems i) (storedBytes s i) := by
  cases i with
  | nop => exact .pure (.refl _ _ s)
  | softReset => exact absurd rfl hr
  | clrStatus => exact clearError_keeps s
  | brInit => exact brInit_keeps (.inl s.arg1.isLt) s
  | brRead n => exact brRead_keeps n s
  | bwInit => exact bwInit_keeps (Nat.le_of_lt s.arg1.isLt) s
  | bwWrite n =>
    have hn : n ≤ 16 := by
      simp [Instr.wellFormed, widthFits] at hi
      omega
    exact bwWrite_keeps _ hn s
  | histCount => exact histCount_keeps _ _ s
  | histLoad => exact histLoad_keeps _ s
  | histNorm => exact histNorm_keeps s
  | histStore => exact histStore_keeps _ s
  | rawQuery => exact rawQuery_keeps _ s
  | freqQuery => exact freqQuery_keeps _ s
  | tblBuild => exact tblBuild_keeps s
  | tblQuery => exact tblQuery_keeps _ s
  | encInit => exact encInit_keeps s
  | encSym lane => exact checkLane_keeps (encSym_keeps _ _ s)
  | encStep => exact encStep_keeps _ _ s
  | decInit lane => exact checkLane_keeps (decInit_keeps _ _ s)
  | decSym lane => exact checkLane_keeps (.bind (decSym_keeps lane s) fun _ t _ => .pure (.refl _ _ t))
  | decStep => exact decStep_keeps _ _ s
  | frmParse => exact frmParse_keeps _ _ s
  | frmHdrWrite => exact frmHdrWrite_keeps _ s
  | frmDecPayload p => exact frmDecPayload_keeps p _ _ s
  | frmEncPayload p => exact frmEncPayload_keeps p _ _ _ _ s

/-- Every rule but that of `SOFT_RESET` changes its own elements and bytes only, whatever its operands. -/
theorem ruleOf_changes {i : Instr} (hr : i ≠ .softReset) (s : State) :
    Cmd.EndsIn (ruleOf i s) s (Changed (changedElems i) (storedBytes s i) s) := by
  have of_wellFormed (hi : i.wellFormed = true) :
      Cmd.EndsIn (ruleOf i s) s (Changed (changedElems i) (storedBytes s i) s) :=
    Cmd.EndsIn.mono (ruleOf_keeps hi hr s) fun _ h => h.changed
  cases i with
  | brRead n => exact Cmd.EndsIn.mono (brRead_keeps n s) fun _ h => h.changed
  | bwWrite n => exact Cmd.EndsIn.mono (bwWrite_ends _ n s) fun _ h => h.1
  | encSym lane => exact Cmd.EndsIn.mono (checkLane_keeps (encSym_keeps _ _ s)) fun _ h => h.changed
  | decInit lane => exact Cmd.EndsIn.mono (checkLane_keeps (decInit_keeps _ _ s)) fun _ h => h.changed
  | decSym lane =>
    exact Cmd.EndsIn.mono (checkLane_keeps (.bind (decSym_keeps lane s) fun _ t _ => .pure (.refl _ _ t)))
      fun _ h => h.changed
  | _ => exact of_wellFormed rfl

/-! ## Completion -/

/-- `t` is the state `u` that a rule reached, completed: without an error, or with one that is recorded unless another
one stands (R231, R237). -/
structure Finished (u t : State) : Prop where
  same : SameBut [.busy, .done, .err, .errcode, .errinfo] u t
  idle : t.status.busy = false
  done : t.status.done = true
  errSet : u.status.err = true → t.status.err = true
  error : t.errcode = u.errcode ∧ t.errinfo = u.errinfo ∧ t.status.err = u.status.err ∨
    u.status.err = false ∧ t.status.err = true

theorem State.complete_finished (u : State) : Finished u u.complete :=
  ⟨fun e => by cases e <;> simp, rfl, rfl, id, .inl ⟨rfl, rfl, rfl⟩⟩

theorem State.raise_complete_finished (u : State) (op : BitVec 8) (e : Raised) :
    Finished u (u.raise op e).complete := by
  refine ⟨fun e => by cases e <;> simp, rfl, rfl, fun _ => by simp, ?_⟩
  cases h : u.status.err with
  | true => exact .inl (by simp [State.raise_errcode, State.raise_errinfo, h])
  | false => exact .inr (by simp)

/-- All that a command can do: its rule ends in some state, and the command completes from there (R235 to R237). -/
theorem exec_next {i : Instr} {s t : State} (h : exec i s = .next t) {P : State → Prop}
    (hP : Cmd.EndsIn (ruleOf i s) s P) : ∃ u, P u ∧ Finished u t := by
  rw [exec_eq_runCommand] at h
  rcases runCommand_next h with ⟨u, hu, rfl⟩ | ⟨e, x, u, hu, rfl⟩
  · exact ⟨u, hP.1 _ _ hu, u.complete_finished⟩
  · exact ⟨u, hP.2 _ _ hu, u.raise_complete_finished _ e⟩

/-- A completion keeps the invariants. -/
theorem Finished.kept {u t : State} (h : Finished u t) :
    Kept [.busy, .done, .err, .errcode, .errinfo] (fun _ => False) u t := by
  have hn : t.cfgN = u.cfgN := h.same.get .cfgN (by decide)
  refine Changed.keptFlags (.of_registers h.same (h.same.get .mem (by decide))) (by decide) fun hu => ⟨?_, ?_, ?_⟩
  · rw [h.idle]
    simp
  · intro ht
    rcases h.error with ⟨h1, h2, h3⟩ | ⟨-, h3⟩
    · rw [h1, h2]
      exact hu.2.1 (h3 ▸ ht)
    · rw [h3] at ht
      cases ht
  · rw [State.lanes, hn]
    exact hu.2.2

/-! ## What the sequencer runs -/

/-- A row of the opcode map gives well-formed commands (R81). -/
theorem opcodeRow_wellFormed {k : Nat} {f : WordField} {mk : Word → Instr} (h : opcodeRow k = some (f, mk)) (w : Word) :
    (mk w).wellFormed = true := by
  have hlane : laneFits (fieldLane w) = true := decide_eq_true (w.extractLsb' 8 5).isLt
  have hwidth : widthFits (fieldWidth w) = true := by
    have := (w.extractLsb' 16 4).isLt
    simp [widthFits, fieldWidth]
    omega
  unfold opcodeRow at h
  split at h
  all_goals cases h
  all_goals simp [Instr.wellFormed, hlane, hwidth]

/-- What decodes is well-formed (R81, R82). -/
theorem decode_wellFormed {w : Word} {i : Instr} (h : decode w = .ok i) : i.wellFormed = true := by
  unfold decode at h
  split at h
  · cases h
  · rename_i f mk hrow
    split at h
    · cases h
      exact opcodeRow_wellFormed hrow w
    · cases h

/-! ## The host -/

/-- The elements that a move of the host may change (R20, R38, R87). -/
def hostElems : List Elem :=
  [.host, .draws, .mem, .ctrl, .cfgN, .busy, .done, .err, .wbusy, .errcode, .errinfo, .cmd, .arg0, .arg1, .arg2,
    .arg3, .hdr, .hdrValid]

/-- `t` is what a move of the host may make of `s`. -/
abbrev HostKept (s t : State) : Prop := Kept hostElems (fun _ => True) s t

theorem SameBut.hostKept {W : List Elem} {s t : State} (h : SameBut W s t) (hm : t.mem = s.mem := by rfl)
    (hW : ∀ e ∈ .rd :: .wr :: (codecElems ++ (flagElems ++ headerElems)), e ∉ W := by decide)
    (hW' : W ⊆ hostElems := by decide) : HostKept s t :=
  ((Changed.of_registers (R := fun _ => True) h hm).kept hW).mono hW' fun _ => id

theorem droppedWrite_kept (s : State) : HostKept s (s.setStatus s.status.droppedWrite) :=
  SameBut.hostKept (W := [.wbusy]) fun e => by cases e <;> simp

theorem writeCtrl_kept (s : State) (v : Word) : HostKept s (s.writeCtrl v) :=
  SameBut.hostKept (W := [.ctrl]) fun e => by cases e <;> simp [State.writeCtrl]

theorem setHost_kept (s : State) (h : HostAgent) : HostKept s (s.setHost h) :=
  SameBut.hostKept (W := [.host]) fun e => by cases e <;> simp

theorem setDraws_kept (s : State) (n : Nat) : HostKept s (s.setDraws n) :=
  SameBut.hostKept (W := [.draws]) fun e => by cases e <;> simp

/-- An accepted command clears `DONE` (R236). -/
theorem latchCommand_kept (s : State) (cw : Word) : HostKept s (s.latchCommand cw) := by
  have hc : Changed [.cmd, .busy, .done] (fun _ => True) s (s.latchCommand cw) :=
    .of_registers fun e => by cases e <;> simp [State.latchCommand]
  exact (hc.keptFlags (by decide) fun hs => ⟨by simp [State.latchCommand], hs.2⟩).mono (by decide) fun _ => id

theorem presentCommand_kept (s : State) (cw : Word) : HostKept s (s.presentCommand cw) := by
  unfold State.presentCommand
  split
  · exact droppedWrite_kept s
  · split
    · exact .refl _ _ s
    · exact latchCommand_kept s cw

/-- Clearing `ERR` zeroes the record with it (R27). -/
theorem writeStatus_kept (s : State) (v : Word) : HostKept s (s.writeStatus v) := by
  have hc : Changed [.done, .err, .wbusy, .errcode, .errinfo] (fun _ => True) s (s.writeStatus v) := by
    unfold State.writeStatus
    split <;> exact .of_registers fun e => by cases e <;> simp
  refine (hc.keptFlags (by decide) fun hs => ?_).mono (by decide) fun _ => id
  obtain ⟨hbusy, herr, hn⟩ := hs
  unfold State.writeStatus
  split
  · exact ⟨fun h => hbusy ⟨h.1, by simp at h; exact h.2.1⟩, fun _ => ⟨rfl, rfl⟩, hn⟩
  · rename_i hv
    refine ⟨fun h => hbusy ⟨h.1, by simp at h; exact h.2.1⟩, fun h => herr ?_, hn⟩
    have h' : (s.status.err && !v.getLsbD 2) = false := h
    rwa [Bool.eq_false_of_not_eq_true hv, Bool.not_false, Bool.and_true] at h'

/-- A write of `CFG` leaves a legal `N` and clears `HDR_VALID` (R26). -/
theorem writeCfg_kept (s : State) (v : Word) : HostKept s (s.writeCfg v) := by
  have hc : Changed [.cfgN, .hdrValid] (fun _ => True) s (s.writeCfg v) := by
    unfold State.writeCfg
    dsimp only
    split <;> exact .of_registers fun e => by cases e <;> simp
  have hvalid : (s.writeCfg v).status.hdrValid ≠ true := by simp [State.writeCfg]
  refine Kept.mono ⟨hc, fun hs => ?_, .of_same hc.same (by decide), .of_same hc.same (by decide) (by decide),
    fun _ h => absurd h hvalid⟩ (by decide) fun _ => id
  unfold State.writeCfg
  dsimp only
  split
  · rename_i hN
    exact ⟨hs.1, hs.2.1, hN⟩
  · exact hs

/-- A write of a header register clears `HDR_VALID` (R35). -/
theorem writeHdr_kept (s : State) (h : Header) : HostKept s (s.writeHdr h) := by
  have hc : Changed [.hdr, .hdrValid] (fun _ => True) s (s.writeHdr h) :=
    .of_registers fun e => by cases e <;> simp [State.writeHdr]
  exact (Kept.of_headerInvalid hc (by decide) (by simp [State.writeHdr])).mono (by decide) fun _ => id

theorem csrWrite_kept (off : Nat) (v : Word) (s : State) : HostKept s (csrWrite off v s) := by
  unfold csrWrite
  split
  · exact droppedWrite_kept s
  · split
    · exact writeCtrl_kept s v
    · exact writeCfg_kept s v
    · exact writeStatus_kept s v
    · exact presentCommand_kept s v
    · exact SameBut.hostKept (W := [.arg0]) fun e => by cases e <;> simp
    · exact SameBut.hostKept (W := [.arg1]) fun e => by cases e <;> simp
    · exact SameBut.hostKept (W := [.arg2]) fun e => by cases e <;> simp
    · exact SameBut.hostKept (W := [.arg3]) fun e => by cases e <;> simp
    · exact writeHdr_kept s _
    · exact writeHdr_kept s _
    · exact writeHdr_kept s _
    · exact writeHdr_kept s _
    · exact writeHdr_kept s _
    · exact writeHdr_kept s _
    · exact writeHdr_kept s _
    · exact .refl _ _ s

theorem csrRead_kept (off : Nat) (s : State) : HostKept s (csrRead off s).2 := by
  unfold csrRead
  split
  · exact setDraws_kept s _
  · exact .refl _ _ s

theorem hostWrite_kept {n : Size} {a : Nat} {v : Word} {s t : State} (h : hostWrite n a v s = .next t) :
    HostKept s t := by
  unfold hostWrite at h
  split at h
  · cases h
  split at h
  · split at h
    · cases h
      exact csrWrite_kept _ v s
    · cases h
  split at h
  · cases h
  · rename_i hle
    split at h
    · cases h
    · cases h
      exact (Kept.of_setMem (Stored.writeLE s.mem (by omega))).mono (by decide) fun _ _ => trivial

theorem hostRead_kept {n : Size} {a x : Nat} {s t : State} (h : hostRead n a x s = .next t) : HostKept s t := by
  unfold hostRead at h
  split at h
  · cases h
  split at h
  · split at h
    · cases h
      exact (csrRead_kept _ s).trans (setHost_kept _ _)
    · cases h
  split at h
  · cases h
  · split at h
    · cases h
    · cases h
      exact setHost_kept s _

theorem hostJump_kept {s t : State} {l : Nat} (h : s.hostJump l = .next t) : HostKept s t := by
  unfold State.hostJump at h
  dsimp only at h
  split at h
  · cases h
    exact setHost_kept s _
  · cases h

theorem hostBranch_kept {s t : State} {b : Bool} {l : Nat} (h : s.hostBranch b l = .next t) : HostKept s t := by
  unfold State.hostBranch at h
  split at h
  · exact hostJump_kept h
  · cases h
    exact setHost_kept s _

theorem hostOp_kept {op : HostOp} {s t : State} (h : hostOp op s = .next t) : HostKept s t := by
  cases op with
  | csrw off v =>
    simp only [hostOp] at h
    split at h
    · cases h
      exact (csrWrite_kept _ _ s).trans (setHost_kept _ _)
    · cases h
  | csrr x off =>
    simp only [hostOp] at h
    split at h
    · cases h
      exact (csrRead_kept _ s).trans (setHost_kept _ _)
    · cases h
  | store n a v => exact (setHost_kept s _).trans (hostWrite_kept h)
  | load n x a => exact hostRead_kept h
  | bnez x l => exact hostBranch_kept h
  | beqz x l => exact hostBranch_kept h
  | blt x u l => exact hostBranch_kept h
  | j l => exact hostJump_kept h
  | halt =>
    cases h
    exact .refl _ _ s
  | _ =>
    cases h
    exact setHost_kept s _

theorem hostMove_kept {s t : State} (h : hostMove s = .next t) : HostKept s t := by
  unfold hostMove at h
  split at h
  · cases h
    exact .refl _ _ s
  · exact hostOp_kept h

/-! ## Steps -/

/-- The elements that are not the block's, or that the completion of `SOFT_RESET` leaves or sets (R46, R101). -/
@[simp] def outsideReset : List Elem := [.platform, .mem, .cmd, .done, .host, .turns, .draws]

theorem softReset_next {s t : State} (h : exec .softReset s = .next t) : SameBut outsideReset State.reset t := by
  cases h
  intro e
  cases e <;> simp <;> rfl

/-- The reset input at any time: the reset values, and outside them only memory and the count of draws (R46, R260). -/
theorem resetElements_sameBut (s : State) (m : Memory) (d : Nat) :
    SameBut outsideReset State.reset ((s.resetElements.setMem m).setDraws d) := by
  intro e
  cases e <;> simp [State.resetElements]

theorem resetMove_next {s t : State} (h : resetMove s = .next t) : SameBut outsideReset State.reset t := by
  unfold resetMove at h
  split at h
  · cases h
    exact resetElements_sameBut s _ _
  · cases h
    exact resetElements_sameBut s s.mem s.draws

/-- `t` keeps the invariants of `s`, or the block has its reset values in `t`. -/
def Advances (s t : State) : Prop := (∃ W R, Kept W R s t) ∨ SameBut outsideReset State.reset t

theorem exec_advances {i : Instr} {s t : State} (hi : i.wellFormed = true) (h : exec i s = .next t) :
    Advances s t := by
  by_cases hr : i = .softReset
  · subst hr
    exact .inr (softReset_next h)
  · obtain ⟨u, hu, hut⟩ := exec_next h (ruleOf_keeps hi hr s)
    exact .inl ⟨_, _, (hu.mono (List.subset_append_left _ _) fun _ => id).trans
      (hut.kept.mono (List.subset_append_right _ _) fun _ => False.elim)⟩

theorem sequencerMove_advances {s t : State} (h : sequencerMove s = .next t) : Advances s t := by
  unfold sequencerMove at h
  split at h
  · unfold runAccepted at h
    split at h
    · rename_i i hi
      exact exec_advances (decode_wellFormed hi) h
    · cases h
      exact .inl ⟨_, _, (s.raise_complete_finished _ _).kept⟩
  · cases h
    exact .inl ⟨[], fun _ => False, .refl _ _ s⟩

theorem turnMove_advances {turn : Turn} {s t : State} (h : turnMove turn s = .next t) : Advances s t := by
  cases turn with
  | sequencer => exact sequencerMove_advances h
  | host => exact .inl ⟨_, _, hostMove_kept h⟩
  | reset => exact .inr (resetMove_next h)

theorem setTurns_kept (s : State) (ts : List Turn) : Kept [.turns] (fun _ => False) s (s.setTurns ts) :=
  Changed.kept (.of_registers fun e => by cases e <;> simp) (by decide)

/-- All that a step can do to what the invariants speak of. -/
theorem step_advances {s t : State} (h : step s = .next t) : Advances s t := by
  unfold step at h
  split at h
  · exact turnMove_advances h
  · rename_i turn ts _
    have h0 := setTurns_kept s ts
    rcases turnMove_advances h with ⟨W, R, hk⟩ | hr
    · exact .inl ⟨_, _, (h0.mono (List.subset_append_left _ W) fun _ => False.elim).trans
        (hk.mono (List.subset_append_right _ _) fun _ => id)⟩
    · exact .inr hr

/-! ## The invariants -/

theorem reset_memorySafe : MemorySafe State.reset := rfl

theorem reset_flagsSafe : FlagsSafe State.reset := by decide

theorem reset_codecSafe : CodecSafe State.reset := by
  refine ⟨fun j hj => ⟨lanesLegal_reset j hj, lanesLegal_reset j hj⟩, fun h => ?_, fun h => ?_⟩ <;> cases h

theorem reset_streamsSafe : StreamsSafe State.reset := by decide

theorem reset_headerSafe : HeaderSafe State.reset := fun h => by cases h

/-- Settles O55: each invariant at the reset values. -/
theorem resetMeetsTheInvariants : Obligations.ResetMeetsTheInvariants :=
  ⟨reset_memorySafe, reset_flagsSafe, reset_codecSafe, reset_streamsSafe, reset_headerSafe⟩

/-- Settles O57: a step keeps the flags (`Kept.flags`) or gives the reset values. -/
theorem everyStepKeepsFlagsSafe : Obligations.EveryStepKeepsFlagsSafe := fun s t hs h => by
  rcases step_advances h with ⟨W, R, hk⟩ | hr
  · exact hk.flags hs
  · have hbusy : t.status.busy = false := hr.get .busy (by decide)
    have hcode : t.errcode = 0 := hr.get .errcode (by decide)
    have hinfo : t.errinfo = 0 := hr.get .errinfo (by decide)
    have hn : t.cfgN = 32 := hr.get .cfgN (by decide)
    exact ⟨by simp [hbusy], fun _ => ⟨hcode, hinfo⟩, by simp [State.lanes, hn]⟩

/-- Settles O58: a step keeps lanes and tables (`Kept.codec`) or gives the reset values. -/
theorem everyStepKeepsCodecSafe : Obligations.EveryStepKeepsCodecSafe := fun s t hs h => by
  rcases step_advances h with ⟨W, R, hk⟩ | hr
  · exact hk.codec hs
  · exact .of_same hr (by decide) reset_codecSafe

/-- Settles O59: a step keeps the streams (`Kept.streams`) or gives the reset values. -/
theorem everyStepKeepsStreamsSafe : Obligations.EveryStepKeepsStreamsSafe := fun s t hs h => by
  rcases step_advances h with ⟨W, R, hk⟩ | hr
  · exact hk.streams hs
  · exact .of_same hr (by decide) (by decide) reset_streamsSafe

/-- Settles O60: a step keeps the header checked (`Kept.header`) or gives the reset values. -/
theorem everyStepKeepsHeaderSafe : Obligations.EveryStepKeepsHeaderSafe := fun s t hs h => by
  rcases step_advances h with ⟨W, R, hk⟩ | hr
  · exact hk.header hs
  · exact .of_same hr (by decide) reset_headerSafe

end Sys2Proof.Machine
end

section
/-!
SUPPORT. Which commands change which element, and the frame of every command in the terms of R22, R28, R29, R39 to R42 and
R71.
-/
namespace Sys2Proof.Machine

/-! ## The commands that change an element -/

/-- The elements that no command changes (R22, R25, R26, R87). -/
def operandElems : List Elem :=
  [.platform, .ctrl, .cfgN, .cmd, .arg0, .arg1, .arg2, .arg3, .host, .turns, .draws]

theorem operandElems_unchanged (i : Instr) : ∀ e ∈ operandElems, e ∉ changedElems i := by
  cases i <;> simp [operandElems]

theorem errorElems_unchanged {i : Instr} (h : i ≠ .clrStatus) :
    ∀ e ∈ [Elem.err, .wbusy, .errcode, .errinfo], e ∉ changedElems i := by
  cases i with
  | clrStatus => exact absurd rfl h
  | _ => simp

section
variable {i : Instr}

theorem changes_mem (h : .mem ∈ changedElems i) : (∃ p, i = .frmEncPayload p) ∨ (∃ p, i = .frmDecPayload p) ∨
    (∃ n, i = .bwWrite n) ∨ (∃ l, i = .encSym l) ∨ i ∈ [.histStore, .encStep, .decStep, .frmHdrWrite] := by
  cases i <;> simp at h ⊢

theorem changes_result (h : .result ∈ changedElems i) : (∃ p, i = .frmEncPayload p) ∨ (∃ p, i = .frmDecPayload p) ∨
    (∃ n, i = .brRead n ∨ i = .bwWrite n) ∨ (∃ l, i = .encSym l ∨ i = .decSym l) ∨
    i ∈ [.histCount, .histLoad, .histNorm, .rawQuery, .freqQuery, .tblQuery, .encStep, .decStep, .frmParse] := by
  cases i <;> simp at h ⊢

theorem changes_result1 (h : .result1 ∈ changedElems i) : (∃ p, i = .frmEncPayload p) ∨
    (∃ p, i = .frmDecPayload p) ∨ (∃ l, i = .encSym l ∨ i = .decSym l) ∨
    i ∈ [.histLoad, .histNorm, .freqQuery, .tblQuery, .frmParse] := by
  cases i <;> simp at h ⊢

theorem changes_raw {e : Elem} (he : e ∈ [Elem.rawf, .rawValid]) (h : e ∈ changedElems i) :
    (∃ p, i = .frmEncPayload p) ∨ (∃ p, i = .frmDecPayload p) ∨ i = .histCount ∨ i = .histLoad := by
  fin_cases he <;> cases i <;> simp at h ⊢

theorem changes_freq {e : Elem} (he : e ∈ [Elem.freq, .histValid, .fallback]) (h : e ∈ changedElems i) :
    (∃ p, i = .frmEncPayload p) ∨ (∃ p, i = .frmDecPayload p) ∨ i = .histNorm := by
  fin_cases he <;> cases i <;> simp at h ⊢

theorem changes_tables {e : Elem} (he : e ∈ [Elem.sym, .frq, .cum, .cums]) (h : e ∈ changedElems i) :
    (∃ p, i = .frmEncPayload p) ∨ (∃ p, i = .frmDecPayload p) ∨ i = .tblBuild := by
  fin_cases he <;> cases i <;> simp at h ⊢

theorem changes_tblValid (h : .tblValid ∈ changedElems i) : (∃ p, i = .frmEncPayload p) ∨
    (∃ p, i = .frmDecPayload p) ∨ i = .tblBuild ∨ i = .histNorm := by
  cases i <;> simp at h ⊢

theorem changes_xe (h : .xe ∈ changedElems i) :
    (∃ p, i = .frmEncPayload p) ∨ i = .encInit ∨ i = .encStep ∨ ∃ l, i = .encSym l := by
  cases i <;> simp at h ⊢

theorem changes_xd (h : .xd ∈ changedElems i) :
    (∃ p, i = .frmDecPayload p) ∨ i = .decStep ∨ ∃ l, i = .decInit l ∨ i = .decSym l := by
  cases i <;> simp at h ⊢

theorem changes_rd (h : .rd ∈ changedElems i) :
    (∃ p, i = .frmDecPayload p) ∨ i = .brInit ∨ i = .decStep ∨ (∃ n, i = .brRead n) ∨ ∃ l, i = .decSym l := by
  cases i <;> simp at h ⊢

theorem changes_wr (h : .wr ∈ changedElems i) :
    (∃ p, i = .frmEncPayload p) ∨ i = .bwInit ∨ i = .encStep ∨ (∃ n, i = .bwWrite n) ∨ ∃ l, i = .encSym l := by
  cases i <;> simp at h ⊢

theorem changes_hdr {e : Elem} (he : e ∈ [Elem.hdr, .hdrValid]) (h : e ∈ changedElems i) :
    (∃ p, i = .frmEncPayload p) ∨ i = .frmParse := by
  fin_cases he <;> cases i <;> simp at h ⊢

end

/-! ## The frame of a command -/

/-- The elements that the completion of a command may change (R231, R237). -/
def completionElems : List Elem := [.busy, .done, .err, .errcode, .errinfo]

section
variable {i : Instr} {s t : State} (h : exec i s = .next t) (hr : i ≠ .softReset)
include h hr

/-- A command changes its own elements, and those of a completion. -/
theorem exec_same : SameBut (changedElems i ++ completionElems) s t := by
  obtain ⟨u, hu, hut⟩ := exec_next h (ruleOf_changes hr s)
  exact hu.same.trans hut.same

theorem exec_changes_of_ne {e : Elem} (he : e ∉ completionElems) (hne : ¬e.Same s t) : e ∈ changedElems i :=
  (List.mem_append.mp ((exec_same h hr e).resolve_right hne)).resolve_right he

/-- A command stores to its own bytes only (R71). -/
theorem exec_stored : Stored (storedBytes s i) s.mem t.mem := by
  obtain ⟨u, hu, hut⟩ := exec_next h (ruleOf_changes hr s)
  have hm : t.mem = u.mem := hut.same.get .mem (by decide)
  exact hm ▸ hu.stored

theorem exec_sameOutside (hwf : s.mem.wf = true) {a n : Nat} (hR : ∀ x, storedBytes s i x → InRegion a n x) :
    SameOutside s t a n := fun x hx =>
  (exec_stored h hr).outside hwf x fun hb => by
    obtain ⟨h1, h2⟩ := hR x hb
    omega

/-- The operands, the platform and the host stay. -/
theorem exec_operand (e : Elem) (he : e ∈ operandElems) : e.Same s t := by
  have hcompletion : ∀ e ∈ operandElems, e ∉ completionElems := by decide
  by_contra hne
  exact operandElems_unchanged i e he (exec_changes_of_ne h hr (hcompletion e he) hne)

/-- The error record changes by `CLR_STATUS`, or by an error raised while none stands (R28, R29). -/
theorem exec_error (hc : i ≠ .clrStatus) :
    (t.errcode = s.errcode ∧ t.errinfo = s.errinfo ∧ t.status.err = s.status.err ∨
      s.status.err = false ∧ t.status.err = true) ∧ t.status.wbusy = s.status.wbusy := by
  obtain ⟨u, hu, hut⟩ := exec_next h (ruleOf_changes hr s)
  have same (e : Elem) (he : e ∈ [Elem.err, .wbusy, .errcode, .errinfo]) : e.Same s u :=
    hu.get e (errorElems_unchanged hc e he)
  have herr : u.status.err = s.status.err := same .err (by decide)
  have hcode : u.errcode = s.errcode := same .errcode (by decide)
  have hinfo : u.errinfo = s.errinfo := same .errinfo (by decide)
  have hw : u.status.wbusy = s.status.wbusy := same .wbusy (by decide)
  have hw' : t.status.wbusy = u.status.wbusy := hut.same.get .wbusy (by decide)
  exact ⟨by simpa only [herr, hcode, hinfo] using hut.error, hw'.trans hw⟩

end

/-- Settles O17: an element that differs is one of `changedElems`, a byte that differs one of `storedBytes`. -/
theorem onlyNamedCommandsChangeEachElement : Obligations.OnlyNamedCommandsChangeEachElement := by
  intro i s t h hr enc dec
  have operand := exec_operand h hr
  have changes {e : Elem} (he : e ∉ completionElems) (hne : ¬e.Same s t) : e ∈ changedElems i :=
    exec_changes_of_ne h hr he hne
  refine ⟨⟨operand .platform (by decide), operand .ctrl (by decide), operand .cfgN (by decide),
      operand .cmd (by decide), operand .arg0 (by decide), operand .arg1 (by decide), operand .arg2 (by decide),
      operand .arg3 (by decide), operand .host (by decide), operand .turns (by decide), operand .draws (by decide), ?_⟩,
    fun hne => changes_mem (changes (e := .mem) (by decide) hne), fun hwf => ?_,
    fun hne => changes_result (changes (e := .result) (by decide) hne),
    fun hne => changes_result1 (changes (e := .result1) (by decide) hne), fun hne => ?_, fun h1 h0 => ?_,
    fun hne => ?_, fun hne => ?_, fun hne => ?_,
    fun hne => changes_tblValid (changes (e := .tblValid) (by decide) hne),
    fun hne => changes_xe (changes (e := .xe) (by decide) hne),
    fun hne => changes_xd (changes (e := .xd) (by decide) hne),
    fun hne => changes_rd (changes (e := .rd) (by decide) hne),
    fun hne => changes_wr (changes (e := .wr) (by decide) hne), fun hne => ?_⟩
  · by_cases hc : i = .clrStatus
    · subst hc
      cases h
      simp
    · rw [(exec_error h hr hc).2]
      simp [hc]
  · have outside {a n : Nat} (hR : ∀ x, storedBytes s i x → InRegion a n x) : SameOutside s t a n :=
      exec_sameOutside h hr hwf hR
    refine ⟨?_, ?_, ?_, ?_, ?_, ?_, ?_⟩
    · rintro (⟨n, rfl⟩ | ⟨l, rfl⟩) <;> exact outside fun _ => id
    · rintro rfl
      exact outside fun _ => id
    · rintro rfl
      exact outside fun _ => id
    · rintro rfl
      exact outside fun _ => id
    · rintro rfl
      exact outside fun _ => id
    · rintro p rfl
      exact outside fun _ => id
    · rintro ⟨p, rfl⟩
      exact outside fun _ => id
  · by_cases hc : i = .clrStatus
    · exact .inl hc
    · rcases (exec_error h hr hc).1 with ⟨hcode, hinfo, -⟩ | herr
      · exact absurd hne (by simp [hcode, hinfo])
      · exact .inr herr
  · by_contra hc
    rcases (exec_error h hr hc).1 with ⟨-, -, herr⟩ | ⟨herr, -⟩
    · rw [herr, h1] at h0
      cases h0
    · rw [h1] at herr
      cases herr
  · rcases hne with hne | hne
    · exact changes_raw (e := .rawf) (by decide) (changes (by decide) hne)
    · exact changes_raw (e := .rawValid) (by decide) (changes (by decide) hne)
  · rcases hne with hne | hne | hne
    · exact changes_freq (e := .freq) (by decide) (changes (by decide) hne)
    · exact changes_freq (e := .histValid) (by decide) (changes (by decide) hne)
    · exact changes_freq (e := .fallback) (by decide) (changes (by decide) hne)
  · rcases hne with hne | hne | hne | hne
    · exact changes_tables (e := .sym) (by decide) (changes (by decide) hne)
    · exact changes_tables (e := .frq) (by decide) (changes (by decide) hne)
    · exact changes_tables (e := .cum) (by decide) (changes (by decide) hne)
    · exact changes_tables (e := .cums) (by decide) (changes (by decide) hne)
  · rcases hne with hne | hne
    · exact changes_hdr (e := .hdr) (by decide) (changes (by decide) hne)
    · exact changes_hdr (e := .hdrValid) (by decide) (changes (by decide) hne)

end Sys2Proof.Machine
end

section
/-!
SUPPORT. The error word (10_state.md R28) and what the reset input leaves (10_state.md R46; 70_reset_and_hazards.md R260).
-/
namespace Sys2Proof.Machine

/-! ## The error word -/

/-- A number below `2^k` joined with a shifted one is their sum. -/
theorem low_or_shift {a k : Nat} (h : a < 2 ^ k) (b : Nat) : a ||| b <<< k = a + b * 2 ^ k := by
  rw [Nat.shiftLeft_eq, Nat.or_comm, Nat.mul_comm b, ← Nat.two_pow_add_eq_or_of_lt h, Nat.add_comm]

theorem ErrCode.value_lt (c : ErrCode) : c.value < 256 := by cases c <;> decide

/-- The error word as a number (R28). -/
theorem Raised.word_toNat (e : Raised) (op : BitVec 8) (hsub : e.sub < 256) (hlane : e.lane < 32) :
    (e.word op).toNat = e.code.value + e.sub * 2 ^ 8 + e.lane * 2 ^ 16 + op.toNat * 2 ^ 24 := by
  have hcode := e.code.value_lt
  have hop := op.isLt
  have h1 : e.code.value ||| e.sub <<< 8 = e.code.value + e.sub * 2 ^ 8 := low_or_shift (by omega) _
  have h2 : (e.code.value ||| e.sub <<< 8) ||| e.lane <<< 16 = e.code.value + e.sub * 2 ^ 8 + e.lane * 2 ^ 16 := by
    rw [h1]
    exact low_or_shift (by omega) _
  rw [Raised.word, h2, low_or_shift (by omega), BitVec.toNat_ofNat]
  omega

/-- Settles O14: the bit fields of the recorded word, then the codes one by one. -/
theorem errorWordFields : Obligations.ErrorWordFields := by
  refine ⟨fun s op e herr hsub hlane => ?_, rfl, rfl, rfl, rfl, rfl, rfl, rfl, rfl, rfl, rfl, rfl, rfl, rfl⟩
  have hw : (s.raise op e).errcode = e.word op := by
    rw [State.raise_errcode, herr]
    rfl
  have hcode := e.code.value_lt
  have hop := op.isLt
  dsimp only
  rw [hw, Raised.word_toNat e op hsub hlane]
  omega

/-! ## Memory after a reset -/

/-- The addresses that a canonical memory lists are in the address space. -/
theorem Memory.lt_of_mem : ∀ {m : Memory} {lo : Nat}, Memory.wfFrom lo m = true → ∀ c ∈ m, c.1 < Config.memBytes
  | [], _, _, c, hc => by simp at hc
  | (k, b) :: m, lo, h, c, hc => by
    obtain ⟨-, hk, -, hm⟩ := Memory.wfFrom_cons.mp h
    rcases List.mem_cons.mp hc with rfl | hc
    · exact hk
    · exact Memory.lt_of_mem hm c hc

/-- One address of a reset's merge: the byte of `new` is taken over where `kept` picks it. -/
def mergeByte (kept : Nat → Bool) (new m : Memory) (c : Host.Cell) : Memory :=
  if kept c.1 then m.write c.1 (new.read c.1) else m

theorem mergeStores_eq (kept : Nat → Bool) (old new : Memory) :
    mergeStores kept old new = (old ++ new).foldl (mergeByte kept new) old := rfl

/-- After a merge over any addresses each byte is as before or as in `new`. -/
theorem read_foldl_mergeByte (kept : Nat → Bool) (new : Memory) (a : Nat) : ∀ (l : List Host.Cell) {m : Memory},
    (∀ c ∈ l, c.1 < Config.memBytes) → m.wf = true →
    (l.foldl (mergeByte kept new) m).read a = m.read a ∨ (l.foldl (mergeByte kept new) m).read a = new.read a
  | [], _, _, _ => .inl rfl
  | c :: l, m, hl, hm => by
    have hl' : ∀ d ∈ l, d.1 < Config.memBytes := fun d hd => hl d (List.mem_cons_of_mem c hd)
    rw [List.foldl_cons, mergeByte]
    split
    · have hm' := Memory.wf_write hm (hl c List.mem_cons_self) (new.read c.1)
      have ih := read_foldl_mergeByte kept new a l hl' hm'
      rw [Memory.read_write hm] at ih
      split at ih
      · rename_i ha
        subst ha
        exact .inr (ih.elim id id)
      · exact ih
    · exact read_foldl_mergeByte kept new a l hl' hm

/-- Each byte of a merge is that of one of the two memories (R260). -/
theorem read_mergeStores (kept : Nat → Bool) {old new : Memory} (ho : old.wf = true) (hn : new.wf = true) (a : Nat) :
    (mergeStores kept old new).read a = old.read a ∨ (mergeStores kept old new).read a = new.read a := by
  rw [mergeStores_eq]
  refine read_foldl_mergeByte kept new a _ (fun c hc => ?_) ho
  exact (List.mem_append.mp hc).elim (Memory.lt_of_mem ho c) (Memory.lt_of_mem hn c)

/-- Every command keeps the canonical form of memory. -/
theorem exec_memorySafe {i : Instr} {s t : State} (h : exec i s = .next t) (hs : MemorySafe s) : MemorySafe t := by
  by_cases hr : i = .softReset
  · subst hr
    cases h
    exact hs
  · exact (exec_stored h hr).wf hs

/-- The memory an abandoned command would leave is the one it found, or that of the command's whole run (R260). -/
theorem memoryAfterRun_cases (s : State) :
    memoryAfterRun s = s.mem ∨ ∃ i u, decode s.cmd = .ok i ∧ exec i s = .next u ∧ memoryAfterRun s = u.mem := by
  unfold memoryAfterRun
  cases h : runAccepted s with
  | fault f => exact .inl rfl
  | refused r => exact .inl rfl
  | next u =>
    unfold runAccepted at h
    split at h
    · rename_i i hi
      exact .inr ⟨i, u, hi, h, rfl⟩
    · cases h
      exact .inl (by simp)

/-- Settles O20: the registers by the reset values, memory byte by byte. -/
theorem hardwareResetRestoresResetValues : Obligations.HardwareResetRestoresResetValues := by
  intro s ts hts hwf
  have hstep : step s = resetMove (s.setTurns ts) := by rw [step, hts]; rfl
  rw [hstep]
  unfold resetMove
  split
  · rename_i hbusy
    refine ⟨_, rfl, rfl, fun hidle => ?_, fun a => ?_⟩
    · exact absurd (hidle.symm.trans hbusy) (by decide)
    · change (mergeStores (Config.resetKeepsStore s.draws) s.mem (memoryAfterRun (s.setTurns ts))).read a = _ ∨
        ∃ i u, _ ∧ _ ∧ (mergeStores (Config.resetKeepsStore s.draws) s.mem
          (memoryAfterRun (s.setTurns ts))).read a = _
      rcases memoryAfterRun_cases (s.setTurns ts) with hm | ⟨i, u, hi, hu, hm⟩
      · rw [hm]
        exact .inl ((read_mergeStores _ hwf hwf a).elim id id)
      · rw [hm]
        exact (read_mergeStores _ hwf (exec_memorySafe hu hwf) a).imp_right fun h => ⟨i, u, hi, hu, h⟩
  · exact ⟨_, rfl, rfl, fun _ => rfl, fun _ => .inl rfl⟩

end Sys2Proof.Machine
end

section
/-!
SUPPORT. What the host reads from and writes to the registers (10_state.md R23 to R38).
-/
namespace Sys2Proof.Machine

/-! ## Reads -/

theorem csrRead_steady {off : Nat} (h : changesWhileBusy off = false) (s : State) :
    csrRead off s = (s.csrValue off, s) := by simp [csrRead, h]

theorem csrRead_idle {s : State} (h : s.status.busy = false) (off : Nat) : csrRead off s = (s.csrValue off, s) := by
  simp [csrRead, h]

theorem csrRead_free {s : State} {off : Nat} (h : s.status.busy = true) (hoff : changesWhileBusy off = true) :
    csrRead off s = (Config.freeCsrRead s.draws, { s with draws := s.draws + 1 }) := by
  simp [csrRead, h, hoff, State.setDraws]

/-- Reserved offsets read 0 (R23). -/
theorem csrValue_reserved (s : State) {off : Nat} (h : off = 0x05C ∨ (0x07C ≤ off ∧ off < 0x100) ∨ 0x200 ≤ off) :
    s.csrValue off = 0 := by
  rw [State.csrValue]
  · rw [if_neg (by omega), if_neg (by omega)]
  all_goals omega

theorem changesWhileBusy_eq_true {off : Nat} : changesWhileBusy off = true ↔
    (0x010 ≤ off ∧ off < 0x024) ∨ (0x034 ≤ off ∧ off < 0x05C) ∨ (0x100 ≤ off ∧ off < 0x200) := by
  simp [changesWhileBusy, or_assoc]

theorem changesWhileBusy_eq_false {off : Nat} : changesWhileBusy off = false ↔
    ¬((0x010 ≤ off ∧ off < 0x024) ∨ (0x034 ≤ off ∧ off < 0x05C) ∨ (0x100 ≤ off ∧ off < 0x200)) := by
  rw [← changesWhileBusy_eq_true, Bool.not_eq_true]

/-- The encoder lanes stand from 0x100 up, the decoder lanes from 0x180 up (R36). -/
theorem csrValue_lanes (s : State) (j : Fin 32) :
    s.csrValue (0x100 + 4 * j.val) = s.xe[j] ∧ s.csrValue (0x180 + 4 * j.val) = s.xd[j] := by
  have hj := j.isLt
  constructor
  · rw [State.csrValue]
    · rw [if_pos (by omega), show (0x100 + 4 * j.val - 0x100) / 4 = j.val by omega, entryAt_lt _ _ hj]
      rfl
    all_goals omega
  · rw [State.csrValue]
    · rw [if_neg (by omega), if_pos (by omega), show (0x180 + 4 * j.val - 0x180) / 4 = j.val by omega,
        entryAt_lt _ _ hj]
      rfl
    all_goals omega

/-! ## `STATUS` -/

theorem bitAt_getLsbD (b : Bool) {j : Nat} (hj : j < 32) (k : Nat) :
    (bitAt b j).getLsbD k = (b && decide (j = k)) := by
  cases b with
  | false => simp [bitAt]
  | true =>
    have hpow : bitAt true j = BitVec.twoPow 32 j := rfl
    rw [hpow, BitVec.getLsbD_twoPow, decide_eq_true hj]

/-- Each bit of `STATUS` stands at its place (R27). -/
theorem statusWord_getLsbD (s : State) (k : Nat) :
    s.statusWord.getLsbD k = ((s.status.busy && decide (0 = k)) || (s.status.done && decide (1 = k)) ||
      (s.status.err && decide (2 = k)) || (s.status.wbusy && decide (3 = k)) ||
      (s.status.rawValid && decide (4 = k)) || (s.status.histValid && decide (5 = k)) ||
      (s.status.tblValid && decide (6 = k)) || (s.status.hdrValid && decide (7 = k)) ||
      (s.wpend && decide (8 = k)) || (s.status.fallback && decide (9 = k))) := by
  simp (disch := decide) only [State.statusWord, BitVec.getLsbD_or, bitAt_getLsbD]

theorem statusWord_high (s : State) {k : Nat} (hk : 10 ≤ k) : s.statusWord.getLsbD k = false := by
  have ne (j : Nat) (hj : j < 10) : decide (j = k) = false := decide_eq_false (by omega)
  rw [statusWord_getLsbD]
  simp [ne]

theorem State.wpend_eq (s : State) : s.wpend = decide (s.wr.cnt.toNat ≠ 0) := by
  simp [State.wpend, ← BitVec.toNat_inj]

/-- `CTRL` as a number (R25). -/
theorem ctrl_word (ie dir : Bool) :
    bitAt ie 0 ||| bitAt dir 1 = BitVec.ofNat 32 ((if ie then 1 else 0) + (if dir then 2 else 0)) := by
  cases ie <;> cases dir <;> decide

/-- `RD_CNT` and `RD_DIR` in one word (R33). -/
theorem reader_word (cnt : BitVec 5) (dir : Bool) :
    cnt.setWidth 32 ||| bitAt dir 8 = BitVec.ofNat 32 (cnt.toNat + (if dir then 256 else 0)) := by
  revert cnt
  cases dir <;> decide

theorem setWidth_word {k : Nat} (v : BitVec k) : v.setWidth 32 = BitVec.ofNat 32 v.toNat := by
  apply BitVec.eq_of_toNat_eq
  simp

/-- Settles O7, offset by offset. -/
theorem csrReadsReturnTheRegisters : Obligations.CsrReadsReturnTheRegisters := by
  intro s
  have steady (off : Nat) (h : changesWhileBusy off = false) : csrRead off s = (s.csrValue off, s) :=
    csrRead_steady h s
  refine ⟨⟨steady _ (by decide), ?_, ?_, steady _ (by decide), steady _ (by decide), steady _ (by decide),
    steady _ (by decide), steady _ (by decide), steady _ (by decide), steady _ (by decide), steady _ (by decide),
    steady _ (by decide), steady _ (by decide), steady _ (by decide), fun off h => ?_⟩, ?_, fun hidle => ?_⟩
  · rw [steady _ (by decide), ← ctrl_word]
    rfl
  · rw [steady _ (by decide), ← setWidth_word]
    rfl
  · rw [steady off (changesWhileBusy_eq_false.mpr (by omega)), csrValue_reserved s h]
  · rw [steady _ (by decide)]
    have hv : s.csrValue 0x00C = s.statusWord := rfl
    dsimp only
    rw [hv]
    have bit := statusWord_getLsbD s
    refine ⟨rfl, ?_, ?_, ?_, ?_, ?_, fun k hk => statusWord_high s hk, fun _ => ⟨?_, ?_, ?_, ?_, ?_⟩⟩
    all_goals
      rw [bit]
      simp [State.wpend_eq]
  · have idle := csrRead_idle hidle
    refine ⟨idle _, idle _, idle _, idle _, idle _, idle _, idle _, idle _, idle _, ?_, idle _, idle _, idle _,
      idle _, ?_, fun j => ⟨?_, ?_⟩⟩
    · rw [idle, ← reader_word]
      rfl
    · rw [idle, ← setWidth_word]
      rfl
    · rw [idle, (csrValue_lanes s j).1]
    · rw [idle, (csrValue_lanes s j).2]

/-! ## Writes -/

theorem csrWrite_busy {s : State} (h : s.status.busy = true) (off : Nat) (v : Word) :
    csrWrite off v s = { s with status := { s.status with wbusy := true } } := by
  unfold csrWrite
  rw [if_pos h]
  rfl

/-- Read-only and reserved offsets ignore writes (R23, R38). -/
theorem csrWrite_ignored {s : State} (hidle : s.status.busy = false) {off : Nat} (v : Word)
    (h : off = 0x000 ∨ (0x010 ≤ off ∧ off < 0x018) ∨ (0x01C ≤ off ∧ off < 0x024) ∨ (0x034 ≤ off ∧ off < 0x060) ∨
      0x07C ≤ off) : csrWrite off v s = s := by
  rw [csrWrite, if_neg (by simp [hidle])]
  all_goals omega

theorem writeStatus_eq (s : State) (v : Word) :
    s.writeStatus v =
      { s with
        errcode := if v.getLsbD 2 then 0 else s.errcode
        errinfo := if v.getLsbD 2 then 0 else s.errinfo
        status := s.status.writeOneClears v } := by
  unfold State.writeStatus
  cases v.getLsbD 2 <;> rfl

/-- The two bits of `CTRL` written, as they read (R25). -/
theorem ctrl_word_of_write (v : Word) : bitAt (v.getLsbD 0) 0 ||| bitAt (v.getLsbD 1) 1 = v &&& 3 := by
  apply BitVec.eq_of_getLsbD_eq
  intro k hk
  have h3 : (3 : Word).getLsbD k = (decide (0 = k) || decide (1 = k)) := by
    revert k
    decide
  rw [BitVec.getLsbD_or, BitVec.getLsbD_and, bitAt_getLsbD _ (by decide), bitAt_getLsbD _ (by decide), h3]
  by_cases h0 : 0 = k
  · subst h0
    simp
  · by_cases h1 : 1 = k
    · subst h1
      simp
    · simp [h0, h1]

/-- A write while no command runs goes by the register's own rule (R38). -/
theorem csrWrite_idle {s : State} (hidle : s.status.busy = false) (v : Word) :
    csrWrite 0x004 v s = s.writeCtrl v ∧ csrWrite 0x008 v s = s.writeCfg v ∧ csrWrite 0x00C v s = s.writeStatus v ∧
      csrWrite 0x024 v s = { s with arg0 := v } ∧ csrWrite 0x028 v s = { s with arg1 := v } ∧
      csrWrite 0x02C v s = { s with arg2 := v } ∧ csrWrite 0x030 v s = { s with arg3 := v } ∧
      csrWrite 0x060 v s = s.writeHdr { s.hdr with w := v } ∧ csrWrite 0x064 v s = s.writeHdr { s.hdr with h := v } ∧
      csrWrite 0x068 v s = s.writeHdr { s.hdr with pb := v } ∧
      csrWrite 0x06C v s = s.writeHdr { s.hdr with sy := v } ∧
      csrWrite 0x070 v s = s.writeHdr { s.hdr with sc := v } ∧
      csrWrite 0x074 v s = s.writeHdr { s.hdr with sp := v } ∧
      csrWrite 0x078 v s = s.writeHdr { s.hdr with si := v } := by
  simp [csrWrite, hidle]

/-- Settles O8, from what a write does at each offset (`csrWrite_idle`). -/
theorem hostRegisterWrites : Obligations.HostRegisterWrites := by
  intro s v hidle
  obtain ⟨hctrl, -, hstatus, h0, h1, h2, h3, hw, hh, hpb, hsy, hsc, hsp, hsi⟩ := csrWrite_idle hidle v
  refine ⟨⟨hctrl, ?_⟩, hstatus.trans (writeStatus_eq s v), h0, h1, h2, h3,
    ⟨hw, hh, hpb, hsy, hsc, hsp, hsi⟩, fun off h => csrWrite_ignored hidle v h⟩
  rw [hctrl, csrRead_steady (by decide)]
  exact ctrl_word_of_write v

/-- A write of `CFG` by the number written (R26). -/
theorem writeCfg_eq (s : State) (v : Word) :
    s.writeCfg v =
      { s with
        cfgN := if v.toNat % 64 = 0 ∨ 32 < v.toNat % 64 then s.cfgN else BitVec.ofNat 6 v.toNat
        status := { s.status with hdrValid := false } } := by
  have hv : (v.setWidth 6).toNat = v.toNat % 64 := BitVec.toNat_setWidth 6 v
  unfold State.writeCfg
  dsimp only
  rw [hv]
  by_cases h : v.toNat % 64 = 0 ∨ 32 < v.toNat % 64
  · rw [if_pos h, if_neg (by simp only [Config.NMAX]; omega)]
    rfl
  · rw [if_neg h, if_pos (by simp only [Config.NMAX]; omega)]
    rfl

/-- Settles O9, from `writeCfg_eq` and the word that `CFG` reads. -/
theorem cfgHoldsALegalInterleaveFactor : Obligations.CfgHoldsALegalInterleaveFactor := by
  refine ⟨rfl, fun s v hidle => ?_⟩
  obtain ⟨-, hcfg, -⟩ := csrWrite_idle hidle v
  refine ⟨hcfg.trans (writeCfg_eq s v), ?_⟩
  have hread (t : State) : (csrRead 0x008 t).1 = BitVec.ofNat 32 t.cfgN.toNat := by
    rw [csrRead_steady (by decide), ← setWidth_word]
    rfl
  rw [hread, hcfg, writeCfg_eq]
  dsimp only
  split
  · rfl
  · rw [BitVec.toNat_ofNat]

/-- Settles O10: the drop, the registers that read as they are, and the free draw. -/
theorem csrAccessesWhileBusy : Obligations.CsrAccessesWhileBusy := by
  intro s off v hbusy
  refine ⟨csrWrite_busy hbusy off v, fun h => csrRead_steady ?_ s,
    fun h => csrRead_free hbusy (changesWhileBusy_eq_true.mpr (by omega))⟩
  revert off
  decide

end Sys2Proof.Machine
end

section
/-!
SUPPORT. A run that uses no byte of a region runs alike whatever the region holds (20_memory.md R70.4).
-/
namespace Sys2Proof.Machine

theorem Size.bytes_pos (n : Size) : 0 < n.bytes := by cases n <;> decide

theorem ruleOf_setMem (i : Instr) (s : State) (m : Memory) : ruleOf i { s with mem := m } = ruleOf i s := by
  cases i <;> rfl

/-- `m'`, the memory after a run from `m`, beside `u`, the memory after the same run from another one: outside the region
the two are the same, and in it `m'` is still `m` (R70.4). -/
structure RanBeside (a n : Nat) (m u m' : Memory) : Prop where
  wf : m'.wf = true
  outside : ∀ b, (b < a ∨ a + n ≤ b) → m'.read b = u.read b
  inside : ∀ b, a ≤ b → b < a + n → m'.read b = m.read b

/-- A store to the region may as well come after the run as before it. -/
theorem RanBeside.writeLE {a n v : Nat} {m m' mw' : Memory} (h : RanBeside a n m m' m')
    (hw : RanBeside a n (m.writeLE a v n) m' mw') (hm : m.wf = true) (ha : a + n ≤ Config.memBytes) :
    m'.writeLE a v n = mw' := by
  refine Memory.ext_of_wf (Memory.wf_writeLE n h.wf ha) hw.wf fun b => ?_
  rw [Memory.read_writeLE n a v b h.wf ha]
  split
  · rename_i hb
    rw [hw.inside b hb.1 hb.2, Memory.read_writeLE n a v b hm ha, if_pos hb]
  · rename_i hb
    rw [hw.outside b (by omega)]

/-- An error and its completion neither see nor change memory. -/
theorem State.raise_complete_setMem (s : State) (m : Memory) (op : BitVec 8) (e : Raised) :
    (State.raise { s with mem := m } op e).complete = { (s.raise op e).complete with mem := m } := by
  have h := State.raise_complete_beside s s.platform m op e
  have hp : (s.raise op e).complete.platform = s.platform := by simp
  exact h.trans (by rw [← hp])

/-- The end of a rule: well, or by the stop given. -/
def Cmd.ended (r : Option Stop) (t : State) : EStateM.Result Stop State Unit :=
  match r with
  | none => .ok () t
  | some e => .error e t

/-- How a rule that does not use a region ends: alike from every memory that agrees outside the region. -/
theorem Cmd.Local.unused {c : Cmd Unit} (hc : Cmd.Local c) {s : State} {a n : Nat} (hn : 0 < n)
    (hs : s.mem.wf = true) (hu : Cmd.uses c s a n = false) :
    ∃ (t : State) (r : Option Stop), ∀ m, m.wf = true → (∀ b, (b < a ∨ a + n ≤ b) → m.read b = s.mem.read b) →
      ∃ m', RanBeside a n m t.mem m' ∧ c { s with mem := m } = Cmd.ended r { t with mem := m' } := by
  have unused {e : Raised} {y : Access} {t : State}
      (h0 : c { s with platform := s.platform.shut a n } = .error (.raised e (some y)) t)
      (hy : s.platform.accessError y.addr y.size y.kind = none) : False := by
    have := (Cmd.uses_iff c s a n).mpr ⟨e, y, t, h0, hy⟩
    rw [hu] at this
    cases this
  rcases hc s s.mem a n hn hs hs fun _ _ => rfl with ⟨e, y, t, h0, hy⟩ | ⟨_, t, -, h0, -, -⟩ | ⟨e, t, -, h0, -, -⟩
  · exact (unused h0 hy).elim
  · refine ⟨{ t with platform := s.platform }, none, fun m hm hout => ?_⟩
    rcases hc s m a n hn hs hm hout with ⟨e, y, u, g0, hy⟩ | ⟨_, u, m', g0, g1, gb⟩ | ⟨e, u, m', g0, g1, gb⟩
    · exact (unused g0 hy).elim
    · cases h0.symm.trans g0
      exact ⟨m', ⟨gb.wf', gb.outside, fun b h1 h2 => (gb.inside b h1 h2).2⟩, g1⟩
    · cases h0.symm.trans g0
  · refine ⟨{ t with platform := s.platform }, some e, fun m hm hout => ?_⟩
    rcases hc s m a n hn hs hm hout with ⟨e, y, u, g0, hy⟩ | ⟨_, u, m', g0, g1, gb⟩ | ⟨e, u, m', g0, g1, gb⟩
    · exact (unused g0 hy).elim
    · cases h0.symm.trans g0
    · cases h0.symm.trans g0
      exact ⟨m', ⟨gb.wf', gb.outside, fun b h1 h2 => (gb.inside b h1 h2).2⟩, g1⟩

/-- A command whose rule ends alike beside other memory completes alike. -/
theorem runCommand_beside {op : BitVec 8} {c : Cmd Unit} {s s' t u : State} {r : Option Stop} {m m' : Memory}
    (h : c s = Cmd.ended r { u with mem := m }) (h' : c s' = Cmd.ended r { u with mem := m' })
    (ht : runCommand op c s = .next t) : t.mem = m ∧ runCommand op c s' = .next { t with mem := m' } := by
  match r with
  | none =>
    rw [runCommand_ok h] at ht
    cases ht
    exact ⟨rfl, runCommand_ok h'⟩
  | some (.raised e x) =>
    rw [runCommand_raised h] at ht
    cases ht
    refine ⟨by simp, (runCommand_raised h').trans (congrArg _ ?_)⟩
    rw [State.raise_complete_setMem u m' op e, State.raise_complete_setMem u m op e]
  | some (.fault f) =>
    have h0 : c s = .error (.fault f) { u with mem := m } := h
    simp [runCommand, h0] at ht

/-- What a running command leaves beside another memory that agrees outside a region it does not use (R70.4). -/
theorem runAccepted_beside {s t : State} {a n : Nat} (hn : 0 < n) (hs : s.mem.wf = true)
    (hbusy : s.status.busy = true) (hrace : s.racesWith a n = false) (ht : runAccepted s = .next t) :
    RanBeside a n s.mem t.mem t.mem ∧ ∀ m, m.wf = true → (∀ b, (b < a ∨ a + n ≤ b) → m.read b = s.mem.read b) →
      ∃ m', RanBeside a n m t.mem m' ∧ runAccepted { s with mem := m } = .next { t with mem := m' } := by
  unfold runAccepted at ht ⊢
  cases hi : decode s.cmd with
  | error e =>
    simp only [hi] at ht ⊢
    cases ht
    have hm : (s.raise (opcodeBits s.cmd) (decodeRaised e s.cmd)).complete.mem = s.mem := by simp
    rw [hm]
    exact ⟨⟨hs, fun _ _ => rfl, fun _ _ _ => rfl⟩, fun m hm hout => ⟨m, ⟨hm, hout, fun _ _ _ => rfl⟩,
      congrArg _ (State.raise_complete_setMem s m _ _)⟩⟩
  | ok i =>
    simp only [hi] at ht ⊢
    rw [State.racesWith_of_busy hbusy hi] at hrace
    rw [exec_eq_runCommand] at ht
    obtain ⟨u, r, hrun⟩ := Cmd.Local.unused (ruleOf_local i s) hn hs hrace
    obtain ⟨m0, hb0, h0⟩ := hrun s.mem hs fun _ _ => rfl
    have beside (m : Memory) (hm : m.wf = true) (hout : ∀ b, (b < a ∨ a + n ≤ b) → m.read b = s.mem.read b) :
        ∃ m', RanBeside a n m t.mem m' ∧ exec i { s with mem := m } = .next { t with mem := m' } := by
      obtain ⟨m', hb, h1⟩ := hrun m hm hout
      obtain ⟨htm, hnext⟩ := runCommand_beside h0 h1 ht
      refine ⟨m', ⟨hb.wf, fun b hbo => ?_, hb.inside⟩, ?_⟩
      · rw [hb.outside b hbo, htm, hb0.outside b hbo]
      · rw [exec_eq_runCommand, ruleOf_setMem]
        exact hnext
    have htm := (runCommand_beside h0 h0 ht).1
    exact ⟨htm ▸ ⟨hb0.wf, fun _ _ => rfl, hb0.inside⟩, beside⟩

/-- A running command ends with the platform as it was and `BUSY = 0` (R237). -/
theorem runAccepted_completed {s t : State} (h : runAccepted s = .next t) :
    t.platform = s.platform ∧ t.status.busy = false := by
  unfold runAccepted at h
  split at h
  · rename_i i _
    by_cases hr : i = .softReset
    · subst hr
      cases h
      exact ⟨rfl, rfl⟩
    · obtain ⟨u, -, hut⟩ := exec_next h (ruleOf_changes hr s)
      exact ⟨exec_operand h hr .platform (by decide), hut.idle⟩
  · cases h
    simp

theorem racesWith_idle {s : State} (h : s.status.busy = false) (a n : Nat) : s.racesWith a n = false := by
  simp [State.racesWith, h]

/-! ## The host's accesses -/

theorem HostAgent.getVar_setVar_same (h : HostAgent) (x : Nat) (v : Word) : (h.setVar x v).getVar x = v := by
  simp [HostAgent.getVar, HostAgent.setVar]

theorem HostAgent.getVar_setVar_ne (h : HostAgent) {x y : Nat} (hy : y ≠ x) (v : Word) :
    (h.setVar x v).getVar y = h.getVar y := by
  have hbeq : (y == x) = false := by simpa using hy
  have key : ∀ l : List (Nat × Word), (l.filter fun p => decide (p.1 ≠ x)).lookup y = l.lookup y := by
    intro l
    induction l with
    | nil => rfl
    | cons p l ih =>
      by_cases hp : p.1 = x
      · have : (y == p.1) = false := by rw [hp]; exact hbeq
        rw [List.filter_cons_of_neg (by simp [hp]), ih, List.lookup_cons, this]
      · rw [List.filter_cons_of_pos (by simp [hp]), List.lookup_cons, List.lookup_cons, ih]
  simp only [HostAgent.getVar, HostAgent.setVar, List.lookup_cons, hbeq, key]

/-- The host after a read into `x` (R87). -/
theorem hostResult_eq (s : State) (x : Nat) (v : Word) :
    s.hostResult x v = { s with host := (s.hostResult x v).host } ∧ (s.hostResult x v).host.getVar x = v ∧
      (∀ y, y ≠ x → (s.hostResult x v).host.getVar y = s.host.getVar y) ∧
      (s.hostResult x v).host.prog = s.host.prog ∧ (s.hostResult x v).host.pos = s.host.pos + 1 :=
  ⟨rfl, s.host.getVar_setVar_same x v, fun _ hy => s.host.getVar_setVar_ne hy v, rfl, rfl⟩

section
variable {n : Size} {a : Nat} {s : State}

theorem hostWrite_memory (hn : n ≠ .b8) (hwin : overlaps a n.bytes s.platform.csrBase 4096 = false)
    (hle : a + n.bytes ≤ 2 ^ 32) (hrace : s.racesWith a n.bytes = false) (v : Word) :
    hostWrite n a v s = .next (s.setMem (s.mem.writeLE a v.toNat n.bytes)) := by
  have hle' : ¬Config.memBytes < a + n.bytes := Nat.not_lt.mpr hle
  simp [hostWrite, hn, Config.csrBytes, hwin, hle', hrace]

theorem hostRead_memory (hn : n ≠ .b8) (hwin : overlaps a n.bytes s.platform.csrBase 4096 = false)
    (hle : a + n.bytes ≤ 2 ^ 32) (hrace : s.racesWith a n.bytes = false) (x : Nat) :
    hostRead n a x s = .next (s.hostResult x (BitVec.ofNat 32 (s.mem.readLE a n.bytes))) := by
  have hle' : ¬Config.memBytes < a + n.bytes := Nat.not_lt.mpr hle
  simp [hostRead, hn, Config.csrBytes, hwin, hle', hrace]

theorem hostAccess_race (hn : n ≠ .b8) (hwin : overlaps a n.bytes s.platform.csrBase 4096 = false)
    (hle : a + n.bytes ≤ 2 ^ 32) (hrace : s.racesWith a n.bytes = true) (v : Word) (x : Nat) :
    hostWrite n a v s = .refused .hostRace ∧ hostRead n a x s = .refused .hostRace := by
  have hle' : ¬Config.memBytes < a + n.bytes := Nat.not_lt.mpr hle
  simp [hostWrite, hostRead, hn, Config.csrBytes, hwin, hle', hrace]

theorem hostAccess_pastEnd (hn : n ≠ .b8) (hwin : overlaps a n.bytes s.platform.csrBase 4096 = false)
    (hlt : 2 ^ 32 < a + n.bytes) (v : Word) (x : Nat) :
    hostWrite n a v s = .fault .hostAccessPastEnd ∧ hostRead n a x s = .fault .hostAccessPastEnd := by
  have hlt' : Config.memBytes < a + n.bytes := hlt
  simp [hostWrite, hostRead, hn, Config.csrBytes, hwin, hlt']

theorem hostAccess_window_refused (hwin : overlaps a n.bytes s.platform.csrBase 4096 = true)
    (h : ¬(n = .b4 ∧ a % 4 = 0)) (v : Word) (x : Nat) :
    hostWrite n a v s = .refused .hostAccessWidth ∧ hostRead n a x s = .refused .hostAccessWidth := by
  by_cases hn : n = .b8
  · simp [hostWrite, hostRead, hn]
  · simp [hostWrite, hostRead, hn, Config.csrBytes, hwin, h]

theorem hostAccess_csr (hwin : overlaps a n.bytes s.platform.csrBase 4096 = true) (hn : n = .b4) (ha : a % 4 = 0)
    (v : Word) (x : Nat) :
    hostWrite n a v s = .next (csrWrite (a - s.platform.csrBase) v s) ∧
      hostRead n a x s =
        .next ((csrRead (a - s.platform.csrBase) s).2.hostResult x (csrRead (a - s.platform.csrBase) s).1) := by
  subst hn
  simp [hostWrite, hostRead, Config.csrBytes, hwin, ha]

/-- A write to bytes that the running command does not use may as well come after the command (R70.4). -/
theorem hostWrite_sequencerMove_comm {t : State} (hn : n ≠ .b8)
    (hwin : overlaps a n.bytes s.platform.csrBase 4096 = false) (hle : a + n.bytes ≤ 2 ^ 32)
    (hrace : s.racesWith a n.bytes = false) (hs : s.mem.wf = true) (hbusy : s.status.busy = true)
    (ht : sequencerMove s = .next t) (v : Word) :
    t.mem.readLE a n.bytes = s.mem.readLE a n.bytes ∧
      ∃ u w, hostWrite n a v s = .next u ∧ sequencerMove u = .next w ∧ hostWrite n a v t = .next w := by
  have hrun : runAccepted s = .next t := by rwa [sequencerMove, if_pos hbusy] at ht
  obtain ⟨hself, hbeside⟩ := runAccepted_beside n.bytes_pos hs hbusy hrace hrun
  have hmw : (s.mem.writeLE a v.toNat n.bytes).wf = true := Memory.wf_writeLE _ hs hle
  obtain ⟨m', hb, hnext⟩ := hbeside _ hmw fun b hb => Memory.read_writeLE_outside _ a v.toNat b hs hle hb
  have hcomm : t.mem.writeLE a v.toNat n.bytes = m' := hself.writeLE hb hs hle
  obtain ⟨hplat, hidle⟩ := runAccepted_completed hrun
  refine ⟨Memory.readLE_congr _ a fun k hk => hself.inside _ (by omega) (by omega), _, { t with mem := m' },
    hostWrite_memory hn hwin hle hrace v, ?_, ?_⟩
  · rw [sequencerMove]
    exact (if_pos hbusy).trans hnext
  · rw [hostWrite_memory hn (hplat ▸ hwin) hle (racesWith_idle hidle a n.bytes), hcomm]
    rfl

end

end Sys2Proof.Machine
end

section
/-!
SUPPORT. Which bytes a command's run uses: the accesses that the run makes in order, up to the first that the platform
refuses (20_memory.md R69 to R71).
-/
namespace Sys2Proof.Machine

/-! ## Runs that make no access -/

/-- The rule never ends at an access. -/
def Cmd.Quiet {α : Type} (c : Cmd α) : Prop :=
  ∀ s, Cmd.Ends c s (fun _ _ => True) fun e _ => ∀ r x, e ≠ .raised r (some x)

theorem Cmd.Quiet.pure {α : Type} (v : α) : Cmd.Quiet (Pure.pure v : Cmd α) := fun _ => .pure trivial

theorem Cmd.Quiet.modify (f : State → State) : Cmd.Quiet (modify f : Cmd PUnit) := fun _ => .modify trivial

theorem Cmd.Quiet.getState {β : Type} {f : State → Cmd β} (h : ∀ s, Cmd.Quiet (f s)) :
    Cmd.Quiet (Machine.getState >>= f) := fun s => .getState (h s s)

theorem Cmd.Quiet.require {β : Type} {p : Prop} [Decidable p] {r : Raised} {f : Unit → Cmd β}
    (h : Cmd.Quiet (f ())) : Cmd.Quiet (Machine.require p r >>= f) := fun s =>
  .require (fun _ _ _ => by simp) fun _ => h s

theorem Cmd.Quiet.bind {α β : Type} {c : Cmd α} {f : α → Cmd β} (hc : Cmd.Quiet c) (hf : ∀ v, Cmd.Quiet (f v)) :
    Cmd.Quiet (c >>= f) := fun s => .bind (Cmd.Ends.mono (hc s) (fun v t _ => hf v t) fun _ _ => id)

theorem Cmd.Quiet.guardArray {α : Type} (valid : Bool) (v : α) : Cmd.Quiet (Machine.guardArray valid v) := fun s => by
  cases valid
  · exact .of_error rfl (by simp)
  · exact .of_ok rfl trivial

theorem readRaw_quiet : Cmd.Quiet readRaw := .getState fun _ => .guardArray _ _

theorem readFreq_quiet : Cmd.Quiet readFreq := .getState fun _ => .guardArray _ _

theorem readSlot_quiet (slot : Nat) : Cmd.Quiet (readSlot slot) := .getState fun _ => .guardArray _ _

theorem checkLane_quiet (lane : Nat) : Cmd.Quiet (checkLane lane) := fun s => by
  rcases Nat.lt_or_ge lane s.lanes with h | h
  · exact .of_ok (checkLane_ok h) trivial
  · exact .of_error (checkLane_bad h) (by simp)

/-- The rules of the commands that make no access (R71). -/
theorem ruleOf_quiet {i : Instr} (h : i ∈ [.nop, .softReset, .clrStatus, .brInit, .bwInit, .histNorm, .rawQuery,
    .freqQuery, .tblBuild, .tblQuery, .encInit] ∨ ∃ l, i = .decInit l) (s : State) : Cmd.Quiet (ruleOf i s) := by
  cases i with
  | nop => exact .pure ()
  | softReset => exact .modify fun s => { s.resetElements with cmd := s.cmd }
  | clrStatus => exact .modify _
  | brInit => exact .require (.modify _)
  | bwInit => exact .require (.modify _)
  | histNorm => exact .getState fun _ => .require (readRaw_quiet.bind fun _ => .require (.require (.modify _)))
  | rawQuery => exact .getState fun _ => .require (.require (readRaw_quiet.bind fun _ => .modify _))
  | freqQuery => exact .getState fun _ => .require (.require (readFreq_quiet.bind fun _ => .modify _))
  | tblBuild => exact .getState fun _ => .require (readFreq_quiet.bind fun _ => .modify _)
  | tblQuery => exact .getState fun _ => .require (.require ((readSlot_quiet _).bind fun _ => .modify _))
  | encInit => exact .modify _
  | decInit l => exact (checkLane_quiet l).bind fun _ => .require (.modify _)
  | _ => simp at h

/-! ## Runs that make a list of accesses -/

/-- The first access of a list that the platform refuses. -/
def Platform.firstRefused (p : Platform) (L : List Access) : Option Access :=
  L.find? fun x => (p.accessError x.addr x.size x.kind).isSome

/-- The rule makes the accesses of the list in order, whatever the state: it ends well where the platform answers all of
them, and else at the first that the platform refuses (R69). -/
def Cmd.Makes {α : Type} (c : Cmd α) (L : List Access) : Prop :=
  ∀ s : State, (s.platform.firstRefused L = none → ∃ v t, c s = .ok v t ∧ t.platform = s.platform) ∧
    ∀ x, s.platform.firstRefused L = some x → ∃ e t, c s = .error (.raised e (some x)) t

theorem Platform.firstRefused_one (p : Platform) (x : Access) :
    (p.firstRefused [x] = none ↔ p.accessError x.addr x.size x.kind = none) ∧
      ∀ y, p.firstRefused [x] = some y → y = x ∧ p.accessError x.addr x.size x.kind ≠ none := by
  unfold Platform.firstRefused
  cases h : p.accessError x.addr x.size x.kind <;> simp [h]

theorem Platform.firstRefused_append (p : Platform) (L L' : List Access) :
    p.firstRefused (L ++ L') = (p.firstRefused L).or (p.firstRefused L') := List.find?_append

theorem Cmd.Makes.pure {α : Type} (v : α) : Cmd.Makes (Pure.pure v : Cmd α) [] :=
  fun s => ⟨fun _ => ⟨v, s, rfl, rfl⟩, fun _ h => nomatch h⟩

theorem Cmd.Makes.memRead (a : Nat) (n : Size) (lane : Nat) :
    Cmd.Makes (Machine.memRead a n lane) [⟨.read, a, n⟩] := fun s => by
  obtain ⟨hnone, hsome⟩ := s.platform.firstRefused_one ⟨.read, a, n⟩
  rcases memRead_cases a n lane s with ⟨h, hc⟩ | ⟨e, h, hc⟩
  · exact ⟨fun _ => ⟨_, s, hc, rfl⟩, fun x hx => absurd h (hsome x hx).2⟩
  · refine ⟨fun hx => ?_, fun x hx => ?_⟩
    · cases (hnone.mp hx).symm.trans h
    · obtain ⟨rfl, -⟩ := hsome x hx
      exact ⟨_, s, hc⟩

theorem Cmd.Makes.memWrite (a v : Nat) (n : Size) (lane : Nat) :
    Cmd.Makes (Machine.memWrite a n v lane) [⟨.write, a, n⟩] := fun s => by
  obtain ⟨hnone, hsome⟩ := s.platform.firstRefused_one ⟨.write, a, n⟩
  rcases memWrite_cases a v n lane s with ⟨h, hc⟩ | ⟨e, h, hc⟩
  · exact ⟨fun _ => ⟨_, _, hc, rfl⟩, fun x hx => absurd h (hsome x hx).2⟩
  · refine ⟨fun hx => ?_, fun x hx => ?_⟩
    · cases (hnone.mp hx).symm.trans h
    · obtain ⟨rfl, -⟩ := hsome x hx
      exact ⟨_, s, hc⟩

theorem Cmd.Makes.bind {α β : Type} {c : Cmd α} {f : α → Cmd β} {L L' : List Access} (hc : Cmd.Makes c L)
    (hf : ∀ v, Cmd.Makes (f v) L') : Cmd.Makes (c >>= f) (L ++ L') := fun s => by
  rw [s.platform.firstRefused_append]
  obtain ⟨hok, herr⟩ := hc s
  cases hL : s.platform.firstRefused L with
  | some x =>
    obtain ⟨e, t, h⟩ := herr x hL
    refine ⟨fun hx => (nomatch hx), fun y hy => ?_⟩
    cases hy
    exact ⟨e, t, Cmd.bind_of_error h f⟩
  | none =>
    obtain ⟨v, t, h, hp⟩ := hok hL
    obtain ⟨hok', herr'⟩ := hf v t
    rw [hp] at hok' herr'
    rw [Cmd.bind_of_ok h f]
    exact ⟨hok', herr'⟩

/-- `k` accesses of one kind and width at rising addresses from `a` (R69). -/
def accessRun (kind : AccessKind) (size : Size) (a k : Nat) : List Access :=
  (List.range k).map fun i => ⟨kind, a + size.bytes * i, size⟩

theorem accessRun_succ (kind : AccessKind) (size : Size) (a k : Nat) :
    accessRun kind size a (k + 1) = [⟨kind, a, size⟩] ++ accessRun kind size (a + size.bytes) k := by
  simp [accessRun, List.range_succ_eq_map, Function.comp_def, Nat.mul_add, Nat.add_assoc, Nat.add_comm size.bytes]

theorem readEntries_makes (n : Size) : ∀ k a, Cmd.Makes (readEntries n a k) (accessRun .read n a k)
  | 0, _ => .pure _
  | k + 1, a => by
    rw [accessRun_succ]
    refine (Cmd.Makes.memRead a n 0).bind fun v => ?_
    simpa using (readEntries_makes n k (a + n.bytes)).bind fun vs => .pure (v :: vs)

theorem writeEntries_makes (n : Size) : ∀ vs a, Cmd.Makes (writeEntries n a vs) (accessRun .write n a vs.length)
  | [], _ => .pure _
  | v :: vs, a => by
    rw [List.length_cons, accessRun_succ]
    exact (Cmd.Makes.memWrite a v n 0).bind fun _ => writeEntries_makes n vs (a + n.bytes)

theorem countBytes_makes : ∀ k a raw, Cmd.Makes (countBytes a k raw) (accessRun .read .b1 a k)
  | 0, _, raw => .pure raw
  | k + 1, a, raw => by
    rw [accessRun_succ]
    exact (Cmd.Makes.memRead a .b1 0).bind fun b => countBytes_makes k (a + 1) (bump raw b)

/-! ## The accesses of a run -/

/-- On every platform the run from `s` ends at an access exactly where the platform refuses one of the list, and then at
the first that it refuses. -/
def Cmd.Accesses {α : Type} (c : Cmd α) (s : State) (L : List Access) : Prop :=
  ∀ (p : Platform) (x : Access),
    (∃ e t, c { s with platform := p } = .error (.raised e (some x)) t) ↔ p.firstRefused L = some x

section
variable {α β : Type} {c : Cmd α} {s : State} {L : List Access}

theorem Cmd.Quiet.accesses (h : Cmd.Quiet c) (s : State) : Cmd.Accesses c s [] := by
  intro p x
  constructor
  · rintro ⟨e, t, hc⟩
    exact absurd rfl ((h _).2 _ t hc e x)
  · exact fun hx => nomatch hx

theorem Cmd.Makes.accesses (hc : Cmd.Makes c L) (s : State) : Cmd.Accesses c s L := by
  intro p x
  obtain ⟨hok, herr⟩ := hc { s with platform := p }
  constructor
  · rintro ⟨e, t, h⟩
    cases hL : p.firstRefused L with
    | none =>
      obtain ⟨v, u, h', -⟩ := hok hL
      cases h.symm.trans h'
    | some y =>
      obtain ⟨e', u, h'⟩ := herr y hL
      cases h.symm.trans h'
      rfl
  · exact herr x

/-- A sequence that makes no access after those of its first part. -/
theorem Cmd.Accesses.bind {f : α → Cmd β} (hc : Cmd.Accesses c s L) (hf : ∀ v, Cmd.Quiet (f v)) :
    Cmd.Accesses (c >>= f) s L := by
  intro p x
  rw [← hc p x]
  constructor
  · rintro ⟨e, t, h⟩
    rcases Cmd.bind_error h with h | ⟨v, u, -, h⟩
    · exact ⟨e, t, h⟩
    · exact absurd rfl ((hf v u).2 _ t h e x)
  · rintro ⟨e, t, h⟩
    exact ⟨e, t, Cmd.bind_of_error h f⟩

theorem Cmd.Accesses.getState {f : State → Cmd β} (hf : ∀ p, f { s with platform := p } = f s)
    (h : Cmd.Accesses (f s) s L) : Cmd.Accesses (Machine.getState >>= f) s L := fun p x => by
  rw [← h p x, ← hf p]
  rfl

/-- A read, which leaves the state, before the other accesses. -/
theorem Cmd.Accesses.memRead_bind {a lane : Nat} {n : Size} {f : Nat → Cmd β}
    (h : ∀ v, Cmd.Accesses (f v) s L) : Cmd.Accesses (Machine.memRead a n lane >>= f) s (⟨.read, a, n⟩ :: L) := by
  intro p x
  rcases memRead_cases a n lane { s with platform := p } with ⟨hans, hc⟩ | ⟨e, hrefused, hc⟩
  · rw [Cmd.bind_of_ok hc f, h _ p x]
    simp [Platform.firstRefused, show p.accessError a n .read = none from hans]
  · rw [Cmd.bind_of_error hc f]
    simp [Platform.firstRefused, show p.accessError a n .read = some e from hrefused]

/-- A check that lets the accesses through or ends the run before them. -/
theorem Cmd.Accesses.require {p : Prop} [Decidable p] {r : Raised} {f : Unit → Cmd β}
    (h : p → Cmd.Accesses (f ()) s L) : Cmd.Accesses (Machine.require p r >>= f) s (if p then L else []) := by
  intro q x
  by_cases hp : p
  · rw [if_pos hp, ← h hp q x, Cmd.bind_of_ok (Cmd.require_of hp r _) f]
  · rw [if_neg hp, Cmd.bind_of_error (Cmd.require_of_not hp r _) f]
    simp [Platform.firstRefused]

end

/-! ## The bytes that a list of accesses touches -/

/-- The byte is one of an access of the list which the platform answers, as it does all before (R69, R70.3). -/
def Platform.Touches (p : Platform) (L : List Access) (b : Nat) : Prop :=
  ∃ pre x suf, L = pre ++ x :: suf ∧ (∀ y ∈ pre ++ [x], p.accessError y.addr y.size y.kind = none) ∧
    InRegion x.addr x.size.bytes b

theorem Platform.not_touches_nil (p : Platform) (b : Nat) : ¬p.Touches [] b := by
  rintro ⟨pre, x, suf, h, -⟩
  simp at h

theorem overlaps_iff_common {x m a n : Nat} (hm : 0 < m) (hn : 0 < n) :
    overlaps x m a n = true ↔ ∃ b, InRegion a n b ∧ InRegion x m b := by
  unfold overlaps InRegion
  simp only [Bool.and_eq_true, decide_eq_true_eq]
  constructor
  · exact fun h => ⟨max a x, by omega⟩
  · rintro ⟨b, h1, h2⟩
    omega

theorem Platform.firstRefused_eq_some {p : Platform} {L : List Access} {x : Access} :
    p.firstRefused L = some x ↔ p.accessError x.addr x.size x.kind ≠ none ∧
      ∃ pre suf, L = pre ++ x :: suf ∧ ∀ y ∈ pre, p.accessError y.addr y.size y.kind = none := by
  simp [Platform.firstRefused, List.find?_eq_some_iff_append, Option.isSome_iff_ne_none]

/-- With a region shut, the first refused access is one that the platform answers exactly where the accesses touch the
region. -/
theorem Platform.firstRefused_shut {p : Platform} {L : List Access} {a n : Nat} (hn : 0 < n) :
    (∃ x, (p.shut a n).firstRefused L = some x ∧ p.accessError x.addr x.size x.kind = none) ↔
      ∃ b, InRegion a n b ∧ p.Touches L b := by
  constructor
  · rintro ⟨x, hx, hans⟩
    obtain ⟨hshut, pre, suf, hL, hpre⟩ := Platform.firstRefused_eq_some.mp hx
    have hover : overlaps x.addr x.size.bytes a n = true := by
      by_contra ho
      exact hshut ((Platform.shut_answers hn).mpr ⟨hans, by simpa using ho⟩)
    obtain ⟨b, hb, hxb⟩ := (overlaps_iff_common (x.size.bytes_pos) hn).mp hover
    refine ⟨b, hb, pre, x, suf, hL, fun y hy => ?_, hxb⟩
    rcases List.mem_append.mp hy with hy | hy
    · exact ((Platform.shut_answers hn).mp (hpre y hy)).1
    · exact List.mem_singleton.mp hy ▸ hans
  · rintro ⟨b, hb, pre, x, suf, rfl, hans, hxb⟩
    have hshut : ¬(p.shut a n).accessError x.addr x.size x.kind = none := fun h => by
      have ho := ((Platform.shut_answers hn).mp h).2
      rw [(overlaps_iff_common (x.size.bytes_pos) hn).mpr ⟨b, hb, hxb⟩] at ho
      cases ho
    cases hf : (p.shut a n).firstRefused (pre ++ [x]) with
    | none =>
      have := List.find?_eq_none.mp hf x (by simp)
      exact absurd (by simpa using this) hshut
    | some y =>
      refine ⟨y, ?_, hans y (List.mem_of_find?_eq_some hf)⟩
      rw [List.append_cons, Platform.firstRefused_append, hf]
      rfl

/-- Which bytes a run uses, from the accesses it makes (R70.3). -/
theorem Cmd.Accesses.uses_iff {c : Cmd Unit} {s : State} {L : List Access} (h : Cmd.Accesses c s L) {a n : Nat}
    (hn : 0 < n) : Cmd.uses c s a n = true ↔ ∃ b, InRegion a n b ∧ s.platform.Touches L b := by
  rw [Cmd.uses_iff, ← Platform.firstRefused_shut hn]
  constructor
  · rintro ⟨e, x, t, hc, hx⟩
    exact ⟨x, (h _ x).mp ⟨e, t, hc⟩, hx⟩
  · rintro ⟨x, hf, hx⟩
    obtain ⟨e, t, hc⟩ := (h _ x).mpr hf
    exact ⟨e, x, t, hc, hx⟩

/-- Which bytes the running command uses, from the accesses of its rule. -/
theorem State.usesExactly_of_accesses {s : State} {i : Instr} {L : List Access} {used : Nat → Prop}
    (hb : s.status.busy = true) (hi : decode s.cmd = .ok i) (h : Cmd.Accesses (ruleOf i s) s L)
    (hu : ∀ b, s.platform.Touches L b ↔ used b) : s.UsesExactly used := by
  intro a n hn
  rw [State.racesWith_of_busy hb hi, h.uses_iff hn]
  simp only [hu]

/-- Accesses made only under a guard. -/
theorem Platform.touches_ite {p : Platform} {g : Prop} [Decidable g] {L : List Access} {b : Nat} :
    p.Touches (if g then L else []) b ↔ g ∧ p.Touches L b := by
  by_cases hg : g
  · simp [hg]
  · simp [hg, p.not_touches_nil]

theorem Platform.touches_one {p : Platform} {x : Access} {b : Nat} :
    p.Touches [x] b ↔ p.accessError x.addr x.size x.kind = none ∧ InRegion x.addr x.size.bytes b := by
  constructor
  · rintro ⟨pre, y, suf, h, hans, hb⟩
    obtain ⟨rfl, rfl, rfl⟩ : pre = [] ∧ y = x ∧ suf = [] := by
      rcases List.singleton_eq_append_iff.mp h with ⟨rfl, h⟩ | ⟨-, h⟩
      · simpa [eq_comm] using h
      · simp at h
    exact ⟨hans y (by simp), hb⟩
  · exact fun ⟨hans, hb⟩ => ⟨[], x, [], rfl, by simpa using hans, hb⟩

/-- The accesses that a list of places gives. -/
theorem Platform.touches_map {α : Type} {p : Platform} {S : List α} {f : α → Access} {b : Nat} :
    p.Touches (S.map f) b ↔ ∃ pre g suf, S = pre ++ g :: suf ∧
      (∀ h ∈ pre ++ [g], p.accessError (f h).addr (f h).size (f h).kind = none) ∧
      InRegion (f g).addr (f g).size.bytes b := by
  constructor
  · rintro ⟨pre, x, suf, h, hans, hb⟩
    obtain ⟨pre', rest, rfl, rfl, hrest⟩ := List.map_eq_append_iff.mp h
    obtain ⟨g, suf', rfl, rfl, rfl⟩ := List.map_eq_cons_iff.mp hrest
    exact ⟨pre', g, suf', rfl, fun h hh => hans (f h) (by simpa using List.mem_map_of_mem (f := f) hh), hb⟩
  · rintro ⟨pre, g, suf, rfl, hans, hb⟩
    refine ⟨pre.map f, f g, suf.map f, by simp, fun y hy => ?_, hb⟩
    rw [← List.map_singleton, ← List.map_append] at hy
    obtain ⟨h, hh, rfl⟩ := List.mem_map.mp hy
    exact hans h hh

/-- Where an index stands in the list of the first ones. -/
theorem range_eq_append_cons_iff {k g : Nat} {pre suf : List Nat} :
    List.range k = pre ++ g :: suf ↔
      g < k ∧ pre = List.range g ∧ suf = List.range' (g + 1) (k - g - 1) := by
  rw [List.range_eq_range', List.range'_eq_append_iff, List.range_eq_range']
  constructor
  · rintro ⟨j, hj, rfl, hsuf⟩
    obtain ⟨rfl, hpos, rfl⟩ := List.range'_eq_cons_iff.mp hsuf.symm
    simp
    omega
  · rintro ⟨hk, rfl, rfl⟩
    exact ⟨g, hk.le, rfl, (List.range'_eq_cons_iff.mpr ⟨by simp, by omega, by simp⟩).symm⟩

/-- The entry of a run that holds a byte. -/
theorem inRegion_entry {a m g b : Nat} (hm : 0 < m) :
    InRegion (a + m * g) m b ↔ a ≤ b ∧ (b - a) / m = g := by
  rw [Nat.div_eq_iff hm, Nat.mul_comm g]
  constructor
  · rintro ⟨h1, h2⟩
    omega
  · rintro ⟨h1, h2⟩
    constructor <;> omega

/-- The bytes that a run of accesses of one width touches: those up to the first access that the platform refuses. -/
theorem Platform.touches_accessRun {p : Platform} {kind : AccessKind} {size : Size} {a k b : Nat} :
    p.Touches (accessRun kind size a k) b ↔ InRegion a (size.bytes * k) b ∧
      ∀ i, i < (b - a) / size.bytes + 1 → p.accessError (a + size.bytes * i) size kind = none := by
  have hlast : InRegion a (size.bytes * k) b ↔ a ≤ b ∧ (b - a) / size.bytes < k := by
    rw [Nat.div_lt_iff_lt_mul size.bytes_pos, Nat.mul_comm k]
    constructor
    · rintro ⟨h1, h2⟩
      omega
    · rintro ⟨h1, h2⟩
      constructor <;> omega
  have hentries : p.Touches (accessRun kind size a k) b ↔
      ∃ g, g < k ∧ (∀ i ∈ List.range g ++ [g], p.accessError (a + size.bytes * i) size kind = none) ∧
        InRegion (a + size.bytes * g) size.bytes b := by
    rw [accessRun, Platform.touches_map]
    simp only [range_eq_append_cons_iff]
    constructor
    · rintro ⟨_, g, _, ⟨hk, rfl, rfl⟩, h⟩
      exact ⟨g, hk, h⟩
    · rintro ⟨g, hk, h⟩
      exact ⟨_, g, _, ⟨hk, rfl, rfl⟩, h⟩
  simp only [hentries, hlast, inRegion_entry size.bytes_pos, ← List.range_succ, List.mem_range]
  constructor
  · rintro ⟨g, hk, hans, hab, rfl⟩
    exact ⟨⟨hab, hk⟩, hans⟩
  · rintro ⟨⟨hab, hk⟩, hans⟩
    exact ⟨_, hk, hans, hab, rfl⟩

end Sys2Proof.Machine
end

section
/-!
SUPPORT. The bytes that each command without a stream coder uses (20_memory.md R70, R71), and the host's accesses (O11).
-/
namespace Sys2Proof.Machine

/-! ## The accesses of each command -/

/-- The access of a bit read: the next word, where the buffered bits do not serve (R112). -/
theorem brRead_accesses (n : Nat) (s : State) :
    Cmd.Accesses (brRead n) s
      (if s.rd.cnt.toNat < n then s.rd.nextWord.toList.map fun a => ⟨.read, a, .b2⟩ else []) := by
  refine .getState (fun _ => rfl) (.bind ?_ fun _ => .modify _)
  unfold readBits
  split
  · cases s.rd.nextWord with
    | none => exact Cmd.Quiet.accesses (fun _ => .of_error rfl (by simp)) s
    | some a => exact ((Cmd.Makes.memRead a .b2 0).accesses s).bind fun _ => .pure _
  · exact Cmd.Quiet.accesses (.pure _) s

/-- The access of a bit write: the word at the pointer, where the bits fill one and the region holds it (R114). -/
theorem bwWrite_accesses (v n : Nat) (s : State) :
    Cmd.Accesses (bwWrite v n) s
      (if 16 ≤ s.wr.cnt.toNat + n then
        if s.wr.ptr.toNat + 2 ≤ s.wr.lim.toNat then [⟨.write, s.wr.ptr.toNat, .b2⟩] else []
      else []) := by
  refine .getState (fun _ => rfl) (.bind ?_ fun _ => .modify _)
  dsimp only [writeBits]
  split
  · exact .require fun _ => ((Cmd.Makes.memWrite _ _ .b2 0).accesses s).bind fun _ => .pure _
  · exact Cmd.Quiet.accesses (.pure _) s

theorem histCount_accesses (a k : Nat) (s : State) :
    Cmd.Accesses (histCount a k) s (if a + k ≤ Config.memBytes then accessRun .read .b1 a k else []) :=
  .require fun _ => ((countBytes_makes k a _).accesses s).bind fun _ => .modify _

theorem histLoad_accesses (a : Nat) (s : State) :
    Cmd.Accesses (histLoad a) s
      (if a + Config.tableBytes ≤ Config.memBytes then accessRun .read .b4 a 512 else []) :=
  .require fun _ => ((readEntries_makes .b4 512 a).accesses s).bind fun _ => .modify _

theorem histStore_accesses (a : Nat) (s : State) :
    Cmd.Accesses (histStore a) s
      (if s.status.histValid = true then
        if a + Config.tableBytes ≤ Config.memBytes then accessRun .write .b4 a 512 else []
      else []) := by
  refine .getState (fun _ => rfl) (.require fun hv => .require fun _ p x => ?_)
  have hlen : (s.freqList ++ List.replicate 256 0).length = 512 := by
    rw [List.length_append, List.length_replicate, State.freqList, List.length_map, Vector.length_toList]
  rw [Cmd.bind_of_ok (readFreq_ok (s := { s with platform := p }) hv)]
  exact hlen ▸ (writeEntries_makes .b4 (s.freqList ++ List.replicate 256 0) a).accesses s p x

/-- The accesses to the fields of a header (R200). -/
def headerRun (kind : AccessKind) (A : Nat) : List Access := headerLayout.map fun f => ⟨kind, A + f.1, f.2⟩

theorem checkHeader_quiet (FL W H PB S0 S1 S2 S3 : Nat) : Cmd.Quiet (checkHeader FL W H PB S0 S1 S2 S3) :=
  .getState fun _ => .require (.require (.require (.require (.require (.require (.modify _))))))

/-- What `FRM_PARSE` does with `HDR_VALID` on an error does not change at which access it ends. -/
theorem frmParse_accesses_of_body {A FL : Nat} {s : State} {L : List Access} (h : Cmd.Accesses (frmParseBody A FL) s L) :
    Cmd.Accesses (frmParse A FL) s L := by
  intro p x
  rw [← h p x]
  unfold frmParse
  cases frmParseBody A FL { s with platform := p } <;> simp

theorem frmParse_accesses (A FL : Nat) (s : State) :
    Cmd.Accesses (frmParse A FL) s
      (if A + FL ≤ Config.memBytes then if Config.headerBytes ≤ FL then headerRun .read A else [] else []) := by
  refine frmParse_accesses_of_body (.require fun _ => .require fun _ => ?_)
  refine .memRead_bind fun W => .memRead_bind fun H => .memRead_bind fun PB => .memRead_bind fun S0 =>
    .memRead_bind fun S1 => .memRead_bind fun S2 => .memRead_bind fun S3 => ?_
  exact (checkHeader_quiet FL W H PB S0 S1 S2 S3).accesses s

theorem frmHdrWrite_accesses (A : Nat) (s : State) :
    Cmd.Accesses (frmHdrWrite A) s
      (if A + Config.headerBytes ≤ Config.memBytes then headerRun .write A else []) := by
  refine .getState (fun _ => rfl) (.require fun _ => Cmd.Makes.accesses ?_ s)
  exact (Cmd.Makes.memWrite _ _ _ _).bind fun _ => (Cmd.Makes.memWrite _ _ _ _).bind fun _ =>
    (Cmd.Makes.memWrite _ _ _ _).bind fun _ => (Cmd.Makes.memWrite _ _ _ _).bind fun _ =>
    (Cmd.Makes.memWrite _ _ _ _).bind fun _ => (Cmd.Makes.memWrite _ _ _ _).bind fun _ => Cmd.Makes.memWrite _ _ _ _

/-! ## The bytes each command uses -/

theorem Platform.touches_headerRun {p : Platform} {kind : AccessKind} {A b : Nat} :
    p.Touches (headerRun kind A) b ↔ ∃ pre f suf, headerLayout = pre ++ f :: suf ∧
      (∀ g ∈ pre ++ [f], p.accessError (A + g.1) g.2 kind = none) ∧ InRegion (A + f.1) f.2.bytes b :=
  Platform.touches_map

section
variable {s : State} {i : Instr} (hb : s.status.busy = true) (hi : decode s.cmd = .ok i)
include hb hi

theorem usesExactly_nothing
    (h : i ∈ [.nop, .softReset, .clrStatus, .brInit, .bwInit, .histNorm, .rawQuery, .freqQuery, .tblBuild, .tblQuery,
      .encInit] ∨ ∃ l, i = .decInit l) : s.UsesExactly fun _ => False :=
  s.usesExactly_of_accesses hb hi ((ruleOf_quiet h s).accesses s) fun b => iff_of_false (Platform.not_touches_nil _ b) id

theorem usesExactly_brRead {n : Nat} (h : i = .brRead n) : s.UsesExactly fun b => s.rd.cnt.toNat < n ∧
    ∃ a, s.rd.WordAt a ∧ s.platform.accessError a .b2 .read = none ∧ InRegion a 2 b := by
  subst h
  refine s.usesExactly_of_accesses hb hi (brRead_accesses n s) fun b => ?_
  rw [Platform.touches_ite]
  simp only [← Reader.nextWord_eq_some]
  cases s.rd.nextWord with
  | none => simp [Platform.not_touches_nil]
  | some a => simp [Platform.touches_one, Size.bytes]

theorem usesExactly_bwWrite {n : Nat} (h : i = .bwWrite n) : s.UsesExactly fun b =>
    16 ≤ s.wr.cnt.toNat + n ∧ s.wr.ptr.toNat + 2 ≤ s.wr.lim.toNat ∧
      s.platform.accessError s.wr.ptr.toNat .b2 .write = none ∧ InRegion s.wr.ptr.toNat 2 b := by
  subst h
  refine s.usesExactly_of_accesses hb hi (bwWrite_accesses s.arg0.toNat n s) fun b => ?_
  rw [Platform.touches_ite, Platform.touches_ite, Platform.touches_one]
  rfl

theorem usesExactly_histCount (h : i = .histCount) : s.UsesExactly fun b =>
    s.arg0.toNat + s.arg1.toNat ≤ 2 ^ 32 ∧ InRegion s.arg0.toNat s.arg1.toNat b ∧
      s.CanRead .b1 s.arg0.toNat (b - s.arg0.toNat + 1) := by
  subst h
  refine s.usesExactly_of_accesses hb hi (histCount_accesses s.arg0.toNat s.arg1.toNat s) fun b => ?_
  rw [Platform.touches_ite, Platform.touches_accessRun]
  simp only [State.CanRead, Size.bytes, Nat.div_one, Nat.one_mul]
  rfl

theorem usesExactly_histLoad (h : i = .histLoad) : s.UsesExactly fun b =>
    s.arg0.toNat + 2048 ≤ 2 ^ 32 ∧ InRegion s.arg0.toNat 2048 b ∧
      s.CanRead .b4 s.arg0.toNat ((b - s.arg0.toNat) / 4 + 1) := by
  subst h
  refine s.usesExactly_of_accesses hb hi (histLoad_accesses s.arg0.toNat s) fun b => ?_
  rw [Platform.touches_ite, Platform.touches_accessRun]
  rfl

theorem usesExactly_histStore (h : i = .histStore) : s.UsesExactly fun b =>
    s.status.histValid = true ∧ s.arg0.toNat + 2048 ≤ 2 ^ 32 ∧ InRegion s.arg0.toNat 2048 b ∧
      s.CanWrite .b4 s.arg0.toNat ((b - s.arg0.toNat) / 4 + 1) := by
  subst h
  refine s.usesExactly_of_accesses hb hi (histStore_accesses s.arg0.toNat s) fun b => ?_
  rw [Platform.touches_ite, Platform.touches_ite, Platform.touches_accessRun]
  rfl

theorem usesExactly_frmParse (h : i = .frmParse) : s.UsesExactly fun b =>
    s.arg0.toNat + s.arg1.toNat ≤ 2 ^ 32 ∧ 48 ≤ s.arg1.toNat ∧ ∃ pre f suf, headerLayout = pre ++ f :: suf ∧
      (∀ g ∈ pre ++ [f], s.platform.accessError (s.arg0.toNat + g.1) g.2 .read = none) ∧
      InRegion (s.arg0.toNat + f.1) f.2.bytes b := by
  subst h
  refine s.usesExactly_of_accesses hb hi (frmParse_accesses s.arg0.toNat s.arg1.toNat s) fun b => ?_
  rw [Platform.touches_ite, Platform.touches_ite, Platform.touches_headerRun]
  rfl

theorem usesExactly_frmHdrWrite (h : i = .frmHdrWrite) : s.UsesExactly fun b =>
    s.arg0.toNat + 48 ≤ 2 ^ 32 ∧ ∃ pre f suf, headerLayout = pre ++ f :: suf ∧
      (∀ g ∈ pre ++ [f], s.platform.accessError (s.arg0.toNat + g.1) g.2 .write = none) ∧
      InRegion (s.arg0.toNat + f.1) f.2.bytes b := by
  subst h
  refine s.usesExactly_of_accesses hb hi (frmHdrWrite_accesses s.arg0.toNat s) fun b => ?_
  rw [Platform.touches_ite, Platform.touches_headerRun]
  rfl

end

/-! ## The obligation -/

theorem csrRead_host (off : Nat) (s : State) : (csrRead off s).2.host = s.host := by
  unfold csrRead
  split <;> rfl

/-- A host access to memory that no running command uses (R61, R70). -/
theorem hostAccess_memory {n : Size} {a : Nat} {s : State} (hn : n ≠ .b8)
    (hwin : overlaps a n.bytes s.platform.csrBase 4096 = false) (hle : a + n.bytes ≤ 2 ^ 32)
    (hrace : s.racesWith a n.bytes = false) (hs : s.mem.wf = true) (v : Word) (x : Nat) :
    (∃ t, hostWrite n a v s = .next t ∧ t = { s with mem := t.mem } ∧
        t.mem.readLE a n.bytes = v.toNat % 256 ^ n.bytes ∧ SameOutside s t a n.bytes) ∧
      ∃ t, hostRead n a x s = .next t ∧ t = { s with host := t.host } ∧
        t.host.getVar x = BitVec.ofNat 32 (s.mem.readLE a n.bytes) ∧
        (∀ y, y ≠ x → t.host.getVar y = s.host.getVar y) ∧ t.host.prog = s.host.prog ∧
        t.host.pos = s.host.pos + 1 :=
  ⟨⟨_, hostWrite_memory hn hwin hle hrace v, rfl, Memory.readLE_writeLE _ a v.toNat hs hle,
      fun b hb => Memory.read_writeLE_outside _ a v.toNat b hs hle hb⟩,
    _, hostRead_memory hn hwin hle hrace x, hostResult_eq s x _⟩

/-- Settles O11: the host's accesses by their place (the window, memory, past the end), a write that comes after the
command by `hostWrite_sequencerMove_comm`, and the bytes used by the accesses that each rule makes. -/
theorem hostMemoryAccesses : Obligations.HostMemoryAccesses := by
  unfold Obligations.HostMemoryAccesses
  refine ⟨fun s n a v x hn => ⟨fun hwin => ⟨fun hle => ⟨fun hrace hs => ?_, fun hrace => ?_⟩, fun hlt => ?_⟩,
    fun hwin => ⟨fun h => ?_, fun h4 ha => ?_⟩⟩, fun s a n h => racesWith_idle h a n, fun s i hb hi => ?_⟩
  · obtain ⟨hw, hr⟩ := hostAccess_memory hn hwin hle hrace hs v x
    exact ⟨hw, hr, fun t hbusy ht => hostWrite_sequencerMove_comm hn hwin hle hrace hs hbusy ht v⟩
  · exact hostAccess_race hn hwin hle hrace v x
  · exact hostAccess_pastEnd hn hwin hlt v x
  · exact hostAccess_window_refused hwin h v x
  · obtain ⟨hw, hr⟩ := hostAccess_csr hwin h4 ha v x
    refine ⟨hw, _, hr, ?_⟩
    rw [← csrRead_host (a - s.platform.csrBase) s]
    exact hostResult_eq _ x _
  · exact ⟨usesExactly_nothing hb hi, fun _ => usesExactly_brRead hb hi, fun _ => usesExactly_bwWrite hb hi,
      usesExactly_histCount hb hi, usesExactly_histLoad hb hi, usesExactly_histStore hb hi,
      usesExactly_frmParse hb hi, usesExactly_frmHdrWrite hb hi⟩

end Sys2Proof.Machine
end

section
/-!
SUPPORT. The canonical form of memory along every step (20_memory.md R60; log 3): the running command, the host's move, and
the merge of memories that a reset leaves.
-/
namespace Sys2Proof.Machine

/-! ## The merge of a reset -/

theorem mergeByte_wf {kept : Nat → Bool} {new m : Memory} {c : Host.Cell} (hm : m.wf = true)
    (hc : c.1 < Config.memBytes) : (mergeByte kept new m c).wf = true := by
  unfold mergeByte
  split
  · exact Memory.wf_write hm hc _
  · exact hm

theorem mergeStores_wf (kept : Nat → Bool) {old new : Memory} (ho : old.wf = true) (hn : new.wf = true) :
    (mergeStores kept old new).wf = true := by
  have hlt : ∀ c ∈ old ++ new, c.1 < Config.memBytes := fun c hc =>
    (List.mem_append.mp hc).elim (Memory.lt_of_mem ho c) (Memory.lt_of_mem hn c)
  rw [mergeStores_eq]
  exact List.foldlRecOn (motive := fun m => Memory.wf m = true) _ _ ho fun m hm c hc => mergeByte_wf hm (hlt c hc)

/-! ## The moves -/

/-- The accepted word keeps the canonical form, whether it runs a command or is refused by command decode (R235, R236). -/
theorem runAccepted_memorySafe {s t : State} (h : runAccepted s = .next t) (hs : MemorySafe s) : MemorySafe t := by
  unfold runAccepted at h
  split at h
  · exact exec_memorySafe h hs
  · cases h
    simpa [MemorySafe] using hs

theorem memoryAfterRun_wf {s : State} (hs : MemorySafe s) : (memoryAfterRun s).wf = true := by
  rcases memoryAfterRun_cases s with hm | ⟨i, u, -, hu, hm⟩
  · rwa [hm]
  · rw [hm]
    exact exec_memorySafe hu hs

theorem sequencerMove_memorySafe {s t : State} (h : sequencerMove s = .next t) (hs : MemorySafe s) :
    MemorySafe t := by
  unfold sequencerMove at h
  split at h
  · exact runAccepted_memorySafe h hs
  · cases h
    exact hs

theorem resetMove_memorySafe {s t : State} (h : resetMove s = .next t) (hs : MemorySafe s) : MemorySafe t := by
  unfold resetMove at h
  split at h
  · cases h
    exact mergeStores_wf _ hs (memoryAfterRun_wf hs)
  · cases h
    exact hs

theorem turnMove_memorySafe {turn : Turn} {s t : State} (h : turnMove turn s = .next t) (hs : MemorySafe s) :
    MemorySafe t := by
  cases turn with
  | sequencer => exact sequencerMove_memorySafe h hs
  | host => exact (hostMove_kept h).changed.stored.wf hs
  | reset => exact resetMove_memorySafe h hs

/-! ## The obligation -/

/-- Settles O56, by the agent whose turn the step takes: taking a turn off the list leaves memory. -/
theorem everyStepKeepsMemorySafe : Obligations.EveryStepKeepsMemorySafe := fun s t hs h => by
  unfold step at h
  split at h
  · exact turnMove_memorySafe h hs
  · exact turnMove_memorySafe h (by simpa [MemorySafe] using hs)

end Sys2Proof.Machine
end

section
/-!
SUPPORT. The field of a command word as one number, the opcode map by commands, and from them the round trip of the
decoder and the encoder (30_encoding.md R80 to R84).
-/
namespace Sys2Proof

/-! ## The field of a word -/

/-- The lowest bit of a field (R80). -/
def WordField.pos : WordField → Nat
  | .none => 0
  | .lane => 8
  | .nm1 => 16
  | .pay => 20

/-- The number of bits of a field (R80). -/
def WordField.len : WordField → Nat
  | .none => 0
  | .lane => 5
  | .nm1 => 4
  | .pay => 2

/-- The field's bits in a word as a number (R80). -/
def WordField.value (f : WordField) (w : Word) : Nat := (w.extractLsb' f.pos f.len).toNat

theorem WordField.value_eq (f : WordField) (w : Word) : f.value w = w.toNat / 2 ^ f.pos % 2 ^ f.len := by
  rw [WordField.value, BitVec.extractLsb'_toNat, Nat.shiftRight_eq_div_pow]

theorem WordField.value_lt (f : WordField) (w : Word) : f.value w < 2 ^ f.len := (w.extractLsb' f.pos f.len).isLt

/-- The mask of R82 leaves out the field's bits and no others. -/
theorem WordField.not_mask (f : WordField) : ~~~f.mask = (BitVec.allOnes f.len).setWidth 32 <<< f.pos := by
  cases f <;> decide

/-- The free bits of a word are its field put back at its place (R80, R82). -/
theorem WordField.free_bits (f : WordField) (w : Word) : w &&& ~~~f.mask = BitVec.ofNat 32 (f.value w) <<< f.pos := by
  rw [f.not_mask, WordField.value, BitVec.ofNat_toNat]
  ext k hk
  by_cases hp : k < f.pos
  · simp [hp]
  · simp [hp, Nat.add_sub_cancel' (Nat.not_lt.mp hp), BitVec.getLsbD_eq_getElem hk, Bool.and_comm]

/-- A word is its bits under the mask joined with its field (R82). -/
theorem WordField.join (f : WordField) (w : Word) : w &&& f.mask ||| BitVec.ofNat 32 (f.value w) <<< f.pos = w := by
  rw [← f.free_bits, ← BitVec.and_or_distrib_left, BitVec.or_not_self, BitVec.and_allOnes]

/-- An opcode joined with a field that fits, as a number (R80). -/
theorem WordField.join_toNat (f : WordField) (op : BitVec 8) {v : Nat} (hv : v < 2 ^ f.len) :
    (op.setWidth 32 ||| BitVec.ofNat 32 v <<< f.pos).toNat = op.toNat + v * 2 ^ f.pos := by
  have hop := op.isLt
  cases f with
  | none =>
    obtain rfl : v = 0 := by simpa [len] using hv
    simpa using (by omega : op.toNat < 2 ^ 32)
  | lane | nm1 | pay =>
    simp only [len] at hv
    simp only [pos, BitVec.toNat_or, BitVec.toNat_shiftLeft, BitVec.toNat_setWidth, BitVec.toNat_ofNat]
    rw [Nat.mod_eq_of_lt (by omega), Nat.mod_eq_of_lt (by omega : v < 2 ^ 32),
      Nat.mod_eq_of_lt (by rw [Nat.shiftLeft_eq]; omega)]
    exact Machine.low_or_shift (by omega) v

/-- The field of an opcode joined with a number that fits is that number (R80). -/
theorem WordField.value_join (f : WordField) (op : BitVec 8) {v : Nat} (hv : v < 2 ^ f.len) :
    f.value (op.setWidth 32 ||| BitVec.ofNat 32 v <<< f.pos) = v := by
  have hop := op.isLt
  rw [f.value_eq, f.join_toNat op hv]
  cases f <;> simp only [len, pos] at hv ⊢ <;> omega

/-- The opcode bits lie under every mask (R82). -/
theorem opcodeBits_of_matches {f : WordField} {w : Word} {op : BitVec 8} (h : w &&& f.mask = op.setWidth 32) :
    opcodeBits w = op := by
  have hmask : opcodeBits f.mask = BitVec.allOnes 8 := by cases f <;> decide
  calc opcodeBits w = opcodeBits w &&& opcodeBits f.mask := by rw [hmask, BitVec.and_allOnes]
    _ = opcodeBits (w &&& f.mask) := BitVec.setWidth_and.symm
    _ = op := by rw [h, opcodeBits, BitVec.setWidth_setWidth_of_le op (by decide), BitVec.setWidth_eq]

/-! ## The field of a command -/

theorem Payload.ofIndex_index (p : Payload) : Payload.ofIndex p.index = p := by cases p <;> rfl

theorem Payload.index_lt (p : Payload) : p.index < 4 := by cases p <;> decide

theorem Payload.index_ofIndex {v : Nat} (h : v < 4) : (Payload.ofIndex v).index = v := by
  interval_cases v <;> rfl

/-- The number that the field of a command's word holds (R80, R81). -/
def Instr.fieldValue : Instr → Nat
  | .brRead n | .bwWrite n => n - 1
  | .encSym lane | .decInit lane | .decSym lane => lane
  | .frmDecPayload pay | .frmEncPayload pay => pay.index
  | _ => 0

/-- The command of the same row of the opcode map whose field holds `v` (R83). -/
def Instr.withValue : Instr → Nat → Instr
  | .brRead _, v => .brRead (v + 1)
  | .bwWrite _, v => .bwWrite (v + 1)
  | .encSym _, v => .encSym v
  | .decInit _, v => .decInit v
  | .decSym _, v => .decSym v
  | .frmDecPayload _, v => .frmDecPayload (.ofIndex v)
  | .frmEncPayload _, v => .frmEncPayload (.ofIndex v)
  | i, _ => i

theorem Instr.withValue_opcode (i : Instr) (v : Nat) : (i.withValue v).opcode = i.opcode := by cases i <;> rfl

theorem Instr.fieldValue_withValue (i : Instr) {v : Nat} (h : v < 2 ^ i.field.len) :
    (i.withValue v).fieldValue = v := by
  cases i with
  | brRead | bwWrite | encSym | decInit | decSym => rfl
  | frmDecPayload | frmEncPayload => exact Payload.index_ofIndex h
  | _ => exact (Nat.lt_one_iff.mp h).symm

theorem Instr.fieldBits_eq (i : Instr) : i.fieldBits = BitVec.ofNat 32 i.fieldValue <<< i.field.pos := by
  cases i <;> rfl

/-- The field of a well-formed command fits its bits and names the command in its row (R81). -/
theorem Instr.wellFormed_iff (i : Instr) :
    i.wellFormed = true ↔ i.fieldValue < 2 ^ i.field.len ∧ i.withValue i.fieldValue = i := by
  cases i with
  | brRead n | bwWrite n => simp [wellFormed, widthFits, fieldValue, withValue, field, WordField.len]; omega
  | encSym lane | decInit lane | decSym lane =>
    simp [wellFormed, laneFits, fieldValue, withValue, field, WordField.len]
  | frmDecPayload pay | frmEncPayload pay =>
    simp [wellFormed, fieldValue, withValue, field, WordField.len, pay.index_lt, pay.ofIndex_index]
  | _ => simp [wellFormed, fieldValue, withValue, field, WordField.len]

/-! ## The word of a command -/

/-- The word of a well-formed command matches its opcode under its mask (R82). -/
theorem encode_matches : ∀ i : Instr, Laws.EncodeMatches.Statement i
  | .nop => Laws.EncodeMatches.nop
  | .softReset => Laws.EncodeMatches.softReset
  | .clrStatus => Laws.EncodeMatches.clrStatus
  | .brInit => Laws.EncodeMatches.brInit
  | .brRead n => Laws.EncodeMatches.brRead n
  | .bwInit => Laws.EncodeMatches.bwInit
  | .bwWrite n => Laws.EncodeMatches.bwWrite n
  | .histCount => Laws.EncodeMatches.histCount
  | .histLoad => Laws.EncodeMatches.histLoad
  | .histNorm => Laws.EncodeMatches.histNorm
  | .histStore => Laws.EncodeMatches.histStore
  | .rawQuery => Laws.EncodeMatches.rawQuery
  | .freqQuery => Laws.EncodeMatches.freqQuery
  | .tblBuild => Laws.EncodeMatches.tblBuild
  | .tblQuery => Laws.EncodeMatches.tblQuery
  | .encInit => Laws.EncodeMatches.encInit
  | .encSym lane => Laws.EncodeMatches.encSym lane
  | .encStep => Laws.EncodeMatches.encStep
  | .decInit lane => Laws.EncodeMatches.decInit lane
  | .decSym lane => Laws.EncodeMatches.decSym lane
  | .decStep => Laws.EncodeMatches.decStep
  | .frmParse => Laws.EncodeMatches.frmParse
  | .frmHdrWrite => Laws.EncodeMatches.frmHdrWrite
  | .frmDecPayload pay => Laws.EncodeMatches.frmDecPayload pay
  | .frmEncPayload pay => Laws.EncodeMatches.frmEncPayload pay

/-- A word is that of a well-formed command where it matches the opcode and its field names the command in its row. -/
theorem encode_eq_iff {i : Instr} {w : Word} : (i.wellFormed = true ∧ encode i = w) ↔
    w &&& i.field.mask = i.opcode.setWidth 32 ∧ i.withValue (i.field.value w) = i := by
  constructor
  · rintro ⟨hi, rfl⟩
    obtain ⟨hlt, hv⟩ := i.wellFormed_iff.mp hi
    refine ⟨encode_matches i hi, ?_⟩
    rw [encode, i.fieldBits_eq, i.field.value_join i.opcode hlt, hv]
  · rintro ⟨hm, hv⟩
    have hlt := i.field.value_lt w
    have hfv : i.fieldValue = i.field.value w := by
      rw [← i.fieldValue_withValue hlt, hv]
    refine ⟨i.wellFormed_iff.mpr ⟨hfv ▸ hlt, hfv ▸ hv⟩, ?_⟩
    rw [encode, i.fieldBits_eq, hfv, ← hm, i.field.join]

/-! ## The opcode map by commands -/

/-- Each command's row of the opcode map (R83). -/
theorem opcodeRow_opcode (i : Instr) :
    opcodeRow i.opcode.toNat = some (i.field, fun w => i.withValue (i.field.value w)) := by
  cases i <;> rfl

/-- The opcodes of the map (R83). -/
def knownOpcodes : List Nat :=
  [0x00, 0x01, 0x02, 0x10, 0x11, 0x12, 0x13, 0x20, 0x21, 0x22, 0x23, 0x24, 0x25, 0x28, 0x29, 0x30, 0x31, 0x32, 0x40,
    0x41, 0x42, 0x50, 0x51, 0x52, 0x53]

theorem Instr.opcode_mem (i : Instr) : i.opcode.toNat ∈ knownOpcodes := by
  cases i <;> simp [opcode, knownOpcodes]

/-- A row of the opcode map gives commands with the row's opcode (R83). -/
theorem opcode_of_opcodeRow {k : Nat} {row : WordField × (Word → Instr)} (h : opcodeRow k = some row) (w : Word) :
    (row.2 w).opcode.toNat = k := by
  unfold opcodeRow at h
  split at h <;> cases h <;> rfl

theorem opcodeRow_unknown {k : Nat} (h : k ∉ knownOpcodes) : opcodeRow k = none := by
  cases hrow : opcodeRow k with
  | none => rfl
  | some row => exact absurd (opcode_of_opcodeRow hrow 0 ▸ (row.2 0).opcode_mem) h

theorem Instr.field_eq_of_opcode {i j : Instr} (h : i.opcode = j.opcode) : i.field = j.field := by
  have hrow := opcodeRow_opcode i
  rw [h, opcodeRow_opcode j] at hrow
  injection hrow with hrow
  exact (congrArg Prod.fst hrow).symm

/-! ## The decoder -/

/-- A word whose opcode no command has (R84). -/
theorem decode_unknown {w : Word} (h : (opcodeBits w).toNat ∉ knownOpcodes) : decode w = .error .unknownOpcode := by
  rw [decode, opcodeRow_unknown h]

/-- A word with a command's opcode decodes in that command's row or has a bit outside the free bits (R82 to R84). -/
theorem decode_of_opcode {w : Word} {X : Instr} (h : opcodeBits w = X.opcode) :
    decode w = if w &&& X.field.mask = X.opcode.setWidth 32 then .ok (X.withValue (X.field.value w))
      else .error .bitsNotZero := by
  rw [decode, h, opcodeRow_opcode]

/-- A word that matches a command's opcode under its mask decodes in that command's row (R82). -/
theorem decode_of_matches {w : Word} {X : Instr} (h : w &&& X.field.mask = X.opcode.setWidth 32) :
    decode w = .ok (X.withValue (X.field.value w)) := by
  rw [decode_of_opcode (opcodeBits_of_matches h), if_pos h]

/-- What decodes has the opcode of the word. -/
theorem opcode_of_decode {w : Word} {i : Instr} (h : decode w = .ok i) : i.opcode = opcodeBits w := by
  unfold decode at h
  split at h
  · cases h
  · rename_i f mk hrow
    split at h
    · cases h
      exact BitVec.eq_of_toNat_eq (opcode_of_opcodeRow hrow w)
    · cases h

/-- The words that decode to a command: those that match its opcode and whose field names it in its row. -/
theorem decode_eq_ok_iff_matches {w : Word} {i : Instr} : decode w = .ok i ↔
    w &&& i.field.mask = i.opcode.setWidth 32 ∧ i.withValue (i.field.value w) = i := by
  constructor
  · intro h
    have hd := decode_of_opcode (opcode_of_decode h).symm
    rw [h] at hd
    split at hd
    · rename_i hm
      injection hd with hd
      exact ⟨hm, hd.symm⟩
    · cases hd
  · rintro ⟨hm, hv⟩
    rw [decode_of_matches hm, hv]

/-- The decoder inverts the encoder: a word decodes to a command exactly when the command is well-formed and the word is
its word (R81 to R83). -/
theorem decode_eq_ok_iff {w : Word} {i : Instr} : decode w = .ok i ↔ i.wellFormed = true ∧ encode i = w :=
  decode_eq_ok_iff_matches.trans encode_eq_iff.symm

/-- The field of what decodes is the word's (R81). -/
theorem fieldValue_of_decode {w : Word} {i : Instr} (h : decode w = .ok i) : i.fieldValue = i.field.value w := by
  conv_lhs => rw [← (decode_eq_ok_iff_matches.mp h).2]
  exact i.fieldValue_withValue (i.field.value_lt w)

/-- A word decodes in a command's row exactly when it matches the command's opcode under its mask (R82). -/
theorem decode_in_row_iff {w : Word} {X : Instr} :
    (∃ i, decode w = .ok i ∧ i.opcode = X.opcode) ↔ w &&& X.field.mask = X.opcode.setWidth 32 := by
  constructor
  · rintro ⟨i, hi, hop⟩
    rw [← Instr.field_eq_of_opcode hop, ← hop]
    exact (decode_eq_ok_iff_matches.mp hi).1
  · exact fun h => ⟨_, decode_of_matches h, X.withValue_opcode _⟩

/-! ## The obligations -/

/-- Settles O1: the decoder inverts the encoder. -/
theorem decodeOfEncode : Obligations.DecodeOfEncode := fun _ hi => decode_eq_ok_iff.mpr ⟨hi, rfl⟩

/-- Settles O2: the decoder inverts the encoder. -/
theorem encodeOfDecode : Obligations.EncodeOfDecode := fun _ _ h => decode_eq_ok_iff.mp h

/-- Settles O3: the rows by mask and opcode, then the field of each kind. -/
theorem commandWordsByMaskAndMatch : Obligations.CommandWordsByMaskAndMatch := by
  refine ⟨fun w X => decode_in_row_iff.trans ?_, fun w l h => ?_, fun w n h => ?_, fun w p h => ?_⟩
  · cases X.field <;> exact Iff.rfl
  · rcases h with h | h | h <;> exact (fieldValue_of_decode h).trans (WordField.value_eq .lane w)
  · have hv := congrArg (· + 1) (WordField.value_eq .nm1 w)
    rcases h with h | h
    · exact (Instr.brRead.inj (decode_eq_ok_iff_matches.mp h).2).symm.trans hv
    · exact (Instr.bwWrite.inj (decode_eq_ok_iff_matches.mp h).2).symm.trans hv
  · rcases h with h | h <;> exact (fieldValue_of_decode h).trans (WordField.value_eq .pay w)

/-- Settles O4: each word is the encoder's, so it decodes to its command. -/
theorem opcodeMapWords : Obligations.OpcodeMapWords := by
  unfold Obligations.OpcodeMapWords
  and_intros <;> exact decode_eq_ok_iff.mpr (by decide)

end Sys2Proof
end

section
/-!
SUPPORT. The sequencer's move on an accepted word: the checks of command decode in their order, and the turns that
make it (30_encoding.md R84, R85; 10_state.md R20).
-/
namespace Sys2Proof.Machine

/-! ## The sequencer's move -/

theorem sequencerMove_of_decode {s : State} {i : Instr} (hbusy : s.status.busy = true) (h : decode s.cmd = .ok i) :
    sequencerMove s = exec i s := by
  simp only [sequencerMove, runAccepted, hbusy, h, if_true]

theorem sequencerMove_of_decodeError {s : State} {e : DecodeError} (hbusy : s.status.busy = true)
    (h : decode s.cmd = .error e) :
    sequencerMove s = .next (s.raise (opcodeBits s.cmd) (decodeRaised e s.cmd)).complete := by
  simp only [sequencerMove, runAccepted, hbusy, h, if_true]

/-- A command with a lane field checks its lane first (R85). -/
theorem ruleOf_lane {i : Instr} (h : i.field = .lane) (s : State) :
    ∃ c : Unit → Cmd Unit, ruleOf i s = (checkLane i.fieldValue >>= c) := by
  cases i with
  | encSym | decInit | decSym => exact ⟨_, rfl⟩
  | _ => cases h

/-- A command on a lane that does not take part ends with `BAD_LANE` (R85). -/
theorem exec_badLane {i : Instr} {s : State} (hf : i.field = .lane) (h : s.lanes ≤ i.fieldValue) :
    exec i s = s.failed i.opcode .badLane 0 i.fieldValue i.fieldValue := by
  obtain ⟨c, hc⟩ := ruleOf_lane hf s
  rw [exec_eq_runCommand, hc]
  exact runCommand_raised (Cmd.bind_of_error (checkLane_bad h) c)

/-- Settles O5, by the row of the opcode map that the word's opcode picks. -/
theorem commandDecodeChecks : Obligations.CommandDecodeChecks := by
  intro s hbusy
  refine ⟨fun h => ?unknown, fun X hop hm => ?bits, fun X _ hm hf hlane => ?lane, fun X _ hm => ?runs⟩
  case unknown =>
    rw [sequencerMove_of_decodeError hbusy (decode_unknown h)]
    rfl
  case bits =>
    have hi : decode s.cmd = .error .bitsNotZero := by rw [decode_of_opcode hop, if_neg hm]
    rw [sequencerMove_of_decodeError hbusy hi, hop]
    rfl
  case lane =>
    have hi := decode_of_matches hm
    have hop := X.withValue_opcode (X.field.value s.cmd)
    have hv : (X.withValue (X.field.value s.cmd)).fieldValue = s.cmd.toNat / 2 ^ 8 % 32 := by
      rw [X.fieldValue_withValue (X.field.value_lt s.cmd), hf, WordField.value_eq]
      rfl
    rw [sequencerMove_of_decode hbusy hi, exec_badLane ((Instr.field_eq_of_opcode hop).trans hf) (hv ▸ hlane), hop,
      hv]
  case runs =>
    obtain ⟨i, hi, hop⟩ := decode_in_row_iff.mpr hm
    exact ⟨i, hi, hop, sequencerMove_of_decode hbusy hi⟩

/-! ## The turns -/

/-- With no turn listed the sequencer moves while a command runs (log 1). -/
theorem step_of_busy {s : State} (ht : s.turns = []) (hbusy : s.status.busy = true) : step s = sequencerMove s := by
  simp only [step, ht, State.defaultTurn, hbusy, if_true, turnMove]

/-- A listed turn of the sequencer is its move with the turn taken (log 1). -/
theorem step_of_sequencerTurn {s : State} {ts : List Turn} (ht : s.turns = .sequencer :: ts) :
    step s = sequencerMove (s.setTurns ts) := by
  simp only [step, ht, turnMove]

/-- A whole word placed for the next step is the accepted command (log 2). -/
theorem withFetchWord_word (s : State) (w : Word) :
    s.withFetchWord 32 w.toNat = { s with cmd := w, status := s.status.accepted, turns := [] } := by
  rw [State.withFetchWord, Nat.mod_eq_of_lt w.isLt, BitVec.ofNat_toNat, BitVec.setWidth_eq]
  rfl

/-- Settles O6, by the turn that the step takes. -/
theorem stepRunsTheDecodedCommand : Obligations.StepRunsTheDecodedCommand := by
  refine ⟨fun s i ht hbusy hi => ?_, fun s i ts ht hbusy hi => ?_, fun s i w hi => ?_⟩
  · rw [step_of_busy ht hbusy, sequencerMove_of_decode hbusy hi]
  · rw [step_of_sequencerTurn ht]
    exact sequencerMove_of_decode hbusy hi
  · rw [withFetchWord_word, step_of_busy rfl rfl]
    exact sequencerMove_of_decode rfl hi

end Sys2Proof.Machine
end

section
/-!
SUPPORT. What each control command does: its rule never raises, so the command is one update of the state, completed
(40_control.md R100 to R102).
-/
namespace Sys2Proof.Machine

/-- A command whose rule ends well completes from the state its rule ends in (R237). -/
theorem exec_of_ok {i : Instr} {s t : State} {u : Unit} (h : ruleOf i s s = .ok u t) :
    exec i s = .next t.complete := by
  rw [exec_eq_runCommand, runCommand_ok h]

/-! ## The three commands -/

theorem exec_nop (s : State) : exec .nop s = .next s.complete :=
  exec_of_ok (Cmd.pure_run () s)

theorem exec_softReset (s : State) :
    exec .softReset s = .next ({ s.resetElements with cmd := s.cmd } : State).complete := by
  have hrule : softReset s = .ok () { s.resetElements with cmd := s.cmd } := by
    simp only [softReset, Cmd.getState_bind, Cmd.set_run]
  exact exec_of_ok hrule

theorem exec_clrStatus (s : State) : exec .clrStatus s = .next s.clearError.complete :=
  exec_of_ok (Cmd.modify_run State.clearError s)

/-! ## The states they reach, element by element -/

theorem State.complete_eq (s : State) : s.complete = { s with status := s.status.finished } := rfl

/-- Clearing the error state and completing touch different bits of `STATUS` (R102, R237). -/
theorem State.clearError_complete_eq (s : State) :
    s.clearError.complete =
      { s with errcode := 0, errinfo := 0, status := { s.status.finished with err := false, wbusy := false } } := rfl

/-! ## The obligations -/

/-- Settles O18: `NOP` is the completion alone, `CLR_STATUS` the clear and the completion. -/
theorem nopAndClrStatus : Obligations.NopAndClrStatus := by
  intro s
  refine ⟨?nop, ?clrStatus⟩
  case nop => rw [exec_nop, State.complete_eq]
  case clrStatus => rw [exec_clrStatus, State.clearError_complete_eq]

/-- Settles O19: the state `SOFT_RESET` completes from has the reset values of R46; each literal of the statement is
the model's own, every lane being `M = 2048`. -/
theorem softResetRestoresResetValues : Obligations.SoftResetRestoresResetValues :=
  fun s => ⟨_, exec_softReset s, rfl⟩

end Sys2Proof.Machine
end

section
/-!
SUPPORT. How each command of the bit reader and writer ends: the state it completes in, or the error it raises
(41_bitio.md R111 to R114).
-/
namespace Sys2Proof.Machine

/-- A command whose rule raises an error completes with that error, from the state its rule ends in (R231, R237). -/
theorem exec_of_raised {i : Instr} {s t : State} {e : Raised} {x : Option Access}
    (h : ruleOf i s s = .error (.raised e x) t) : exec i s = .next (t.raise i.opcode e).complete := by
  rw [exec_eq_runCommand, runCommand_raised h]

/-! ## `BR_INIT` and `BW_INIT` -/

/-- Settles O22: the registers hold the region's ends as they stand in `ARG0` and `ARG1`. -/
theorem streamInits : Obligations.StreamInits := by
  intro s
  refine ⟨fun h => ⟨?brInit, ?bwInit⟩, fun h => ⟨?brInitBad, ?bwInitBad⟩⟩
  case brInit =>
    rw [exec_of_ok (i := .brInit) (brInit_ok h), Reader.fresh, BitVec.ofNat_toNat, BitVec.ofNat_toNat,
      BitVec.setWidth_eq, BitVec.setWidth_eq]
    rfl
  case bwInit =>
    rw [exec_of_ok (i := .bwInit) (bwInit_ok h), Writer.fresh, BitVec.ofNat_toNat, BitVec.ofNat_toNat,
      BitVec.setWidth_eq, BitVec.setWidth_eq]
    rfl
  case brInitBad => exact exec_of_raised (i := .brInit) (brInit_bad h)
  case bwInitBad => exact exec_of_raised (i := .bwInit) (bwInit_bad h)

/-! ## `BR_READ` -/

/-- The state `BR_READ n` completes in, when it takes its bits from the reader `r` (R112). -/
def State.afterRead (s : State) (r : Reader) (n : Nat) : State :=
  { s with rd := (r.pop n).1, result := BitVec.ofNat 32 (r.pop n).2, status := s.status.finished }

theorem exec_brRead_of_ok {s : State} {r : Reader} {n : Nat} (h : readBits s.rd n 0 s = .ok (r.pop n) s) :
    exec (.brRead n) s = .next (s.afterRead r n) :=
  exec_of_ok (i := .brRead n) (Cmd.bind_of_ok h _)

theorem exec_brRead_of_raised {s : State} {n : Nat} {e : Raised} {x : Option Access}
    (h : readBits s.rd n 0 s = .error (.raised e x) s) :
    exec (.brRead n) s = .next (s.raise 0x11 e).complete :=
  exec_of_raised (i := .brRead n) (Cmd.bind_of_error h _)

/-- A reader that has just fetched a word and given up `n` bits, in the terms of R112. -/
theorem Reader.load_pop_eq {r : Reader} {a wd : Nat} (n : Nat) (ha : r.nextWord = some a) (hw : wd < 65536)
    (hc : r.cnt.toNat ≤ 15) (hb : r.buf.toNat < 65536) :
    ((r.load wd).pop n).1 =
      { r with
        ptr := BitVec.ofNat 32 (if r.dir then a + 2 else a)
        buf := BitVec.ofNat 32 ((r.buf.toNat * 65536 + wd) % 2 ^ (r.cnt.toNat + 16 - n))
        cnt := BitVec.ofNat 5 (r.cnt.toNat + 16 - n) } := by
  rw [← Reader.load_ptr (wd := wd) ha, BitVec.ofNat_toNat, BitVec.setWidth_eq, Reader.pop, Reader.load_buf hw hb,
    Reader.load_cnt hc]
  rfl

/-- Fewer than 16 buffered bits are a number below `2^16` (R110). -/
theorem buffer_lt {b c : Nat} (hc : c ≤ 15) (hb : b < 2 ^ c) : b < 65536 :=
  hb.trans_le (Nat.pow_le_pow_right (by decide) (hc.trans (by decide : 15 ≤ 16)))

/-- Settles O23, by the three ways `readbits` ends. -/
theorem brReadTakesTheTopBits : Obligations.BrReadTakesTheTopBits := by
  intro s n _ _ hc hb
  refine ⟨fun hn => ?buffered, fun hn a ha => ⟨fun hp => ?fetched, fun c hp => ?refused⟩, fun hn ha => ?noWord⟩
  case buffered =>
    rw [exec_brRead_of_ok (readBits_buffered hn), State.afterRead, Reader.pop_value]
    rfl
  case fetched =>
    have hw := Reader.nextWord_eq_some.mpr ha
    have hlt := buffer_lt hc hb
    have hwd := Memory.readLE_two_lt s.mem a
    rw [exec_brRead_of_ok (readBits_load hn hw hp), State.afterRead, Reader.pop_value,
      Reader.load_pop_eq n hw hwd hc hlt, Reader.load_buf hwd hlt, Reader.load_cnt hc]
  case refused =>
    exact exec_brRead_of_raised (readBits_refused hn (Reader.nextWord_eq_some.mpr ha) hp)
  case noWord => exact exec_brRead_of_raised (readBits_noWord hn (Reader.nextWord_eq_none.mpr ha))

/-! ## `BW_WRITE` -/

/-- The state `BW_WRITE` completes in with the writer `w` and the memory `m`, having stored `k` words (R114). -/
def State.afterWrite (s : State) (m : Memory) (w : Writer) (k : Nat) : State :=
  { s with mem := m, wr := w, result := BitVec.ofNat 32 k, status := s.status.finished }

theorem exec_bwWrite_of_ok {s : State} {n k : Nat} {m : Memory} {w : Writer}
    (h : writeBits s.wr s.arg0.toNat n 0 s = .ok (w, k) (s.setMem m)) :
    exec (.bwWrite n) s = .next (s.afterWrite m w k) :=
  exec_of_ok (i := .bwWrite n) (Cmd.bind_of_ok h _)

theorem exec_bwWrite_of_raised {s : State} {n : Nat} {e : Raised} {x : Option Access}
    (h : writeBits s.wr s.arg0.toNat n 0 s = .error (.raised e x) s) :
    exec (.bwWrite n) s = .next (s.raise 0x13 e).complete :=
  exec_of_raised (i := .bwWrite n) (Cmd.bind_of_error h _)

theorem exec_bwWrite_pending {s : State} {n : Nat} (hn : s.wr.cnt.toNat + n < 16) :
    exec (.bwWrite n) s = .next (s.afterWrite s.mem (s.wr.pending s.arg0.toNat n) 0) :=
  exec_bwWrite_of_ok (writeBits_pending hn)

/-- The memory `BW_WRITE n` leaves when it stores a word (R114). -/
def State.memWithWord (s : State) (n : Nat) : Memory :=
  s.mem.writeLE s.wr.ptr.toNat (s.wr.append s.arg0.toNat n % 65536) 2

theorem exec_bwWrite_stored {s : State} {n : Nat} (hn : 16 ≤ s.wr.cnt.toNat + n)
    (hr : s.wr.ptr.toNat + 2 ≤ s.wr.lim.toNat) (hp : s.platform.accessError s.wr.ptr.toNat .b2 .write = none) :
    exec (.bwWrite n) s = .next (s.afterWrite (s.memWithWord n) (s.wr.stored s.arg0.toNat n) 1) :=
  exec_bwWrite_of_ok (writeBits_stored hn hr hp)

/-- The word stands at the pointer, the low byte first (R61, R114). -/
theorem State.memWithWord_word {s : State} {n : Nat} (hm : s.mem.wf = true)
    (ha : s.wr.ptr.toNat + 2 ≤ Config.memBytes) :
    (s.memWithWord n).readLE s.wr.ptr.toNat 2 = s.wr.append s.arg0.toNat n % 65536 :=
  (Memory.readLE_writeLE 2 _ _ hm ha).trans (Nat.mod_mod _ 65536)

/-- Settles O24, by the four ways `writebits` ends. -/
theorem bwWriteAppendsBits : Obligations.BwWriteAppendsBits := by
  intro s n _ _ _ hb hm V
  have hV : s.wr.append s.arg0.toNat n = V := Writer.append_eq _ n hb
  refine ⟨fun hn => ?pending, fun hn => ⟨fun hr => ⟨fun hp => ?stored, fun c hp => ?refused⟩, fun hr => ?full⟩⟩
  case pending =>
    rw [exec_bwWrite_pending hn, Writer.pending, hV]
    rfl
  case stored =>
    have ha := accessError_none_le hp
    refine ⟨_, exec_bwWrite_stored hn hr hp, ?_, hV ▸ State.memWithWord_word hm ha, fun x hx => ?_⟩
    · rw [Writer.stored, hV, Nat.shiftRight_eq_div_pow]
      rfl
    · exact Memory.read_writeLE_outside 2 _ _ x hm ha hx
  case refused => exact exec_bwWrite_of_raised (writeBits_refused hn hr hp)
  case full => exact exec_bwWrite_of_raised (writeBits_full hn hr)

end Sys2Proof.Machine
end

section
/-!
SUPPORT. The reversal property of the bit streams (41_bitio.md R117). A list of writes stands for one number, the first
value lowest; the stored words are its digits, lowest first, and a reader whose words come highest first takes the values
off its top, so the last value comes first.
-/
namespace Sys2Proof.Machine

/-! ## The bits of a list of writes -/

/-- The bits of a list of writes as a number, the first value lowest (R110, R114). -/
def packed : List (Nat × Nat) → Nat
  | [] => 0
  | (v, n) :: ws => v % 2 ^ n + 2 ^ n * packed ws

/-- How many bits a list of writes appends. -/
def totalWidth (ws : List (Nat × Nat)) : Nat := (ws.map Prod.snd).sum

@[simp] theorem totalWidth_nil : totalWidth [] = 0 := rfl

@[simp] theorem totalWidth_cons (w : Nat × Nat) (ws : List (Nat × Nat)) :
    totalWidth (w :: ws) = w.2 + totalWidth ws := List.sum_cons

@[simp] theorem totalWidth_append (us ws : List (Nat × Nat)) :
    totalWidth (us ++ ws) = totalWidth us + totalWidth ws := by
  rw [totalWidth, List.map_append, List.sum_append]
  rfl

theorem packed_lt : ∀ ws : List (Nat × Nat), packed ws < 2 ^ totalWidth ws
  | [] => Nat.one_pos
  | (v, n) :: ws => by
    rw [packed, totalWidth_cons, Nat.pow_add]
    exact Nat.add_mul_lt_mul_of_lt_of_lt (Nat.mod_lt v (by positivity)) (packed_lt ws)

/-- The last value of the list stands highest. -/
theorem packed_append_one (v n : Nat) : ∀ ws : List (Nat × Nat),
    packed (ws ++ [(v, n)]) = packed ws + 2 ^ totalWidth ws * (v % 2 ^ n)
  | [] => by simp [packed]
  | (u, k) :: ws => by
    rw [List.cons_append, packed, packed, packed_append_one v n ws, totalWidth_cons, Nat.pow_add]
    ring

theorem toNat_ofNat_of_lt {k m : Nat} (h : k < 2 ^ m) : (BitVec.ofNat m k).toNat = k := by
  rw [BitVec.toNat_ofNat, Nat.mod_eq_of_lt h]

/-- Cutting a number to `t` bits keeps its 16-bit digit at bit `i` when that lies below `t`. -/
theorem digit_mod_two_pow {i t : Nat} (V : Nat) (h : i + 16 ≤ t) :
    V % 2 ^ t / 2 ^ i % 65536 = V / 2 ^ i % 65536 := by
  obtain ⟨k, rfl⟩ := Nat.exists_eq_add_of_le h
  rw [Nat.add_assoc, Nat.pow_add, Nat.mod_mul_right_div_self]
  exact Nat.mod_mod_of_dvd _ (pow_dvd_pow 2 (Nat.le_add_right 16 k))

/-! ## A list of writes -/

/-- From `s` to `t` without an error, the full words among the `bits` bits of `value` were stored from the writer's
pointer up, the lowest first, and nothing below the pointer changed (R114). -/
structure Wrote (s t : State) (bits value : Nat) : Prop where
  err : t.status.err = false
  ptr : t.wr.ptr.toNat = s.wr.ptr.toNat + 2 * (bits / 16)
  word : ∀ k, k < bits / 16 → t.mem.readLE (s.wr.ptr.toNat + 2 * k) 2 = value / 2 ^ (16 * k) % 65536
  below : ∀ x, x < s.wr.ptr.toNat → t.mem.read x = s.mem.read x

/-- A writer that `Wrote` can start from: fewer than 16 bits are pending (R110). -/
structure Writer.Buffered (w : Writer) : Prop where
  cnt_le : w.cnt.toNat ≤ 15
  buf_lt : w.buf.toNat < 2 ^ w.cnt.toNat

/-- The pending bits of a writer with those of a list of writes above them. -/
def Writer.withWrites (w : Writer) (ws : List (Nat × Nat)) : Nat := w.buf.toNat + 2 ^ w.cnt.toNat * packed ws

/-- The bits pending after a write with the rest above them are the same number as before it. -/
theorem Writer.withWrites_cons {w : Writer} {v n : Nat} (hw : w.Buffered) (ws : List (Nat × Nat)) :
    w.withWrites ((v, n) :: ws) = w.append v n + 2 ^ (w.cnt.toNat + n) * packed ws := by
  rw [Writer.withWrites, packed, Writer.append_eq v n hw.buf_lt, Nat.pow_add]
  ring

theorem Writer.pending_cnt {w : Writer} {n : Nat} (v : Nat) (hn : w.cnt.toNat + n < 16) :
    (w.pending v n).cnt.toNat = w.cnt.toNat + n :=
  toNat_ofNat_of_lt (by omega)

theorem Writer.pending_buf {w : Writer} {n : Nat} (v : Nat) (hw : w.Buffered) (hn : w.cnt.toNat + n < 16) :
    (w.pending v n).buf.toNat = w.append v n :=
  toNat_ofNat_of_lt ((Writer.append_lt v n hw.buf_lt).trans_le (Nat.pow_le_pow_right (by decide) (by omega)))

theorem Writer.Buffered.pending {w : Writer} (hw : w.Buffered) {n : Nat} (v : Nat) (hn : w.cnt.toNat + n < 16) :
    (w.pending v n).Buffered where
  cnt_le := by rw [Writer.pending_cnt v hn]; omega
  buf_lt := by
    rw [Writer.pending_cnt v hn, Writer.pending_buf v hw hn]
    exact Writer.append_lt v n hw.buf_lt

theorem Writer.withWrites_pending {w : Writer} (hw : w.Buffered) {n : Nat} (v : Nat) (hn : w.cnt.toNat + n < 16)
    (ws : List (Nat × Nat)) : (w.pending v n).withWrites ws = w.withWrites ((v, n) :: ws) := by
  rw [Writer.withWrites, Writer.pending_cnt v hn, Writer.pending_buf v hw hn, Writer.withWrites_cons hw]

theorem Writer.stored_cnt {w : Writer} {n : Nat} (v : Nat) (hw : w.Buffered) (hn : n ≤ 16) :
    (w.stored v n).cnt.toNat = w.cnt.toNat + n - 16 := by
  have := hw.cnt_le
  exact toNat_ofNat_of_lt (by omega)

/-- The bits above the word that was stored. -/
theorem Writer.append_div_lt {w : Writer} {n : Nat} (v : Nat) (hw : w.Buffered) (h16 : 16 ≤ w.cnt.toNat + n) :
    w.append v n / 65536 < 2 ^ (w.cnt.toNat + n - 16) := by
  apply Nat.div_lt_of_lt_mul
  rw [show 65536 = 2 ^ 16 from rfl, ← Nat.pow_add, Nat.add_sub_cancel' h16]
  exact Writer.append_lt v n hw.buf_lt

theorem Writer.stored_buf {w : Writer} {n : Nat} (v : Nat) (hw : w.Buffered) (hn : n ≤ 16)
    (h16 : 16 ≤ w.cnt.toNat + n) : (w.stored v n).buf.toNat = w.append v n / 65536 := by
  have := hw.cnt_le
  have h32 : 2 ^ (w.cnt.toNat + n - 16) ≤ 2 ^ 32 := Nat.pow_le_pow_right (by decide) (by omega)
  rw [Writer.stored, Nat.shiftRight_eq_div_pow]
  exact toNat_ofNat_of_lt ((Writer.append_div_lt v hw h16).trans_le h32)

theorem Writer.Buffered.stored {w : Writer} (hw : w.Buffered) {n : Nat} (v : Nat) (hn : n ≤ 16)
    (h16 : 16 ≤ w.cnt.toNat + n) : (w.stored v n).Buffered where
  cnt_le := by have := hw.cnt_le; rw [Writer.stored_cnt v hw hn]; omega
  buf_lt := by
    rw [Writer.stored_cnt v hw hn, Writer.stored_buf v hw hn h16]
    exact Writer.append_div_lt v hw h16

/-- The word stored and the bits left are the low 16 bits and the rest of the number. -/
theorem Writer.withWrites_stored {w : Writer} (hw : w.Buffered) {n : Nat} (v : Nat) (hn : n ≤ 16)
    (h16 : 16 ≤ w.cnt.toNat + n) (ws : List (Nat × Nat)) :
    w.withWrites ((v, n) :: ws) = w.append v n % 65536 + 65536 * (w.stored v n).withWrites ws := by
  have hpow : 2 ^ (w.cnt.toNat + n) = 65536 * 2 ^ (w.cnt.toNat + n - 16) := by
    rw [show 65536 = 2 ^ 16 from rfl, ← Nat.pow_add, Nat.add_sub_cancel' h16]
  rw [Writer.withWrites_cons hw, hpow, Writer.withWrites, Writer.stored_cnt v hw hn, Writer.stored_buf v hw hn h16]
  conv_lhs => rw [← Nat.mod_add_div (w.append v n) 65536]
  ring

/-- The low `n` bits of a value are those of the argument register that holds it. -/
theorem Writer.append_ofNat (w : Writer) (v : Nat) {n : Nat} (hn : n ≤ 16) :
    w.append (BitVec.ofNat 32 v).toNat n = w.append v n := by
  rw [Writer.append, Writer.append, BitVec.toNat_ofNat, Nat.mod_mod_of_dvd v (pow_dvd_pow 2 (by omega))]

/-- A `BW_WRITE` without an error only appends to the pending bits, or also stores a word in the room there is (R114). -/
theorem exec_bwWrite_of_noError {s u : State} {n : Nat} (h : exec (.bwWrite n) s = .next u)
    (hu : u.status.err = false) :
    (s.wr.cnt.toNat + n < 16 ∧ u = s.afterWrite s.mem (s.wr.pending s.arg0.toNat n) 0) ∨
      (16 ≤ s.wr.cnt.toNat + n ∧ s.wr.ptr.toNat + 2 ≤ s.wr.lim.toNat ∧
        u = s.afterWrite (s.memWithWord n) (s.wr.stored s.arg0.toNat n) 1) := by
  rcases writeBits_cases s.wr s.arg0.toNat n 0 s with ⟨hn, -⟩ | ⟨hn, hr, hp, -⟩ | ⟨e, x, -, he⟩
  · rw [exec_bwWrite_pending hn] at h
    injection h with h
    exact .inl ⟨hn, h.symm⟩
  · rw [exec_bwWrite_stored hn hr hp] at h
    injection h with h
    exact .inr ⟨hn, hr, h.symm⟩
  · rw [exec_bwWrite_of_raised he] at h
    injection h with h
    subst h
    simp [Status.withErr, Status.completed] at hu

/-- A run of writes without an error begins with one that only appends, or one that also stores a word (R114). -/
theorem writeAll_cons {v n : Nat} {ws : List (Nat × Nat)} {s t : State} (hn : n ≤ 16)
    (h : writeAll ((v, n) :: ws) s = some t) :
    ∃ u, writeAll ws u = some t ∧ u.status.err = false ∧
      ((s.wr.cnt.toNat + n < 16 ∧ u.mem = s.mem ∧ u.wr = s.wr.pending v n) ∨
        (16 ≤ s.wr.cnt.toNat + n ∧ s.wr.ptr.toNat + 2 ≤ s.wr.lim.toNat ∧
          u.mem = s.mem.writeLE s.wr.ptr.toNat (s.wr.append v n % 65536) 2 ∧ u.wr = s.wr.stored v n)) := by
  have happ := s.wr.append_ofNat v hn
  unfold writeAll at h
  split at h
  · rename_i u hu
    split at h
    · cases h
    · have herr : u.status.err = false := eq_false_of_ne_true ‹_›
      refine ⟨u, h, herr, ?_⟩
      rcases exec_bwWrite_of_noError hu herr with ⟨hlt, rfl⟩ | ⟨h16, hr, rfl⟩
      · refine .inl ⟨hlt, rfl, ?_⟩
        simp only [State.afterWrite, Writer.pending, happ]
      · refine .inr ⟨h16, hr, ?_, ?_⟩
        · simp only [State.afterWrite, State.memWithWord, happ]
        · simp only [State.afterWrite, Writer.stored, happ]
  · cases h
  · cases h

/-- A write that stores no word before the others. -/
theorem Wrote.after_pending {s u t : State} {bits value : Nat} (h : Wrote u t bits value) (hptr : u.wr.ptr = s.wr.ptr)
    (hmem : u.mem = s.mem) : Wrote s t bits value :=
  ⟨h.err, hptr ▸ h.ptr, hptr ▸ h.word, hmem ▸ hptr ▸ h.below⟩

/-- A write that stores a word before the others. -/
theorem Wrote.after_stored {s u t : State} {bits value wd : Nat} (h : Wrote u t bits value) (hwd : wd < 65536)
    (hptr : u.wr.ptr.toNat = s.wr.ptr.toNat + 2) (hword : u.mem.readLE s.wr.ptr.toNat 2 = wd)
    (hbelow : ∀ x, x < s.wr.ptr.toNat → u.mem.read x = s.mem.read x) :
    Wrote s t (bits + 16) (wd + 65536 * value) where
  err := h.err
  ptr := by rw [h.ptr, hptr]; omega
  word := by
    rintro (_ | k) hk
    · have hkeep : t.mem.readLE s.wr.ptr.toNat 2 = u.mem.readLE s.wr.ptr.toNat 2 :=
        Memory.readLE_congr 2 _ fun i hi => h.below _ (by omega)
      simp only [Nat.mul_zero, Nat.add_zero, hkeep, hword, Nat.pow_zero, Nat.div_one]
      omega
    · have := h.word k (by omega)
      rw [show s.wr.ptr.toNat + 2 * (k + 1) = u.wr.ptr.toNat + 2 * k by omega, this, Nat.mul_add, Nat.add_comm (16 * k),
        Nat.pow_add, ← Nat.div_div_eq_div_mul]
      congr 2
      omega
  below x hx := (h.below x (by omega)).trans (hbelow x hx)

/-- A run of writes without an error stores the words of its bits (R114). -/
theorem writeAll_wrote : ∀ (ws : List (Nat × Nat)) {s t : State}, s.mem.wf = true → s.status.err = false →
    s.wr.Buffered → (∀ w ∈ ws, w.2 ≤ 16) → writeAll ws s = some t →
    Wrote s t (s.wr.cnt.toNat + totalWidth ws) (s.wr.withWrites ws)
  | [], s, t, _, herr, hw, _, h => by
    cases h
    have hcnt := hw.cnt_le
    have h0 : (s.wr.cnt.toNat + totalWidth []) / 16 = 0 := by rw [totalWidth_nil]; omega
    exact ⟨herr, by rw [h0]; rfl, fun k hk => by omega, fun _ _ => rfl⟩
  | (v, n) :: ws, s, t, hm, _, hw, hws, h => by
    obtain ⟨hn, hws⟩ := List.forall_mem_cons.mp hws
    obtain ⟨u, h, herr, ⟨hlt, hmem, hwr⟩ | ⟨h16, hr, hmem, hwr⟩⟩ := writeAll_cons hn h
    · have ih := writeAll_wrote ws (hmem ▸ hm) herr (hwr ▸ hw.pending v hlt) hws h
      rw [hwr, Writer.withWrites_pending hw v hlt, Writer.pending_cnt v hlt, Nat.add_assoc] at ih
      exact ih.after_pending (hwr ▸ rfl) hmem
    · have ha : s.wr.ptr.toNat + 2 ≤ Config.memBytes := hr.trans (Nat.le_of_lt s.wr.lim.isLt)
      have ih := writeAll_wrote ws (hmem ▸ Memory.wf_writeLE 2 hm ha) herr (hwr ▸ hw.stored v hn h16) hws h
      have hlt : s.wr.append v n % 65536 < 65536 := Nat.mod_lt _ (by decide)
      have hall := ih.after_stored hlt (hwr ▸ Writer.stored_ptr hr v n)
        (hmem ▸ (Memory.readLE_writeLE 2 _ _ hm ha).trans (Nat.mod_eq_of_lt hlt))
        fun x hx => hmem ▸ Memory.read_writeLE_outside 2 _ _ x hm ha (.inl hx)
      rw [hwr, ← Writer.withWrites_stored hw v hn h16, Writer.stored_cnt v hw hn] at hall
      rwa [totalWidth_cons, show s.wr.cnt.toNat + (n + totalWidth ws) =
        s.wr.cnt.toNat + n - 16 + totalWidth ws + 16 by omega]

/-! ## A list of reads -/

/-- The reader's pointer after `k` more words (R112). -/
def Reader.ptrAfter (r : Reader) (k : Nat) : Nat := if r.dir then r.ptr.toNat + 2 * k else r.ptr.toNat - 2 * k

/-- The buffered bits and the next `words` words of the reader, the first word highest, are the `bits` bits of `value`;
the platform answers the fetch of each word, after the last of which the pointer is `stop` (R110, R112). -/
structure State.Ahead (s : State) (words bits value stop : Nat) : Prop where
  bits_eq : bits = 16 * words + s.rd.cnt.toNat
  value_lt : value < 2 ^ bits
  buf_eq : s.rd.buf.toNat = value / 2 ^ (16 * words)
  word_eq : ∀ k, k < words → s.mem.readLE (s.rd.wordAddr k) 2 = value / 2 ^ (16 * (words - 1 - k)) % 65536
  answered : ∀ k, k < words → s.platform.accessError (s.rd.wordAddr k) .b2 .read = none
  hasWords : s.rd.HasWords words
  stop_eq : s.rd.ptrAfter words = stop

theorem State.Ahead.buf_lt {s : State} {words bits value stop : Nat} (h : s.Ahead words bits value stop) :
    s.rd.buf.toNat < 2 ^ s.rd.cnt.toNat := by
  rw [h.buf_eq]
  apply Nat.div_lt_of_lt_mul
  rw [← Nat.pow_add, ← h.bits_eq]
  exact h.value_lt

theorem State.afterRead_rd (s : State) (r : Reader) (n : Nat) : (s.afterRead r n).rd = (r.pop n).1 := rfl

/-- Taking `n` of the buffered bits takes them off the top of the number. -/
theorem State.Ahead.pop {s : State} {words bits value stop n : Nat} (h : s.Ahead words bits value stop)
    (hn : n ≤ s.rd.cnt.toNat) :
    (s.afterRead s.rd n).Ahead words (bits - n) (value % 2 ^ (bits - n)) stop where
  bits_eq := by
    rw [State.afterRead_rd, Reader.pop_cnt, h.bits_eq]
    omega
  value_lt := Nat.mod_lt _ (by positivity)
  buf_eq := by
    have hbits : bits - n = 16 * words + (s.rd.cnt.toNat - n) := by rw [h.bits_eq]; omega
    rw [State.afterRead_rd, Reader.pop_buf, h.buf_eq, hbits, Nat.pow_add, Nat.mod_mul_right_div_self]
  word_eq k hk := by
    rw [digit_mod_two_pow value (by have := h.bits_eq; omega)]
    exact h.word_eq k hk
  answered := h.answered
  hasWords := h.hasWords
  stop_eq := h.stop_eq

theorem State.Ahead.pop_value {s : State} {words bits value stop n : Nat} (h : s.Ahead words bits value stop)
    (hn : n ≤ s.rd.cnt.toNat) : (s.rd.pop n).2 = value / 2 ^ (bits - n) := by
  have hbits : bits - n = 16 * words + (s.rd.cnt.toNat - n) := by rw [h.bits_eq]; omega
  have hlt : value / 2 ^ (bits - n) < 2 ^ n := by
    apply Nat.div_lt_of_lt_mul
    rw [← Nat.pow_add, Nat.sub_add_cancel (by have := h.bits_eq; omega)]
    exact h.value_lt
  rw [Reader.pop_value, h.buf_eq, Nat.div_div_eq_div_mul, ← Nat.pow_add, ← hbits, Nat.mod_eq_of_lt hlt]

/-- A reader whose region holds a word has its next word at the address of word number 0 (R112). -/
theorem Reader.HasWords.nextWord {r : Reader} {k : Nat} (h : r.HasWords (k + 1)) :
    r.nextWord = some (r.wordAddr 0) := by
  rw [Reader.nextWord_eq_some]
  unfold Reader.HasWords at h
  unfold Reader.wordAddr
  cases hd : r.dir with
  | true =>
    rw [hd, if_pos rfl] at h
    exact .inr ⟨hd, by omega, by simp⟩
  | false =>
    rw [hd, if_neg (by simp)] at h
    exact .inl ⟨hd, by omega, by simp⟩

/-- After a word is loaded, the words that remain are the same ones, their numbers one less. -/
theorem Reader.HasWords.load {r : Reader} {k : Nat} (h : r.HasWords (k + 1)) (wd : Nat) :
    (r.load wd).HasWords k ∧ (∀ i, (r.load wd).wordAddr i = r.wordAddr (i + 1)) ∧
      (r.load wd).ptrAfter k = r.ptrAfter (k + 1) := by
  have hptr := Reader.load_ptr (wd := wd) h.nextWord
  unfold Reader.HasWords at h
  unfold Reader.HasWords Reader.wordAddr Reader.ptrAfter
  rw [Reader.load_dir, Reader.load_base, Reader.load_lim]
  unfold Reader.wordAddr at hptr
  cases hd : r.dir <;> simp only [hd, if_true, Bool.false_eq_true, if_false] at h hptr ⊢ <;>
    exact ⟨by omega, fun i => by omega, by omega⟩

/-- Loading the next word moves it from the words to the buffer. -/
theorem State.Ahead.load {s : State} {words bits value stop : Nat} (h : s.Ahead (words + 1) bits value stop)
    (hc : s.rd.cnt.toNat ≤ 15) :
    ({ s with rd := s.rd.load (s.mem.readLE (s.rd.wordAddr 0) 2) } : State).Ahead words bits value stop := by
  obtain ⟨hwords, haddr, hptr⟩ := h.hasWords.load (s.mem.readLE (s.rd.wordAddr 0) 2)
  refine ⟨?bits, h.value_lt, ?buf, fun k hk => ?word, fun k hk => ?answered, hwords, hptr.trans h.stop_eq⟩
  case bits =>
    rw [Reader.load_cnt hc, h.bits_eq]
    omega
  case buf =>
    have hpow : 2 ^ (16 * (words + 1)) = 2 ^ (16 * words) * 65536 := by rw [Nat.mul_add, Nat.pow_add]
    rw [Reader.load_buf (Memory.readLE_two_lt _ _) (buffer_lt hc h.buf_lt), h.buf_eq, h.word_eq 0 (by omega), hpow,
      ← Nat.div_div_eq_div_mul, Nat.add_sub_cancel, Nat.sub_zero, Nat.mul_comm, Nat.div_add_mod]
  case word =>
    rw [haddr, h.word_eq (k + 1) (by omega)]
    congr 4
    omega
  case answered =>
    rw [haddr]
    exact h.answered (k + 1) (by omega)

/-- `BR_READ n` takes `n` bits off the top of what lies ahead, fetching a word where it must (R112). -/
theorem State.Ahead.read {s : State} {words bits value stop n : Nat} (h : s.Ahead words bits value stop)
    (hc : s.rd.cnt.toNat ≤ 15) (hn : n ≤ 16) (hbits : n ≤ bits) :
    ∃ r words', exec (.brRead n) s = .next (s.afterRead r n) ∧ (r.pop n).1.cnt.toNat ≤ 15 ∧
      (s.afterRead r n).Ahead words' (bits - n) (value % 2 ^ (bits - n)) stop ∧
      (r.pop n).2 = value / 2 ^ (bits - n) := by
  rcases Nat.lt_or_ge s.rd.cnt.toNat n with hlt | hle
  · obtain _ | words := words
    · have := h.bits_eq
      omega
    · have hl := h.load hc
      have hcnt := Reader.load_cnt (wd := s.mem.readLE (s.rd.wordAddr 0) 2) hc
      have hn' : n ≤ (s.rd.load (s.mem.readLE (s.rd.wordAddr 0) 2)).cnt.toNat := by omega
      exact ⟨_, words, exec_brRead_of_ok (readBits_load hlt h.hasWords.nextWord (h.answered 0 (by omega))),
        by rw [Reader.pop_cnt]; omega, hl.pop hn', hl.pop_value hn'⟩
  · exact ⟨s.rd, words, exec_brRead_of_ok (readBits_buffered hle), by rw [Reader.pop_cnt]; omega, h.pop hle,
      h.pop_value hle⟩

/-- A run of reads begins with its first read. -/
theorem readAll_cons {n : Nat} {ns vs : List Nat} {s t u : State} (h : exec (.brRead n) s = .next t)
    (herr : t.status.err = false) (hu : readAll ns t = some (vs, u)) :
    readAll (n :: ns) s = some (t.result.toNat :: vs, u) := by
  have h' : execBrRead n s = .next t := h
  simp [readAll, h', herr, hu]

/-- Reads of the widths of a list of writes, the last write first, of a stream that holds their bits, return the values
in that order and leave nothing (R117). -/
theorem readAll_packed (ws : List (Nat × Nat)) (hws : ∀ w ∈ ws, w.2 ≤ 16) {s : State} {words : Nat}
    {stop : Word} (h : s.Ahead words (totalWidth ws) (packed ws) stop.toNat) (herr : s.status.err = false)
    (hc : s.rd.cnt.toNat ≤ 15) :
    ∃ r, readAll (ws.reverse.map Prod.snd) s = some (ws.reverse.map (fun w => w.1 % 2 ^ w.2), r) ∧
      r.rd.ptr = stop ∧ r.rd.cnt = 0 := by
  induction ws using List.reverseRecOn generalizing s words with
  | nil =>
    have hbits := h.bits_eq
    rw [totalWidth_nil] at hbits
    obtain rfl : words = 0 := by omega
    have hstop : s.rd.ptr.toNat = stop.toNat := by rw [← h.stop_eq]; simp [Reader.ptrAfter]
    exact ⟨s, rfl, BitVec.eq_of_toNat_eq hstop, BitVec.eq_of_toNat_eq (show s.rd.cnt.toNat = 0 by omega)⟩
  | append_singleton ws w ih =>
    obtain ⟨v, n⟩ := w
    have hn : n ≤ 16 := hws (v, n) (by simp)
    have hbits : totalWidth (ws ++ [(v, n)]) = totalWidth ws + n := by simp
    rw [hbits, packed_append_one] at h
    obtain ⟨r, words', hexec, hcnt, hrest, hval⟩ := h.read hc hn (by omega)
    rw [Nat.add_sub_cancel, Nat.add_mul_mod_self_left, Nat.mod_eq_of_lt (packed_lt ws)] at hrest
    rw [Nat.add_sub_cancel, Nat.add_mul_div_left _ _ (by positivity), Nat.div_eq_of_lt (packed_lt ws), Nat.zero_add]
      at hval
    obtain ⟨u, hu, hptr, hzero⟩ := ih (fun w hw => hws w (by simp [hw])) hrest herr hcnt
    refine ⟨u, ?_, hptr, hzero⟩
    have hres : (s.afterRead r n).result.toNat = v % 2 ^ n := by
      have : v % 2 ^ n < 2 ^ 32 := (Nat.mod_lt v (by positivity)).trans_le (Nat.pow_le_pow_right (by decide) (by omega))
      rw [← hval] at this ⊢
      exact toNat_ofNat_of_lt this
    rw [List.reverse_append, List.reverse_singleton, List.singleton_append, List.map_cons, List.map_cons,
      readAll_cons hexec herr hu, hres]

/-! ## The obligation -/

/-- What lies ahead of a reader that has nothing buffered. -/
theorem State.Ahead.of_empty {s : State} {words value stop : Nat} (hbuf : s.rd.buf = 0) (hcnt : s.rd.cnt = 0)
    (hlt : value < 2 ^ (16 * words))
    (hword : ∀ k, k < words → s.mem.readLE (s.rd.wordAddr k) 2 = value / 2 ^ (16 * (words - 1 - k)) % 65536)
    (hans : ∀ k, k < words → s.platform.accessError (s.rd.wordAddr k) .b2 .read = none)
    (hwords : s.rd.HasWords words) (hstop : s.rd.ptrAfter words = stop) :
    s.Ahead words (16 * words) value stop :=
  ⟨by rw [hcnt]; rfl, hlt, by rw [hbuf, Nat.div_eq_of_lt hlt]; rfl, hword, hans, hwords, hstop⟩

/-- Settles O25: the stored words are the digits of the written bits, and both readers take them highest first. -/
theorem streamReversal : Obligations.StreamReversal := by
  intro s t ws base lim hm herr hwr hws hsum hrun L widths values
  have hws16 : ∀ w ∈ ws, w.2 ≤ 16 := fun w hw => (hws w hw).2
  have hbits : totalWidth ws = 16 * L := (Nat.mul_div_cancel' (Nat.dvd_of_mod_eq_zero hsum)).symm
  have hwrote := writeAll_wrote ws hm herr ⟨by simp [hwr], by simp [hwr]⟩ hws16 hrun
  have hcount : (s.wr.cnt.toNat + totalWidth ws) / 16 = L := by simp [hwr, hbits]
  have hval : s.wr.withWrites ws = packed ws := by simp [Writer.withWrites, hwr]
  have hbase : s.wr.ptr = base := by rw [hwr]
  have hptr := hwrote.ptr
  have hword := hwrote.word
  rw [hcount, hbase] at hptr
  rw [hcount, hbase, hval] at hword
  have hlt : packed ws < 2 ^ (16 * L) := hbits ▸ packed_lt ws
  refine ⟨fun hread => ?backward, fun u c e he hu hread hcopy hrd => ?forward⟩
  case backward =>
    have haddr (k : Nat) (hk : k < L) : t.wr.ptr.toNat - 2 * (k + 1) = base.toNat + 2 * (L - 1 - k) := by omega
    have hahead : ({ t with rd := ⟨base, t.wr.ptr, t.wr.ptr, 0, 0, false⟩ } : State).Ahead L (16 * L) (packed ws)
        base.toNat :=
      .of_empty rfl rfl hlt (fun k hk => (congrArg (t.mem.readLE · 2) (haddr k hk)).trans (hword _ (by omega)))
        (fun k hk => (congrArg (t.platform.accessError · .b2 .read) (haddr k hk)).trans (hread _ (by omega)))
        (Nat.le_of_eq hptr.symm) (Nat.sub_eq_of_eq_add hptr)
    rw [← hbits] at hahead
    exact readAll_packed ws hws16 hahead hwrote.err (Nat.zero_le 15)
  case forward =>
    have haddr (k : Nat) : u.rd.wordAddr k = c.toNat + 2 * k := by rw [hrd]; rfl
    have hahead : u.Ahead L (16 * L) (packed ws) e.toNat :=
      .of_empty (by rw [hrd]) (by rw [hrd]) hlt
        (fun k hk => by rw [haddr, hcopy k hk, hword _ (by omega)])
        (fun k hk => haddr k ▸ hread k hk)
        (by rw [hrd]; exact Nat.le_of_eq he.symm) (by rw [hrd]; exact he.symm)
    rw [← hbits] at hahead
    exact readAll_packed ws hws16 hahead hu (by simp [hrd])

end Sys2Proof.Machine
end

section
/-!
SUPPORT. The runs of equal accesses that meet one the platform refuses: what was done before it stands, and the error names
the address of the refused access (20_memory.md R62, R63, R69).
-/
namespace Sys2Proof.Machine

/-- Entry number `k` of a run of equal accesses from `a` is the first that the platform refuses, with the error `c`. -/
structure Platform.RefusesFirst (p : Platform) (kind : AccessKind) (n : Size) (a k : Nat) (c : ErrCode) : Prop where
  before : ∀ i, i < k → p.accessError (a + n.bytes * i) n kind = none
  refused : p.accessError (a + n.bytes * k) n kind = some c

section
variable {p : Platform} {kind : AccessKind} {n : Size} {a k : Nat} {c : ErrCode}

theorem Platform.RefusesFirst.head (h : p.RefusesFirst kind n a 0 c) : p.accessError a n kind = some c := h.refused

theorem Platform.RefusesFirst.answered (h : p.RefusesFirst kind n a (k + 1) c) : p.accessError a n kind = none :=
  h.before 0 k.succ_pos

/-- Where the entries of a run after the first stand. -/
theorem entry_succ (a m k : Nat) : a + m * (k + 1) = a + m + m * k := by
  rw [Nat.mul_succ, Nat.add_assoc, Nat.add_comm m]

theorem Platform.RefusesFirst.tail (h : p.RefusesFirst kind n a (k + 1) c) :
    p.RefusesFirst kind n (a + n.bytes) k c where
  before i hi := entry_succ a n.bytes i ▸ h.before (i + 1) (Nat.succ_lt_succ hi)
  refused := entry_succ a n.bytes k ▸ h.refused

end

/-- A run of reads ends at the first that is refused and leaves the state (R62). -/
theorem readEntries_refused {n : Size} {s : State} {c : ErrCode} : ∀ {k m a : Nat}, k < m →
    s.platform.RefusesFirst .read n a k c → readEntries n a m s =
      .error (.raised ⟨c, 0, a + n.bytes * k, 0⟩ (some ⟨.read, a + n.bytes * k, n⟩)) s
  | 0, m + 1, a, _, h => Cmd.bind_of_error (memRead_error h.head) _
  | k + 1, m + 1, a, hk, h => by
    rw [readEntries, Cmd.bind_of_ok (memRead_ok h.answered), entry_succ]
    exact Cmd.bind_of_error (readEntries_refused (Nat.lt_of_succ_lt_succ hk) h.tail) _

/-- The count of bytes ends at the first byte that is refused and leaves the state (R130). -/
theorem countBytes_refused {s : State} {c : ErrCode} : ∀ {k m a : Nat} (raw : Vector Word 512), k < m →
    s.platform.RefusesFirst .read .b1 a k c → countBytes a m raw s =
      .error (.raised ⟨c, 0, a + Size.b1.bytes * k, 0⟩ (some ⟨.read, a + Size.b1.bytes * k, .b1⟩)) s
  | 0, m + 1, a, _, _, h => Cmd.bind_of_error (memRead_error h.head) _
  | k + 1, m + 1, a, raw, hk, h => by
    rw [countBytes, Cmd.bind_of_ok (memRead_ok h.answered), entry_succ]
    exact countBytes_refused _ (Nat.lt_of_succ_lt_succ hk) h.tail

/-- A run of stores ends at the first that is refused; the values before it are stored (R63, R232). -/
theorem writeEntries_refused {n : Size} {c : ErrCode} {k : Nat} {l : List Nat} {a : Nat} {s : State} (hk : k < l.length)
    (h : s.platform.RefusesFirst .write n a k c) : writeEntries n a l s =
      .error (.raised ⟨c, 0, a + n.bytes * k, 0⟩ (some ⟨.write, a + n.bytes * k, n⟩))
        (s.setMem (storeEntries n.bytes s.mem a (l.take k))) := by
  induction l generalizing k a s with
  | nil => exact absurd hk (Nat.not_lt_zero k)
  | cons v l ih =>
    cases k with
    | zero => exact Cmd.bind_of_error (memWrite_error h.head) _
    | succ k =>
      rw [writeEntries, Cmd.bind_of_ok (memWrite_ok h.answered), entry_succ]
      exact ih (Nat.lt_of_succ_lt_succ hk) h.tail

end Sys2Proof.Machine
end

section
/-!
SUPPORT. How the commands of the raw table end, the store of the normalized table and the three queries (42_histogram.md
R130, R131, R137 to R139; 43_table.md R152).
-/
namespace Sys2Proof.Machine

/-! ## `HIST_COUNT` -/

/-- The state `HIST_COUNT` of `c` bytes completes in with the counts `raw` (R130). -/
def State.counted (s : State) (raw : Vector Word 512) : State :=
  { s with rawf := raw, result := s.arg1, status := { s.status.finished with rawValid := true } }

theorem exec_histCount_of_ok {s : State} {raw : Vector Word 512} (h : s.arg0.toNat + s.arg1.toNat ≤ 2 ^ 32)
    (hc : countBytes s.arg0.toNat s.arg1.toNat (Vector.replicate 512 0) s = .ok raw s) :
    exec .histCount s = .next (s.counted raw) := by
  have hrule : histCount s.arg0.toNat s.arg1.toNat s = .ok ()
      (((s.setRawf raw).setStatus s.status.rawLoaded).setResult (BitVec.ofNat 32 s.arg1.toNat)) :=
    (Cmd.require_bind h _ _ s).trans (Cmd.bind_of_ok hc _)
  rw [exec_of_ok (i := .histCount) hrule, BitVec.ofNat_toNat, BitVec.setWidth_eq]
  rfl

theorem exec_histCount_of_raised {s : State} {e : Raised} {x : Option Access}
    (h : s.arg0.toNat + s.arg1.toNat ≤ 2 ^ 32)
    (hc : countBytes s.arg0.toNat s.arg1.toNat (Vector.replicate 512 0) s = .error (.raised e x) s) :
    exec .histCount s = .next (s.raise 0x20 e).complete :=
  exec_of_raised (i := .histCount) ((Cmd.require_bind h _ _ s).trans (Cmd.bind_of_error hc _))

/-- Settles O26: the counts never reach `2^32`, the buffer being shorter. -/
theorem histCountCountsBytes : Obligations.HistCountCountsBytes := by
  intro s
  refine ⟨fun hfits => ⟨fun hread => ?counted, fun k c hk hread hc => ?refused⟩, fun hwrap => ?wrap⟩
  case counted =>
    obtain ⟨raw, hrun, hraw⟩ := countBytes_ok s.arg1.toNat s.arg0.toNat (Vector.replicate 512 0) hread
    refine ⟨_, exec_histCount_of_ok hfits hrun, rfl, fun i hi => ?_⟩
    have hzero : entryAt (Vector.replicate 512 (0 : Word)) i 0 = 0 := by rw [entryAt_lt _ _ hi, Vector.getElem_replicate]
    change (entryAt raw i 0).toNat = _
    rw [hraw i hi, hzero, zero_add]
    refine toNat_ofNat_of_lt (List.countP_le_length.trans_lt ?_)
    rw [List.length_range]
    exact s.arg1.isLt
  case refused =>
    have hbyte : Size.b1.bytes * k = k := Nat.one_mul k
    have hrun := countBytes_refused (Vector.replicate 512 0) hk ⟨hread, by rwa [hbyte]⟩
    rw [hbyte] at hrun
    exact exec_histCount_of_raised hfits hrun
  case wrap => exact exec_of_raised (i := .histCount) (Cmd.require_bind_not (Nat.not_le.mpr hwrap) _ _ s)

/-! ## `HIST_LOAD` -/

/-- The state `HIST_LOAD` completes in with the stored counts `raw` (R131). -/
def State.loadedRaw (s : State) (raw : List Nat) : State :=
  { s with
    rawf := ofListD 512 (raw.map (BitVec.ofNat 32)) 0
    result := BitVec.ofNat 32 raw.sum
    result1 := BitVec.ofNat 32 (raw.sum / 2 ^ 32)
    status := { s.status.finished with rawValid := true } }

theorem exec_histLoad_of_ok {s : State} {raw : List Nat} (h : s.arg0.toNat + 2048 ≤ 2 ^ 32)
    (hr : readEntries .b4 s.arg0.toNat 512 s = .ok raw s) : exec .histLoad s = .next (s.loadedRaw raw) :=
  exec_of_ok (i := .histLoad) ((Cmd.require_bind h _ _ s).trans (Cmd.bind_of_ok hr _))

theorem exec_histLoad_of_raised {s : State} {e : Raised} {x : Option Access} (h : s.arg0.toNat + 2048 ≤ 2 ^ 32)
    (hr : readEntries .b4 s.arg0.toNat 512 s = .error (.raised e x) s) :
    exec .histLoad s = .next (s.raise 0x21 e).complete :=
  exec_of_raised (i := .histLoad) ((Cmd.require_bind h _ _ s).trans (Cmd.bind_of_error hr _))

/-- A word holds a number modulo `2^32`. -/
theorem word_ofNat_mod (v : Nat) : BitVec.ofNat 32 (v % 2 ^ 32) = BitVec.ofNat 32 v :=
  BitVec.eq_of_toNat_eq (Nat.mod_mod v (2 ^ 32))

/-- Settles O27: each stored count is a number of 32 bits, so the table holds it as it is. -/
theorem histLoadReadsATable : Obligations.HistLoadReadsATable := by
  intro s
  refine ⟨fun hfits => ⟨fun hread => ?loaded, fun k c hk hread hc => ?refused⟩, fun hwrap => ?wrap⟩
  case loaded =>
    refine ⟨_, exec_histLoad_of_ok hfits (readEntries_ok 512 _ hread), ?_, fun i hi => ?_⟩
    · rw [word_ofNat_mod]
      rfl
    · have hlt : s.mem.readLE (s.arg0.toNat + 4 * i) 4 < 2 ^ 32 := Memory.readLE_lt s.mem 4 _
      rw [State.loadedRaw, entryAt_ofListD _ _ _ _ hi]
      simpa [hi, Size.bytes] using hlt
  case refused => exact exec_histLoad_of_raised hfits (readEntries_refused hk ⟨hread, hc⟩)
  case wrap => exact exec_of_raised (i := .histLoad) (Cmd.require_bind_not (Nat.not_le.mpr hwrap) _ _ s)

/-! ## `HIST_STORE` -/

/-- The entries of the stored table: the frequencies, then as many zeros (R137). -/
def State.storedTable (s : State) : List Nat := s.freqList ++ List.replicate 256 0

theorem State.storedTable_length (s : State) : s.storedTable.length = 512 := by
  rw [State.storedTable, List.length_append, State.freqList_length, List.length_replicate]

theorem State.storedTable_getElem (s : State) {i : Nat} (h : i < s.storedTable.length) :
    s.storedTable[i] = if i < 256 then s.freqOf i else 0 := by
  have hlen := s.freqList_length
  unfold State.storedTable at h ⊢
  split
  · rename_i hi
    rw [List.getElem_append_left (by omega), State.freqOf_eq s hi]
  · rename_i hi
    rw [List.getElem_append_right (by omega), List.getElem_replicate]

/-- The memory `HIST_STORE` leaves when it stores the first `k` entries (R137). -/
def State.memWithEntries (s : State) (k : Nat) : Memory := storeEntries 4 s.mem s.arg0.toNat (s.storedTable.take k)

section
variable {s : State} {k : Nat} (hm : s.mem.wf = true) (hfits : s.arg0.toNat + 2048 ≤ 2 ^ 32) (hk : k ≤ 512)
include hm hfits hk

theorem State.memWithEntries_entry {i : Nat} (hi : i < k) :
    (s.memWithEntries k).readLE (s.arg0.toNat + 4 * i) 4 = if i < 256 then s.freqOf i else 0 := by
  have hlen : (s.storedTable.take k).length = k := by simp [s.storedTable_length, hk]
  have hlt : (if i < 256 then s.freqOf i else 0) < 256 ^ 4 := by
    have : s.freqOf i < 2 ^ 16 := (entryAt s.freq i 0).isLt
    split <;> omega
  rw [State.memWithEntries, storeEntries_entry _ hm (by rw [hlen]; exact Nat.le_trans (by omega) hfits) i (by omega),
    List.getElem_take, State.storedTable_getElem, Nat.mod_eq_of_lt hlt]

theorem State.memWithEntries_outside {x : Nat} (hx : x < s.arg0.toNat ∨ s.arg0.toNat + 4 * k ≤ x) :
    (s.memWithEntries k).read x = s.mem.read x := by
  have hlen : (s.storedTable.take k).length = k := by simp [s.storedTable_length, hk]
  exact storeEntries_outside _ hm (by rw [hlen]; exact Nat.le_trans (by omega) hfits) (by rwa [hlen])

end

/-- The rule of `HIST_STORE` past its checks is the run of stores (R137). -/
theorem histStore_run {s : State} (hv : s.status.histValid = true) (hfits : s.arg0.toNat + 2048 ≤ 2 ^ 32) :
    histStore s.arg0.toNat s = writeEntries .b4 s.arg0.toNat s.storedTable s :=
  (Cmd.require_bind hv _ _ s).trans ((Cmd.require_bind hfits _ _ s).trans (Cmd.bind_of_ok (readFreq_ok hv) _))

/-- Settles O32: the stores end at the first that is refused, and each entry stands where it was stored. -/
theorem histStoreWritesATable : Obligations.HistStoreWritesATable := by
  intro s hm
  refine ⟨fun hv hfits => ⟨fun hwrite => ?stored, fun k c hk hwrite hc => ?refused⟩, fun hv hwrap => ?wrap,
    fun hv => ?notReady⟩
  case stored =>
    have hrun := (histStore_run hv hfits).trans (writeEntries_ok s.storedTable _ (s.storedTable_length ▸ hwrite))
    have hall : storeEntries 4 s.mem s.arg0.toNat s.storedTable = s.memWithEntries 512 := by
      rw [State.memWithEntries, List.take_of_length_le s.storedTable_length.le]
    have hexec := exec_of_ok (i := .histStore) hrun
    rw [show Size.b4.bytes = 4 from rfl, hall] at hexec
    exact ⟨_, hexec, rfl, fun i hi => State.memWithEntries_entry hm hfits le_rfl hi,
      fun x hx => State.memWithEntries_outside hm hfits le_rfl hx⟩
  case refused =>
    have hrun := (histStore_run hv hfits).trans
      (writeEntries_refused (s.storedTable_length ▸ hk) ⟨hwrite, hc⟩)
    exact ⟨s.memWithEntries k, exec_of_raised (i := .histStore) hrun,
      fun i hi => State.memWithEntries_entry hm hfits hk.le hi,
      fun x hx => State.memWithEntries_outside hm hfits hk.le hx⟩
  case wrap =>
    exact exec_of_raised (i := .histStore)
      ((Cmd.require_bind hv _ _ s).trans (Cmd.require_bind_not (Nat.not_le.mpr hwrap) _ _ s))
  case notReady => exact exec_of_raised (i := .histStore) (Cmd.require_bind_not (by simp [hv]) _ _ s)

/-! ## The queries -/

/-- An entry of the raw table as the word that holds it. -/
theorem State.nth_rawList (s : State) {i : Nat} (h : i < 512) : BitVec.ofNat 32 (nth s.rawList i) = entryAt s.rawf i 0 := by
  rw [nth_eq (by rwa [State.rawList_length]), entryAt_lt _ _ h]
  simp [State.rawList]

theorem exec_rawQuery {s : State} (hv : s.status.rawValid = true) (hi : s.arg0.toNat < 512) :
    exec .rawQuery s =
      .next { s with result := entryAt s.rawf s.arg0.toNat 0, status := s.status.finished } := by
  have hrule : rawQuery s.arg0.toNat s = .ok () (s.setResult (BitVec.ofNat 32 (nth s.rawList s.arg0.toNat))) :=
    (Cmd.require_bind hv _ _ s).trans ((Cmd.require_bind hi _ _ s).trans (Cmd.bind_of_ok (readRaw_list hv) _))
  rw [exec_of_ok (i := .rawQuery) hrule, State.nth_rawList s hi]
  rfl

theorem exec_freqQuery {s : State} (hv : s.status.histValid = true) (hi : s.arg0.toNat < 256) :
    exec .freqQuery s =
      .next { s with
        result := BitVec.ofNat 32 (s.freqOf s.arg0.toNat)
        result1 := BitVec.ofNat 32 (s.startOf s.arg0.toNat)
        status := s.status.finished } := by
  have hrule : freqQuery s.arg0.toNat s = .ok () ((s.setResult (BitVec.ofNat 32 (nth s.freqList s.arg0.toNat))).setResult1
      (BitVec.ofNat 32 (s.startOf s.arg0.toNat))) :=
    (Cmd.require_bind hv _ _ s).trans ((Cmd.require_bind hi _ _ s).trans (Cmd.bind_of_ok (readFreq_ok hv) _))
  rw [exec_of_ok (i := .freqQuery) hrule, State.nth_freqList]
  rfl

theorem exec_tblQuery {s : State} (hv : s.status.tblValid = true) (hi : s.arg0.toNat < 2048) :
    exec .tblQuery s =
      .next { s with
        result := BitVec.ofNat 32
          ((entryAt s.sym s.arg0.toNat 0).toNat + (entryAt s.frq s.arg0.toNat 0).toNat * 65536)
        result1 := BitVec.ofNat 32 (entryAt s.cum s.arg0.toNat 0).toNat
        status := s.status.finished } := by
  have hrule : tblQuery s.arg0.toNat s = .ok () ((s.setResult (BitVec.ofNat 32
      ((entryAt s.sym s.arg0.toNat 0).toNat ||| (entryAt s.frq s.arg0.toNat 0).toNat <<< 16))).setResult1
      (BitVec.ofNat 32 (entryAt s.cum s.arg0.toNat 0).toNat)) :=
    (Cmd.require_bind hv _ _ s).trans ((Cmd.require_bind hi _ _ s).trans (Cmd.bind_of_ok (readSlot_ok hv _) _))
  have hsym : (entryAt s.sym s.arg0.toNat 0).toNat < 2 ^ 16 := (entryAt s.sym s.arg0.toNat 0).isLt.trans (by decide)
  have hword := low_or_shift hsym (entryAt s.frq s.arg0.toNat 0).toNat
  rw [exec_of_ok (i := .tblQuery) hrule, hword]
  rfl

/-- Settles O33: each query is its two checks and the read of one entry. -/
theorem queries : Obligations.Queries := by
  intro s
  refine ⟨exec_rawQuery, fun hv hi => ?rawRange, fun hv => ?rawReady, exec_freqQuery, fun hv hi => ?freqRange,
    fun hv => ?freqReady, exec_tblQuery, fun hv hi => ?tblRange, fun hv => ?tblReady⟩
  case rawRange =>
    exact exec_of_raised (i := .rawQuery)
      ((Cmd.require_bind hv _ _ s).trans (Cmd.require_bind_not (Nat.not_lt.mpr hi) _ _ s))
  case rawReady => exact exec_of_raised (i := .rawQuery) (Cmd.require_bind_not (by simp [hv]) _ _ s)
  case freqRange =>
    exact exec_of_raised (i := .freqQuery)
      ((Cmd.require_bind hv _ _ s).trans (Cmd.require_bind_not (Nat.not_lt.mpr hi) _ _ s))
  case freqReady => exact exec_of_raised (i := .freqQuery) (Cmd.require_bind_not (by simp [hv]) _ _ s)
  case tblRange =>
    exact exec_of_raised (i := .tblQuery)
      ((Cmd.require_bind hv _ _ s).trans (Cmd.require_bind_not (Nat.not_lt.mpr hi) _ _ s))
  case tblReady => exact exec_of_raised (i := .tblQuery) (Cmd.require_bind_not (by simp [hv]) _ _ s)

end Sys2Proof.Machine
end

section
/-!
SUPPORT. What `HIST_NORM` leaves (42_histogram.md R132 to R136): the normalized table entry by entry, in the corrective pass
and in the fallback.
-/
namespace Sys2Proof.Machine

/-! ## How the command ends -/

theorem IsHighest.highestUsed_eq {raw : List Nat} {hi : Nat} (h : IsHighest raw hi) : highestUsed raw = hi :=
  (isHighest_highestUsed h.sum_pos).unique h

theorem IsLargest.indexOfGreatest_eq {raw : List Nat} {imax : Nat} (h : IsLargest raw imax) :
    indexOfGreatest raw = imax :=
  (isLargest_indexOfGreatest (List.ne_nil_of_length_pos (Nat.zero_lt_of_lt h.1))).unique h

theorem exec_histNorm_of_ok {s : State} {hi : Nat} (hv : s.status.rawValid = true) (hhi : IsHighest s.rawList hi)
    (hlt : hi < 256) : exec .histNorm s = .next s.normalizedBy.complete :=
  exec_of_ok (i := .histNorm) (histNorm_ok hv hhi.sum_pos (hhi.highestUsed_eq ▸ hlt))

/-- The state `HIST_NORM` completes in, element by element (R132). -/
theorem State.normalizedBy_complete_eq (s : State) {hi imax : Nat} (hhi : IsHighest s.rawList hi)
    (hmax : IsLargest s.rawList imax) :
    s.normalizedBy.complete = { s with
      freq := s.normalizedBy.freq
      result := BitVec.ofNat 32 (hi + 1)
      result1 := BitVec.ofNat 32 imax
      status := { s.status.finished with
        histValid := true, tblValid := false, fallback := (normalizeTable s.rawList).2 } } := by
  rw [← hhi.highestUsed_eq, ← hmax.indexOfGreatest_eq]
  simp only [State.normalizedBy, State.complete, State.setStatus, State.setResult, State.setResult1, State.setFreq,
    Status.completed, Status.normalized]

/-- Settles O31: `HIST_NORM` checks the raw table in the order of R132 and leaves the state. -/
theorem normalizationErrors : Obligations.NormalizationErrors := by
  intro s
  refine ⟨fun hv => ?notReady, fun hv => ⟨fun hsum => ?empty, fun hi hhi hlarge => ?tooLarge⟩⟩
  case notReady => exact exec_of_raised (i := .histNorm) (Cmd.require_bind_not (by simp [hv]) _ _ s)
  case empty =>
    exact exec_of_raised (i := .histNorm) ((Cmd.require_bind hv _ _ s).trans
      ((Cmd.bind_of_ok (readRaw_list hv) _).trans (Cmd.require_bind_not (by omega) _ _ s)))
  case tooLarge =>
    have hhigh := hhi.highestUsed_eq
    rw [← hhigh] at hlarge ⊢
    exact exec_of_raised (i := .histNorm) ((Cmd.require_bind hv _ _ s).trans
      ((Cmd.bind_of_ok (readRaw_list hv) _).trans ((Cmd.require_bind hhi.sum_pos _ _ s).trans
        (Cmd.require_bind_not (Nat.not_lt.mpr hlarge) _ _ s))))

/-! ## The rounded table -/

theorem rawResidue_eq (raw : List Nat) : rawResidue raw = residue (roundedTable raw) := rfl

/-- A raw table within the alphabet has its largest count there (R132, R134). -/
theorem IsLargest.lt_of_isHighest {raw : List Nat} {hi imax : Nat} (hmax : IsLargest raw imax)
    (hhi : IsHighest raw hi) : imax ≤ hi := by
  rw [← hmax.indexOfGreatest_eq, ← hhi.highestUsed_eq]
  exact indexOfGreatest_le_highestUsed hhi.sum_pos

/-- The largest count of a table that is not empty is not zero. -/
theorem IsLargest.pos {raw : List Nat} {hi imax : Nat} (hmax : IsLargest raw imax) (hhi : IsHighest raw hi) :
    0 < nth raw imax := hhi.1.trans_le (hmax.2.1 hi)

theorem nth_set (l : List Nat) {i : Nat} (v : Nat) (hi : i < l.length) (k : Nat) :
    nth (l.set i v) k = if k = i then v else nth l k := by
  rw [nth, List.getElem?_set]
  by_cases h : k = i
  · simp [h, hi]
  · simp [h, Ne.symm h, nth]

section
variable {raw : List Nat} {hi imax : Nat} (hlen : raw.length = 512) (hhi : IsHighest raw hi) (hlt : hi < 256)
  (hmax : IsLargest raw imax)
include hlen hhi hlt hmax

/-- What the normalizer corrects is the rounded table, at the largest count, which lies in the alphabet (R132, R134). -/
theorem normalizeTable_corrects_largest : normalizeTable raw = correct (roundedTable raw) imax ∧
    imax < (roundedTable raw).length ∧ nth (roundedTable raw) imax = roundedCount raw.sum (nth raw imax) := by
  have himax : imax < 256 := (hmax.lt_of_isHighest hhi).trans_lt hlt
  refine ⟨by rw [normalizeTable, hmax.indexOfGreatest_eq], ?_, nth_roundedTable himax (by omega)⟩
  rwa [roundedTable_length (by omega)]

/-- The corrective pass adds the residue to the entry of the largest count (R134). -/
theorem normalizeTable_corrected (hr : 1 ≤ (roundedCount raw.sum (nth raw imax) : Int) + rawResidue raw) :
    (normalizeTable raw).2 = false ∧ ∀ i, i < 256 → (nth (normalizeTable raw).1 i : Int) =
      roundedCount raw.sum (nth raw i) + if i = imax then rawResidue raw else 0 := by
  obtain ⟨hcorrect, himax, hnth⟩ := normalizeTable_corrects_largest hlen hhi hlt hmax
  rw [hcorrect, correct, if_pos (by rwa [hnth])]
  refine ⟨rfl, fun i hi => ?_⟩
  rw [nth_set _ _ himax, nth_roundedTable hi (by omega), roundCount_eq, hnth, ← rawResidue_eq]
  split
  · rename_i h
    subst h
    omega
  · simp

/-- The fallback takes `-r` units (R135). -/
theorem normalizeTable_lowered (hr : (roundedCount raw.sum (nth raw imax) : Int) + rawResidue raw < 1) :
    normalizeTable raw = (lowerTimes (-rawResidue raw).toNat (roundedTable raw), true) := by
  obtain ⟨hcorrect, -, hnth⟩ := normalizeTable_corrects_largest hlen hhi hlt hmax
  rw [hcorrect, correct, if_neg (by rw [hnth]; exact Int.not_le.mpr hr), rawResidue_eq]

end

/-! ## The committed table -/

/-- The committed table holds the normalized one: its entries fit 16 bits, since they sum to `M` (R40, R132). -/
theorem State.normalizedBy_freqList {s : State} (hT : 0 < s.rawList.sum) (hh : highestUsed s.rawList < 256) :
    s.normalizedBy.freqList = (normalizeTable s.rawList).1 := by
  obtain ⟨hlen, hsum⟩ := normalizeTable_sum s.rawList_length hT hh
  exact ofListD_toNat hlen fun v hv => (le_of_mem_of_sum hsum hv).trans_lt (by decide)

section
variable {s : State} {hi imax : Nat} (hhi : IsHighest s.rawList hi) (hlt : hi < 256)
include hhi hlt

theorem State.normalizedBy_freqOf (i : Nat) :
    s.normalizedBy.complete.freqOf i = nth (normalizeTable s.rawList).1 i := by
  rw [← State.normalizedBy_freqList hhi.sum_pos (hhi.highestUsed_eq ▸ hlt), State.nth_freqList]
  rfl

theorem State.normalizedBy_sum : s.normalizedBy.complete.freqList.sum = 2048 :=
  Machine.normalizedBy_freqList hhi.sum_pos (hhi.highestUsed_eq ▸ hlt)

end

/-- Settles O29: the residue goes to the largest count, and every other entry stays as rounded. -/
theorem normalizationCorrectivePass : Obligations.NormalizationCorrectivePass := by
  intro s hi imax hv hhi hlt hmax hr
  obtain ⟨hfb, hentry⟩ := normalizeTable_corrected s.rawList_length hhi hlt hmax hr
  refine ⟨_, exec_histNorm_of_ok hv hhi hlt, ?_, fun i hi => ?_⟩
  · rw [State.normalizedBy_complete_eq s hhi hmax, hfb]
  · rw [State.normalizedBy_freqOf hhi hlt, hentry i hi]

/-! ## The fallback -/

/-- `G` is `F` cut to a level, which the entries from some index on pass by one (R135). -/
def CutToLevel (F G : List Nat) : Prop :=
  ∃ level edge, 1 ≤ level ∧ ∀ i, nth G i = min (nth F i) (if i < edge then level else level + 1)

theorem CutToLevel.refl (F : List Nat) : CutToLevel F F :=
  ⟨greatest F + 1, 0, by omega, fun i => by
    have := nth_le_greatest F i
    rw [if_neg (by omega)]
    omega⟩

/-- One unit taken from the least index that holds the greatest entry keeps the cut: the entries up to that index then lie
at or below the new level, and those past it at or below the old one (R135). -/
theorem CutToLevel.lowerGreatest {F G : List Nat} (h : CutToLevel F G) (h2 : 2 ≤ greatest G) :
    CutToLevel F (lowerGreatest G) := by
  obtain ⟨level, edge, -, hG⟩ := h
  have hne : G ≠ [] := by
    rintro rfl
    simp [greatest] at h2
  have hj := indexOfGreatest_lt hne
  obtain ⟨-, hle, hleast⟩ := isLargest_indexOfGreatest hne
  have hg : nth G (indexOfGreatest G) = greatest G := by rw [nth_eq hj, getElem_indexOfGreatest hne]
  refine ⟨greatest G - 1, indexOfGreatest G + 1, by omega, fun i => ?_⟩
  rw [lowerGreatest_eq, nth_set _ _ hj]
  generalize indexOfGreatest G = j at *
  have hGi := hG i
  have hGj := hG j
  have hlei := hle i
  rcases Nat.lt_trichotomy i j with hij | rfl | hij
  · have hlti := hleast i hij
    rw [if_neg hij.ne, if_pos (by omega)]
    split at hGi <;> split at hGj <;> omega
  · rw [if_pos rfl, if_pos (by omega)]
    omega
  · rw [if_neg hij.ne', if_neg (by omega)]
    split at hGi <;> split at hGj <;> omega

theorem CutToLevel.lowerTimes {F : List Nat} : ∀ (k : Nat) {G : List Nat}, CutToLevel F G → G.length ≤ 256 →
    256 + k ≤ G.sum → CutToLevel F (lowerTimes k G)
  | 0, _, h, _, _ => h
  | k + 1, G, h, hl, hs => by
    obtain ⟨hsum, -⟩ := lowerGreatest_sum hl (by omega)
    exact CutToLevel.lowerTimes k (h.lowerGreatest (two_le_greatest hl (by omega))) (by simpa using hl) (by omega)

/-- Settles O30: each unit taken keeps the cut, and `-r` units leave the sum `M`. -/
theorem normalizationFallback : Obligations.NormalizationFallback := by
  intro s hi imax hv hhi hlt hmax hr
  have hlen : 256 ≤ s.rawList.length := by rw [State.rawList_length]; decide
  have hnorm := normalizeTable_lowered s.rawList_length hhi hlt hmax hr
  have hcut : CutToLevel (roundedTable s.rawList) (normalizeTable s.rawList).1 := by
    rw [hnorm]
    refine (CutToLevel.refl _).lowerTimes _ (roundedTable_length hlen).le ?_
    rw [rawResidue_eq, residue, Config.M] at hr ⊢
    omega
  obtain ⟨level, edge, hlevel, hentry⟩ := hcut
  refine ⟨_, exec_histNorm_of_ok hv hhi hlt, ?_, State.normalizedBy_sum hhi hlt, level, edge, hlevel, fun i hi => ?_⟩
  · rw [State.normalizedBy_complete_eq s hhi hmax, hnorm]
  · rw [State.normalizedBy_freqOf hhi hlt, hentry i, nth_roundedTable hi hlen, roundCount_eq]

/-! ## Totality -/

/-- A table of the alphabet that sums to `M` is its own normalization: the rounding keeps it, and the residue is 0
(R136 (d)). -/
theorem normalizeTable_self {raw : List Nat} {hi imax : Nat} (hlen : raw.length = 512) (hhi : IsHighest raw hi)
    (hlt : hi < 256) (hmax : IsLargest raw imax) (hsum : raw.sum = 2048) {i : Nat} (hi : i < 256) :
    nth (normalizeTable raw).1 i = nth raw i := by
  have hround (c : Nat) : roundedCount raw.sum c = c := by rw [hsum, ← roundCount_eq, roundCount_self]
  have hupper : (raw.drop 256).sum = 0 := List.sum_eq_zero fun v hv => by
    obtain ⟨k, hk, rfl⟩ := List.getElem_of_mem hv
    have hk' : 256 + k < raw.length := by
      rw [List.length_drop] at hk
      omega
    rw [List.getElem_drop, ← nth_eq hk']
    exact hhi.2 _ (by omega)
  have hlower : (raw.take 256).sum = 2048 := by
    rw [← List.take_append_drop 256 raw, List.sum_append, hupper] at hsum
    exact hsum
  have hres : rawResidue raw = 0 := by
    rw [rawResidue, List.map_congr_left fun c _ => hround c, List.map_id', hlower]
    rfl
  have hpos := hmax.pos hhi
  obtain ⟨-, hentry⟩ := normalizeTable_corrected hlen hhi hlt hmax (by rw [hround, hres]; omega)
  have := hentry i hi
  rw [hround, hres, ite_self] at this
  omega

/-- Settles O28: the parts of R136 one by one. -/
theorem normalizationTotality : Obligations.NormalizationTotality := by
  intro s hi hv hhi hlt
  have hlen : 256 ≤ s.rawList.length := by rw [State.rawList_length]; decide
  have hmax := isLargest_indexOfGreatest (List.ne_nil_of_length_pos (show 0 < s.rawList.length by omega))
  have hsum := State.normalizedBy_sum hhi hlt
  have hfreq := State.normalizedBy_freqOf hhi hlt
  have hzero (i : Nat) (hi : i < 256) : s.normalizedBy.complete.freqOf i = 0 ↔ nth s.rawList i = 0 := by
    obtain ⟨hcorrect, himax, hnth⟩ := normalizeTable_corrects_largest s.rawList_length hhi hlt hmax
    have hpos : 0 < (roundedTable s.rawList)[indexOfGreatest s.rawList] := by
      rw [← nth_eq himax, hnth, Nat.pos_iff_ne_zero, ← roundCount_eq, Ne, roundCount_zero]
      exact (hmax.pos hhi).ne'
    rw [hfreq, hcorrect, correct_zero (roundedTable_length hlen).le himax hpos, nth_roundedTable hi hlen,
      roundCount_zero]
  refine ⟨_, exec_histNorm_of_ok hv hhi hlt, ?_, hsum, hzero, fun i hi hne => ⟨?_, ?_⟩, fun hM i hi => ?_⟩
  · rw [State.normalizedBy_complete_eq s hhi hmax]
  · exact Nat.pos_of_ne_zero (mt (hzero i hi).mp hne)
  · rw [State.freqOf_eq _ hi]
    exact le_of_mem_of_sum hsum (List.getElem_mem _)
  · rw [hfreq, normalizeTable_self s.rawList_length hhi hlt hmax hM hi]

end Sys2Proof.Machine
end

section
/-!
SUPPORT. What `TBL_BUILD` leaves: the slots of each symbol, and what each slot holds (43_table.md R150, R151).
-/
namespace Sys2Proof.Machine

/-! ## How the command ends -/

theorem exec_tblBuild_of_ok {s : State} (hv : s.status.histValid = true) :
    exec .tblBuild s = .next s.builtTables.complete :=
  exec_of_ok (i := .tblBuild) ((Cmd.require_bind hv _ _ s).trans (Cmd.bind_of_ok (readFreq_ok hv) _))

/-- The state `TBL_BUILD` completes in, element by element (R151). -/
theorem State.builtTables_complete_eq (s : State) :
    s.builtTables.complete = { s with
      sym := s.builtTables.sym
      frq := s.builtTables.frq
      cum := s.builtTables.cum
      cums := s.builtTables.cums
      status := { s.status.finished with tblValid := true } } := rfl

/-! ## The slots -/

section
variable {s : State} (h : s.TablesMatch) (hsum : s.freqList.sum = 2048) {slot : Nat} (hs : slot < 2048)
include h hsum hs

/-- A slot holds the symbol in whose span it lies, and that one only (R150). -/
theorem State.TablesMatch.sym_eq_iff {σ : Nat} (hσ : σ < 256) :
    (entryAt s.sym slot 0).toNat = σ ↔ s.startOf σ ≤ slot ∧ slot < s.startOf σ + s.freqOf σ := by
  constructor
  · rintro rfl
    obtain ⟨σ, -, hsym, -, -, hspan⟩ := h.slot_cases hsum hs
    rwa [hsym]
  · rintro ⟨hstart, hend⟩
    obtain ⟨k, rfl⟩ := Nat.exists_eq_add_of_le hstart
    exact (h.slot hσ (Nat.lt_of_add_lt_add_left hend) hs).1

/-- Beside its symbol a slot holds the symbol's frequency and start (R150). -/
theorem State.TablesMatch.frq_cum_eq :
    (entryAt s.frq slot 0).toNat = s.freqOf (entryAt s.sym slot 0).toNat ∧
      (entryAt s.cum slot 0).toNat = s.startOf (entryAt s.sym slot 0).toNat := by
  obtain ⟨σ, -, hsym, hfrq, hcum, -⟩ := h.slot_cases hsum hs
  rw [hsym]
  exact ⟨hfrq, hcum⟩

end

/-- Settles O34: the tables built match the frequencies, which the command leaves, so each slot holds the row of the
symbol in whose span it lies. -/
theorem tableLayout : Obligations.TableLayout := by
  intro s
  refine ⟨fun hv hsum => ?built, fun hv => ?notReady⟩
  case built =>
    have hmatch : s.builtTables.TablesMatch := State.builtTables_match hsum
    exact ⟨_, exec_tblBuild_of_ok hv, s.builtTables_complete_eq, fun slot σ hs hσ => hmatch.sym_eq_iff hsum hs hσ,
      fun slot hs => hmatch.frq_cum_eq hsum hs, fun σ hσ => hmatch.start hσ⟩
  case notReady => exact exec_of_raised (i := .tblBuild) (Cmd.require_bind_not (by simp [hv]) _ _ s)

end Sys2Proof.Machine
end

section
/-!
SUPPORT. A list of words given to the writer (41_bitio.md R114; 44_encoder.md R162, R166). The words stored one after the
other are the bytes of one number, the pending bits with the words above them, so a run of word stores is one store of that
number.
-/
namespace Sys2Proof.Machine

/-! ## The number of a list of words -/

/-- The words of an encode as writes of 16 bits (R162). -/
def wordWrites (ws : List Nat) : List (Nat × Nat) := ws.map fun wd => (wd, 16)

theorem packed_wordWrites : ∀ {ws : List Nat}, (∀ wd ∈ ws, wd < 65536) →
    packed (wordWrites ws) = Nat.ofDigits 65536 ws
  | [], _ => rfl
  | wd :: ws, h => by
    obtain ⟨hwd, hws⟩ := List.forall_mem_cons.mp h
    rw [Nat.ofDigits_cons, ← packed_wordWrites hws]
    exact congrArg (· + 65536 * packed (wordWrites ws)) (Nat.mod_eq_of_lt hwd)

theorem Writer.withWrites_wordWrites (w : Writer) {ws : List Nat} (h : ∀ wd ∈ ws, wd < 65536) :
    w.withWrites (wordWrites ws) = w.withWords ws := by
  rw [Writer.withWrites, Writer.withWords, packed_wordWrites h]

section
variable {w : Writer} (hw : w.Buffered) {wd : Nat} {ws : List Nat} (h : ∀ v ∈ wd :: ws, v < 65536)
include hw h

/-- The first word stored is the lowest digit of the number, and what stays is the rest (R114). -/
theorem Writer.withWords_cons :
    w.withWords (wd :: ws) = w.append wd 16 % 65536 + 65536 * (w.stored wd 16).withWords ws := by
  have hws : ∀ v ∈ ws, v < 65536 := (List.forall_mem_cons.mp h).2
  rw [← w.withWrites_wordWrites h, ← (w.stored wd 16).withWrites_wordWrites hws]
  exact Writer.withWrites_stored hw wd le_rfl (Nat.le_add_left 16 _) (wordWrites ws)

theorem Writer.withWords_cons_mod : w.withWords (wd :: ws) % 65536 = w.append wd 16 % 65536 := by
  rw [Writer.withWords_cons hw h, Nat.add_mul_mod_self_left, Nat.mod_mod]

theorem Writer.withWords_cons_div : w.withWords (wd :: ws) / 65536 = (w.stored wd 16).withWords ws := by
  rw [Writer.withWords_cons hw h, Nat.add_mul_div_left _ _ (by decide), Nat.div_eq_of_lt (Nat.mod_lt _ (by decide)),
    Nat.zero_add]

end

/-! ## The writer after a list of words -/

@[simp] theorem Writer.afterWords_nil (w : Writer) : w.afterWords [] = w := by
  simp [Writer.afterWords, Writer.withWords]

/-- A word leaves as many bits pending as there were (R114). -/
theorem Writer.stored_word_cnt (w : Writer) (wd : Nat) : (w.stored wd 16).cnt = w.cnt := by
  simp [Writer.stored]

theorem Writer.afterWords_cons {w : Writer} (hw : w.Buffered) {wd : Nat} {ws : List Nat}
    (h : ∀ v ∈ wd :: ws, v < 65536) (hr : w.ptr.toNat + 2 ≤ w.lim.toNat) :
    (w.stored wd 16).afterWords ws = w.afterWords (wd :: ws) := by
  have hptr : w.ptr.toNat + 2 + 2 * ws.length = w.ptr.toNat + 2 * (wd :: ws).length := by
    rw [List.length_cons]
    omega
  have hbuf : (w.stored wd 16).withWords ws / 65536 ^ ws.length =
      w.withWords (wd :: ws) / 65536 ^ (wd :: ws).length := by
    rw [← Writer.withWords_cons_div hw h, Nat.div_div_eq_div_mul, List.length_cons, Nat.pow_succ']
  rw [Writer.afterWords, Writer.afterWords, hbuf, Writer.stored_ptr hr, hptr, Writer.stored_word_cnt]
  rfl

/-! ## The stores -/

/-- A store of a number is the store of its low word and, above it, of the rest (R61). -/
theorem Memory.writeLE_word (m : Memory) (a V k : Nat) :
    m.writeLE a V (2 * (k + 1)) = (m.writeLE a (V % 65536) 2).writeLE (a + 2) (V / 65536) (2 * k) := by
  have hlow : BitVec.ofNat 8 (V % 65536) = BitVec.ofNat 8 V := BitVec.eq_of_toNat_eq (by simp)
  have hhigh : BitVec.ofNat 8 (V % 65536 / 256) = BitVec.ofNat 8 (V / 256) :=
    BitVec.eq_of_toNat_eq (by simp only [BitVec.toNat_ofNat]; omega)
  rw [Nat.mul_succ]
  simp only [Memory.writeLE, hlow, hhigh, Nat.div_div_eq_div_mul]

/-- The state after the word `wd` is stored (R114). -/
def State.withWord (s : State) (w : Writer) (wd : Nat) : State :=
  s.setMem (s.mem.writeLE w.ptr.toNat (w.append wd 16 % 65536) 2)

section
variable {lane wd : Nat} {w : Writer} {s : State}

/-- A word always completes a word (R114). -/
theorem storeWords_stored (ws : List Nat) (hr : w.ptr.toNat + 2 ≤ w.lim.toNat)
    (hp : s.platform.accessError w.ptr.toNat .b2 .write = none) :
    storeWords lane w (wd :: ws) s = storeWords lane (w.stored wd 16) ws (s.withWord w wd) :=
  Cmd.bind_of_ok (writeBits_stored (Nat.le_add_left 16 _) hr hp) _

theorem storeWords_refused_head (ws : List Nat) {c : ErrCode} (hr : w.ptr.toNat + 2 ≤ w.lim.toNat)
    (hp : s.platform.accessError w.ptr.toNat .b2 .write = some c) :
    storeWords lane w (wd :: ws) s =
      .error (.raised ⟨c, 0, w.ptr.toNat, lane⟩ (some ⟨.write, w.ptr.toNat, .b2⟩)) s :=
  Cmd.bind_of_error (writeBits_refused (Nat.le_add_left 16 _) hr hp) _

end

/-- The state after the first `k` words of a list are stored (R114). -/
def State.withWords (s : State) (w : Writer) (ws : List Nat) (k : Nat) : State :=
  s.setMem (s.mem.writeLE w.ptr.toNat (w.withWords ws) (2 * k))

@[simp] theorem State.withWords_zero (s : State) (w : Writer) (ws : List Nat) : s.withWords w ws 0 = s := rfl

theorem State.withWords_cons (s : State) {w : Writer} (hw : w.Buffered) {wd : Nat} {ws : List Nat}
    (h : ∀ v ∈ wd :: ws, v < 65536) (hr : w.ptr.toNat + 2 ≤ w.lim.toNat) (k : Nat) :
    (s.withWord w wd).withWords (w.stored wd 16) ws k = s.withWords w (wd :: ws) (k + 1) := by
  rw [State.withWords, State.withWords, Memory.writeLE_word, Writer.withWords_cons_mod hw h,
    Writer.withWords_cons_div hw h, Writer.stored_ptr hr]
  rfl

section
variable {s : State} {w : Writer} {ws : List Nat} {k : Nat} (hm : s.mem.wf = true)
  (ha : w.ptr.toNat + 2 * k ≤ w.lim.toNat)
include hm ha

theorem State.withWords_readLE :
    (s.withWords w ws k).mem.readLE w.ptr.toNat (2 * k) = w.withWords ws % 65536 ^ k := by
  have hpow : 256 ^ (2 * k) = 65536 ^ k := Nat.pow_mul 256 2 k
  rw [State.withWords, State.setMem_mem, Memory.readLE_writeLE _ _ _ hm (ha.trans w.lim.isLt.le), hpow]

theorem State.withWords_sameOutside : SameOutside s (s.withWords w ws k) w.ptr.toNat (2 * k) := fun x hx =>
  Memory.read_writeLE_outside _ _ _ x hm (ha.trans w.lim.isLt.le) hx

end

/-- Words that fit and are answered are all stored (R114, R162, R166). -/
theorem storeWords_ok {lane : Nat} {ws : List Nat} {w : Writer} {s : State} (hw : w.Buffered)
    (h : ∀ wd ∈ ws, wd < 65536) (hfit : w.ptr.toNat + 2 * ws.length ≤ w.lim.toNat)
    (hc : s.CanWrite .b2 w.ptr.toNat ws.length) :
    storeWords lane w ws s = .ok (w.afterWords ws) (s.withWords w ws ws.length) := by
  induction ws generalizing w s with
  | nil =>
    rw [Writer.afterWords_nil]
    rfl
  | cons wd ws ih =>
    rw [List.length_cons] at hfit hc
    have hr : w.ptr.toNat + 2 ≤ w.lim.toNat := by omega
    have hptr := Writer.stored_ptr hr wd 16
    have htail : (s.withWord w wd).CanWrite .b2 (w.stored wd 16).ptr.toNat ws.length := fun i hi => by
      rw [hptr]
      exact entry_succ w.ptr.toNat Size.b2.bytes i ▸ hc (i + 1) (Nat.succ_lt_succ hi)
    have hfit' : (w.stored wd 16).ptr.toNat + 2 * ws.length ≤ w.lim.toNat := by omega
    calc storeWords lane w (wd :: ws) s
      _ = storeWords lane (w.stored wd 16) ws (s.withWord w wd) := storeWords_stored ws hr (hc 0 (Nat.succ_pos _))
      _ = .ok _ _ := ih (hw.stored wd le_rfl (Nat.le_add_left 16 _)) (List.forall_mem_cons.mp h).2 hfit' htail
      _ = .ok (w.afterWords (wd :: ws)) (s.withWords w (wd :: ws) (ws.length + 1)) := by
        rw [Writer.afterWords_cons hw h hr, State.withWords_cons s hw h hr]

/-- The stores end at the first word that is refused; the words before it are stored (R114, R166, R232). -/
theorem storeWords_refused {lane k : Nat} {c : ErrCode} {ws : List Nat} {w : Writer} {s : State} (hk : k < ws.length)
    (hw : w.Buffered) (h : ∀ wd ∈ ws, wd < 65536) (hfit : w.ptr.toNat + 2 * ws.length ≤ w.lim.toNat)
    (hc : s.platform.RefusesFirst .write .b2 w.ptr.toNat k c) :
    storeWords lane w ws s =
      .error (.raised ⟨c, 0, w.ptr.toNat + 2 * k, lane⟩ (some ⟨.write, w.ptr.toNat + 2 * k, .b2⟩))
        (s.withWords w ws k) := by
  induction ws generalizing k w s with
  | nil => exact absurd hk (Nat.not_lt_zero k)
  | cons wd ws ih =>
    rw [List.length_cons] at hfit
    have hr : w.ptr.toNat + 2 ≤ w.lim.toNat := by omega
    cases k with
    | zero => exact storeWords_refused_head ws hr hc.head
    | succ k =>
      have hptr := Writer.stored_ptr hr wd 16
      have htail : (s.withWord w wd).platform.RefusesFirst .write .b2 (w.stored wd 16).ptr.toNat k c :=
        hptr ▸ hc.tail
      have hfit' : (w.stored wd 16).ptr.toNat + 2 * ws.length ≤ w.lim.toNat := by omega
      have hrest := ih (Nat.lt_of_succ_lt_succ hk) (hw.stored wd le_rfl (Nat.le_add_left 16 _))
        (List.forall_mem_cons.mp h).2 hfit' htail
      rw [State.withWords_cons s hw h hr, show (w.stored wd 16).ptr.toNat + 2 * k = w.ptr.toNat + 2 * (k + 1) by omega]
        at hrest
      exact (storeWords_stored ws hr hc.answered).trans hrest

end Sys2Proof.Machine
end

section
/-!
SUPPORT. How `ENC_SYM` and `ENC_STEP` run (44_encoder.md R162, R166): the checks and the encode of the lanes leave the state;
what stores and commits is one part that the two commands share.
-/
namespace Sys2Proof.Machine

/-! ## The stores and the commit -/

/-- The last part of both commands: room for the words, their stores, and the commit of the writer (R162, R166). -/
def commitWords (lane : Nat) (w : Writer) (ws : List Nat) (commit : Writer → State → State) : Cmd Unit := do
  require (w.ptr.toNat + 2 * ws.length ≤ w.lim.toNat) ⟨.writeOverflow, 0, w.ptr.toNat, lane⟩
  let w' ← storeWords lane w ws
  modify (commit w')

section
variable {lane : Nat} {w : Writer} {ws : List Nat} {s : State} (commit : Writer → State → State)

theorem commitWords_full (h : w.lim.toNat < w.ptr.toNat + 2 * ws.length) :
    commitWords lane w ws commit s = .error (.raised ⟨.writeOverflow, 0, w.ptr.toNat, lane⟩ none) s :=
  Cmd.require_bind_not (Nat.not_le.mpr h) _ _ s

variable (hfit : w.ptr.toNat + 2 * ws.length ≤ w.lim.toNat)
include hfit

theorem commitWords_of_raised {e : Raised} {x : Option Access} {t : State}
    (h : storeWords lane w ws s = .error (.raised e x) t) :
    commitWords lane w ws commit s = .error (.raised e x) t :=
  (Cmd.require_bind hfit _ _ s).trans (Cmd.bind_of_error h _)

theorem commitWords_ok (hw : w.Buffered) (h : ∀ wd ∈ ws, wd < 65536) (hc : s.CanWrite .b2 w.ptr.toNat ws.length) :
    commitWords lane w ws commit s = .ok () (commit (w.afterWords ws) (s.withWords w ws ws.length)) :=
  (Cmd.require_bind hfit _ _ s).trans (Cmd.bind_of_ok (storeWords_ok hw h hfit hc) _)

end

/-! ## `ENC_SYM` -/

/-- The commit of `ENC_SYM` with the new lane state `x'` and `n` words (R162). -/
def commitSym (lane x' n : Nat) (w : Writer) (s : State) : State :=
  (((s.setXe (setLane s.xe lane x')).setWr w).setResult (BitVec.ofNat 32 n)).setResult1 (BitVec.ofNat 32 x')

/-- The new lane state of `ENC_SYM` (R162). -/
abbrev State.encodedSym (s : State) (lane : Nat) : Nat :=
  encodedState (s.freqOf s.arg0.toNat) (s.startOf s.arg0.toNat) (laneAt s.xe lane)

/-- The state a commit of `ENC_SYM` completes in (R162). -/
theorem commitSym_complete (lane x' n : Nat) (w : Writer) (s : State) : (commitSym lane x' n w s).complete =
    { s with
      xe := s.xe.setIfInBounds lane (BitVec.ofNat 32 x')
      wr := w
      result := BitVec.ofNat 32 n
      result1 := BitVec.ofNat 32 x'
      status := s.status.finished } := by
  simp only [commitSym, State.complete, State.setXe, State.setWr, State.setResult, State.setResult1, State.setStatus,
    setLane, Status.completed]

section
variable {s : State} {lane : Nat} (hl : lane < s.lanes)
include hl

/-- Past the lane check the rule of `ENC_SYM` is that of its framer sub-step (R85). -/
theorem ruleOf_encSym : ruleOf (.encSym lane) s s = encSym lane s.arg0.toNat s :=
  Cmd.bind_of_ok (checkLane_ok hl) _

theorem exec_encSym_notReady (ht : s.status.tblValid = false) :
    exec (.encSym lane) s = s.failed 0x31 .notReady 2 0 0 :=
  exec_of_raised ((ruleOf_encSym hl).trans (Cmd.require_bind_not (by simp [ht]) _ _ s))

variable (ht : s.status.tblValid = true)
include ht

theorem exec_encSym_badSymbol (hσ : 256 ≤ s.arg0.toNat) :
    exec (.encSym lane) s = s.failed 0x31 .badArg 0 s.arg0.toNat 0 :=
  exec_of_raised ((ruleOf_encSym hl).trans
    ((Cmd.require_bind ht _ _ s).trans (Cmd.require_bind_not (Nat.not_lt.mpr hσ) _ _ s)))

variable (hσ : s.arg0.toNat < 256)
include hσ

theorem exec_encSym_zeroFreq (hh : s.status.histValid = true) (hF : s.freqOf s.arg0.toNat = 0) :
    exec (.encSym lane) s = s.failed 0x31 .zeroFreqSymbol 0 s.arg0.toNat lane :=
  exec_of_raised ((ruleOf_encSym hl).trans ((Cmd.require_bind ht _ _ s).trans
    ((Cmd.require_bind hσ _ _ s).trans (Cmd.bind_of_error (encPlan_zeroFreq hh hF) _))))

/-- Past its checks `ENC_SYM` stores the words of the lane's encode and commits (R162). -/
theorem ruleOf_encSym_plan {x' : Nat} {ws : List Nat}
    (h : encPlan lane s.arg0.toNat (laneAt s.xe lane) s = .ok (x', ws) s) :
    ruleOf (.encSym lane) s s = commitWords lane s.wr ws (commitSym lane x' ws.length) s :=
  (ruleOf_encSym hl).trans ((Cmd.require_bind ht _ _ s).trans
    ((Cmd.require_bind hσ _ _ s).trans (Cmd.bind_of_ok h _)))

variable (hs : CodecSafe s) (hlane : lane < 32) (hF : 0 < s.freqOf s.arg0.toNat)
include hs hlane hF

theorem ruleOf_encSym_noWord (hx : laneAt s.xe lane < 65536 * s.freqOf s.arg0.toNat) :
    ruleOf (.encSym lane) s s = commitWords lane s.wr [] (commitSym lane (s.encodedSym lane) 0) s :=
  ruleOf_encSym_plan hl ht hσ (ws := [])
    ((encPlan_ok hs ht hσ hF (hs.encoder lane hlane)).trans (by rw [if_neg (Nat.not_le.mpr hx)]))

theorem ruleOf_encSym_word (hx : 65536 * s.freqOf s.arg0.toNat ≤ laneAt s.xe lane) :
    ruleOf (.encSym lane) s s =
      commitWords lane s.wr [laneAt s.xe lane % 65536] (commitSym lane (s.encodedSym lane) 1) s :=
  ruleOf_encSym_plan hl ht hσ (ws := [laneAt s.xe lane % 65536])
    ((encPlan_ok hs ht hσ hF (hs.encoder lane hlane)).trans (by rw [if_pos hx]))

end

/-! ## The lanes of a step -/

/-- The words of lane `j`, before those of the lanes below it (R166). -/
theorem State.emittedWords_succ (s : State) (σ : Nat → Nat) (j : Nat) :
    s.emittedWords σ (j + 1) =
      (if 65536 * s.freqOf (σ j) ≤ laneAt s.xe j then [laneAt s.xe j % 65536] else []) ++ s.emittedWords σ j := by
  by_cases h : 65536 * s.freqOf (σ j) ≤ laneAt s.xe j
  · simp [State.emittedWords, List.range_succ, Config.B, h]
  · simp [State.emittedWords, List.range_succ, Config.B, h]

theorem State.emittedWords_lt (s : State) (σ : Nat → Nat) (k : Nat) : ∀ wd ∈ s.emittedWords σ k, wd < 65536 := by
  intro wd h
  simp only [State.emittedWords, List.mem_filterMap] at h
  obtain ⟨j, -, hj⟩ := h
  split at hj
  · cases hj
    exact Nat.mod_lt _ (by decide)
  · cases hj

/-- A symbol with a frequency is one of the 256 (R40). -/
theorem State.symbol_lt {s : State} {σ : Nat} (h : 0 < s.freqOf σ) : σ < 256 := by
  by_contra hσ
  rw [s.freqOf_ge (Nat.not_lt.mp hσ)] at h
  exact absurd h (Nat.lt_irrefl 0)

/-- A coded lane is legal, with tables that match (R164). -/
theorem CodecSafe.encodedState_legal {s : State} (hs : CodecSafe s) (ht : s.status.tblValid = true) {σ x : Nat}
    (hF : 0 < s.freqOf σ) (hx : LaneLegal x) : LaneLegal (encodedState (s.freqOf σ) (s.startOf σ) x) :=
  Machine.encodedState_legal hF (State.start_add_freq_le (hs.2.1 (hs.2.2 ht).1) (State.symbol_lt hF)) hx

section
variable {s : State} {syms : List Nat} {σ : Nat → Nat} (hs : CodecSafe s) (ht : s.status.tblValid = true)
include hs ht

/-- The highest lane of a step codes its symbol, then the lanes below it theirs (R166, R167). -/
theorem encLanes_succ {j : Nat} {xe : Vector Word 32} (hj : j < 32) (hsym : nth syms j = σ j)
    (hF : 0 < s.freqOf (σ j)) (hxe : laneAt xe j = laneAt s.xe j) :
    encLanes syms (j + 1) xe s =
      (encLanes syms j (setLane xe j (encodedState (s.freqOf (σ j)) (s.startOf (σ j)) (laneAt s.xe j))) >>= fun p =>
        pure (p.1, (if 65536 * s.freqOf (σ j) ≤ laneAt s.xe j then [laneAt s.xe j % 65536] else []) ++ p.2)) s := by
  have hplan := encPlan_ok (lane := j) hs ht (State.symbol_lt hF) hF (hs.encoder j hj)
  rw [← hxe, ← hsym] at hplan ⊢
  exact Cmd.bind_of_ok hplan _

/-- The lanes below `k` code their own symbols, the others stay (R166, R167). -/
theorem encLanes_ok : ∀ {k : Nat} {xe : Vector Word 32}, k ≤ 32 → (∀ j, j < k → nth syms j = σ j) →
    (∀ j, j < k → 0 < s.freqOf (σ j)) → (∀ j, j < k → laneAt xe j = laneAt s.xe j) →
    ∃ xe', encLanes syms k xe s = .ok (xe', s.emittedWords σ k) s ∧ ∀ j, j < 32 → laneAt xe' j =
      if j < k then encodedState (s.freqOf (σ j)) (s.startOf (σ j)) (laneAt s.xe j) else laneAt xe j
  | 0, xe, _, _, _, _ => ⟨xe, rfl, fun j _ => rfl⟩
  | i + 1, xe, hk, hsyms, hF, hxe => by
    have hi : i < i + 1 := Nat.lt_succ_self i
    have hlt : encodedState (s.freqOf (σ i)) (s.startOf (σ i)) (laneAt s.xe i) < 134217728 :=
      (hs.encodedState_legal ht (hF i hi) (hs.encoder i hk)).2
    generalize hx' : encodedState (s.freqOf (σ i)) (s.startOf (σ i)) (laneAt s.xe i) = x' at hlt
    have hset (j : Nat) (hj : j < 32) : laneAt (setLane xe i x') j = if j = i then x' else laneAt xe j := by
      rw [laneAt_setLane xe i x' j hj, Nat.mod_eq_of_lt (by omega)]
    obtain ⟨xe', hrun, hlanes⟩ := encLanes_ok (xe := setLane xe i x') (Nat.le_of_succ_le hk)
      (fun j hj => hsyms j (Nat.lt_succ_of_lt hj)) (fun j hj => hF j (Nat.lt_succ_of_lt hj)) fun j hj => by
        rw [hset j (by omega), if_neg (Nat.ne_of_lt hj)]
        exact hxe j (Nat.lt_succ_of_lt hj)
    refine ⟨xe', ?_, fun j hj => ?_⟩
    · rw [encLanes_succ hs ht hk (hsyms i hi) (hF i hi) (hxe i hi), hx', Cmd.bind_of_ok hrun, State.emittedWords_succ]
      rfl
    · rw [hlanes j hj, hset j hj]
      rcases Nat.lt_trichotomy j i with h | rfl | h
      · rw [if_pos h, if_pos (Nat.lt_succ_of_lt h)]
      · rw [if_neg (Nat.lt_irrefl j), if_pos rfl, if_pos hi, hx']
      · rw [if_neg (Nat.lt_asymm h), if_neg (Nat.ne_of_gt h), if_neg (by omega)]

/-- The first lane, from the highest down, whose symbol has no frequency ends the step (R166). -/
theorem encLanes_zeroFreq {i : Nat} (hzero : s.freqOf (σ i) = 0) : ∀ {k : Nat} {xe : Vector Word 32}, k ≤ 32 → i < k →
    (∀ j, j < k → nth syms j = σ j) → (∀ j, i < j → j < k → 0 < s.freqOf (σ j)) →
    (∀ j, j < k → laneAt xe j = laneAt s.xe j) →
    encLanes syms k xe s = .error (.raised ⟨.zeroFreqSymbol, 0, σ i, i⟩ none) s
  | k + 1, xe, hk, hik, hsyms, hF, hxe => by
    have hself : k < k + 1 := Nat.lt_succ_self k
    rcases Nat.lt_succ_iff_lt_or_eq.mp hik with hlt | rfl
    · rw [encLanes_succ hs ht hk (hsyms k hself) (hF k hlt hself) (hxe k hself)]
      refine Cmd.bind_of_error (encLanes_zeroFreq hzero (Nat.le_of_succ_le hk) hlt
        (fun j hj => hsyms j (Nat.lt_succ_of_lt hj)) (fun j hij hj => hF j hij (Nat.lt_succ_of_lt hj)) fun j hj => ?_) _
      rw [laneAt_setLane _ _ _ _ (by omega), if_neg (Nat.ne_of_lt hj)]
      exact hxe j (Nat.lt_succ_of_lt hj)
    · rw [← hsyms i hself] at hzero ⊢
      exact Cmd.bind_of_error (encPlan_zeroFreq (hs.2.2 ht).1 hzero) _

end

/-! ## `ENC_STEP` -/

/-- The symbols of a step, byte `j` from `a` up for lane `j` (R166). -/
abbrev State.symbolsAt (s : State) (a j : Nat) : Nat := (s.mem.read (a + j)).toNat

theorem readEntries_symbols {s : State} {a k : Nat} (h : s.CanRead .b1 a k) :
    ∃ syms, readEntries .b1 a k s = .ok syms s ∧ ∀ j, j < k → nth syms j = s.symbolsAt a j := by
  refine ⟨_, readEntries_ok k a h, fun j hj => ?_⟩
  rw [nth_eq (by simpa using hj)]
  simp [Size.bytes, Memory.readLE]

/-- The commit of `ENC_STEP` with the new lanes and `n` words (R166). -/
def commitStep (xe : Vector Word 32) (n : Nat) (w : Writer) (s : State) : State :=
  ((s.setXe xe).setWr w).setResult (BitVec.ofNat 32 n)

theorem exec_encStep_notReady {s : State} (ht : s.status.tblValid = false) :
    exec .encStep s = s.failed 0x32 .notReady 2 0 0 :=
  exec_of_raised (i := .encStep) (Cmd.require_bind_not (by simp [ht]) _ _ s)

section
variable {s : State} (ht : s.status.tblValid = true)
include ht

theorem exec_encStep_badCount (hk : ¬(1 ≤ s.arg1.toNat ∧ s.arg1.toNat ≤ s.lanes)) :
    exec .encStep s = s.failed 0x32 .badArg 4 s.arg1.toNat 0 :=
  exec_of_raised (i := .encStep) ((Cmd.require_bind ht _ _ s).trans (Cmd.require_bind_not hk _ _ s))

variable (hk : 1 ≤ s.arg1.toNat ∧ s.arg1.toNat ≤ s.lanes)
include hk

theorem exec_encStep_wrap (hwrap : 2 ^ 32 < s.arg0.toNat + s.arg1.toNat) :
    exec .encStep s = s.failed 0x32 .addressWrap 0 s.arg0.toNat 0 :=
  exec_of_raised (i := .encStep) ((Cmd.require_bind ht _ _ s).trans
    ((Cmd.require_bind hk _ _ s).trans (Cmd.require_bind_not (Nat.not_le.mpr hwrap) _ _ s)))

variable (hfits : s.arg0.toNat + s.arg1.toNat ≤ 2 ^ 32)
include hfits

theorem exec_encStep_readRefused {i : Nat} {c : ErrCode} (hi : i < s.arg1.toNat)
    (hread : s.platform.RefusesFirst .read .b1 s.arg0.toNat i c) :
    exec .encStep s = s.failed 0x32 c 0 (s.arg0.toNat + i) 0 := by
  have hrun := readEntries_refused hi hread
  rw [show Size.b1.bytes * i = i from Nat.one_mul i] at hrun
  exact exec_of_raised (i := .encStep) ((Cmd.require_bind ht _ _ s).trans ((Cmd.require_bind hk _ _ s).trans
    ((Cmd.require_bind hfits _ _ s).trans (Cmd.bind_of_error hrun _))))

/-- Past its checks and its reads `ENC_STEP` codes the lanes, stores their words and commits (R166). -/
theorem ruleOf_encStep_lanes (hread : s.CanRead .b1 s.arg0.toNat s.arg1.toNat) :
    ∃ syms, (∀ j, j < s.arg1.toNat → nth syms j = s.symbolsAt s.arg0.toNat j) ∧
      ruleOf .encStep s s = (encLanes syms s.arg1.toNat s.xe >>= fun p =>
        commitWords 0 s.wr p.2 (commitStep p.1 p.2.length)) s := by
  obtain ⟨syms, hrun, hsyms⟩ := readEntries_symbols hread
  exact ⟨syms, hsyms, (Cmd.require_bind ht _ _ s).trans ((Cmd.require_bind hk _ _ s).trans
    ((Cmd.require_bind hfits _ _ s).trans (Cmd.bind_of_ok hrun _)))⟩

variable (hread : s.CanRead .b1 s.arg0.toNat s.arg1.toNat) (hs : CodecSafe s) (hN : s.lanes ≤ 32)
include hread hs hN

theorem exec_encStep_zeroFreq {i : Nat} (hi : i < s.arg1.toNat) (hzero : s.freqOf (s.symbolsAt s.arg0.toNat i) = 0)
    (hF : ∀ j, i < j → j < s.arg1.toNat → 0 < s.freqOf (s.symbolsAt s.arg0.toNat j)) :
    exec .encStep s = s.failed 0x32 .zeroFreqSymbol 0 (s.symbolsAt s.arg0.toNat i) i := by
  obtain ⟨syms, hsyms, hrule⟩ := ruleOf_encStep_lanes ht hk hfits hread
  have hlanes := encLanes_zeroFreq hs ht hzero (hk.2.trans hN) hi hsyms hF (xe := s.xe) fun _ _ => rfl
  exact exec_of_raised (hrule.trans (Cmd.bind_of_error hlanes _))

/-- With every symbol's frequency above 0, `ENC_STEP` is the stores of the emitted words and the commit of the coded lanes
(R166, R167). -/
theorem ruleOf_encStep_words (hF : ∀ j, j < s.arg1.toNat → 0 < s.freqOf (s.symbolsAt s.arg0.toNat j)) :
    ∃ xe, (∀ j, j < 32 → laneAt xe j =
        if j < s.arg1.toNat then encodedState (s.freqOf (s.symbolsAt s.arg0.toNat j))
          (s.startOf (s.symbolsAt s.arg0.toNat j)) (laneAt s.xe j)
        else laneAt s.xe j) ∧
      ruleOf .encStep s s = commitWords 0 s.wr (s.emittedWords (s.symbolsAt s.arg0.toNat) s.arg1.toNat)
        (commitStep xe (s.emittedWords (s.symbolsAt s.arg0.toNat) s.arg1.toNat).length) s := by
  obtain ⟨syms, hsyms, hrule⟩ := ruleOf_encStep_lanes ht hk hfits hread
  obtain ⟨xe, hrun, hlanes⟩ := encLanes_ok hs ht (hk.2.trans hN) hsyms hF (xe := s.xe) fun _ _ => rfl
  exact ⟨xe, hlanes, hrule.trans (Cmd.bind_of_ok hrun _)⟩

end

end Sys2Proof.Machine
end

section
/-!
SUPPORT. What `ENC_INIT`, `ENC_SYM` and `ENC_STEP` leave, and how they fail (44_encoder.md R161, R162, R166, R167).
-/
namespace Sys2Proof.Machine

/-- Settles O35: the one update of the rule, completed. -/
theorem encInitSetsEveryLane : Obligations.EncInitSetsEveryLane := fun _ => exec_of_ok (i := .encInit) rfl

/-- Settles O36: the stores and the commit with no word, and with the one word of a large state. -/
theorem encSymCodesASymbol : Obligations.EncSymCodesASymbol := by
  intro s lane hs hm hcnt hbuf ht hl hlane hσ hF x F x'
  have hw : s.wr.Buffered := ⟨hcnt, hbuf⟩
  refine ⟨fun hx hroom => ?noWord, fun hx hroom hp => ?word⟩
  case noWord =>
    have hrun := (ruleOf_encSym_noWord hl ht hσ hs hlane hF hx).trans
      (commitWords_ok _ hroom hw (by simp) fun i hi => absurd hi (Nat.not_lt_zero i))
    rw [exec_of_ok hrun, Writer.afterWords_nil, List.length_nil, State.withWords_zero, commitSym_complete]
    rfl
  case word =>
    have hc : s.CanWrite .b2 s.wr.ptr.toNat [x % 65536].length := fun i hi => by
      obtain rfl : i = 0 := Nat.lt_one_iff.mp hi
      exact hp
    have hlt : ∀ wd ∈ [x % 65536], wd < 65536 := by simp [Nat.mod_lt]
    have hrun := (ruleOf_encSym_word hl ht hσ hs hlane hF hx).trans (commitWords_ok _ hroom hw hlt hc)
    rw [exec_of_ok hrun, commitSym_complete]
    exact ⟨_, rfl, rfl, State.withWords_readLE (k := 1) hm hroom, State.withWords_sameOutside (k := 1) hm hroom⟩

/-- Settles O38: every lane codes its symbol, and the words are stored as one number. -/
theorem encStepCodesALaneEach : Obligations.EncStepCodesALaneEach := by
  intro s hs hm hcnt hbuf ht hN hk1 hk hfits hread syms words hF hroom hc
  have hlt : ∀ wd ∈ words, wd < 65536 := s.emittedWords_lt syms s.arg1.toNat
  obtain ⟨xe, hlanes, hrule⟩ := ruleOf_encStep_words ht ⟨hk1, hk⟩ hfits hread hs hN hF
  have hrun := hrule.trans (commitWords_ok _ hroom ⟨hcnt, hbuf⟩ hlt hc)
  exact ⟨_, exec_of_ok (i := .encStep) hrun, rfl, hlanes, State.withWords_readLE hm hroom,
    State.withWords_sameOutside hm hroom⟩

/-- Settles O37: the checks in their order, then the first symbol without a frequency, the room, and the first word that is
refused. -/
theorem encoderErrors : Obligations.EncoderErrors := by
  intro s
  refine ⟨fun lane hl => ⟨exec_encSym_notReady hl, exec_encSym_badSymbol hl, fun ht hh hσ hF => ?zeroFreq,
    fun hs ht hσ hF hlane hx => ⟨fun hfull => ?full, fun c hroom hp => ?refused⟩⟩, exec_encStep_notReady,
    fun ht hk => exec_encStep_badCount ht (by omega), fun ht hk1 hk => ⟨exec_encStep_wrap ht ⟨hk1, hk⟩,
      fun hfits => ⟨fun i c hi hread hc => ?readRefused, fun hs hN hread => ⟨fun i hi hzero hF => ?stepZeroFreq,
        fun hF => ⟨fun hfull => ?stepFull, fun hroom hm hcnt hbuf k c hkw hwrite hc => ?stepRefused⟩⟩⟩⟩⟩
  case zeroFreq => exact exec_encSym_zeroFreq hl ht hσ hh hF
  case full =>
    exact exec_of_raised ((ruleOf_encSym_word hl ht hσ hs hlane hF hx).trans (commitWords_full _ hfull))
  case refused =>
    exact exec_of_raised ((ruleOf_encSym_word hl ht hσ hs hlane hF hx).trans
      (commitWords_of_raised _ hroom (storeWords_refused_head [] hroom hp)))
  case readRefused =>
    have hbyte : Size.b1.bytes * i = i := Nat.one_mul i
    exact exec_encStep_readRefused ht ⟨hk1, hk⟩ hfits hi ⟨hread, by rwa [hbyte]⟩
  case stepZeroFreq => exact exec_encStep_zeroFreq ht ⟨hk1, hk⟩ hfits hread hs hN hi hzero hF
  case stepFull =>
    obtain ⟨xe, -, hrule⟩ := ruleOf_encStep_words ht ⟨hk1, hk⟩ hfits hread hs hN hF
    exact exec_of_raised (i := .encStep) (hrule.trans (commitWords_full _ hfull))
  case stepRefused =>
    obtain ⟨xe, -, hrule⟩ := ruleOf_encStep_words ht ⟨hk1, hk⟩ hfits hread hs hN hF
    have hstore := storeWords_refused (lane := 0) hkw ⟨hcnt, hbuf⟩ (s.emittedWords_lt _ _) hroom ⟨hwrite, hc⟩
    have hk' : s.wr.ptr.toNat + 2 * k ≤ s.wr.lim.toNat := by omega
    exact ⟨_, exec_of_raised (i := .encStep) (hrule.trans (commitWords_of_raised _ hroom hstore)),
      State.withWords_readLE hm hk', State.withWords_sameOutside hm hk'⟩

end Sys2Proof.Machine
end

section
/-!
SUPPORT. How many words an encode emits, and how the writer moves with them (44_encoder.md R163).
-/
namespace Sys2Proof.Machine

/-- A command that ends without an error is its rule run to the end, completed (R231, R237). -/
theorem exec_of_noError {i : Instr} {s t : State} (h : exec i s = .next t) (ht : t.status.err = false) :
    ∃ u, ruleOf i s s = .ok () u ∧ t = u.complete := by
  rw [exec_eq_runCommand] at h
  rcases runCommand_next h with hok | ⟨e, x, u, -, rfl⟩
  · exact hok
  · simp at ht

/-- From `s` to `t` the writer moved by `n` words, its pending bits being as many as before, and `RESULT` says so (R163). -/
structure Emitted (n : Nat) (s t : State) : Prop where
  result : t.result = BitVec.ofNat 32 n
  cnt : t.wr.cnt = s.wr.cnt
  ptr : t.wr.ptr.toNat = s.wr.ptr.toNat + 2 * n

/-- The stores of a list of words move the writer by that many words (R114). -/
theorem storeWords_moves (lane : Nat) : ∀ (ws : List Nat) (w : Writer) (s : State),
    Cmd.Ends (storeWords lane w ws) s
      (fun w' _ => w'.cnt = w.cnt ∧ w'.ptr.toNat = w.ptr.toNat + 2 * ws.length) fun _ _ => True
  | [], _, _ => .pure ⟨rfl, rfl⟩
  | wd :: ws, w, s => by
    rcases writeBits_cases w wd 16 lane s with ⟨hn, -⟩ | ⟨-, hr, -, h⟩ | ⟨e, x, -, h⟩
    · exact absurd hn (by omega)
    · refine .bind (.of_ok h (Cmd.Ends.mono (storeWords_moves lane ws (w.stored wd 16) _) ?_ fun _ _ => id))
      rintro w' _ ⟨hcnt, hptr⟩
      rw [Writer.stored_ptr hr] at hptr
      exact ⟨hcnt.trans (w.stored_word_cnt wd), by rw [List.length_cons]; omega⟩
    · exact .bind (.of_error h trivial)

theorem commitWords_emitted (lane : Nat) (ws : List Nat) {commit : Writer → State → State} (s : State)
    (hc : ∀ w u, (commit w u).wr = w ∧ (commit w u).result = BitVec.ofNat 32 ws.length) :
    Cmd.Ends (commitWords lane s.wr ws commit) s (fun _ t => Emitted ws.length s t) fun _ _ => True := by
  refine .require (fun _ => trivial) fun _ =>
    .bind (Cmd.Ends.mono (storeWords_moves lane ws s.wr s) ?_ fun _ _ => id)
  rintro w u ⟨hcnt, hptr⟩
  obtain ⟨hwr, hres⟩ := hc w u
  exact .modify ⟨hres, by rw [hwr, hcnt], by rw [hwr, hptr]⟩

theorem encSym_emitted (lane σ : Nat) (s : State) :
    Cmd.Ends (encSym lane σ) s (fun _ t => ∃ n, n ≤ 1 ∧ Emitted n s t) fun _ _ => True := by
  refine .getState (.require (fun _ => trivial) fun _ => .require (fun _ => trivial) fun _ =>
    (encPlan_answers lane σ (laneAt_lt s.xe lane) s).bind (fun _ => trivial) ?_)
  rintro ⟨x', ws⟩ ⟨hlen, -⟩
  exact Cmd.Ends.mono (commitWords_emitted lane ws (commit := commitSym lane x' ws.length) s fun _ _ => ⟨rfl, rfl⟩)
    (fun _ _ h => ⟨_, hlen, h⟩) fun _ _ => id

theorem encStep_emitted (a k : Nat) (s : State) :
    Cmd.Ends (encStep a k) s (fun _ t => ∃ n, n ≤ k ∧ Emitted n s t) fun _ _ => True := by
  refine .getState (.require (fun _ => trivial) fun _ => .require (fun _ => trivial) fun _ =>
    .require (fun _ => trivial) fun _ => (Cmd.Answers.readEntries k a).bind (fun _ => trivial) fun syms _ =>
      (encLanes_answers syms s k s.xe).bind (fun _ => trivial) ?_)
  rintro ⟨xe, ws⟩ ⟨hlen, -⟩
  exact Cmd.Ends.mono (commitWords_emitted 0 ws (commit := commitStep xe ws.length) s fun _ _ => ⟨rfl, rfl⟩)
    (fun _ _ h => ⟨_, hlen, h⟩) fun _ _ => id

/-- What a command without an error shows of the words its rule emitted. -/
theorem Emitted.of_exec {i : Instr} {s t : State} {k : Nat} (h : exec i s = .next t) (ht : t.status.err = false)
    (hk : k < 2 ^ 32)
    (hrule : Cmd.Ends (ruleOf i s) s (fun _ u => ∃ n, n ≤ k ∧ Emitted n s u) fun _ _ => True) :
    t.result.toNat ≤ k ∧ t.wr.cnt = s.wr.cnt ∧ t.wr.ptr.toNat = s.wr.ptr.toNat + 2 * t.result.toNat := by
  obtain ⟨u, hu, rfl⟩ := exec_of_noError h ht
  obtain ⟨n, hn, hres, hcnt, hptr⟩ := hrule.1 _ _ hu
  have hnat : u.complete.result.toNat = n := by
    rw [State.complete_result, hres, toNat_ofNat_of_lt (hn.trans_lt hk)]
  rw [hnat]
  exact ⟨hn, hcnt, hptr⟩

/-- Settles O39: the encode of a lane emits at most one word, and each stored word leaves the count of pending bits. -/
theorem atMostOneWordPerSymbol : Obligations.AtMostOneWordPerSymbol := by
  intro s t _ _ ht
  refine ⟨fun lane _ h => ?encSym, fun _ h => ?encStep⟩
  case encSym =>
    exact Emitted.of_exec h ht (by decide)
      ((Cmd.Answers.checkLane lane s).bind (fun _ => trivial) fun _ _ => encSym_emitted lane s.arg0.toNat s)
  case encStep => exact Emitted.of_exec h ht s.arg1.isLt (encStep_emitted s.arg0.toNat s.arg1.toNat s)

end Sys2Proof.Machine
end

section
/-!
SUPPORT. `STATE_OVERFLOW` is never raised (44_encoder.md R164, R165): only the encode of a lane can raise it, and from a
legal lane with tables that match, which every part of a rule keeps, it does not.
-/
namespace Sys2Proof.Machine

/-! ## Rules that cannot raise it -/

/-- The stop is not the error `STATE_OVERFLOW`. -/
def Stop.NotOverflow : Stop → Prop
  | .raised e _ => e.code ≠ .stateOverflow
  | .fault _ => True

/-- From `s` the rule does not end in `STATE_OVERFLOW`. -/
abbrev Cmd.Clear {α : Type} (c : Cmd α) (s : State) : Prop := Cmd.Ends c s (fun _ _ => True) fun e _ => e.NotOverflow

/-- The rule ends in `STATE_OVERFLOW` from no state. -/
def Cmd.AlwaysClear {α : Type} (c : Cmd α) : Prop := ∀ s, Cmd.Clear c s

/-- A check that raises another error. -/
theorem Cmd.Ends.requireClear {β : Type} {p : Prop} [Decidable p] {r : Raised} {f : Unit → Cmd β} {s : State}
    {Q : β → State → Prop} (h : p → Cmd.Ends (f ()) s Q fun e _ => e.NotOverflow)
    (hr : r.code ≠ .stateOverflow := by simp) : Cmd.Ends (Machine.require p r >>= f) s Q fun e _ => e.NotOverflow :=
  .require (fun _ => hr) h

namespace Cmd.AlwaysClear

theorem pure {α : Type} (v : α) : Cmd.AlwaysClear (Pure.pure v : Cmd α) := fun _ => .pure trivial

theorem modify (f : State → State) : Cmd.AlwaysClear (modify f : Cmd PUnit) := fun _ => .modify trivial

theorem getState {β : Type} {f : State → Cmd β} (h : ∀ s, Cmd.AlwaysClear (f s)) :
    Cmd.AlwaysClear (Machine.getState >>= f) := fun s => .getState (h s s)

theorem require {β : Type} {p : Prop} [Decidable p] {r : Raised} {f : Unit → Cmd β} (h : Cmd.AlwaysClear (f ()))
    (hr : r.code ≠ .stateOverflow := by simp) : Cmd.AlwaysClear (Machine.require p r >>= f) := fun s =>
  .requireClear (fun _ => h s) hr

theorem bind {α β : Type} {c : Cmd α} {f : α → Cmd β} (hc : Cmd.AlwaysClear c) (hf : ∀ v, Cmd.AlwaysClear (f v)) :
    Cmd.AlwaysClear (c >>= f) := fun s => .bind (Cmd.Ends.mono (hc s) (fun v t _ => hf v t) fun _ _ => id)

theorem guardArray {α : Type} (valid : Bool) (v : α) : Cmd.AlwaysClear (Machine.guardArray valid v) := fun s => by
  cases valid
  · exact .of_error rfl trivial
  · exact .of_ok rfl trivial

theorem checkLane (lane : Nat) : Cmd.AlwaysClear (Machine.checkLane lane) := fun s => by
  rcases Nat.lt_or_ge lane s.lanes with h | h
  · exact .of_ok (checkLane_ok h) trivial
  · exact .of_error (checkLane_bad h) (by simp [Stop.NotOverflow])

end Cmd.AlwaysClear

/-- What an access raises is an error of the bus or of the address (R62, R63). -/
theorem accessError_ne_stateOverflow {p : Platform} {a : Nat} {n : Size} {k : AccessKind} {c : ErrCode}
    (h : p.accessError a n k = some c) : c ≠ .stateOverflow := by
  rintro rfl
  unfold Platform.accessError at h
  split at h
  · cases h
  · split at h
    · cases h
    · split at h <;> cases h

theorem memRead_clear (a : Nat) (n : Size) (lane : Nat) : Cmd.AlwaysClear (memRead a n lane) := fun s => by
  rcases memRead_cases a n lane s with ⟨-, h⟩ | ⟨c, hc, h⟩
  · exact .of_ok h trivial
  · exact .of_error h (accessError_ne_stateOverflow hc)

theorem memWrite_clear (a v : Nat) (n : Size) (lane : Nat) : Cmd.AlwaysClear (memWrite a n v lane) := fun s => by
  rcases memWrite_cases a v n lane s with ⟨-, h⟩ | ⟨c, hc, h⟩
  · exact .of_ok h trivial
  · exact .of_error h (accessError_ne_stateOverflow hc)

theorem readEntries_clear (n : Size) : ∀ k a, Cmd.AlwaysClear (readEntries n a k)
  | 0, _ => .pure _
  | k + 1, a => (memRead_clear a n 0).bind fun _ => (readEntries_clear n k _).bind fun _ => .pure _

theorem writeEntries_clear (n : Size) : ∀ l a, Cmd.AlwaysClear (writeEntries n a l)
  | [], _ => .pure _
  | v :: l, a => (memWrite_clear a v n 0).bind fun _ => writeEntries_clear n l _

theorem readRaw_clear : Cmd.AlwaysClear readRaw := .getState fun _ => .guardArray _ _

theorem readFreq_clear : Cmd.AlwaysClear readFreq := .getState fun _ => .guardArray _ _

theorem readSlot_clear (slot : Nat) : Cmd.AlwaysClear (readSlot slot) := .getState fun _ => .guardArray _ _

theorem readBits_clear (r : Reader) (n lane : Nat) : Cmd.AlwaysClear (readBits r n lane) := fun s => by
  rcases readBits_cases r n lane s with ⟨-, h⟩ | ⟨a, -, -, -, h⟩ | ⟨-, -, h⟩ | ⟨a, c, -, -, hc, h⟩
  · exact .of_ok h trivial
  · exact .of_ok h trivial
  · exact .of_error h (by simp [Stop.NotOverflow])
  · exact .of_error h (accessError_ne_stateOverflow hc)

theorem writeBits_clear (w : Writer) (v n lane : Nat) : Cmd.AlwaysClear (writeBits w v n lane) := by
  unfold writeBits
  dsimp only
  split
  · exact .require ((memWrite_clear _ _ _ _).bind fun _ => .pure _)
  · exact .pure _

theorem brInit_clear (base lim : Nat) (dir : Bool) : Cmd.AlwaysClear (brInit base lim dir) := .require (.modify _)

theorem bwInit_clear (base lim : Nat) : Cmd.AlwaysClear (bwInit base lim) := .require (.modify _)

theorem countBytes_clear : ∀ k a raw, Cmd.AlwaysClear (countBytes a k raw)
  | 0, _, _ => .pure _
  | k + 1, a, _ => (memRead_clear a .b1 0).bind fun _ => countBytes_clear k _ _

theorem histCount_clear (a c : Nat) : Cmd.AlwaysClear (histCount a c) :=
  .require ((countBytes_clear c a _).bind fun _ => .modify _)

theorem histLoad_clear (a : Nat) : Cmd.AlwaysClear (histLoad a) :=
  .require ((readEntries_clear .b4 512 a).bind fun _ => .modify _)

theorem histNorm_clear : Cmd.AlwaysClear histNorm :=
  .getState fun _ => .require (readRaw_clear.bind fun _ => .require (.require (.modify _)))

theorem histStore_clear (a : Nat) : Cmd.AlwaysClear (histStore a) :=
  .getState fun _ => .require (.require (readFreq_clear.bind fun _ => writeEntries_clear .b4 _ a))

theorem tblBuild_clear : Cmd.AlwaysClear tblBuild :=
  .getState fun _ => .require (readFreq_clear.bind fun _ => .modify _)

theorem storeWords_clear (lane : Nat) : ∀ ws w, Cmd.AlwaysClear (storeWords lane w ws)
  | [], _ => .pure _
  | wd :: ws, w => (writeBits_clear w wd 16 lane).bind fun _ => storeWords_clear lane ws _

theorem commitWords_clear (lane : Nat) (w : Writer) (ws : List Nat) (commit : Writer → State → State) :
    Cmd.AlwaysClear (commitWords lane w ws commit) :=
  .require ((storeWords_clear lane ws w).bind fun _ => .modify _)

theorem decRenorm_clear (lane : Nat) : ∀ k x r, Cmd.AlwaysClear (decRenorm lane k x r)
  | 0, _, _ => .pure _
  | k + 1, x, r => by
    unfold decRenorm
    split
    · exact (readBits_clear r 16 lane).bind fun _ => (decRenorm_clear lane k _ _).bind fun _ => .pure _
    · exact .pure _

theorem decPlan_clear (lane x : Nat) (r : Reader) : Cmd.AlwaysClear (decPlan lane x r) :=
  (readSlot_clear _).bind fun _ => .require ((decRenorm_clear lane _ _ r).bind fun _ => .pure _)

theorem decInit_clear (lane x : Nat) : Cmd.AlwaysClear (decInit lane x) := .require (.modify _)

theorem decSym_clear (lane : Nat) : Cmd.AlwaysClear (decSym lane) :=
  .getState fun _ => .require ((decPlan_clear lane _ _).bind fun _ => (Cmd.AlwaysClear.modify _).bind fun _ => .pure _)

theorem decLanes_clear : ∀ k lane xd r, Cmd.AlwaysClear (decLanes lane k xd r)
  | 0, _, _, _ => .pure _
  | k + 1, lane, _, r => (decPlan_clear lane _ r).bind fun _ => (decLanes_clear k _ _ _).bind fun _ => .pure _

theorem decStep_clear (a k : Nat) : Cmd.AlwaysClear (decStep a k) :=
  .getState fun _ => .require (.require (.require ((decLanes_clear k 0 _ _).bind fun _ =>
    (writeEntries_clear .b1 _ a).bind fun _ => .modify _)))

theorem checkHeader_clear (FL W H PB S0 S1 S2 S3 : Nat) : Cmd.AlwaysClear (checkHeader FL W H PB S0 S1 S2 S3) :=
  .getState fun _ => .require (.require (.require (.require (.require (.require (.modify _))))))

theorem frmParseBody_clear (A FL : Nat) : Cmd.AlwaysClear (frmParseBody A FL) :=
  .require (.require ((memRead_clear _ _ _).bind fun _ => (memRead_clear _ _ _).bind fun _ =>
    (memRead_clear _ _ _).bind fun _ => (memRead_clear _ _ _).bind fun _ => (memRead_clear _ _ _).bind fun _ =>
    (memRead_clear _ _ _).bind fun _ => (memRead_clear _ _ _).bind fun _ => checkHeader_clear _ _ _ _ _ _ _ _))

/-- What `FRM_PARSE` does with `HDR_VALID` on an error does not change the error. -/
theorem frmParse_clear (A FL : Nat) : Cmd.AlwaysClear (frmParse A FL) := fun s => by
  have hbody := frmParseBody_clear A FL s
  cases hb : frmParseBody A FL s with
  | ok u t => exact .of_ok (by rw [frmParse, hb]) trivial
  | error e t => exact .of_error (by rw [frmParse, hb]) (hbody.2 e t hb)

theorem frmHdrWrite_clear (A : Nat) : Cmd.AlwaysClear (frmHdrWrite A) :=
  .getState fun _ => .require ((memWrite_clear _ _ _ _).bind fun _ => (memWrite_clear _ _ _ _).bind fun _ =>
    (memWrite_clear _ _ _ _).bind fun _ => (memWrite_clear _ _ _ _).bind fun _ =>
    (memWrite_clear _ _ _ _).bind fun _ => (memWrite_clear _ _ _ _).bind fun _ => memWrite_clear _ _ _ _)

theorem loadLanes_clear (body : Nat) : ∀ k lane, Cmd.AlwaysClear (loadLanes body lane k)
  | 0, _ => .pure _
  | k + 1, lane => (memRead_clear _ _ _).bind fun _ => (decInit_clear lane _).bind fun _ => loadLanes_clear body k _

theorem decodeStep_clear : ∀ k lane, Cmd.AlwaysClear (decodeStep lane k)
  | 0, _ => .pure _
  | k + 1, lane => (decSym_clear lane).bind fun _ => (decodeStep_clear k _).bind fun _ => .pure _

theorem decodeSteps_clear (C N : Nat) : ∀ i out, Cmd.AlwaysClear (decodeSteps C N i out)
  | 0, _ => .pure _
  | i + 1, _ => (decodeStep_clear _ 0).bind fun _ => decodeSteps_clear C N i _

theorem checkLanesBack_clear (xd : Vector Word 32) : ∀ k lane, Cmd.AlwaysClear (checkLanesBack xd lane k)
  | 0, _ => .pure _
  | k + 1, _ => .require (checkLanesBack_clear xd k _)

theorem decodePayload_clear (N P size C : Nat) : Cmd.AlwaysClear (decodePayload N P size C) :=
  (histLoad_clear P).bind fun _ => histNorm_clear.bind fun _ => tblBuild_clear.bind fun _ =>
    (loadLanes_clear _ N 0).bind fun _ => (brInit_clear _ _ false).bind fun _ =>
      (decodeSteps_clear C N _ []).bind fun _ => .getState fun _ => (checkLanesBack_clear _ N 0).bind fun _ =>
        .require (.pure _)

theorem frmDecPayload_clear (p : Payload) (A D : Nat) : Cmd.AlwaysClear (frmDecPayload p A D) :=
  .getState fun _ => .require (.require (.require (.require ((decodePayload_clear _ _ _ _).bind fun _ =>
    (writeEntries_clear .b1 _ D).bind fun _ => .modify _))))

/-! ## The encode of lanes -/

section
variable {s : State} (hs : CodecSafe s)
include hs

/-- One lane's encode from a legal lane gives a legal lane or an error that is not `STATE_OVERFLOW` (R164). -/
theorem encPlan_clear (ht : s.status.tblValid = true) (lane σ : Nat) {x : Nat} (hx : LaneLegal x) :
    Cmd.Ends (encPlan lane σ x) s (fun p t => t = s ∧ LaneLegal p.1) fun e _ => e.NotOverflow := by
  rcases Nat.eq_zero_or_pos (s.freqOf σ) with h0 | hpos
  · exact .of_error (encPlan_zeroFreq (hs.2.2 ht).1 h0) (by simp [Stop.NotOverflow])
  · exact .of_ok (encPlan_ok hs ht (State.symbol_lt hpos) hpos hx) ⟨rfl, hs.encodedState_legal ht hpos hx⟩

theorem encLanes_clear (ht : s.status.tblValid = true) (syms : List Nat) : ∀ {k : Nat} {xe : Vector Word 32}, k ≤ 32 →
    LanesLegal xe → Cmd.Clear (encLanes syms k xe) s
  | 0, _, _, _ => .pure trivial
  | j + 1, xe, hk, hxe => by
    refine .bind (Cmd.Ends.mono (encPlan_clear hs ht j (nth syms j) (hxe j hk)) ?_ fun _ _ => id)
    rintro ⟨x', ws⟩ t ⟨hts, hx'⟩
    rw [hts]
    exact .bind (Cmd.Ends.mono (encLanes_clear ht syms (Nat.le_of_succ_le hk) (hxe.setLane fun _ => hx'))
      (fun _ _ _ => .pure trivial) fun _ _ => id)

theorem encSym_clear {lane : Nat} (hlane : lane < 32) (σ : Nat) : Cmd.Clear (encSym lane σ) s := by
  refine .getState (.requireClear fun ht => .requireClear fun _ =>
    .bind (Cmd.Ends.mono (encPlan_clear hs ht lane σ (hs.encoder lane hlane)) ?_ fun _ _ => id))
  rintro ⟨x', ws⟩ t -
  exact commitWords_clear lane s.wr ws (commitSym lane x' ws.length) t

theorem encStep_clear (hN : s.lanes ≤ 32) (a k : Nat) : Cmd.Clear (encStep a k) s := by
  refine .getState (.requireClear fun ht => .requireClear fun hk => .requireClear fun _ =>
    .bind ⟨fun syms t hread => ?_, (readEntries_clear .b1 k a s).2⟩)
  obtain ⟨rfl, -⟩ := (Cmd.Answers.readEntries k a).1 syms t hread
  refine .bind (Cmd.Ends.mono (encLanes_clear hs ht syms (hk.2.trans hN) hs.encoder) ?_ fun _ _ => id)
  rintro ⟨xe, ws⟩ u -
  exact commitWords_clear 0 t.wr ws (commitStep xe ws.length) u

end

/-! ## The framer's encode -/

/-- From `s` the rule ends well only in a safe codec, and early not in `STATE_OVERFLOW`. -/
abbrev Cmd.Codes {α : Type} (c : Cmd α) (s : State) : Prop :=
  Cmd.Ends c s (fun _ t => CodecSafe t) fun e _ => e.NotOverflow

theorem Cmd.Codes.bind {α β : Type} {c : Cmd α} {f : α → Cmd β} {s : State} {Q : β → State → Prop}
    (hc : Cmd.Codes c s) (hf : ∀ v t, CodecSafe t → Cmd.Ends (f v) t Q fun e _ => e.NotOverflow) :
    Cmd.Ends (c >>= f) s Q fun e _ => e.NotOverflow := .bind (Cmd.Ends.mono hc hf fun _ _ => id)

section
variable {s : State} (hs : CodecSafe s)
include hs

theorem Cmd.Codes.of_keeps {α : Type} {c : Cmd α} {W : List Elem} {R : Nat → Prop} (hk : Cmd.Keeps c s W R)
    (hc : Cmd.Clear c s) : Cmd.Codes c s := ⟨fun v t h => (hk.1 v t h).codec hs, hc.2⟩

theorem memRead_codes (a : Nat) (n : Size) (lane : Nat) : Cmd.Codes (memRead a n lane) s :=
  ⟨fun v t h => ((Cmd.Answers.memRead a n lane s).1 v t h).1 ▸ hs, (memRead_clear a n lane s).2⟩

theorem encSym_codes {lane : Nat} (hlane : lane < 32) (σ : Nat) : Cmd.Codes (encSym lane σ) s :=
  .of_keeps hs (encSym_keeps lane σ s) (encSym_clear hs hlane σ)

end

theorem encodeStep_codes (a : Nat) : ∀ {k : Nat} {s : State}, k ≤ 32 → CodecSafe s → Cmd.Codes (encodeStep a k) s
  | 0, _, _, hs => .pure hs
  | _ + 1, _, hk, hs => (memRead_codes hs _ _ _).bind fun σ _ ht => (encSym_codes ht hk σ).bind fun _ _ hu =>
      encodeStep_codes a (Nat.le_of_succ_le hk) hu

theorem encodeSteps_codes (src C : Nat) {N : Nat} (hN : N ≤ 32) : ∀ (k i : Nat) {s : State}, CodecSafe s →
    Cmd.Codes (encodeSteps src C N i k) s
  | 0, _, _, hs => .pure hs
  | k + 1, i, _, hs => (encodeStep_codes _ ((Nat.min_le_left _ _).trans hN) hs).bind fun _ _ ht =>
      encodeSteps_codes src C hN k (i + 1) ht

theorem frmEncPayload_clear {s : State} (hs : CodecSafe s) (hN : s.lanes ≤ 32) (p : Payload) (src P C CAP : Nat) :
    Cmd.Clear (frmEncPayload p src P C CAP) s := by
  refine .getState (.requireClear fun _ => .requireClear fun _ => .requireClear fun hmem => .requireClear fun _ =>
    .requireClear fun hcap => ?_)
  have hmem' : P + CAP ≤ 2 ^ 32 := hmem
  have hlim : P + Config.tableBytes + 4 * s.lanes + 2 * ((CAP - Config.tableBytes - 4 * s.lanes) / 2) ≤ 2 ^ 32 := by
    omega
  refine (Cmd.Codes.of_keeps hs (histCount_keeps src C s) (histCount_clear src C s)).bind fun _ s1 h1 => ?_
  refine (Cmd.Codes.of_keeps h1 (histNorm_keeps s1) (histNorm_clear s1)).bind fun _ s2 h2 => ?_
  refine (Cmd.Codes.of_keeps h2 (tblBuild_keeps s2) (tblBuild_clear s2)).bind fun _ s3 h3 => ?_
  refine (Cmd.Codes.of_keeps h3 (histStore_keeps P s3) (histStore_clear P s3)).bind fun _ s4 h4 => ?_
  refine (Cmd.Codes.of_keeps h4 (encInit_keeps s4) (Cmd.AlwaysClear.modify _ s4)).bind fun _ s5 h5 => ?_
  refine (Cmd.Codes.of_keeps h5 (bwInit_keeps hlim s5) (bwInit_clear _ _ s5)).bind fun _ s6 h6 => ?_
  refine (encodeSteps_codes src C hN _ 0 h6).bind fun _ s7 _ => ?_
  exact .getState (((writeEntries_clear .b4 _ _).bind fun _ => .modify _) s7)

/-! ## The obligation -/

/-- From a safe codec no command's rule ends in `STATE_OVERFLOW` (R165). -/
theorem ruleOf_clear {s : State} (hs : CodecSafe s) (hN : s.lanes ≤ 32) (i : Instr) : Cmd.Clear (ruleOf i s) s := by
  cases i with
  | nop => exact .pure trivial
  | softReset => exact Cmd.AlwaysClear.modify (fun s => { s.resetElements with cmd := s.cmd }) s
  | clrStatus => exact .modify trivial
  | brInit => exact brInit_clear _ _ _ s
  | brRead n => exact Cmd.AlwaysClear.getState (fun _ => (readBits_clear _ n 0).bind fun _ => .modify _) s
  | bwInit => exact bwInit_clear _ _ s
  | bwWrite n => exact Cmd.AlwaysClear.getState (fun _ => (writeBits_clear _ _ n 0).bind fun _ => .modify _) s
  | histCount => exact histCount_clear _ _ s
  | histLoad => exact histLoad_clear _ s
  | histNorm => exact histNorm_clear s
  | histStore => exact histStore_clear _ s
  | rawQuery =>
    exact Cmd.AlwaysClear.getState (fun _ => .require (.require (readRaw_clear.bind fun _ => .modify _))) s
  | freqQuery =>
    exact Cmd.AlwaysClear.getState (fun _ => .require (.require (readFreq_clear.bind fun _ => .modify _))) s
  | tblBuild => exact tblBuild_clear s
  | tblQuery =>
    exact Cmd.AlwaysClear.getState (fun _ => .require (.require ((readSlot_clear _).bind fun _ => .modify _))) s
  | encInit => exact .modify trivial
  | encSym lane =>
    refine .bind ⟨fun _ t h => ?_, (Cmd.AlwaysClear.checkLane lane s).2⟩
    obtain ⟨rfl, hl⟩ := (Cmd.Answers.checkLane lane s).1 _ t h
    exact encSym_clear hs (hl.trans_le hN) t.arg0.toNat
  | encStep => exact encStep_clear hs hN _ _
  | decInit lane => exact (Cmd.AlwaysClear.checkLane lane).bind (fun _ => decInit_clear lane _) s
  | decSym lane =>
    exact (Cmd.AlwaysClear.checkLane lane).bind (fun _ => (decSym_clear lane).bind fun _ => .pure _) s
  | decStep => exact decStep_clear _ _ s
  | frmParse => exact frmParse_clear _ _ s
  | frmHdrWrite => exact frmHdrWrite_clear _ s
  | frmDecPayload p => exact frmDecPayload_clear p _ _ s
  | frmEncPayload p => exact frmEncPayload_clear hs hN p _ _ _ _

/-- No rule records an error of its own: where none was recorded, none is when the rule ends (R231). -/
theorem ruleOf_errcode {s : State} (h0 : s.errcode = 0) (i : Instr) :
    Cmd.EndsIn (ruleOf i s) s fun t => t.errcode = 0 := by
  have keep (hr : i ≠ .softReset) (hc : i ≠ .clrStatus) : Cmd.EndsIn (ruleOf i s) s fun t => t.errcode = 0 :=
    Cmd.EndsIn.mono (ruleOf_changes hr s) fun t ht =>
      Eq.trans (ht.get .errcode (errorElems_unchanged hc .errcode (by decide))) h0
  cases i with
  | softReset => exact .of_ok (t := { s.resetElements with cmd := s.cmd }) rfl rfl
  | clrStatus => exact .modify rfl
  | _ => exact keep (by simp) (by simp)

/-- The low byte of the error word is the error's code, whatever the other fields hold (R28). -/
theorem Raised.word_code (e : Raised) (op : BitVec 8) : (e.word op).toNat % 256 = e.code.value := by
  have hcode : e.code.value % 2 ^ 8 = e.code.value := Nat.mod_eq_of_lt e.code.value_lt
  have high (v k : Nat) : v <<< (8 + k) % 2 ^ 8 = 0 := by
    rw [Nat.shiftLeft_eq, Nat.pow_add, Nat.mul_left_comm, Nat.mul_mod_right]
  rw [Raised.word, BitVec.toNat_ofNat, Nat.mod_mod_of_dvd _ (by decide : 256 ∣ 2 ^ 32), show 256 = 2 ^ 8 from rfl,
    Nat.or_mod_two_pow, Nat.or_mod_two_pow, Nat.or_mod_two_pow, hcode, high e.sub 0, high e.lane 8, high op.toNat 16]
  simp

theorem ErrCode.value_ne_overflow {c : ErrCode} (h : c ≠ .stateOverflow) : c.value ≠ 0x09 := by
  cases c with
  | stateOverflow => exact absurd rfl h
  | _ => decide

/-- Settles O40: the word recorded is 0 or that of the error in which the rule ended. -/
theorem stateOverflowNeverRaised : Obligations.StateOverflowNeverRaised := by
  intro i s t hs hN _ h0 h
  rw [exec_eq_runCommand] at h
  rcases runCommand_next h with ⟨u, hu, rfl⟩ | ⟨e, x, u, hu, rfl⟩
  · rw [State.complete_errcode, (ruleOf_errcode h0 i).1 _ _ hu]
    decide
  · rw [State.complete_errcode, State.raise_errcode, (ruleOf_errcode h0 i).2 _ _ hu]
    split
    · decide
    · rw [Raised.word_code]
      exact ErrCode.value_ne_overflow ((ruleOf_clear hs hN i).2 _ _ hu)

end Sys2Proof.Machine
end

section
/-!
SUPPORT. A reader that takes its words one after the other (41_bitio.md R110, R112; 45_decoder.md R182, R186): where the reader
stands after some reads of 16 bits, what its next read gives, and when a region supplies a number of words.
-/
namespace Sys2Proof.Machine

/-! ## The words of a region -/

theorem Reader.hasWords_forward {r : Reader} (hd : r.dir = true) (n : Nat) :
    r.HasWords n ↔ r.ptr.toNat + 2 * n ≤ r.lim.toNat := by rw [Reader.HasWords, if_pos hd]

theorem Reader.hasWords_backward {r : Reader} (hd : r.dir = false) (n : Nat) :
    r.HasWords n ↔ r.base.toNat + 2 * n ≤ r.ptr.toNat := by rw [Reader.HasWords, if_neg (Bool.eq_false_iff.mp hd)]

theorem Reader.HasWords.mono {r : Reader} {m n : Nat} (h : r.HasWords n) (hmn : m ≤ n) : r.HasWords m := by
  cases hd : r.dir with
  | true =>
    rw [Reader.hasWords_forward hd] at h ⊢
    omega
  | false =>
    rw [Reader.hasWords_backward hd] at h ⊢
    omega

/-- A reader whose region does not hold a word has no next one (R112). -/
theorem Reader.nextWord_of_not_hasWords {r : Reader} (h : ¬r.HasWords 1) : r.nextWord = none := by
  rw [Reader.nextWord_eq_none]
  rintro a (⟨hd, hle, -⟩ | ⟨hd, hle, -⟩)
  · exact h ((Reader.hasWords_backward hd 1).mpr hle)
  · exact h ((Reader.hasWords_forward hd 1).mpr hle)

theorem Reader.HasWords.ptrAfter_lt {r : Reader} {n : Nat} (h : r.HasWords n) : r.ptrAfter n < 2 ^ 32 := by
  have hptr := r.ptr.isLt
  have hlim := r.lim.isLt
  unfold Reader.ptrAfter
  cases hd : r.dir with
  | true => exact ((Reader.hasWords_forward hd n).mp h).trans_lt hlim
  | false => exact (Nat.sub_le _ _).trans_lt hptr

/-! ## The reader after some words -/

@[simp] theorem State.readerAfter_base (s : State) (w : Nat) : (s.readerAfter w).base = s.rd.base := rfl
@[simp] theorem State.readerAfter_lim (s : State) (w : Nat) : (s.readerAfter w).lim = s.rd.lim := rfl
@[simp] theorem State.readerAfter_dir (s : State) (w : Nat) : (s.readerAfter w).dir = s.rd.dir := rfl
@[simp] theorem State.readerAfter_cnt (s : State) (w : Nat) : (s.readerAfter w).cnt = s.rd.cnt := rfl

section
variable {s : State} {w : Nat}

theorem State.readerAfter_ptr (h : s.rd.HasWords w) : (s.readerAfter w).ptr.toNat = s.rd.ptrAfter w :=
  toNat_ofNat_of_lt h.ptrAfter_lt

/-- After `w` words the region holds those that are left. -/
theorem State.readerAfter_hasWords (h : s.rd.HasWords w) (n : Nat) :
    (s.readerAfter w).HasWords n ↔ s.rd.HasWords (w + n) := by
  have hptr := State.readerAfter_ptr h
  unfold Reader.ptrAfter at hptr
  cases hd : s.rd.dir with
  | true =>
    rw [if_pos hd] at hptr
    rw [Reader.hasWords_forward (r := s.readerAfter w) hd, Reader.hasWords_forward hd, State.readerAfter_lim, hptr]
    omega
  | false =>
    rw [if_neg (Bool.eq_false_iff.mp hd)] at hptr
    rw [Reader.hasWords_backward hd] at h
    rw [Reader.hasWords_backward (r := s.readerAfter w) hd, Reader.hasWords_backward hd, State.readerAfter_base, hptr]
    omega

/-- After `w` words the next one is word number `w`. -/
theorem State.readerAfter_nextWord (h : s.rd.HasWords (w + 1)) :
    (s.readerAfter w).nextWord = some (s.rd.wordAddr w) := by
  have hw := h.mono (Nat.le_succ w)
  rw [((State.readerAfter_hasWords hw 1).mpr h).nextWord, Reader.wordAddr, Reader.wordAddr, State.readerAfter_dir,
    State.readerAfter_ptr hw, Reader.ptrAfter]
  cases s.rd.dir with
  | true => rfl
  | false => exact congrArg some (Nat.sub_sub _ _ _)

end

/-! ## The buffer -/

/-- The reader holds fewer than 16 bits, and they are a number of as many bits (R110). -/
structure Reader.Buffered (r : Reader) : Prop where
  cnt_le : r.cnt.toNat ≤ 15
  buf_lt : r.buf.toNat < 2 ^ r.cnt.toNat

theorem State.readerAfter_zero {s : State} (h : s.rd.Buffered) : s.readerAfter 0 = s.rd := by
  simp [State.readerAfter, State.bitsAhead, Nat.mod_eq_of_lt h.buf_lt]

section
variable {s : State} (h : s.rd.Buffered) (w : Nat)
include h

theorem State.readerAfter_buf : (s.readerAfter w).buf.toNat = s.bitsAhead w % 2 ^ s.rd.cnt.toNat := by
  have hlt := buffer_lt h.cnt_le (Nat.mod_lt (s.bitsAhead w) (Nat.two_pow_pos s.rd.cnt.toNat))
  exact toNat_ofNat_of_lt (by omega)

theorem State.readerAfter_buffered : (s.readerAfter w).Buffered where
  cnt_le := h.cnt_le
  buf_lt := by
    rw [State.readerAfter_buf h]
    exact Nat.mod_lt _ (Nat.two_pow_pos _)

end

/-- Of a number with one word below it, the 16 bits above the lowest `c` do not depend on the bits of the number from `c`
up. -/
theorem top_word_mod (b wd c : Nat) : (b % 2 ^ c * 65536 + wd) / 2 ^ c % 65536 = (b * 65536 + wd) / 2 ^ c % 65536 := by
  have hb : b * 65536 + wd = b % 2 ^ c * 65536 + wd + 2 ^ c * (b / 2 ^ c * 65536) := by
    conv_lhs => rw [← Nat.mod_add_div b (2 ^ c)]
    ring
  rw [hb, Nat.add_mul_div_left _ _ (Nat.two_pow_pos c), Nat.add_mul_mod_self_right]

/-- The lowest `c` bits of a number with one word below it do not depend on the bits of the number from `c` up. -/
theorem low_bits_mod (b wd c : Nat) : (b % 2 ^ c * 65536 + wd) % 2 ^ c = (b * 65536 + wd) % 2 ^ c := by
  rw [Nat.add_mod, Nat.mul_mod, Nat.mod_mod, ← Nat.mul_mod, ← Nat.add_mod]

theorem State.chunk_lt (s : State) (k : Nat) : s.chunk k < 65536 := Nat.mod_lt _ (by decide)

/-! ## The reads -/

/-- The reader's region holds `n` more words, and the platform answers the fetch of each (R112). -/
structure State.Supplies (s : State) (n : Nat) : Prop where
  hasWords : s.rd.HasWords n
  answered : ∀ k, k < n → s.platform.accessError (s.rd.wordAddr k) .b2 .read = none

theorem State.Supplies.mono {s : State} {m n : Nat} (h : s.Supplies n) (hmn : m ≤ n) : s.Supplies m :=
  ⟨h.hasWords.mono hmn, fun k hk => h.answered k (hk.trans_le hmn)⟩

section
variable {s : State} {w : Nat} (h : s.rd.Buffered) (lane : Nat)
include h

/-- The reader after `w` words, having loaded one more and given up 16 bits, is the reader after `w + 1` words (R112). -/
theorem State.readerAfter_load_pop (hw : s.rd.HasWords (w + 1)) :
    ((s.readerAfter w).load (s.mem.readLE (s.rd.wordAddr w) 2)).pop 16 = (s.readerAfter (w + 1), s.chunk w) := by
  have hr := State.readerAfter_buffered h w
  have hwd := Memory.readLE_two_lt s.mem (s.rd.wordAddr w)
  have hbuf := buffer_lt hr.cnt_le hr.buf_lt
  refine Prod.ext ?reader ?value
  case reader =>
    rw [Reader.load_pop_eq 16 (State.readerAfter_nextWord hw) hwd hr.cnt_le hbuf, State.readerAfter_buf h,
      State.readerAfter_cnt, Nat.add_sub_cancel, low_bits_mod]
    have hptr : (if s.rd.dir then s.rd.wordAddr w + 2 else s.rd.wordAddr w) =
        if s.rd.dir then s.rd.ptr.toNat + 2 * (w + 1) else s.rd.ptr.toNat - 2 * (w + 1) := by
      rw [Reader.wordAddr]
      cases s.rd.dir <;> rfl
    rw [State.readerAfter_dir, hptr, BitVec.ofNat_toNat, BitVec.setWidth_eq]
    rfl
  case value =>
    rw [Reader.pop_value, Reader.load_buf hwd hbuf, Reader.load_cnt hr.cnt_le, State.readerAfter_buf h,
      State.readerAfter_cnt, Nat.add_sub_cancel]
    exact top_word_mod _ _ _

/-- The read of 16 bits after `w` words gives chunk number `w` (R112). -/
theorem readBits_readerAfter (hw : s.Supplies (w + 1)) :
    readBits (s.readerAfter w) 16 lane s = .ok (s.readerAfter (w + 1), s.chunk w) s := by
  have hcnt := Nat.lt_succ_of_le (State.readerAfter_buffered h w).cnt_le
  rw [readBits_load hcnt (State.readerAfter_nextWord hw.hasWords) (hw.answered w (Nat.lt_succ_self w)),
    State.readerAfter_load_pop h hw.hasWords]

theorem readBits_readerAfter_refused {c : ErrCode} (hw : s.rd.HasWords (w + 1))
    (hc : s.platform.accessError (s.rd.wordAddr w) .b2 .read = some c) :
    readBits (s.readerAfter w) 16 lane s =
      .error (.raised ⟨c, 0, s.rd.wordAddr w, lane⟩ (some ⟨.read, s.rd.wordAddr w, .b2⟩)) s :=
  readBits_refused (Nat.lt_succ_of_le (State.readerAfter_buffered h w).cnt_le) (State.readerAfter_nextWord hw) hc

theorem readBits_readerAfter_noWord (hw : s.rd.HasWords w) (hno : ¬s.rd.HasWords (w + 1)) :
    readBits (s.readerAfter w) 16 lane s =
      .error (.raised ⟨.malformedStream, 0, (s.readerAfter w).ptr.toNat, lane⟩ none) s :=
  readBits_noWord (Nat.lt_succ_of_le (State.readerAfter_buffered h w).cnt_le)
    (Reader.nextWord_of_not_hasWords fun hone => hno ((State.readerAfter_hasWords hw 1).mp hone))

end

/-- A read that ends well does so whatever lane an error of it would carry. -/
theorem readBits_ok_lane {r r' : Reader} {n v lane : Nat} {s : State} (h : readBits r n lane s = .ok (r', v) s)
    (lane' : Nat) : readBits r n lane' s = .ok (r', v) s := by
  rcases readBits_cases r n lane s with ⟨hn, hrun⟩ | ⟨a, hn, ha, hp, hrun⟩ | ⟨-, -, hrun⟩ | ⟨a, c, -, -, -, hrun⟩
  · exact (readBits_buffered hn).trans (hrun.symm.trans h)
  · exact (readBits_load hn ha hp).trans (hrun.symm.trans h)
  · exact nomatch hrun.symm.trans h
  · exact nomatch hrun.symm.trans h

end Sys2Proof.Machine
end

section
/-!
SUPPORT. How `DEC_INIT` and `DEC_SYM` run: one lane's decode, and the commit of its symbol and its state (45_decoder.md R181,
R182).
-/
namespace Sys2Proof.Machine

/-! ## `DEC_INIT` -/

/-- Past the lane check the rule of `DEC_INIT` is that of its framer sub-step (R85). -/
theorem ruleOf_decInit {s : State} {lane : Nat} (hl : lane < s.lanes) :
    ruleOf (.decInit lane) s s = decInit lane s.arg0.toNat s :=
  Cmd.bind_of_ok (checkLane_ok hl) _

theorem decInit_ok {s : State} {lane x : Nat} (hx : LaneLegal x) :
    decInit lane x s = .ok () (s.setXd (setLane s.xd lane x)) :=
  Cmd.require_bind hx _ _ s

theorem decInit_bad {s : State} {lane x : Nat} (hx : ¬LaneLegal x) :
    decInit lane x s = .error (.raised ⟨.malformedStream, 2, x, lane⟩ none) s :=
  Cmd.require_bind_not hx _ _ s

/-- Settles O41: the range of `LaneLegal` in numbers. -/
theorem decInitLoadsALane : Obligations.DecInitLoadsALane := by
  intro s lane hl
  refine ⟨fun hx => ?legal, fun hx => ?illegal⟩
  case legal =>
    rw [exec_of_ok ((ruleOf_decInit hl).trans (decInit_ok hx)), setLane, BitVec.ofNat_toNat, BitVec.setWidth_eq]
    rfl
  case illegal =>
    have hbad : ¬LaneLegal s.arg0.toNat := fun ⟨hge, hlt⟩ => hx.elim (Nat.not_lt.mpr hge) (Nat.not_le.mpr hlt)
    exact exec_of_raised ((ruleOf_decInit hl).trans (decInit_bad hbad))

/-! ## One lane's decode -/

/-- The frequency of the slot of a decoder lane, `FRQ[slot]` (R182). -/
abbrev State.slotFreq (s : State) (lane : Nat) : Nat := (entryAt s.frq (laneAt s.xd lane % 2048) 0).toNat

/-- The decoder lane can decode: the tables are valid, its slot has a frequency, and its state before any word is not 0, so
that one word brings it to `M` or above (R183). -/
structure State.Decodable (s : State) (lane : Nat) : Prop where
  tables : s.status.tblValid = true
  freq_pos : 0 < s.slotFreq lane
  base_pos : 1 ≤ s.decodeBase lane

/-- Step 1 of a decode is `decodeBase` (R182). -/
theorem decFirst_lane (s : State) (lane : Nat) :
    decFirst (s.slotFreq lane) (entryAt s.cum (laneAt s.xd lane % 2048) 0).toNat (laneAt s.xd lane) =
      s.decodeBase lane := by
  rw [decFirst, Nat.shiftRight_eq_div_pow]
  rfl

section
variable {s : State} {lane : Nat} (hs : CodecSafe s) (ht : s.status.tblValid = true) (hlane : lane < 32)
include hs ht hlane

/-- With tables that match, every legal lane can decode (R183). -/
theorem CodecSafe.decodable : s.Decodable lane := by
  obtain ⟨hfreq, hbase, -⟩ := decFirst_bounds hs ht (hs.decoder lane hlane)
  exact ⟨ht, hfreq, decFirst_lane s lane ▸ hbase⟩

theorem CodecSafe.decodeBase_lt : s.decodeBase lane < 134217728 := by
  obtain ⟨-, -, hlt⟩ := decFirst_bounds hs ht (hs.decoder lane hlane)
  exact decFirst_lane s lane ▸ hlt

end

theorem decPlan_zeroFreq {s : State} {lane : Nat} (ht : s.status.tblValid = true) (h0 : s.slotFreq lane = 0)
    (r : Reader) : decPlan lane (laneAt s.xd lane) r s =
      .error (.raised ⟨.malformedStream, 1, laneAt s.xd lane % 2048, lane⟩ none) s :=
  (Cmd.bind_of_ok (readSlot_ok ht _) _).trans (Cmd.require_bind_not (Nat.not_lt.mpr h0.le) _ _ s)

section
variable {s : State} {lane : Nat} (h : s.Decodable lane) {r r' : Reader}
include h

/-- Past its slot, a decode is its loop from `decodeBase` (R182). -/
theorem decPlan_renorm (r : Reader) : decPlan lane (laneAt s.xd lane) r s =
    (decRenorm lane (r.wordsLeft + 2) (s.decodeBase lane) r >>= fun p =>
      pure (s.decodedSymbol lane, p.1, p.2.1, p.2.2)) s := by
  rw [← decFirst_lane]
  exact (Cmd.bind_of_ok (readSlot_ok h.tables _) _).trans (Cmd.require_bind h.freq_pos _ _ s)

theorem decPlan_noWord (r : Reader) (hy : 2048 ≤ s.decodeBase lane) : decPlan lane (laneAt s.xd lane) r s =
    .ok (s.decodedSymbol lane, s.decodeBase lane, r, 0) s :=
  (decPlan_renorm h r).trans (Cmd.bind_of_ok (decRenorm_none hy) _)

variable (hy : s.decodeBase lane < 2048)
include hy

theorem decPlan_word {v : Nat} (hr : readBits r 16 lane s = .ok (r', v) s) (hv : v < 65536) :
    decPlan lane (laneAt s.xd lane) r s = .ok (s.decodedSymbol lane, s.decodeBase lane * 65536 + v, r', 1) s :=
  (decPlan_renorm h r).trans (Cmd.bind_of_ok (decRenorm_read hy hr hv h.base_pos) _)

theorem decPlan_error {e : Stop} (hr : readBits r 16 lane s = .error e s) :
    decPlan lane (laneAt s.xd lane) r s = .error e s :=
  (decPlan_renorm h r).trans (Cmd.bind_of_error (decRenorm_error hy hr) _)

end

/-! ## `DEC_SYM` -/

/-- The commit of `DEC_SYM` with the new lane state `x'` and the reader `r` (R182). -/
def State.commitDecode (s : State) (lane x' : Nat) (r : Reader) : State :=
  (((s.setXd (setLane s.xd lane x')).setRd r).setResult (BitVec.ofNat 32 (s.decodedSymbol lane))).setResult1
    (BitVec.ofNat 32 x')

/-- The state `DEC_SYM` completes in, with the new lane state `x'` and the reader `r` (R182). -/
def State.afterDecode (s : State) (lane x' : Nat) (r : Reader) : State :=
  { s with
    xd := s.xd.setIfInBounds lane (BitVec.ofNat 32 x')
    rd := r
    result := BitVec.ofNat 32 (s.decodedSymbol lane)
    result1 := BitVec.ofNat 32 x'
    status := s.status.finished }

theorem State.commitDecode_complete (s : State) (lane x' : Nat) (r : Reader) :
    (s.commitDecode lane x' r).complete = s.afterDecode lane x' r := by
  simp only [State.commitDecode, State.afterDecode, State.complete, State.setXd, State.setRd, State.setResult,
    State.setResult1, State.setStatus, setLane, Status.completed]

section
variable {s : State} {lane : Nat} (hl : lane < s.lanes)
include hl

theorem ruleOf_decSym : ruleOf (.decSym lane) s s = (decSym lane >>= fun _ => pure ()) s :=
  Cmd.bind_of_ok (checkLane_ok hl) _

theorem exec_decSym_notReady (ht : s.status.tblValid = false) :
    exec (.decSym lane) s = s.failed 0x41 .notReady 2 0 0 :=
  exec_of_raised ((ruleOf_decSym hl).trans (Cmd.bind_of_error (Cmd.require_bind_not (by simp [ht]) _ _ s) _))

variable (ht : s.status.tblValid = true)
include ht

theorem exec_decSym_of_raised {e : Raised} {x : Option Access}
    (h : decPlan lane (laneAt s.xd lane) s.rd s = .error (.raised e x) s) :
    exec (.decSym lane) s = .next (s.raise 0x41 e).complete :=
  exec_of_raised ((ruleOf_decSym hl).trans (Cmd.bind_of_error
    ((Cmd.require_bind ht _ _ s).trans (Cmd.bind_of_error h _)) _))

theorem exec_decSym_of_ok {x' n : Nat} {r : Reader}
    (h : decPlan lane (laneAt s.xd lane) s.rd s = .ok (s.decodedSymbol lane, x', r, n) s) :
    exec (.decSym lane) s = .next (s.afterDecode lane x' r) := by
  have hrun : decSym lane s = .ok (s.decodedSymbol lane) (s.commitDecode lane x' r) :=
    (Cmd.require_bind ht _ _ s).trans (Cmd.bind_of_ok h _)
  rw [exec_of_ok ((ruleOf_decSym hl).trans (Cmd.bind_of_ok hrun _)), State.commitDecode_complete]

end

/-- Settles O42: the lane's decode without a word, with the next one, and with a read that fails. -/
theorem decSymDecodesASymbol : Obligations.DecSymDecodesASymbol := by
  intro s lane hl hlane
  refine ⟨exec_decSym_notReady hl, fun ht h0 => exec_decSym_of_raised hl ht (decPlan_zeroFreq ht h0 s.rd),
    fun hs ht hcnt hbuf => ⟨fun hy => ?noWord, fun hy => ⟨fun hone => ⟨fun hp => ?word, fun c hc => ?refused⟩,
      fun hno => ?missing⟩⟩⟩
  all_goals
    have hd := hs.decodable ht hlane
    have hb : s.rd.Buffered := ⟨hcnt, hbuf⟩
    have hzero := State.readerAfter_zero hb
  case noWord => exact exec_decSym_of_ok hl ht (decPlan_noWord hd s.rd hy)
  case word =>
    have hread := readBits_readerAfter hb lane (w := 0) ⟨hone, fun k hk => Nat.lt_one_iff.mp hk ▸ hp⟩
    exact exec_decSym_of_ok hl ht (decPlan_word hd hy (hzero ▸ hread) (s.chunk_lt 0))
  case refused =>
    have hread := readBits_readerAfter_refused hb lane hone hc
    exact exec_decSym_of_raised hl ht (decPlan_error hd hy (hzero ▸ hread))
  case missing =>
    exact exec_decSym_of_raised hl ht
      (decPlan_error hd hy (readBits_noWord (Nat.lt_succ_of_le hcnt) (Reader.nextWord_of_not_hasWords hno)))

end Sys2Proof.Machine
end

section
/-!
SUPPORT. A decode undoes an encode: what an `ENC_SYM` without an error has left in its lane, and what a decoder lane makes of
it with the same tables (45_decoder.md R184; 44_encoder.md R162).
-/
namespace Sys2Proof.Machine

/-! ## The arithmetic of one symbol -/

/-- The state that an encode divides: without its low word, when that is emitted (R162). -/
def shiftedState (F x : Nat) : Nat := if 65536 * F ≤ x then x / 65536 else x

theorem shiftedState_word {F x : Nat} (h : 65536 * F ≤ x) : shiftedState F x = x / 65536 := if_pos h

theorem shiftedState_noWord {F x : Nat} (h : ¬65536 * F ≤ x) : shiftedState F x = x := if_neg h

/-- The shifted state of a legal lane is not 0, and is below `M` exactly when a word was emitted (R183). -/
theorem shiftedState_bounds {F x : Nat} (hF : 0 < F) (hx : LaneLegal x) :
    1 ≤ shiftedState F x ∧ (shiftedState F x < 2048 ↔ 65536 * F ≤ x) := by
  have hge : 2048 ≤ x := hx.1
  have hlt : x < 134217728 := hx.2
  by_cases h : 65536 * F ≤ x
  · rw [shiftedState_word h]
    exact ⟨by omega, iff_of_true (by omega) h⟩
  · rw [shiftedState_noWord h]
    exact ⟨by omega, iff_of_false (by omega) h⟩

/-- Quotient and remainder by `M` of an encoded state: the quotient by the frequency, and a slot of the symbol (R162). -/
theorem encodedState_divMod {F C : Nat} (x : Nat) (hF : 0 < F) (hC : C + F ≤ 2048) :
    encodedState F C x / 2048 = shiftedState F x / F ∧ encodedState F C x % 2048 = C + shiftedState F x % F := by
  have hmod := Nat.mod_lt (shiftedState F x) hF
  have heq : encodedState F C x = shiftedState F x / F * 2048 + C + shiftedState F x % F := rfl
  omega

/-! ## A lane that holds an encoded state -/

/-- The decoder lane of `u` stands for the symbol `σ`, and its first step gives the state that an encode of `σ` from `x` with
the tables of `s` divided (R184). -/
structure Undoes (s u : State) (lane σ x : Nat) : Prop where
  symbol : u.decodedSymbol lane = σ
  base : u.decodeBase lane = shiftedState (s.freqOf σ) x
  slotFreq : u.slotFreq lane = s.freqOf σ

/-- A lane that holds an encoded state undoes the encode, with the tables it was made with (R184). -/
theorem undoes_of_encoded {s u : State} {lane σ x : Nat} (hs : CodecSafe s) (ht : s.status.tblValid = true)
    (hF : 0 < s.freqOf σ) (hsym : u.sym = s.sym) (hfrq : u.frq = s.frq) (hcum : u.cum = s.cum)
    (hlane : laneAt u.xd lane = encodedState (s.freqOf σ) (s.startOf σ) x) : Undoes s u lane σ x := by
  obtain ⟨-, hsum, htab⟩ := hs
  obtain ⟨hh, htm⟩ := htab ht
  have hσ := State.symbol_lt hF
  have hle := State.start_add_freq_le (hsum hh) hσ
  have hmod := Nat.mod_lt (shiftedState (s.freqOf σ) x) hF
  obtain ⟨hdiv, hslot⟩ := encodedState_divMod x hF hle
  rw [← hlane] at hdiv hslot
  obtain ⟨hS, hQ, hC⟩ := htm.slot hσ hmod (by omega)
  rw [← hslot] at hS hQ hC
  refine ⟨by rw [← hS, ← hsym]; rfl, ?base, by rw [← hQ, ← hfrq]⟩
  have hbase : u.decodeBase lane = u.slotFreq lane * (laneAt u.xd lane / 2048) + laneAt u.xd lane % 2048 -
      (entryAt u.cum (laneAt u.xd lane % 2048) 0).toNat := rfl
  rw [hbase, State.slotFreq, hfrq, hcum, hQ, hC, hdiv, hslot, Nat.add_left_comm, Nat.add_sub_cancel_left, Nat.div_add_mod]

section
variable {s u : State} {lane σ x : Nat} (h : Undoes s u lane σ x) (hF : 0 < s.freqOf σ) (hx : LaneLegal x)
include h hF hx

theorem Undoes.decodable (ht : u.status.tblValid = true) : u.Decodable lane where
  tables := ht
  freq_pos := h.slotFreq ▸ hF
  base_pos := h.base ▸ (shiftedState_bounds hF hx).1

/-- The decode reads a word exactly when the encode emitted one (R184). -/
theorem Undoes.base_lt_iff : u.decodeBase lane < 2048 ↔ 65536 * s.freqOf σ ≤ x :=
  h.base ▸ (shiftedState_bounds hF hx).2

end

/-! ## What an `ENC_SYM` without an error leaves -/

/-- A command that ends without an error did not fail. -/
theorem not_failed {i : Instr} {s s' t : State} {op : BitVec 8} {c : ErrCode} {sub info lane : Nat}
    (h : exec i s = .next t) (ht : t.status.err = false) (hfail : exec i s = s'.failed op c sub info lane) : False := by
  rw [h] at hfail
  injection hfail with heq
  simp [heq] at ht

/-- Stores and a commit that end well end in the commit of some writer and memory. -/
theorem commitWords_commits {lane : Nat} {w : Writer} {ws : List Nat} {commit : Writer → State → State} {s t : State}
    (h : commitWords lane w ws commit s = .ok () t) : ∃ w' m, t = commit w' (s.setMem m) := by
  by_cases hfit : w.ptr.toNat + 2 * ws.length ≤ w.lim.toNat
  · obtain ⟨m, ⟨w', hrun⟩ | ⟨e, a, hrun⟩⟩ := storeWords_state lane ws w s
    · have hok : commitWords lane w ws commit s = .ok () (commit w' (s.setMem m)) :=
        (Cmd.require_bind hfit _ _ s).trans (Cmd.bind_of_ok hrun _)
      rw [hok] at h
      injection h with _ heq
      exact ⟨w', m, heq.symm⟩
    · exact nomatch (commitWords_of_raised commit hfit hrun).symm.trans h
  · exact nomatch (commitWords_full commit (Nat.not_le.mp hfit)).symm.trans h

/-- An encode of `ARG0` on the lane ended well: the tables were valid, the symbol had a frequency, the lane holds the encoded
state, and `RESULT` says whether a word was emitted (R162). -/
structure EncodedLane (s t : State) (lane : Nat) : Prop where
  tables : s.status.tblValid = true
  freq_pos : 0 < s.freqOf s.arg0.toNat
  state : laneAt t.xe lane = s.encodedSym lane
  result : t.result = if 65536 * s.freqOf s.arg0.toNat ≤ laneAt s.xe lane then 1 else 0

theorem encodedLane_of_noError {s t : State} {lane : Nat} (hs : CodecSafe s) (hl : lane < s.lanes) (hlane : lane < 32)
    (h : exec (.encSym lane) s = .next t) (hterr : t.status.err = false) : EncodedLane s t lane := by
  have ht : s.status.tblValid = true := by
    by_contra hno
    exact not_failed h hterr (exec_encSym_notReady hl (Bool.eq_false_iff.mpr hno))
  have hσ : s.arg0.toNat < 256 := by
    by_contra hno
    exact not_failed h hterr (exec_encSym_badSymbol hl ht (Nat.not_lt.mp hno))
  have hF : 0 < s.freqOf s.arg0.toNat := by
    by_contra hno
    exact not_failed h hterr (exec_encSym_zeroFreq hl ht hσ (hs.2.2 ht).1 (Nat.eq_zero_of_not_pos hno))
  have hlegal := hs.encodedState_legal ht hF (hs.encoder lane hlane)
  have hlt : s.encodedSym lane < 2 ^ 32 := hlegal.2.trans (by decide)
  have hstate (n : Nat) (w : Writer) (m : Memory) :
      laneAt (commitSym lane (s.encodedSym lane) n w (s.setMem m)).complete.xe lane = s.encodedSym lane :=
    (laneAt_setLane s.xe lane _ lane hlane).trans ((if_pos rfl).trans (Nat.mod_eq_of_lt hlt))
  obtain ⟨u, hu, rfl⟩ := exec_of_noError h hterr
  by_cases hx : 65536 * s.freqOf s.arg0.toNat ≤ laneAt s.xe lane
  · rw [ruleOf_encSym_word hl ht hσ hs hlane hF hx] at hu
    obtain ⟨w, m, rfl⟩ := commitWords_commits hu
    exact ⟨ht, hF, hstate 1 w m, (if_pos hx).symm⟩
  · rw [ruleOf_encSym_noWord hl ht hσ hs hlane hF (Nat.not_le.mp hx)] at hu
    obtain ⟨w, m, rfl⟩ := commitWords_commits hu
    exact ⟨ht, hF, hstate 0 w m, (if_neg hx).symm⟩

/-! ## The obligation -/

/-- `BR_READ n` without an error leaves the state after a read of `n` bits. -/
theorem brRead_of_noError {u v : State} {n : Nat} (h : exec (.brRead n) u = .next v) (hv : v.status.err = false) :
    ∃ r k, readBits u.rd n 0 u = .ok (r, k) u ∧ v.rd = r ∧ v.result = BitVec.ofNat 32 k := by
  obtain ⟨t, ht, rfl⟩ := exec_of_noError h hv
  have ht : brRead n u = .ok () t := ht
  rcases readBits_state u.rd n 0 u with ⟨r, k, hrun⟩ | ⟨e, x, hrun⟩
  · have hok : brRead n u = .ok () ((u.setRd r).setResult (BitVec.ofNat 32 k)) := Cmd.bind_of_ok hrun _
    rw [hok] at ht
    injection ht with _ heq
    exact ⟨r, k, hrun, by rw [← heq]; rfl, by rw [← heq]; rfl⟩
  · have herr : brRead n u = .error (.raised e x) u := Cmd.bind_of_error hrun _
    exact nomatch herr.symm.trans ht

/-- What `readbits(n)` gives has `n` bits (R112). -/
theorem readBits_lt {r r' : Reader} {n k lane : Nat} {s : State} (h : readBits r n lane s = .ok (r', k) s) :
    k < 2 ^ n := by
  have hpop (q : Reader) (hq : readBits r n lane s = .ok (q.pop n) s) : k < 2 ^ n := by
    have heq : EStateM.Result.ok (q.pop n) s = .ok (r', k) s := hq.symm.trans h
    injection heq with hp
    exact (congrArg (·.2 < 2 ^ n) hp).mp (Reader.pop_value_lt q n)
  rcases readBits_cases r n lane s with ⟨-, hrun⟩ | ⟨a, -, -, -, hrun⟩ | ⟨-, -, hrun⟩ | ⟨a, c, -, -, -, hrun⟩
  · exact hpop _ hrun
  · exact hpop _ hrun
  · exact nomatch hrun.symm.trans h
  · exact nomatch hrun.symm.trans h

/-- Settles O43: the first step of the decode gives the state the encode divided, and the word is what it lost. -/
theorem decSymInvertsEncSym : Obligations.DecSymInvertsEncSym := by
  intro s t u lane lane' hs _ hl hlane h hterr hu hsym hfrq hcum _ hl' hlane' hxd x
  have he := encodedLane_of_noError hs hl hlane h hterr
  have hlegal := hs.encoder lane hlane
  have hundo := undoes_of_encoded hs he.tables he.freq_pos hsym hfrq hcum (hxd.trans he.state)
  have hd := hundo.decodable he.freq_pos hlegal hu
  have hiff := hundo.base_lt_iff he.freq_pos hlegal
  have hσ : BitVec.ofNat 32 (u.decodedSymbol lane') = s.arg0 := by
    rw [hundo.symbol, BitVec.ofNat_toNat, BitVec.setWidth_eq]
  have hx : BitVec.ofNat 32 (laneAt s.xe lane) = x := by
    rw [laneAt, BitVec.ofNat_toNat, BitVec.setWidth_eq]
  refine ⟨fun h0 => ?noWord, fun h1 v hread hv hval => ?word⟩
  case noWord =>
    have hno : ¬65536 * s.freqOf s.arg0.toNat ≤ laneAt s.xe lane := fun hword => by
      rw [he.result, if_pos hword] at h0
      exact absurd h0 (by decide)
    have hbase := hundo.base.trans (shiftedState_noWord hno)
    rw [exec_decSym_of_ok hl' hu (decPlan_noWord hd u.rd (Nat.not_lt.mp (mt hiff.mp hno))), State.afterDecode, hσ, hbase,
      hx]
  case word =>
    have hword : 65536 * s.freqOf s.arg0.toNat ≤ laneAt s.xe lane := by
      by_contra hno
      rw [he.result, if_neg hno] at h1
      exact absurd h1 (by decide)
    have hbase := hundo.base.trans (shiftedState_word hword)
    obtain ⟨r, k, hrun, hrd, hres⟩ := brRead_of_noError hread hv
    have hk : k < 65536 := readBits_lt hrun
    have hlow : k = laneAt s.xe lane % 65536 := by
      rw [← toNat_ofNat_of_lt (hk.trans (by decide : 65536 < 2 ^ 32)), ← hres]
      exact hval
    have hwhole : u.decodeBase lane' * 65536 + k = laneAt s.xe lane := by
      rw [hbase, hlow, Nat.mul_comm, Nat.div_add_mod]
    rw [exec_decSym_of_ok hl' hu (decPlan_word hd (hiff.mpr hword) (readBits_ok_lane hrun lane') hk), State.afterDecode,
      hσ, hwhole, hx, hrd]

end Sys2Proof.Machine
end

section
/-!
SUPPORT. How `DEC_STEP` runs: the lanes in ascending order from the shared reader, then the stores of the symbols
(45_decoder.md R186, R187).
-/
namespace Sys2Proof.Machine

/-! ## The words of the lanes -/

/-- How many words the lane reads (R182). -/
abbrev State.wordsOf (s : State) (j : Nat) : Nat := if s.decodeBase j < 2048 then 1 else 0

theorem State.wordsBelow_succ (s : State) (j : Nat) : s.wordsBelow (j + 1) = s.wordsBelow j + s.wordsOf j := by
  by_cases h : s.decodeBase j < 2048
  · simp [State.wordsBelow, State.wordsOf, List.range_succ, Config.M, h]
  · simp [State.wordsBelow, State.wordsOf, List.range_succ, Config.M, h]

theorem State.wordsBelow_mono (s : State) {i j : Nat} (h : i ≤ j) : s.wordsBelow i ≤ s.wordsBelow j :=
  monotone_nat_of_le_succ (fun k => s.wordsBelow_succ k ▸ Nat.le_add_right _ _) h

/-- A lane that reads makes one word more. -/
theorem State.wordsBelow_succ_word {s : State} {j : Nat} (h : s.decodeBase j < 2048) :
    s.wordsBelow (j + 1) = s.wordsBelow j + 1 := by
  rw [State.wordsBelow_succ, State.wordsOf, if_pos h]

theorem State.decodedLane_word {s : State} {j : Nat} (h : s.decodeBase j < 2048) :
    s.decodedLane j = s.decodeBase j * 65536 + s.chunk (s.wordsBelow j) := if_pos h

theorem State.decodedLane_noWord {s : State} {j : Nat} (h : 2048 ≤ s.decodeBase j) : s.decodedLane j = s.decodeBase j :=
  if_neg (Nat.not_lt.mpr h)

theorem CodecSafe.decodedLane_lt {s : State} (hs : CodecSafe s) (ht : s.status.tblValid = true) {j : Nat} (hj : j < 32) :
    s.decodedLane j < 2 ^ 32 := by
  have hbase := hs.decodeBase_lt ht hj
  have hchunk := s.chunk_lt (s.wordsBelow j)
  rcases Nat.lt_or_ge (s.decodeBase j) 2048 with h | h
  · rw [State.decodedLane_word h]
    omega
  · rw [State.decodedLane_noWord h]
    omega

theorem laneAt_setLane_decoded {s : State} (hs : CodecSafe s) (ht : s.status.tblValid = true) {i j : Nat}
    (xd : Vector Word 32) (hi : i < 32) (hj : j < 32) :
    laneAt (setLane xd i (s.decodedLane i)) j = if j = i then s.decodedLane i else laneAt xd j := by
  rw [laneAt_setLane _ _ _ _ hj, Nat.mod_eq_of_lt (hs.decodedLane_lt ht hi)]

section
variable {s : State} (hb : s.rd.Buffered) (hs : CodecSafe s) (ht : s.status.tblValid = true)
include hb hs ht

/-! ## The lanes -/

/-- Lane `j`, after the words of the lanes below it, decodes with the words that the region supplies (R186). -/
theorem decPlan_lane {j : Nat} (hj : j < 32) (hw : s.Supplies (s.wordsBelow (j + 1))) :
    decPlan j (laneAt s.xd j) (s.readerAfter (s.wordsBelow j)) s =
      .ok (s.decodedSymbol j, s.decodedLane j, s.readerAfter (s.wordsBelow (j + 1)), s.wordsOf j) s := by
  have hd := hs.decodable ht hj
  rcases Nat.lt_or_ge (s.decodeBase j) 2048 with hy | hy
  · rw [State.wordsBelow_succ_word hy] at hw ⊢
    rw [State.decodedLane_word hy, State.wordsOf, if_pos hy]
    exact decPlan_word hd hy (readBits_readerAfter hb j hw) (s.chunk_lt _)
  · rw [State.wordsBelow_succ, State.decodedLane_noWord hy, State.wordsOf, if_neg (Nat.not_lt.mpr hy)]
    exact decPlan_noWord hd _ hy

/-- The lowest lane of a step decodes its symbol, then the lanes above it theirs (R186). -/
theorem decLanes_succ {i k : Nat} {xd : Vector Word 32} (hi : i < 32) (hxd : laneAt xd i = laneAt s.xd i)
    (hw : s.Supplies (s.wordsBelow (i + 1))) :
    decLanes i (k + 1) xd (s.readerAfter (s.wordsBelow i)) s =
      (decLanes (i + 1) k (setLane xd i (s.decodedLane i)) (s.readerAfter (s.wordsBelow (i + 1))) >>= fun p =>
        pure (p.1, p.2.1, s.decodedSymbol i :: p.2.2.1, s.wordsOf i + p.2.2.2)) s := by
  have hplan := decPlan_lane hb hs ht hi hw
  rw [← hxd] at hplan
  exact Cmd.bind_of_ok hplan _

/-- With the words of the lanes supplied, the lanes from `i` up decode, and the others stay (R186, R187). -/
theorem decLanes_ok : ∀ {k i : Nat} {xd : Vector Word 32}, i + k ≤ 32 →
    (∀ j, i ≤ j → j < i + k → laneAt xd j = laneAt s.xd j) → s.Supplies (s.wordsBelow (i + k)) →
    ∃ xd' n, decLanes i k xd (s.readerAfter (s.wordsBelow i)) s =
        .ok (xd', s.readerAfter (s.wordsBelow (i + k)), (List.range' i k).map s.decodedSymbol, n) s ∧
      s.wordsBelow i + n = s.wordsBelow (i + k) ∧
      ∀ j, j < 32 → laneAt xd' j = if i ≤ j ∧ j < i + k then s.decodedLane j else laneAt xd j
  | 0, i, xd, _, _, _ => ⟨xd, 0, rfl, rfl, fun j _ => (if_neg (by omega)).symm⟩
  | k + 1, i, xd, hk, hxd, hw => by
    have hi : i < 32 := by omega
    have hik : i + 1 + k = i + (k + 1) := by omega
    have hset (j : Nat) (hj : j < 32) := laneAt_setLane_decoded hs ht (j := j) xd hi hj
    obtain ⟨xd', n, hrun, hn, hlanes⟩ := decLanes_ok (k := k) (i := i + 1) (xd := setLane xd i (s.decodedLane i))
      (by omega) (fun j hij hj => by rw [hset j (by omega), if_neg (by omega), hxd j (by omega) (by omega)])
      (hik ▸ hw)
    rw [hik] at hrun hn
    refine ⟨xd', s.wordsOf i + n, ?run, ?words, fun j hj => ?lane⟩
    case run =>
      rw [decLanes_succ hb hs ht hi (hxd i le_rfl (by omega)) (hw.mono (s.wordsBelow_mono (by omega))),
        Cmd.bind_of_ok hrun]
      rfl
    case words => rw [← hn, State.wordsBelow_succ, Nat.add_assoc]
    case lane =>
      rw [hlanes j hj, hset j hj]
      rcases Nat.lt_trichotomy j i with h | rfl | h
      · rw [if_neg (by omega), if_neg (by omega), if_neg (by omega)]
      · rw [if_neg (by omega), if_pos rfl, if_pos (by omega)]
      · rw [if_neg (show j ≠ i by omega)]
        exact if_congr (by omega) rfl rfl

/-- The first lane whose read fails ends the step (R186). -/
theorem decLanes_stop {j : Nat} {e : Stop} (hy : s.decodeBase j < 2048) (hw : s.Supplies (s.wordsBelow j))
    (hread : readBits (s.readerAfter (s.wordsBelow j)) 16 j s = .error e s) :
    ∀ {k i : Nat} {xd : Vector Word 32}, i + k ≤ 32 → i ≤ j → j < i + k →
      (∀ l, i ≤ l → l < i + k → laneAt xd l = laneAt s.xd l) →
      decLanes i k xd (s.readerAfter (s.wordsBelow i)) s = .error e s
  | 0, _, _, _, hij, hj, _ => absurd hj (by omega)
  | k + 1, i, xd, hk, hij, hj, hxd => by
    have hi : i < 32 := by omega
    rcases Nat.lt_or_eq_of_le hij with hlt | rfl
    · rw [decLanes_succ hb hs ht hi (hxd i le_rfl (by omega)) (hw.mono (s.wordsBelow_mono hlt))]
      refine Cmd.bind_of_error (decLanes_stop hy hw hread (by omega) hlt (by omega) fun l hil hl => ?_) _
      rw [laneAt_setLane_decoded hs ht xd hi (by omega), if_neg (by omega), hxd l (by omega) (by omega)]
    · have hplan := decPlan_error (hs.decodable ht hi) hy hread
      rw [← hxd i le_rfl (by omega)] at hplan
      exact Cmd.bind_of_error hplan _

end

/-! ## The outputs -/

/-- The symbols of the lanes below `k`, in lane order (R186). -/
def State.outputs (s : State) (k : Nat) : List Nat := (List.range k).map s.decodedSymbol

@[simp] theorem State.outputs_length (s : State) (k : Nat) : (s.outputs k).length = k := by simp [State.outputs]

theorem State.outputs_take (s : State) {q k : Nat} (h : q ≤ k) : (s.outputs k).take q = s.outputs q := by
  rw [State.outputs, ← List.map_take, List.take_range, Nat.min_eq_left h, State.outputs]

/-- Memory after the symbols of the lanes below `k` are stored from `ARG0` up (R186). -/
def State.memWithOutputs (s : State) (k : Nat) : Memory := storeEntries 1 s.mem s.arg0.toNat (s.outputs k)

section
variable {s : State} {k : Nat} (hm : s.mem.wf = true) (hfits : s.arg0.toNat + k ≤ 2 ^ 32)
include hm hfits

theorem State.memWithOutputs_read {j : Nat} (hj : j < k) :
    ((s.memWithOutputs k).read (s.arg0.toNat + j)).toNat = s.decodedSymbol j := by
  have hmem : s.arg0.toNat + 1 * (s.outputs k).length ≤ Config.memBytes := by
    rw [State.outputs_length, Nat.one_mul]
    exact hfits
  have hentry := storeEntries_entry (s.outputs k) hm hmem j (by rwa [State.outputs_length])
  have hbyte : s.decodedSymbol j < 256 := (entryAt s.sym (laneAt s.xd j % Config.M) 0).isLt
  simpa [State.memWithOutputs, State.outputs, Memory.readLE, Nat.mod_eq_of_lt hbyte] using hentry

theorem State.memWithOutputs_outside {x : Nat} (hx : x < s.arg0.toNat ∨ s.arg0.toNat + k ≤ x) :
    (s.memWithOutputs k).read x = s.mem.read x := by
  refine storeEntries_outside (n := 1) (s.outputs k) hm ?_ ?_ <;> rw [State.outputs_length, Nat.one_mul]
  · exact hfits
  · exact hx

end

/-! ## The command -/

/-- The commit of `DEC_STEP` with the new lanes, the reader and `n` words (R186). -/
def commitLanes (xd : Vector Word 32) (r : Reader) (n : Nat) (s : State) : State :=
  ((s.setXd xd).setRd r).setResult (BitVec.ofNat 32 n)

theorem exec_decStep_notReady {s : State} (ht : s.status.tblValid = false) :
    exec .decStep s = s.failed 0x42 .notReady 2 0 0 :=
  exec_of_raised (i := .decStep) (Cmd.require_bind_not (by simp [ht]) _ _ s)

section
variable {s : State} (ht : s.status.tblValid = true)
include ht

theorem exec_decStep_badCount (hk : ¬(1 ≤ s.arg1.toNat ∧ s.arg1.toNat ≤ s.lanes)) :
    exec .decStep s = s.failed 0x42 .badArg 4 s.arg1.toNat 0 :=
  exec_of_raised (i := .decStep) ((Cmd.require_bind ht _ _ s).trans (Cmd.require_bind_not hk _ _ s))

variable (hk : 1 ≤ s.arg1.toNat ∧ s.arg1.toNat ≤ s.lanes)
include hk

theorem exec_decStep_wrap (hwrap : 2 ^ 32 < s.arg0.toNat + s.arg1.toNat) :
    exec .decStep s = s.failed 0x42 .addressWrap 0 s.arg0.toNat 0 :=
  exec_of_raised (i := .decStep) ((Cmd.require_bind ht _ _ s).trans
    ((Cmd.require_bind hk _ _ s).trans (Cmd.require_bind_not (Nat.not_le.mpr hwrap) _ _ s)))

variable (hfits : s.arg0.toNat + s.arg1.toNat ≤ 2 ^ 32)
include hfits

/-- Past its checks `DEC_STEP` decodes the lanes, stores their symbols and commits (R186). -/
theorem ruleOf_decStep_lanes : ruleOf .decStep s s =
    (decLanes 0 s.arg1.toNat s.xd s.rd >>= fun p => writeEntries .b1 s.arg0.toNat p.2.2.1 >>= fun _ =>
      modify (commitLanes p.1 p.2.1 p.2.2.2)) s :=
  (Cmd.require_bind ht _ _ s).trans ((Cmd.require_bind hk _ _ s).trans (Cmd.require_bind hfits _ _ s))

variable (hs : CodecSafe s) (hN : s.lanes ≤ 32) (hb : s.rd.Buffered)
include hs hN hb

/-- The first lane whose read fails gives its error to `DEC_STEP` (R186). -/
theorem exec_decStep_readFails {j : Nat} {e : Raised} {x : Option Access} (hj : j < s.arg1.toNat)
    (hy : s.decodeBase j < 2048) (hw : s.Supplies (s.wordsBelow j))
    (hread : readBits (s.readerAfter (s.wordsBelow j)) 16 j s = .error (.raised e x) s) :
    exec .decStep s = .next (s.raise 0x42 e).complete := by
  have hrun := decLanes_stop hb hs ht hy hw hread (k := s.arg1.toNat) (i := 0) (xd := s.xd) (by omega) (Nat.zero_le j)
    (by omega) fun _ _ _ => rfl
  have hstart : s.readerAfter (s.wordsBelow 0) = s.rd := State.readerAfter_zero hb
  rw [hstart] at hrun
  exact exec_of_raised (i := .decStep) ((ruleOf_decStep_lanes ht hk hfits).trans (Cmd.bind_of_error hrun _))

/-- With its words supplied, `DEC_STEP` is the stores of the symbols and the commit of the decoded lanes (R186, R187). -/
theorem ruleOf_decStep_outputs (hw : s.Supplies (s.wordsBelow s.arg1.toNat)) :
    ∃ xd, (∀ j, j < 32 → laneAt xd j = if j < s.arg1.toNat then s.decodedLane j else laneAt s.xd j) ∧
      ruleOf .decStep s s = (writeEntries .b1 s.arg0.toNat (s.outputs s.arg1.toNat) >>= fun _ =>
        modify (commitLanes xd (s.readerAfter (s.wordsBelow s.arg1.toNat)) (s.wordsBelow s.arg1.toNat))) s := by
  have hend : 0 + s.arg1.toNat = s.arg1.toNat := Nat.zero_add _
  have hstart : s.readerAfter (s.wordsBelow 0) = s.rd := State.readerAfter_zero hb
  obtain ⟨xd, n, hrun, hn, hlanes⟩ := decLanes_ok hb hs ht (k := s.arg1.toNat) (i := 0) (xd := s.xd) (by omega)
    (fun _ _ _ => rfl) (by rwa [hend])
  have hzero : s.wordsBelow 0 = 0 := rfl
  rw [hend, hzero, Nat.zero_add] at hn
  rw [hstart, hend, hn, ← List.range_eq_range'] at hrun
  refine ⟨xd, fun j hj => ?lane, (ruleOf_decStep_lanes ht hk hfits).trans (Cmd.bind_of_ok hrun _)⟩
  case lane =>
    rw [hlanes j hj, hend]
    exact if_congr (and_iff_right (Nat.zero_le j)) rfl rfl

end

/-- Settles O44: the checks in their order, then the first lane whose read fails, and the stores of the symbols. -/
theorem decStepDecodesALaneEach : Obligations.DecStepDecodesALaneEach := by
  intro s
  refine ⟨exec_decStep_notReady, fun ht hk => exec_decStep_badCount ht (by omega), fun ht hk1 hkN =>
    ⟨exec_decStep_wrap ht ⟨hk1, hkN⟩, fun hfits hs hN hm hcnt hbuf => ?_⟩⟩
  have hk : 1 ≤ s.arg1.toNat ∧ s.arg1.toNat ≤ s.lanes := ⟨hk1, hkN⟩
  have hb : s.rd.Buffered := ⟨hcnt, hbuf⟩
  have hone (i : Nat) : Size.b1.bytes * i = i := Nat.one_mul i
  refine ⟨fun j hj hy hhas hno hans => ?missing, fun j c hj hy hhas hans hc => ?refused,
    fun hhas hans q c hq hwrite hc => ?storeRefused, fun hhas hans hwrite => ?done⟩
  case missing =>
    exact exec_decStep_readFails ht hk hfits hs hN hb hj hy ⟨hhas, hans⟩ (readBits_readerAfter_noWord hb j hhas hno)
  case refused =>
    exact exec_decStep_readFails ht hk hfits hs hN hb hj hy ⟨hhas.mono (Nat.le_succ _), hans⟩
      (readBits_readerAfter_refused hb j hhas hc)
  case storeRefused =>
    obtain ⟨xd, -, hrule⟩ := ruleOf_decStep_outputs ht hk hfits hs hN hb ⟨hhas, hans⟩
    have hstore := writeEntries_refused (l := s.outputs s.arg1.toNat) (by rwa [State.outputs_length])
      ⟨hwrite, (congrArg (s.platform.accessError · .b1 .write) (congrArg _ (hone q))).trans hc⟩
    rw [hone, State.outputs_take s hq.le] at hstore
    have hfits' : s.arg0.toNat + q ≤ 2 ^ 32 := by omega
    exact ⟨s.memWithOutputs q, exec_of_raised (i := .decStep) (hrule.trans (Cmd.bind_of_error hstore _)),
      fun j hj => State.memWithOutputs_read hm hfits' hj, fun x hx => State.memWithOutputs_outside hm hfits' hx⟩
  case done =>
    obtain ⟨xd, hlanes, hrule⟩ := ruleOf_decStep_outputs ht hk hfits hs hN hb ⟨hhas, hans⟩
    have hstore := writeEntries_ok (s.outputs s.arg1.toNat) s.arg0.toNat (n := .b1) (s := s) fun i hi =>
      hwrite i (by rwa [State.outputs_length] at hi)
    exact ⟨_, exec_of_ok (i := .decStep) (hrule.trans (Cmd.bind_of_ok hstore _)), rfl, hlanes,
      fun j hj => State.memWithOutputs_read hm hfits hj, fun x hx => State.memWithOutputs_outside hm hfits hx⟩

end Sys2Proof.Machine
end

section
/-!
SUPPORT. A decode step undoes an encode step: what an `ENC_STEP` without an error leaves, and what a reader that takes its words
backward gives the decoder lanes (44_encoder.md R166, R167; 45_decoder.md R186, R187).
-/
namespace Sys2Proof.Machine

/-! ## What an `ENC_STEP` without an error leaves -/

/-- A platform answers a run of equal accesses, or there is a first one that it refuses (R62, R63). -/
theorem Platform.answers_or_refusesFirst (p : Platform) (kind : AccessKind) (n : Size) (a : Nat) : ∀ k,
    (∀ i, i < k → p.accessError (a + n.bytes * i) n kind = none) ∨ ∃ i c, i < k ∧ p.RefusesFirst kind n a i c
  | 0 => .inl fun i hi => absurd hi (Nat.not_lt_zero i)
  | k + 1 => by
    rcases p.answers_or_refusesFirst kind n a k with hall | ⟨i, c, hi, hc⟩
    · cases hk : p.accessError (a + n.bytes * k) n kind with
      | none =>
        refine .inl fun i hi => ?_
        rcases Nat.lt_succ_iff_lt_or_eq.mp hi with hlt | rfl
        · exact hall i hlt
        · exact hk
      | some c => exact .inr ⟨k, c, Nat.lt_succ_self k, hall, hk⟩
    · exact .inr ⟨i, c, Nat.lt_succ_of_lt hi, hc⟩

/-- Below `k` a number is never 0, or there is a last place where it is. -/
theorem pos_or_last_zero (f : Nat → Nat) : ∀ k,
    (∀ j, j < k → 0 < f j) ∨ ∃ i, i < k ∧ f i = 0 ∧ ∀ j, i < j → j < k → 0 < f j
  | 0 => .inl fun j hj => absurd hj (Nat.not_lt_zero j)
  | k + 1 => by
    rcases Nat.eq_zero_or_pos (f k) with h0 | hpos
    · exact .inr ⟨k, Nat.lt_succ_self k, h0, fun j hkj hj => absurd hj (by omega)⟩
    · have hlast (j : Nat) (hj : j < k + 1) (h : j < k → 0 < f j) : 0 < f j :=
        (Nat.lt_succ_iff_lt_or_eq.mp hj).elim h fun heq => heq ▸ hpos
      rcases pos_or_last_zero f k with hall | ⟨i, hi, h0, hall⟩
      · exact .inl fun j hj => hlast j hj (hall j)
      · exact .inr ⟨i, Nat.lt_succ_of_lt hi, h0, fun j hij hj => hlast j hj (hall j hij)⟩

/-- A word of a longer little-endian store is a digit of the number stored (R61). -/
theorem Memory.readLE_writeLE_word {m : Memory} {a n k : Nat} (V : Nat) (hm : m.wf = true)
    (ha : a + 2 * n ≤ Config.memBytes) (hk : k < n) :
    (m.writeLE a V (2 * n)).readLE (a + 2 * k) 2 = V / 65536 ^ k % 65536 := by
  refine Memory.readLE_of_bytes 2 (a + 2 * k) (V / 65536 ^ k) fun i hi => ?_
  have hpow : 65536 ^ k * 256 ^ i = 256 ^ (2 * k + i) := by rw [Nat.pow_add, Nat.pow_mul]
  rw [Memory.read_writeLE _ a V _ hm ha, if_pos (by omega), Nat.div_div_eq_div_mul, hpow, Nat.add_assoc,
    Nat.add_sub_cancel_left]

/-- A digit of a number given by its digits. -/
theorem ofDigits_digit {ws : List Nat} (h : ∀ wd ∈ ws, wd < 65536) {k : Nat} (hk : k < ws.length) :
    Nat.ofDigits 65536 ws / 65536 ^ k % 65536 = ws[k] := by
  rw [Nat.ofDigits_div_pow_eq_ofDigits_drop k (by decide) ws h, List.drop_eq_getElem_cons hk, Nat.ofDigits_cons,
    Nat.add_mul_mod_self_left]
  exact Nat.mod_eq_of_lt (h _ (List.getElem_mem hk))

/-- The words that the symbols at `ARG0` emit in one encode step (R166). -/
abbrev State.stepWords (s : State) : List Nat := s.emittedWords (s.symbolsAt s.arg0.toNat) s.arg1.toNat

/-- An encode step ended well: its operands were good, each symbol had a frequency, the lanes hold their encoded states, and the
words stand in memory in emission order where the writer went (R166, R167). -/
structure EncodedStep (s t : State) : Prop where
  tables : s.status.tblValid = true
  count : 1 ≤ s.arg1.toNat ∧ s.arg1.toNat ≤ s.lanes
  freq_pos : ∀ j, j < s.arg1.toNat → 0 < s.freqOf (s.symbolsAt s.arg0.toNat j)
  state : ∀ j, j < s.arg1.toNat → laneAt t.xe j = encodedState (s.freqOf (s.symbolsAt s.arg0.toNat j))
    (s.startOf (s.symbolsAt s.arg0.toNat j)) (laneAt s.xe j)
  result : t.result = BitVec.ofNat 32 s.stepWords.length
  ptr : t.wr.ptr.toNat = s.wr.ptr.toNat + 2 * s.stepWords.length
  word : ∀ k (hk : k < s.stepWords.length), t.mem.readLE (s.wr.ptr.toNat + 2 * k) 2 = s.stepWords[k]

section
variable {s t : State} (h : exec .encStep s = .next t) (hterr : t.status.err = false)
include h hterr

/-- The operands of an `ENC_STEP` without an error (R166). -/
theorem encStep_operands : s.status.tblValid = true ∧ (1 ≤ s.arg1.toNat ∧ s.arg1.toNat ≤ s.lanes) ∧
    s.arg0.toNat + s.arg1.toNat ≤ 2 ^ 32 ∧ s.CanRead .b1 s.arg0.toNat s.arg1.toNat := by
  have ht : s.status.tblValid = true := by
    by_contra hno
    exact not_failed h hterr (exec_encStep_notReady (Bool.eq_false_iff.mpr hno))
  have hk : 1 ≤ s.arg1.toNat ∧ s.arg1.toNat ≤ s.lanes := by
    by_contra hno
    exact not_failed h hterr (exec_encStep_badCount ht hno)
  have hfits : s.arg0.toNat + s.arg1.toNat ≤ 2 ^ 32 := by
    by_contra hno
    exact not_failed h hterr (exec_encStep_wrap ht hk (Nat.not_le.mp hno))
  rcases s.platform.answers_or_refusesFirst .read .b1 s.arg0.toNat s.arg1.toNat with hread | ⟨i, c, hi, hc⟩
  · exact ⟨ht, hk, hfits, hread⟩
  · exact (not_failed h hterr (exec_encStep_readRefused ht hk hfits hi hc)).elim

variable (hs : CodecSafe s) (hN : s.lanes ≤ 32)
include hs hN

theorem encStep_freq_pos : ∀ j, j < s.arg1.toNat → 0 < s.freqOf (s.symbolsAt s.arg0.toNat j) := by
  obtain ⟨ht, hk, hfits, hread⟩ := encStep_operands h hterr
  rcases pos_or_last_zero (fun j => s.freqOf (s.symbolsAt s.arg0.toNat j)) s.arg1.toNat with hF | ⟨i, hi, h0, hF⟩
  · exact hF
  · exact (not_failed h hterr (exec_encStep_zeroFreq ht hk hfits hread hs hN hi h0 hF)).elim

/-- An `ENC_STEP` without an error stored all of its words and committed the coded lanes (R166). -/
theorem encStep_commits (hw : s.wr.Buffered) : s.wr.ptr.toNat + 2 * s.stepWords.length ≤ s.wr.lim.toNat ∧
    ∃ xe, (∀ j, j < s.arg1.toNat → laneAt xe j = encodedState (s.freqOf (s.symbolsAt s.arg0.toNat j))
        (s.startOf (s.symbolsAt s.arg0.toNat j)) (laneAt s.xe j)) ∧
      t = (commitStep xe s.stepWords.length (s.wr.afterWords s.stepWords)
        (s.withWords s.wr s.stepWords s.stepWords.length)).complete := by
  obtain ⟨ht, hk, hfits, hread⟩ := encStep_operands h hterr
  obtain ⟨xe, hlanes, hrule⟩ := ruleOf_encStep_words ht hk hfits hread hs hN (encStep_freq_pos h hterr hs hN)
  have hlt := s.emittedWords_lt (s.symbolsAt s.arg0.toNat) s.arg1.toNat
  have hroom : s.wr.ptr.toNat + 2 * s.stepWords.length ≤ s.wr.lim.toNat := by
    by_contra hno
    exact not_failed h hterr
      (exec_of_raised (i := .encStep) (hrule.trans (commitWords_full _ (Nat.not_le.mp hno))))
  have hc : s.CanWrite .b2 s.wr.ptr.toNat s.stepWords.length := by
    rcases s.platform.answers_or_refusesFirst .write .b2 s.wr.ptr.toNat s.stepWords.length with hall | ⟨i, c, hi, hc⟩
    · exact hall
    · have hstore := storeWords_refused (lane := 0) hi hw hlt hroom hc
      exact (not_failed h hterr
        (exec_of_raised (i := .encStep) (hrule.trans (commitWords_of_raised _ hroom hstore)))).elim
  refine ⟨hroom, xe, fun j hj => (hlanes j (by omega)).trans (if_pos hj), ?_⟩
  rw [exec_of_ok (i := .encStep) (hrule.trans (commitWords_ok _ hroom hw hlt hc))] at h
  injection h with heq
  exact heq.symm

/-- From an empty writer, an `ENC_STEP` without an error leaves an encoded step (R166, R167). -/
theorem encodedStep_of_noError (hm : s.mem.wf = true) (hcnt : s.wr.cnt = 0) (hbuf : s.wr.buf = 0) :
    EncodedStep s t := by
  obtain ⟨ht, hk, -, -⟩ := encStep_operands h hterr
  have hw : s.wr.Buffered := ⟨by rw [hcnt]; decide, by rw [hcnt, hbuf]; decide⟩
  obtain ⟨hroom, xe, hlanes, rfl⟩ := encStep_commits h hterr hs hN hw
  have hend := hroom.trans_lt s.wr.lim.isLt
  refine ⟨ht, hk, encStep_freq_pos h hterr hs hN, hlanes, rfl, toNat_ofNat_of_lt hend, fun k hk => ?word⟩
  have hnum : s.wr.withWords s.stepWords = Nat.ofDigits 65536 s.stepWords := by
    simp [Writer.withWords, hcnt, hbuf]
  rw [← ofDigits_digit (s.emittedWords_lt _ _) hk, ← hnum]
  exact Memory.readLE_writeLE_word _ hm hend.le hk

end

/-! ## The words read back -/

/-- With nothing buffered, a chunk is the reader's word of the same number (R112). -/
theorem State.chunk_of_empty {u : State} (hcnt : u.rd.cnt = 0) (k : Nat) :
    u.chunk k = u.mem.readLE (u.rd.wordAddr k) 2 := by
  have hlt := Memory.readLE_two_lt u.mem (u.rd.wordAddr k)
  have hpow : 2 ^ u.rd.cnt.toNat = 1 := by rw [hcnt]; rfl
  rw [State.chunk, State.bitsAhead, hpow, Nat.div_one, Nat.mul_add_mod_self_right, Nat.mod_eq_of_lt hlt]

/-- The backward reader of `u` has nothing buffered and stands at the end of the words `ws`, which stand in its region from `a`
up and whose fetches the platform answers (R112). -/
structure State.ReadsBack (u : State) (a : Nat) (ws : List Nat) : Prop where
  backward : u.rd.dir = false
  cnt : u.rd.cnt = 0
  buf : u.rd.buf = 0
  ptr : u.rd.ptr.toNat = a + 2 * ws.length
  base : u.rd.base.toNat ≤ a
  word : ∀ k (hk : k < ws.length), u.mem.readLE (a + 2 * k) 2 = ws[k]
  answered : u.CanRead .b2 a ws.length

section
variable {u : State} {a : Nat} {ws : List Nat} (h : u.ReadsBack a ws)
include h

theorem State.ReadsBack.buffered : u.rd.Buffered := ⟨by rw [h.cnt]; decide, by rw [h.cnt, h.buf]; decide⟩

/-- The reader takes the last word first. -/
theorem State.ReadsBack.wordAddr {k : Nat} (hk : k < ws.length) : u.rd.wordAddr k = a + 2 * (ws.length - 1 - k) := by
  rw [Reader.wordAddr, h.backward, if_neg Bool.false_ne_true, h.ptr]
  omega

theorem State.ReadsBack.supplies : u.Supplies ws.length where
  hasWords := (Reader.hasWords_backward h.backward _).mpr (h.ptr ▸ Nat.add_le_add_right h.base _)
  answered k hk := h.wordAddr hk ▸ h.answered (ws.length - 1 - k) (by omega)

theorem State.ReadsBack.chunk {pre post : List Nat} {wd : Nat} (hws : ws = pre ++ wd :: post) :
    u.chunk post.length = wd := by
  have hlen : ws.length = pre.length + post.length + 1 := by simp [hws, Nat.add_assoc]
  have hidx : ws.length - 1 - post.length = pre.length := by omega
  rw [State.chunk_of_empty h.cnt, h.wordAddr (by omega), hidx, h.word _ (by omega)]
  simp [hws]

/-- After all words the reader stands where they begin. -/
theorem State.ReadsBack.readerAfter_ptr : (u.readerAfter ws.length).ptr.toNat = a := by
  rw [State.readerAfter_ptr h.supplies.hasWords, Reader.ptrAfter, h.backward, if_neg Bool.false_ne_true, h.ptr,
    Nat.add_sub_cancel]

end

/-! ## The lanes -/

theorem State.emittedWords_suffix (s : State) (σ : Nat → Nat) {j k : Nat} (h : j ≤ k) :
    s.emittedWords σ j <:+ s.emittedWords σ k := by
  induction k, h using Nat.le_induction with
  | base => exact List.suffix_refl _
  | succ k _ ih => exact ih.trans (s.emittedWords_succ σ k ▸ List.suffix_append _ _)

section
variable {s u : State} {σ : Nat → Nat} {k : Nat} (hs : CodecSafe s) (hk : k ≤ 32)
  (hF : ∀ j, j < k → 0 < s.freqOf (σ j)) (hundo : ∀ j, j < k → Undoes s u j (σ j) (laneAt s.xe j))
include hs hk hF hundo

/-- Lanes that undo an encode step read as many words as it emitted (R187). -/
theorem State.wordsBelow_eq_length : ∀ {j : Nat}, j ≤ k → u.wordsBelow j = (s.emittedWords σ j).length
  | 0, _ => rfl
  | j + 1, hj => by
    have hiff := (hundo j hj).base_lt_iff (hF j hj) (hs.encoder j (by omega))
    rw [State.wordsBelow_succ, State.emittedWords_succ, State.wordsBelow_eq_length (Nat.le_of_succ_le hj), List.length_append,
      Nat.add_comm, State.wordsOf, apply_ite List.length]
    exact congrArg (· + _) (if_congr hiff rfl rfl)

/-- Lanes that undo an encode step, with its words to read back, get the lane states of before (R167, R187). -/
theorem State.ReadsBack.decodedLane {a : Nat} (h : u.ReadsBack a (s.emittedWords σ k)) {j : Nat} (hj : j < k) :
    u.decodedLane j = laneAt s.xe j := by
  have hbase := (hundo j hj).base
  have hiff := (hundo j hj).base_lt_iff (hF j hj) (hs.encoder j (by omega))
  by_cases hword : 65536 * s.freqOf (σ j) ≤ laneAt s.xe j
  · obtain ⟨pre, hpre⟩ := s.emittedWords_suffix σ hj
    rw [State.emittedWords_succ, if_pos hword, List.singleton_append] at hpre
    rw [State.decodedLane_word (hiff.mpr hword), State.wordsBelow_eq_length hs hk hF hundo hj.le, h.chunk hpre.symm, hbase,
      shiftedState_word hword, Nat.mul_comm, Nat.div_add_mod]
  · rw [State.decodedLane_noWord (Nat.not_lt.mp (mt hiff.mp hword)), hbase, shiftedState_noWord hword]

end

/-! ## The obligation -/

/-- A reader set at the end of an encode step's words, over memory that still holds them, reads them back. -/
theorem EncodedStep.readsBack {s t u : State} (he : EncodedStep s t) (hdir : u.rd.dir = false) (hcnt : u.rd.cnt = 0)
    (hbuf : u.rd.buf = 0) (hptr : u.rd.ptr = t.wr.ptr) (hbase : u.rd.base.toNat ≤ s.wr.ptr.toNat)
    (hmem : ∀ a, s.wr.ptr.toNat ≤ a → a < t.wr.ptr.toNat → u.mem.read a = t.mem.read a)
    (hread : u.CanRead .b2 s.wr.ptr.toNat s.stepWords.length) : u.ReadsBack s.wr.ptr.toNat s.stepWords where
  backward := hdir
  cnt := hcnt
  buf := hbuf
  ptr := hptr ▸ he.ptr
  base := hbase
  word k hk := by
    have hend := he.ptr
    rw [← he.word k hk]
    exact Memory.readLE_congr 2 _ fun i hi => hmem _ (by omega) (by omega)
  answered := hread

/-- Settles O45: each lane undoes its encode, and the words come back in the order of the lanes. -/
theorem interleavedStepInverts : Obligations.InterleavedStepInverts := by
  intro s t u hs hm _ hwcnt hwbuf hN h hterr hsu hmu huerr htu hsym hfrq hcum hNu hcount hcountu hxd hdir hcnt hbuf hptr
    hbase hmem hread hfits hwrite
  have he := encodedStep_of_noError h hterr hs hN hm hwcnt hwbuf
  have hk32 : s.arg1.toNat ≤ 32 := he.count.2.trans hN
  have hres : t.result.toNat = s.stepWords.length := by
    have hend := he.ptr ▸ t.wr.ptr.isLt
    rw [he.result]
    exact toNat_ofNat_of_lt (by omega)
  have hback := he.readsBack hdir hcnt hbuf hptr hbase hmem (hres ▸ hread)
  have hundo (j : Nat) (hj : j < s.arg1.toNat) : Undoes s u j (s.symbolsAt s.arg0.toNat j) (laneAt s.xe j) :=
    undoes_of_encoded hs he.tables (he.freq_pos j hj) hsym hfrq hcum ((hxd j hj).trans (he.state j hj))
  have hwords : u.wordsBelow u.arg1.toNat = s.stepWords.length := by
    rw [hcount]
    exact State.wordsBelow_eq_length hs hk32 he.freq_pos hundo le_rfl
  have hsup : u.Supplies (u.wordsBelow u.arg1.toNat) := hwords ▸ hback.supplies
  obtain ⟨-, -, hstep⟩ := decStepDecodesALaneEach u
  obtain ⟨-, hstep⟩ := hstep htu (hcount ▸ he.count.1) (hcount ▸ hcountu)
  obtain ⟨-, -, -, hdone⟩ := hstep hfits hsu hNu hmu hback.buffered.cnt_le hback.buffered.buf_lt
  obtain ⟨v, hv, heq, hlanes, houts, -⟩ := hdone hsup.hasWords hsup.answered hwrite
  have hrd : v.rd = u.readerAfter s.stepWords.length := by rw [heq, hwords]
  have hvres : v.result = t.result := by rw [heq, hwords, he.result]
  refine ⟨v, hv, by rw [heq]; exact huerr, hvres, ?ptr, by rw [hrd]; exact hcnt, fun j hj => ⟨?lane, ?symbol⟩⟩
  case ptr => exact BitVec.eq_of_toNat_eq (hrd ▸ hback.readerAfter_ptr)
  case lane =>
    rw [hlanes j (by omega), if_pos (hcount ▸ hj)]
    exact hback.decodedLane hs hk32 he.freq_pos hundo hj
  case symbol => exact BitVec.eq_of_toNat_eq ((houts j (hcount ▸ hj)).trans (hundo j hj).symbol)

end Sys2Proof.Machine
end

section
/-!
SUPPORT. The header read and written field by field, in the order of its layout (46_framer.md R200, R204, R205).
-/
namespace Sys2Proof.Machine

/-! ## The layout -/

/-- The fields of a layout follow one another from the offset `a` up to the offset `b`. -/
def Contiguous : Nat → List (Nat × Size) → Nat → Prop
  | a, [], b => a = b
  | a, f :: fs, b => f.1 = a ∧ Contiguous (a + f.2.bytes) fs b

theorem headerLayout_contiguous : Contiguous 0 headerLayout 48 := by simp [headerLayout, Contiguous, Size.bytes]

theorem Contiguous.le : ∀ {l : List (Nat × Size)} {a b : Nat}, Contiguous a l b → a ≤ b
  | [], _, _, h => Nat.le_of_eq h
  | _ :: _, _, _, h => (Nat.le_add_right _ _).trans h.2.le

/-- The fields before one of a layout end where it begins. -/
theorem Contiguous.before {f : Nat × Size} {suf : List (Nat × Size)} : ∀ {pre : List (Nat × Size)} {a b : Nat},
    Contiguous a (pre ++ f :: suf) b → Contiguous a pre f.1
  | [], _, _, h => h.1.symm
  | _ :: _, _, _, h => ⟨h.1, h.2.before⟩

theorem Contiguous.bounds :
    ∀ {l : List (Nat × Size)} {a b : Nat}, Contiguous a l b → ∀ f ∈ l, a ≤ f.1 ∧ f.1 + f.2.bytes ≤ b
  | [], _, _, _, _, hf => absurd hf List.not_mem_nil
  | g :: l, a, b, ⟨hg, h⟩, f, hf => by
    rcases List.mem_cons.mp hf with rfl | hf
    · exact ⟨hg.ge, hg ▸ h.le⟩
    · have := h.bounds f hf
      omega

/-! ## Reads -/

/-- The reads of a list of fields of the header at `A`, in order (R204). -/
def readFields (A : Nat) : List (Nat × Size) → Cmd (List Nat)
  | [] => pure []
  | f :: fs => do
    let v ← memRead (A + f.1) f.2
    let vs ← readFields A fs
    pure (v :: vs)

section
variable {s : State} {A : Nat}

theorem readFields_ok : ∀ {l : List (Nat × Size)}, (∀ f ∈ l, s.platform.accessError (A + f.1) f.2 .read = none) →
    readFields A l s = .ok (l.map fun f => s.mem.readLE (A + f.1) f.2.bytes) s
  | [], _ => rfl
  | f :: l, h => by
    obtain ⟨hf, hl⟩ := List.forall_mem_cons.mp h
    rw [readFields, Cmd.bind_of_ok (memRead_ok hf), Cmd.bind_of_ok (readFields_ok hl)]
    rfl

/-- The reads end at the first field that is refused (R62). -/
theorem readFields_refused {f : Nat × Size} {suf : List (Nat × Size)} {c : ErrCode}
    (hc : s.platform.accessError (A + f.1) f.2 .read = some c) : ∀ {pre : List (Nat × Size)},
    (∀ g ∈ pre, s.platform.accessError (A + g.1) g.2 .read = none) →
    readFields A (pre ++ f :: suf) s = .error (.raised ⟨c, 0, A + f.1, 0⟩ (some ⟨.read, A + f.1, f.2⟩)) s
  | [], _ => Cmd.bind_of_error (memRead_error hc) _
  | g :: pre, h => by
    obtain ⟨hg, hpre⟩ := List.forall_mem_cons.mp h
    rw [List.cons_append, readFields, Cmd.bind_of_ok (memRead_ok hg)]
    exact Cmd.bind_of_error (readFields_refused hc hpre) _

end

/-- The checks of `FRM_PARSE` on the fields by their number (R204). -/
def checkFields (FL : Nat) (f : Nat → Nat) : Cmd Unit := checkHeader FL (f 0) (f 1) (f 2) (f 3) (f 4) (f 5) (f 6)

/-- A header that lies in memory and has room in its container is read field by field, then checked (R204). -/
theorem frmParseBody_eq {A FL : Nat} (hwrap : A + FL ≤ 2 ^ 32) (hlen : 48 ≤ FL) (s : State) :
    frmParseBody A FL s = (readFields A headerLayout >>= fun v => checkFields FL (nth v)) s := by
  refine (Cmd.require_bind hwrap _ _ s).trans ((Cmd.require_bind hlen _ _ s).trans ?_)
  simp only [readFields, headerLayout, bind_assoc, pure_bind, Nat.add_zero]
  rfl

/-! ## Writes -/

/-- The stores of a list of fields with their values, in order (R205). -/
def writeFields (A : Nat) : List ((Nat × Size) × Nat) → Cmd Unit
  | [] => pure ()
  | g :: gs => do
    memWrite (A + g.1.1) g.1.2 g.2
    writeFields A gs

/-- Memory after the stores of a list of fields (R205). -/
def storeFields (A : Nat) : Memory → List ((Nat × Size) × Nat) → Memory
  | m, [] => m
  | m, g :: gs => storeFields A (m.writeLE (A + g.1.1) g.2 g.1.2.bytes) gs

section
variable {A : Nat}

theorem writeFields_ok : ∀ {l : List ((Nat × Size) × Nat)} {s : State},
    (∀ g ∈ l, s.platform.accessError (A + g.1.1) g.1.2 .write = none) →
    writeFields A l s = .ok () (s.setMem (storeFields A s.mem l))
  | [], _, _ => rfl
  | g :: l, s, h => by
    obtain ⟨hg, hl⟩ := List.forall_mem_cons.mp h
    rw [writeFields, Cmd.bind_of_ok (memWrite_ok hg)]
    exact writeFields_ok hl

/-- The stores end at the first field that is refused; the fields before it are stored (R63, R232). -/
theorem writeFields_refused {pre suf : List ((Nat × Size) × Nat)} {g : (Nat × Size) × Nat} {c : ErrCode} {s : State}
    (h : ∀ g ∈ pre, s.platform.accessError (A + g.1.1) g.1.2 .write = none)
    (hc : s.platform.accessError (A + g.1.1) g.1.2 .write = some c) :
    writeFields A (pre ++ g :: suf) s = .error (.raised ⟨c, 0, A + g.1.1, 0⟩ (some ⟨.write, A + g.1.1, g.1.2⟩))
      (s.setMem (storeFields A s.mem pre)) := by
  induction pre generalizing s with
  | nil => exact Cmd.bind_of_error (memWrite_error hc) _
  | cons g' pre ih =>
    obtain ⟨hg, hpre⟩ := List.forall_mem_cons.mp h
    rw [List.cons_append, writeFields, Cmd.bind_of_ok (memWrite_ok hg)]
    exact ih hpre hc

/-- Outside the fields their stores change nothing. -/
theorem storeFields_outside : ∀ {l : List ((Nat × Size) × Nat)} {a b x : Nat} {m : Memory}, m.wf = true →
    Contiguous a (l.map Prod.fst) b → A + b ≤ Config.memBytes → (x < A + a ∨ A + b ≤ x) →
    (storeFields A m l).read x = m.read x
  | [], _, _, _, _, _, _, _, _ => rfl
  | g :: l, a, b, x, m, hm, ⟨hg, hl⟩, hb, hx => by
    have hle := hl.le
    rw [storeFields, storeFields_outside (Memory.wf_writeLE _ hm (by omega)) hl hb (by omega),
      Memory.read_writeLE_outside _ _ _ _ hm (by omega) (by omega)]

/-- Fields that follow one another read back as the values stored (R61). -/
theorem storeFields_fields : ∀ {l : List ((Nat × Size) × Nat)} {a b : Nat} {m : Memory}, m.wf = true →
    Contiguous a (l.map Prod.fst) b → A + b ≤ Config.memBytes →
    l.map (fun g => (storeFields A m l).readLE (A + g.1.1) g.1.2.bytes) = l.map fun g => g.2 % 256 ^ g.1.2.bytes
  | [], _, _, _, _, _, _ => rfl
  | g :: l, a, b, m, hm, ⟨hg, hl⟩, hb => by
    have hle := hl.le
    have hfirst : A + g.1.1 + g.1.2.bytes ≤ Config.memBytes := by omega
    have hwf : (m.writeLE (A + g.1.1) g.2 g.1.2.bytes).wf = true := Memory.wf_writeLE _ hm hfirst
    rw [List.map_cons, List.map_cons, ← Memory.readLE_writeLE _ (A + g.1.1) g.2 hm hfirst]
    refine congrArg₂ _ (Memory.readLE_congr _ _ fun k hk => ?_) (storeFields_fields hwf hl hb)
    exact storeFields_outside hwf hl hb (by omega)

end

/-- A header that lies in memory is written field by field (R205). -/
theorem frmHdrWrite_eq {A : Nat} (hwrap : A + 48 ≤ 2 ^ 32) (s : State) :
    frmHdrWrite A s = writeFields A (headerLayout.zip s.hdr.fields) s := by
  refine (Cmd.require_bind hwrap _ _ s).trans ?_
  simp only [writeFields, headerLayout, Header.fields, List.zip_cons_cons, List.zip_nil_right, Nat.add_zero, bind_pure_unit]

/-- Each header register fits its field, which has at least 32 bits (R35, R200). -/
theorem header_field_fits {h : Header} {f : Nat × Size} {v : Nat} (hf : f ∈ headerLayout) (hv : v ∈ h.fields) :
    v % 256 ^ f.2.bytes = v := by
  have hwidth : ∀ f ∈ headerLayout, 4 ≤ f.2.bytes := by decide
  have hvalue : ∀ v ∈ h.fields, v < 256 ^ 4 := by
    simp only [Header.fields, List.forall_mem_cons]
    exact ⟨h.w.isLt, h.h.isLt, h.pb.isLt, h.sy.isLt, h.sc.isLt, h.sp.isLt, h.si.isLt, by simp⟩
  exact Nat.mod_eq_of_lt ((hvalue _ hv).trans_le (Nat.pow_le_pow_right (by decide) (hwidth _ hf)))

end Sys2Proof.Machine
end

section
/-!
SUPPORT. How `FRM_PARSE` and `FRM_HDR_WRITE` end, and that the one reads what the other wrote (46_framer.md R204, R205).
-/
namespace Sys2Proof.Machine

/-! ## The checks of a header -/

theorem firstWith_range {test : Nat → Bool} {f : Nat → Nat} {n k : Nat} (hk : k < n) (h : test (f k) = true)
    (hbefore : ∀ j, j < k → test (f j) = false) : firstWith test ((List.range n).map f) = k := by
  have hk' : k < ((List.range n).map f).length := by simpa using hk
  rw [firstWith, List.findIdx_eq hk']
  exact ⟨by simpa using h, fun j hj => by simpa using hbefore j hj⟩

theorem all_range_iff {test : Nat → Bool} {f : Nat → Nat} {n : Nat} :
    ((List.range n).map f).all test = true ↔ ∀ k, k < n → test (f k) = true := by simp

/-- A check of each entry of a list fails at the first that does not pass, and reports its index. -/
theorem require_all_fails {β : Type} {good bad : Nat → Bool} {f : Nat → Nat} {n k sub : Nat} (hk : k < n)
    (hgood : good (f k) = false) (hbad : bad (f k) = true) (hbefore : ∀ j, j < k → bad (f j) = false)
    (c : Unit → Cmd β) (s : State) :
    (require (((List.range n).map f).all good = true)
      ⟨.badContainer, sub, firstWith bad ((List.range n).map f), 0⟩ >>= c) s =
      .error (.raised ⟨.badContainer, sub, k, 0⟩ none) s := by
  have hnot : ¬((List.range n).map f).all good = true := fun hall => by
    rw [all_range_iff.mp hall k hk] at hgood
    cases hgood
  rw [Cmd.require_bind_not hnot, firstWith_range hk hbad hbefore]

/-- The length of the container whose fields are `f` (R200). -/
def fieldsBytes (f : Nat → Nat) : Nat := 48 + 4 * 2048 + f 3 + f 4 + f 5 + f 6

/-- The commit of `FRM_PARSE` (R204). -/
def commitHeader (f : Nat → Nat) (s : State) : State :=
  (((s.setHdr (.ofFields (f 0) (f 1) (f 2) (f 3) (f 4) (f 5) (f 6))).setStatus (s.status.withHdr true)).setResult
    (BitVec.ofNat 32 (f 0 * f 1 / 16))).setResult1 (BitVec.ofNat 32 (8 * (f 0 * f 1 / 16)))

theorem all_fields_pos {f : Nat → Nat} (h : ∀ k, k < 7 → f k ≠ 0) :
    ((List.range 7).map f).all (fun v => decide (v ≠ 0)) = true := all_range_iff.mpr (by simpa using h)

theorem all_fields_lt {f : Nat → Nat} (h : ∀ k, k < 7 → f k < 2 ^ 32) :
    ((List.range 7).map f).all (fun v => decide (v < 2 ^ 32)) = true := all_range_iff.mpr (by simpa using h)

section
variable {s : State} {FL : Nat} {f : Nat → Nat}

theorem checkFields_dimension (h : ¬(f 0 % 4 = 0 ∧ f 1 % 4 = 0)) : checkFields FL f s =
    .error (.raised ⟨.badContainer, 1, if f 0 % 4 ≠ 0 then f 0 else f 1, 0⟩ none) s :=
  Cmd.require_bind_not h _ _ s

variable (h4 : f 0 % 4 = 0 ∧ f 1 % 4 = 0)
include h4

theorem checkFields_zero {k : Nat} (hk : k < 7) (h0 : f k = 0) (hbefore : ∀ j, j < k → f j ≠ 0) :
    checkFields FL f s = .error (.raised ⟨.badContainer, 2, k, 0⟩ none) s :=
  (Cmd.require_bind h4 _ _ s).trans
    (require_all_fails hk (by simpa using h0) (by simpa using h0) (by simpa using hbefore) _ s)

variable (hpos : ∀ k, k < 7 → f k ≠ 0)
include hpos

theorem checkFields_large {k : Nat} (hk : k < 7) (hlarge : 2 ^ 32 ≤ f k) (hbefore : ∀ j, j < k → f j < 2 ^ 32) :
    checkFields FL f s = .error (.raised ⟨.badContainer, 3, k, 0⟩ none) s :=
  (Cmd.require_bind h4 _ _ s).trans ((Cmd.require_bind (all_fields_pos hpos) _ _ s).trans
    (require_all_fails (good := fun v => decide (v < 2 ^ 32)) (bad := fun v => decide (2 ^ 32 ≤ v)) hk
      (by simpa using hlarge) (by simpa using hlarge) (by simpa using hbefore) _ s))

variable (hlt : ∀ k, k < 7 → f k < 2 ^ 32)
include hlt

theorem checkFields_area (h : ¬4 * (f 0 * f 1 / 16) < 2 ^ 32) :
    checkFields FL f s = .error (.raised ⟨.badContainer, 3, 7, 0⟩ none) s :=
  (Cmd.require_bind h4 _ _ s).trans ((Cmd.require_bind (all_fields_pos hpos) _ _ s).trans
    ((Cmd.require_bind (all_fields_lt hlt) _ _ s).trans (Cmd.require_bind_not h _ _ s)))

variable (harea : 4 * (f 0 * f 1 / 16) < 2 ^ 32)
include harea

theorem checkFields_length (h : ¬fieldsBytes f = FL) :
    checkFields FL f s = .error (.raised ⟨.badContainer, 4, FL, 0⟩ none) s :=
  (Cmd.require_bind h4 _ _ s).trans ((Cmd.require_bind (all_fields_pos hpos) _ _ s).trans
    ((Cmd.require_bind (all_fields_lt hlt) _ _ s).trans
      ((Cmd.require_bind harea _ _ s).trans (Cmd.require_bind_not h _ _ s))))

variable (hFL : fieldsBytes f = FL)
include hFL

theorem checkFields_body {p : Nat} (hp : p < 4) (hbody : bodyFits s.lanes (f (3 + p)) = false)
    (hbefore : ∀ q, q < p → bodyFits s.lanes (f (3 + q)) = true) :
    checkFields FL f s = .error (.raised ⟨.badContainer, 5, p, 0⟩ none) s :=
  (Cmd.require_bind h4 _ _ s).trans ((Cmd.require_bind (all_fields_pos hpos) _ _ s).trans
    ((Cmd.require_bind (all_fields_lt hlt) _ _ s).trans ((Cmd.require_bind harea _ _ s).trans
      ((Cmd.require_bind hFL _ _ s).trans (require_all_fails (f := fun q => f (3 + q)) (bad := fun v => !bodyFits s.lanes v) hp
        hbody (by simpa using hbody) (by simpa using hbefore) _ s)))))

theorem checkFields_ok (hbody : ∀ p, p < 4 → bodyFits s.lanes (f (3 + p)) = true) :
    checkFields FL f s = .ok () (commitHeader f s) := by
  have hall : ((List.range 4).map fun p => f (3 + p)).all (bodyFits s.lanes) = true := all_range_iff.mpr hbody
  exact (Cmd.require_bind h4 _ _ s).trans ((Cmd.require_bind (all_fields_pos hpos) _ _ s).trans
    ((Cmd.require_bind (all_fields_lt hlt) _ _ s).trans ((Cmd.require_bind harea _ _ s).trans
      ((Cmd.require_bind hFL _ _ s).trans (Cmd.require_bind hall _ _ s)))))

end

theorem bodyFits_iff {lanes size : Nat} : bodyFits lanes size = true ↔ 4 * lanes ≤ size ∧ (size - 4 * lanes) % 2 = 0 := by
  simp [bodyFits]

/-! ## `FRM_PARSE` -/

section
variable {s : State}

theorem exec_frmParse_of_raised {e : Raised} {x : Option Access}
    (h : frmParseBody s.arg0.toNat s.arg1.toNat s = .error (.raised e x) s) :
    exec .frmParse s = .next ((s.setStatus (s.status.withHdr false)).raise 0x50 e).complete := by
  have hrule : frmParse s.arg0.toNat s.arg1.toNat s = .error (.raised e x) (s.setStatus (s.status.withHdr false)) := by
    simp only [frmParse, h]
  exact exec_of_raised (i := .frmParse) hrule

variable (hwrap : s.arg0.toNat + s.arg1.toNat ≤ 2 ^ 32) (hlen : 48 ≤ s.arg1.toNat)
include hwrap hlen

theorem exec_frmParse_readRefused {pre suf : List (Nat × Size)} {off : Nat} {n : Size} {c : ErrCode}
    (hl : headerLayout = pre ++ (off, n) :: suf)
    (hpre : ∀ g ∈ pre, s.platform.accessError (s.arg0.toNat + g.1) g.2 .read = none)
    (hc : s.platform.accessError (s.arg0.toNat + off) n .read = some c) :
    exec .frmParse s =
      .next ((s.setStatus (s.status.withHdr false)).raise 0x50 ⟨c, 0, s.arg0.toNat + off, 0⟩).complete :=
  exec_frmParse_of_raised ((frmParseBody_eq hwrap hlen s).trans (Cmd.bind_of_error
    (hl ▸ readFields_refused (f := (off, n)) hc hpre) _))

variable (hread : ∀ f ∈ headerLayout, s.platform.accessError (s.arg0.toNat + f.1) f.2 .read = none)
include hread

theorem frmParseBody_check : frmParseBody s.arg0.toNat s.arg1.toNat s =
    checkFields s.arg1.toNat (nth (s.headerFields s.arg0.toNat)) s :=
  (frmParseBody_eq hwrap hlen s).trans (Cmd.bind_of_ok (readFields_ok hread) _)

theorem exec_frmParse_checkFails {e : Raised} {x : Option Access}
    (h : checkFields s.arg1.toNat (nth (s.headerFields s.arg0.toNat)) s = .error (.raised e x) s) :
    exec .frmParse s = .next ((s.setStatus (s.status.withHdr false)).raise 0x50 e).complete :=
  exec_frmParse_of_raised ((frmParseBody_check hwrap hlen hread).trans h)

end

/-- A checked header is parsed to its own registers (R204). -/
theorem commitHeader_fields (h : Header) (s : State) :
    (commitHeader (nth h.fields) s).complete = { s with
      hdr := h
      result := BitVec.ofNat 32 h.blocks
      result1 := BitVec.ofNat 32 (8 * h.blocks)
      status := { s.status.finished with hdrValid := true } } := by
  have hhdr : Header.ofFields (nth h.fields 0) (nth h.fields 1) (nth h.fields 2) (nth h.fields 3) (nth h.fields 4)
      (nth h.fields 5) (nth h.fields 6) = h := by
    change Header.ofFields h.w.toNat h.h.toNat h.pb.toNat h.sy.toNat h.sc.toNat h.sp.toNat h.si.toNat = h
    simp only [Header.ofFields, BitVec.ofNat_toNat, BitVec.setWidth_eq]
  rw [commitHeader, hhdr]
  rfl

/-- Settles O46: the registers of a checked header pass the checks one by one. -/
theorem frmParseAcceptsAHeader : Obligations.FrmParseAcceptsAHeader := by
  intro s h hwrap hread hfields hchecked hFL
  obtain ⟨hw4, hh4, hw, hh, hpb, harea, hsy, hsy2, hsc, hsc2, hsp, hsp2, hsi, hsi2, hsy0, hsc0, hsp0, hsi0⟩ := hchecked
  have hlen : 48 ≤ s.arg1.toNat := by
    have : 48 + 4 * 2048 + h.sy.toNat + h.sc.toNat + h.sp.toNat + h.si.toNat = s.arg1.toNat := hFL
    omega
  have hpos : ∀ k, k < 7 → nth h.fields k ≠ 0 := by
    have toNat_ne (v : Word) (hv : v ≠ 0) : v.toNat ≠ 0 := fun h0 => hv (BitVec.eq_of_toNat_eq h0)
    intro k hk
    interval_cases k
    exacts [toNat_ne _ hw, toNat_ne _ hh, toNat_ne _ hpb, toNat_ne _ hsy0, toNat_ne _ hsc0, toNat_ne _ hsp0,
      toNat_ne _ hsi0]
  have hlt : ∀ k, k < 7 → nth h.fields k < 2 ^ 32 := by
    intro k hk
    interval_cases k
    exacts [h.w.isLt, h.h.isLt, h.pb.isLt, h.sy.isLt, h.sc.isLt, h.sp.isLt, h.si.isLt]
  have hbody : ∀ p, p < 4 → bodyFits s.lanes (nth h.fields (3 + p)) = true := by
    intro p hp
    rw [bodyFits_iff]
    interval_cases p
    exacts [⟨hsy, hsy2⟩, ⟨hsc, hsc2⟩, ⟨hsp, hsp2⟩, ⟨hsi, hsi2⟩]
  have hrun : frmParse s.arg0.toNat s.arg1.toNat s = .ok () (commitHeader (nth h.fields) s) := by
    have hbodyRun := (frmParseBody_check hwrap hlen hread).trans
      (hfields.symm ▸ checkFields_ok ⟨hw4, hh4⟩ hpos hlt harea hFL hbody)
    simp only [frmParse, hbodyRun, hfields]
  rw [exec_of_ok (i := .frmParse) hrun, commitHeader_fields]

/-- Settles O47: each check of the rule in its order, past those before it. -/
theorem frmParseErrors : Obligations.FrmParseErrors := by
  intro s A FL e f NB
  refine ⟨fun hwrap => ?wrap, fun hwrap => ⟨fun hshort => ?short, fun hlen => ⟨fun pre suf off n c hl hpre hc => ?read,
    fun hread => ?checks⟩⟩⟩
  case wrap => exact exec_frmParse_of_raised (Cmd.require_bind_not (Nat.not_le.mpr hwrap) _ _ s)
  case short =>
    exact exec_frmParse_of_raised ((Cmd.require_bind hwrap _ _ s).trans
      (Cmd.require_bind_not (Nat.not_le.mpr hshort) _ _ s))
  case read => exact exec_frmParse_readRefused hwrap hlen hl hpre hc
  case checks =>
    have fails {r : Raised} (h : checkFields FL f s = .error (.raised r none) s) :
        exec .frmParse s = .next (e.raise 0x50 r).complete := exec_frmParse_checkFails hwrap hlen hread h
    refine ⟨fun hw => ?width, fun hw hh => ?height, fun hw hh => ⟨fun k hk h0 hbefore => ?zero, fun hpos =>
      ⟨fun k hk hlarge hbefore => ?large, fun hlt => ⟨fun harea => ?area, fun harea => ⟨fun hFL => ?length,
        fun hFL p hp hbad hbefore => ?body⟩⟩⟩⟩⟩
    case width => exact fails ((checkFields_dimension fun h => hw h.1).trans (by rw [if_pos hw]))
    case height => exact fails ((checkFields_dimension fun h => hh h.2).trans (by rw [if_neg (not_not_intro hw)]))
    case zero => exact fails (checkFields_zero ⟨hw, hh⟩ hk h0 hbefore)
    case large => exact fails (checkFields_large ⟨hw, hh⟩ hpos hk hlarge hbefore)
    case area => exact fails (checkFields_area ⟨hw, hh⟩ hpos hlt (Nat.not_lt.mpr harea))
    case length => exact fails (checkFields_length ⟨hw, hh⟩ hpos hlt harea hFL)
    case body =>
      refine fails (checkFields_body ⟨hw, hh⟩ hpos hlt harea hFL hp (Bool.eq_false_iff.mpr fun hfit => ?_)
        fun q hq => bodyFits_iff.mpr (hbefore q hq))
      have := bodyFits_iff.mp hfit
      omega

/-! ## `FRM_HDR_WRITE` -/

/-- The fields of a header with their values (R205). -/
abbrev Header.layout (h : Header) : List ((Nat × Size) × Nat) := headerLayout.zip h.fields

/-- A list of pairs split at a member of the first list. -/
theorem zip_split {α β : Type} {a : α} {suf : List α} : ∀ {pre : List α} {vs : List β}, pre.length < vs.length →
    ∃ v suf', (pre ++ a :: suf).zip vs = pre.zip vs ++ (a, v) :: suf'
  | _, [], h => absurd h (Nat.not_lt_zero _)
  | [], v :: vs, _ => ⟨v, suf.zip vs, rfl⟩
  | b :: pre, w :: vs, h => by
    obtain ⟨v, suf', hsplit⟩ := zip_split (a := a) (suf := suf) (Nat.lt_of_succ_lt_succ h)
    exact ⟨v, suf', congrArg ((b, w) :: ·) hsplit⟩

theorem map_snd_zip_take {α β : Type} : ∀ {pre : List α} {vs : List β}, pre.length ≤ vs.length →
    (pre.zip vs).map Prod.snd = vs.take pre.length
  | [], _, _ => rfl
  | _ :: _, [], h => absurd h (Nat.not_succ_le_zero _)
  | _ :: _, v :: _, h => congrArg (v :: ·) (map_snd_zip_take (Nat.le_of_succ_le_succ h))

/-- The first fields of a header, stored in a canonical memory, read back as the registers (R61, R205). -/
theorem Header.stored_prefix (h : Header) {s : State} {A b : Nat} {pre : List (Nat × Size)} (hm : s.mem.wf = true)
    (hcont : Contiguous 0 pre b) (hb : A + b ≤ 2 ^ 32) (hpre : pre <+: headerLayout) :
    pre.map (fun g => (storeFields A s.mem (pre.zip h.fields)).readLE (A + g.1) g.2.bytes) = h.fields.take pre.length ∧
      SameOutside s (s.setMem (storeFields A s.mem (pre.zip h.fields))) A b := by
  have hlen : pre.length ≤ h.fields.length := hpre.length_le
  have hfst : (pre.zip h.fields).map Prod.fst = pre := List.map_fst_zip hlen
  have hcont' : Contiguous 0 ((pre.zip h.fields).map Prod.fst) b := hfst.symm ▸ hcont
  refine ⟨?_, fun x hx => storeFields_outside hm hcont' hb hx⟩
  have hfits : ∀ g ∈ pre.zip h.fields, g.2 % 256 ^ g.1.2.bytes = g.2 := fun g hg =>
    header_field_fits (hpre.subset (List.of_mem_zip hg).1) (List.of_mem_zip hg).2
  have hfields := storeFields_fields hm hcont' hb
  rw [List.map_congr_left hfits, map_snd_zip_take hlen] at hfields
  generalize storeFields A s.mem (pre.zip h.fields) = m at *
  rw [← hfields]
  conv_lhs => rw [← hfst, List.map_map]
  rfl

/-- Every member of a list meets a test, or there is a first one that does not. -/
theorem answers_or_first_refused {α β : Type} (f : α → Option β) : ∀ l : List α,
    (∀ a ∈ l, f a = none) ∨ ∃ pre a suf b, l = pre ++ a :: suf ∧ (∀ a ∈ pre, f a = none) ∧ f a = some b
  | [] => .inl fun _ h => absurd h List.not_mem_nil
  | a :: l => by
    cases ha : f a with
    | some b => exact .inr ⟨[], a, l, b, rfl, by simp, ha⟩
    | none =>
      rcases answers_or_first_refused f l with hall | ⟨pre, a', suf, b, rfl, hpre, hb⟩
      · exact .inl (List.forall_mem_cons.mpr ⟨ha, hall⟩)
      · exact .inr ⟨a :: pre, a', suf, b, rfl, List.forall_mem_cons.mpr ⟨ha, hpre⟩, hb⟩

section
variable {s : State} (hwrap : s.arg0.toNat + 48 ≤ 2 ^ 32)
include hwrap

theorem exec_frmHdrWrite_of_ok
    (hwrite : ∀ f ∈ headerLayout, s.platform.accessError (s.arg0.toNat + f.1) f.2 .write = none) :
    exec .frmHdrWrite s = .next (s.setMem (storeFields s.arg0.toNat s.mem s.hdr.layout)).complete :=
  exec_of_ok (i := .frmHdrWrite) ((frmHdrWrite_eq hwrap s).trans
    (writeFields_ok fun _ hg => hwrite _ (List.of_mem_zip hg).1))

/-- The error of the first field that the platform refuses; the fields before it are stored (R205, R232). -/
theorem exec_frmHdrWrite_refused {pre suf : List (Nat × Size)} {off : Nat} {n : Size} {c : ErrCode}
    (hl : headerLayout = pre ++ (off, n) :: suf)
    (hpre : ∀ g ∈ pre, s.platform.accessError (s.arg0.toNat + g.1) g.2 .write = none)
    (hc : s.platform.accessError (s.arg0.toNat + off) n .write = some c) :
    exec .frmHdrWrite s =
      (s.setMem (storeFields s.arg0.toNat s.mem (pre.zip s.hdr.fields))).failed 0x51 c 0 (s.arg0.toNat + off) 0 := by
  have hlen : pre.length < s.hdr.fields.length := by
    have := congrArg List.length hl
    simp only [List.length_append, List.length_cons] at this
    have h7 : headerLayout.length = s.hdr.fields.length := rfl
    omega
  obtain ⟨v, suf', hsplit⟩ := zip_split (a := (off, n)) (suf := suf) hlen
  rw [← hl] at hsplit
  have hrun := (frmHdrWrite_eq hwrap s).trans
    (hsplit ▸ writeFields_refused (fun g hg => hpre _ (List.of_mem_zip hg).1) hc)
  exact exec_of_raised (i := .frmHdrWrite) hrun

/-- A header write without an error was answered at every field. -/
theorem exec_frmHdrWrite_answered {t : State} (h : exec .frmHdrWrite s = .next t) (hterr : t.status.err = false) :
    ∀ f ∈ headerLayout, s.platform.accessError (s.arg0.toNat + f.1) f.2 .write = none := by
  rcases answers_or_first_refused (fun f => s.platform.accessError (s.arg0.toNat + f.1) f.2 .write) headerLayout with
    hall | ⟨pre, f, suf, c, hl, hpre, hc⟩
  · exact hall
  · exact (not_failed h hterr (exec_frmHdrWrite_refused hwrap hl hpre hc)).elim

end

/-- Settles O48: the fields follow one another, so each reads back as its register. -/
theorem frmHdrWriteStoresTheHeader : Obligations.FrmHdrWriteStoresTheHeader := by
  intro s hm A
  refine ⟨fun hwrap => ⟨fun hwrite => ?stored, fun pre suf off n c hl hpre hc => ?refused⟩, fun hwrap => ?wrap⟩
  case stored =>
    obtain ⟨hfields, houtside⟩ := s.hdr.stored_prefix (pre := headerLayout) hm headerLayout_contiguous hwrap
      (List.prefix_refl _)
    have hrun := exec_frmHdrWrite_of_ok hwrap hwrite
    rw [Header.layout] at hrun
    generalize storeFields s.arg0.toNat s.mem (headerLayout.zip s.hdr.fields) = m at *
    exact ⟨_, hrun, rfl, hfields, houtside⟩
  case refused =>
    have hbounds := headerLayout_contiguous.bounds (off, n) (by simp [hl])
    obtain ⟨hfields, houtside⟩ := s.hdr.stored_prefix (b := off) hm (hl ▸ headerLayout_contiguous).before
      (show s.arg0.toNat + off ≤ 2 ^ 32 by dsimp only at hbounds; omega) ⟨_, hl.symm⟩
    exact ⟨_, exec_frmHdrWrite_refused hwrap hl hpre hc, hfields, houtside⟩
  case wrap => exact exec_of_raised (i := .frmHdrWrite) (Cmd.require_bind_not (Nat.not_le.mpr hwrap) _ _ s)

/-- Settles O49: the fields that were written are the registers, which pass the checks. -/
theorem headerRoundTrip : Obligations.HeaderRoundTrip := by
  intro s t u hm _ h hterr hchecked hmem harg0 hFL hwrap hopen
  have hfits : s.arg0.toNat + 48 ≤ 2 ^ 32 := by
    by_contra hno
    exact not_failed h hterr (exec_of_raised (i := .frmHdrWrite) (Cmd.require_bind_not hno _ _ s))
  have hwrite := exec_frmHdrWrite_answered hfits h hterr
  obtain ⟨t', ht', -, hfields, -⟩ := ((frmHdrWriteStoresTheHeader s hm).1 hfits).1 hwrite
  obtain rfl : t' = t := by
    rw [h] at ht'
    injection ht' with heq
    exact heq.symm
  have hbounds := headerLayout_contiguous.bounds
  have hsame : u.headerFields u.arg0.toNat = s.hdr.fields := by
    rw [← hfields, harg0]
    refine List.map_congr_left fun f hf => Memory.readLE_congr _ _ fun k hk => ?_
    rw [Nat.add_assoc]
    exact hmem _ (by have := hbounds f hf; omega)
  have hread : ∀ f ∈ headerLayout, u.platform.accessError (u.arg0.toNat + f.1) f.2 .read = none := fun f hf => by
    have := hbounds f hf
    exact hopen _ _ _ (by omega) (by omega)
  exact ⟨_, frmParseAcceptsAHeader u s.hdr hwrap hread hsame hchecked hFL.symm, rfl, rfl, rfl⟩

end Sys2Proof.Machine
end

section
/-!
SUPPORT. The checks that the payload commands make on their operands before their first sub-step (46_framer.md R206, R207).
-/
namespace Sys2Proof.Machine

theorem overlaps_eq_false_iff {a n b m : Nat} : overlaps a n b m = false ↔ b + m ≤ a ∨ a + n ≤ b := by
  simp only [overlaps, Bool.and_eq_false_iff, decide_eq_false_iff_not, Nat.not_lt]

/-- Settles O50: each check of the two rules in its order, past those before it. -/
theorem framerOperandChecks : Obligations.FramerOperandChecks := by
  intro s p
  have hend : s.arg0.toNat + s.hdr.payloadOffset p + Config.tableBytes + (s.hdr.size p).toNat =
      s.arg0.toNat + s.hdr.payloadOffset p + (2048 + (s.hdr.size p).toNat) := Nat.add_assoc _ _ _
  refine ⟨fun hv => ?notReady, fun hv => ⟨fun hP => ?payloadWraps, fun hP hD => ?planeWraps,
    fun hP hD h1 h2 => ?planeOverlaps⟩, fun hC => ?empty, fun hC => ⟨fun hsrc => ?sourceWraps, fun hsrc hP => ?targetWraps,
      fun hsrc hP => ⟨fun h1 h2 => ?sourceOverlaps, fun hapart hcap => ?noRoom⟩⟩⟩
  case notReady => exact exec_of_raised (i := .frmDecPayload p) (Cmd.require_bind_not (by simp [hv]) _ _ s)
  case payloadWraps =>
    exact exec_of_raised (i := .frmDecPayload p) ((Cmd.require_bind hv _ _ s).trans
      (Cmd.require_bind_not (fun h => Nat.not_le.mpr hP (hend.symm.trans_le h)) _ _ s))
  case planeWraps =>
    exact exec_of_raised (i := .frmDecPayload p) ((Cmd.require_bind hv _ _ s).trans
      ((Cmd.require_bind (hend.trans_le hP) _ _ s).trans (Cmd.require_bind_not (Nat.not_le.mpr hD) _ _ s)))
  case planeOverlaps =>
    have hover : ¬overlaps s.arg1.toNat (s.hdr.planeBytes p) (s.arg0.toNat + s.hdr.payloadOffset p)
        (Config.tableBytes + (s.hdr.size p).toNat) = false := fun h =>
      (overlaps_eq_false_iff.mp h).elim (Nat.not_le.mpr h1) (Nat.not_le.mpr h2)
    exact exec_of_raised (i := .frmDecPayload p) ((Cmd.require_bind hv _ _ s).trans
      ((Cmd.require_bind (hend.trans_le hP) _ _ s).trans ((Cmd.require_bind hD _ _ s).trans
        (Cmd.require_bind_not hover _ _ s))))
  case empty => exact exec_of_raised (i := .frmEncPayload p) (Cmd.require_bind_not (by omega) _ _ s)
  case sourceWraps =>
    exact exec_of_raised (i := .frmEncPayload p) ((Cmd.require_bind hC _ _ s).trans
      (Cmd.require_bind_not (Nat.not_le.mpr hsrc) _ _ s))
  case targetWraps =>
    exact exec_of_raised (i := .frmEncPayload p) ((Cmd.require_bind hC _ _ s).trans
      ((Cmd.require_bind hsrc _ _ s).trans (Cmd.require_bind_not (Nat.not_le.mpr hP) _ _ s)))
  case sourceOverlaps =>
    have hover : ¬overlaps s.arg0.toNat s.arg2.toNat s.arg1.toNat s.arg3.toNat = false := fun h =>
      (overlaps_eq_false_iff.mp h).elim (Nat.not_le.mpr h1) (Nat.not_le.mpr h2)
    exact exec_of_raised (i := .frmEncPayload p) ((Cmd.require_bind hC _ _ s).trans
      ((Cmd.require_bind hsrc _ _ s).trans ((Cmd.require_bind hP _ _ s).trans (Cmd.require_bind_not hover _ _ s))))
  case noRoom =>
    exact exec_of_raised (i := .frmEncPayload p) ((Cmd.require_bind hC _ _ s).trans
      ((Cmd.require_bind hsrc _ _ s).trans ((Cmd.require_bind hP _ _ s).trans
        ((Cmd.require_bind (overlaps_eq_false_iff.mpr hapart) _ _ s).trans
          (Cmd.require_bind_not (Nat.not_le.mpr hcap) _ _ s)))))

end Sys2Proof.Machine
end

section
/-!
SUPPORT. How `FRM_DEC_PAYLOAD` runs up to its first symbol and from its last one on (46_framer.md R206): the stored table loaded
and built, the lane states loaded, the reader set up; then the end checks and the stores of the plane.
-/
namespace Sys2Proof.Machine

/-! ## The tables -/

/-- The tables are valid, sum to `M` and match (R40, R43). -/
structure State.TablesReady (s : State) : Prop where
  hist : s.status.histValid = true
  tables : s.status.tblValid = true
  sum : s.freqList.sum = 2048
  tablesMatch : s.TablesMatch

theorem State.TablesReady.of_same {W : List Elem} {s t : State} (h : SameBut W s t) (hW : ∀ e ∈ tableElems, e ∉ W)
    (hs : s.TablesReady) : t.TablesReady := by
  have same (e : Elem) (he : e ∈ tableElems) : e.Same s t := h.get e (hW e he)
  have hfreq : t.freq = s.freq := same .freq (by decide)
  have hsym : t.sym = s.sym := same .sym (by decide)
  have hfrq : t.frq = s.frq := same .frq (by decide)
  have hcum : t.cum = s.cum := same .cum (by decide)
  have hcums : t.cums = s.cums := same .cums (by decide)
  have hhv : t.status.histValid = s.status.histValid := same .histValid (by decide)
  have htv : t.status.tblValid = s.status.tblValid := same .tblValid (by decide)
  obtain ⟨hhist, htbl, hsum, hmatch⟩ := hs
  refine ⟨hhv.trans hhist, htv.trans htbl, ?_, ?_⟩
  · rwa [State.freqList, hfreq]
  · simpa only [State.TablesMatch, State.freqList, hfreq, hsym, hfrq, hcum, hcums] using hmatch

theorem tblBuild_ok {s : State} (hv : s.status.histValid = true) : tblBuild s = .ok () s.builtTables :=
  (Cmd.require_bind hv _ _ s).trans (Cmd.bind_of_ok (readFreq_ok hv) _)

/-- The state after a raw table is normalized and its decoding tables are built (R132, R151). -/
def State.tablesBuilt (s : State) : State := s.normalizedBy.builtTables

section
variable {s : State} {hi : Nat} (hhi : IsHighest s.rawList hi) (hlt : hi < 256)
include hhi hlt

/-- A raw table within the alphabet is normalized and built (R132, R151). -/
theorem buildTables_run {α : Type} (hv : s.status.rawValid = true) (c : Unit → Cmd α) :
    (histNorm >>= fun _ => tblBuild >>= c) s = c () s.tablesBuilt := by
  have hvalid : s.normalizedBy.status.histValid = true := rfl
  rw [Cmd.bind_of_ok (histNorm_ok hv hhi.sum_pos (hhi.highestUsed_eq ▸ hlt)), Cmd.bind_of_ok (tblBuild_ok hvalid)]
  rfl

theorem State.tablesBuilt_ready : s.tablesBuilt.TablesReady where
  hist := rfl
  tables := rfl
  sum := Machine.normalizedBy_freqList hhi.sum_pos (hhi.highestUsed_eq ▸ hlt)
  tablesMatch := State.builtTables_match (Machine.normalizedBy_freqList hhi.sum_pos (hhi.highestUsed_eq ▸ hlt))

end

@[simp] theorem State.tablesBuilt_mem (s : State) : s.tablesBuilt.mem = s.mem := by
  simp [State.tablesBuilt, State.builtTables, State.normalizedBy]
@[simp] theorem State.tablesBuilt_platform (s : State) : s.tablesBuilt.platform = s.platform := by
  simp [State.tablesBuilt, State.builtTables, State.normalizedBy]
@[simp] theorem State.tablesBuilt_xd (s : State) : s.tablesBuilt.xd = s.xd := by
  simp [State.tablesBuilt, State.builtTables, State.normalizedBy]

/-- The 512 entries of the stored table at `a` (R131). -/
def State.tableAt (s : State) (a : Nat) : List Nat := (List.range 512).map fun i => s.mem.readLE (a + 4 * i) 4

theorem State.nth_tableAt (s : State) (a : Nat) {i : Nat} (hi : i < 512) :
    nth (s.tableAt a) i = s.mem.readLE (a + 4 * i) 4 := by
  rw [State.tableAt, nth_eq (by simpa using hi), List.getElem_map, List.getElem_range]

theorem State.nth_tableAt_ge (s : State) (a : Nat) {i : Nat} (hi : 512 ≤ i) : nth (s.tableAt a) i = 0 :=
  nth_ge (by simpa [State.tableAt] using hi)

/-- The state after `HIST_LOAD` at `a` (R131). -/
def State.tableLoaded (s : State) (a : Nat) : State :=
  (((s.setRawf (ofListD 512 ((s.tableAt a).map (BitVec.ofNat 32)) 0)).setStatus s.status.rawLoaded).setResult
    (BitVec.ofNat 32 (s.tableAt a).sum)).setResult1 (BitVec.ofNat 32 ((s.tableAt a).sum / 2 ^ 32))

@[simp] theorem State.tableLoaded_mem (s : State) (a : Nat) : (s.tableLoaded a).mem = s.mem := by
  simp [State.tableLoaded]
@[simp] theorem State.tableLoaded_platform (s : State) (a : Nat) : (s.tableLoaded a).platform = s.platform := by
  simp [State.tableLoaded]
@[simp] theorem State.tableLoaded_xd (s : State) (a : Nat) : (s.tableLoaded a).xd = s.xd := by
  simp [State.tableLoaded]
@[simp] theorem State.tableLoaded_status (s : State) (a : Nat) : (s.tableLoaded a).status = s.status.rawLoaded := by
  simp [State.tableLoaded]

theorem histLoad_ok {s : State} {a : Nat} (h : a + 2048 ≤ 2 ^ 32) (hread : s.CanRead .b4 a 512) :
    histLoad a s = .ok () (s.tableLoaded a) :=
  (Cmd.require_bind h _ _ s).trans (Cmd.bind_of_ok (readEntries_ok 512 a hread) _)

/-- A stored count is a number of 32 bits, so the raw table holds it as it is (R131). -/
theorem State.tableLoaded_rawList (s : State) (a : Nat) : (s.tableLoaded a).rawList = s.tableAt a := by
  refine ofListD_toNat (by simp [State.tableAt]) fun v hv => ?_
  obtain ⟨i, -, rfl⟩ := List.mem_map.mp hv
  exact Memory.readLE_lt s.mem 4 _

/-! ## The lanes -/

/-- The lane states stored at `body` are loaded into the lanes from `lane` up (R206). -/
theorem loadLanes_ok {body : Nat} : ∀ {k lane : Nat} {s : State}, lane + k ≤ 32 →
    (∀ j, lane ≤ j → j < lane + k → s.platform.accessError (body + 4 * j) .b4 .read = none ∧
      LaneLegal (s.mem.readLE (body + 4 * j) 4)) →
    ∃ xd, loadLanes body lane k s = .ok () (s.setXd xd) ∧ ∀ j, j < 32 → laneAt xd j =
      if lane ≤ j ∧ j < lane + k then s.mem.readLE (body + 4 * j) 4 else laneAt s.xd j
  | 0, lane, s, _, _ => ⟨s.xd, rfl, fun j _ => (if_neg (by omega)).symm⟩
  | k + 1, lane, s, hk, h => by
    obtain ⟨hread, hlegal⟩ := h lane le_rfl (by omega)
    obtain ⟨xd, hrun, hlanes⟩ := loadLanes_ok (body := body) (k := k) (lane := lane + 1)
      (s := s.setXd (setLane s.xd lane (s.mem.readLE (body + 4 * lane) 4))) (by omega)
      fun j hj hj' => h j (by omega) (by omega)
    refine ⟨xd, ?run, fun j hj => ?lane⟩
    case run =>
      rw [loadLanes, Cmd.bind_of_ok (memRead_ok hread)]
      exact (Cmd.bind_of_ok (decInit_ok hlegal) _).trans hrun
    case lane =>
      have hlt : s.mem.readLE (body + 4 * lane) 4 < 2 ^ 32 := Memory.readLE_lt s.mem 4 _
      rw [hlanes j hj]
      simp only [State.setXd_mem, State.setXd_xd]
      rw [laneAt_setLane _ _ _ _ hj, Nat.mod_eq_of_lt hlt]
      rcases Nat.lt_trichotomy j lane with hlt' | rfl | hgt
      · rw [if_neg (by omega), if_neg (by omega), if_neg (by omega)]
      · rw [if_neg (by omega), if_pos rfl, if_pos (by omega)]
      · rw [if_neg (show j ≠ lane by omega)]
        exact if_congr (by omega) rfl rfl

/-! ## The end checks -/

/-- The end checks of a payload's decode, which answer the symbols (R206). -/
def endChecks (N : Nat) (out : List Nat) : Cmd (List Nat) := do
  let s ← getState
  checkLanesBack s.xd 0 N
  require (s.rd.ptr = s.rd.base ∧ s.rd.cnt = 0) ⟨.malformedStream, 4, s.rd.ptr.toNat, 0⟩
  pure out

section
variable {xd : Vector Word 32} {s : State}

theorem checkLanesBack_ok : ∀ {k lane : Nat}, (∀ j, lane ≤ j → j < lane + k → laneAt xd j = 2048) →
    checkLanesBack xd lane k s = .ok () s
  | 0, _, _ => rfl
  | k + 1, lane, h =>
    (Cmd.require_bind (h lane le_rfl (by omega)) _ _ s).trans (checkLanesBack_ok fun j hj hj' => h j (by omega) (by omega))

/-- The first lane that is not back at `M` fails the check (R206). -/
theorem checkLanesBack_fails {j : Nat} (hne : laneAt xd j ≠ 2048) : ∀ {k lane : Nat}, lane ≤ j → j < lane + k →
    (∀ l, lane ≤ l → l < j → laneAt xd l = 2048) →
    checkLanesBack xd lane k s = .error (.raised ⟨.malformedStream, 3, laneAt xd j, j⟩ none) s
  | 0, _, hle, hlt, _ => absurd hlt (by omega)
  | k + 1, lane, hle, hlt, h => by
    rcases Nat.lt_or_eq_of_le hle with hlt' | rfl
    · exact (Cmd.require_bind (h lane le_rfl hlt') _ _ s).trans
        (checkLanesBack_fails hne hlt' (by omega) fun l hl => h l (by omega))
    · exact Cmd.require_bind_not hne _ _ s

end

section
variable {s : State} {N : Nat} (out : List Nat)

theorem endChecks_lane {j : Nat} (hj : j < N) (hne : laneAt s.xd j ≠ 2048) (hbefore : ∀ l, l < j → laneAt s.xd l = 2048) :
    endChecks N out s = .error (.raised ⟨.malformedStream, 3, laneAt s.xd j, j⟩ none) s :=
  Cmd.bind_of_error (checkLanesBack_fails hne (Nat.zero_le j) (by omega) fun l _ => hbefore l) _

variable (hback : ∀ j, j < N → laneAt s.xd j = 2048)
include hback

theorem endChecks_leftover (hrest : ¬(s.rd.ptr = s.rd.base ∧ s.rd.cnt = 0)) :
    endChecks N out s = .error (.raised ⟨.malformedStream, 4, s.rd.ptr.toNat, 0⟩ none) s :=
  (Cmd.bind_of_ok (checkLanesBack_ok fun j _ hj => hback j (by omega)) _).trans (Cmd.require_bind_not hrest _ _ s)

theorem endChecks_ok (hrest : s.rd.ptr = s.rd.base ∧ s.rd.cnt = 0) : endChecks N out s = .ok out s :=
  (Cmd.bind_of_ok (checkLanesBack_ok fun j _ hj => hback j (by omega)) _).trans (Cmd.require_bind hrest _ _ s)

end

/-! ## The decode of a payload -/

/-- A payload at `P` with a body of `size` bytes that `FRM_DEC_PAYLOAD` can begin to decode with `N` lanes: its table and its
lane states can be read and are good, and its stream is whole words (R206). -/
structure State.PayloadAt (s : State) (N P size hi : Nat) : Prop where
  fits : P + 2048 + size ≤ 2 ^ 32
  readable : s.Open P (2048 + size)
  highest : IsHighest (s.tableAt P) hi
  alphabet : hi < 256
  lanes_le : N ≤ 32
  states_fit : 4 * N ≤ size
  even : (size - 4 * N) % 2 = 0
  legal : ∀ j, j < N → LaneLegal (s.mem.readLE (P + 2048 + 4 * j) 4)

/-- The state in which the first symbol of a payload is decoded, the lanes being `xd` (R206). -/
def State.payloadLoaded (s : State) (N P size : Nat) (xd : Vector Word 32) : State :=
  ((s.tableLoaded P).tablesBuilt.setXd xd).setRd (.fresh (P + 2048 + 4 * N) (P + 2048 + size) false)

section
variable {s : State} {N P size : Nat} {xd : Vector Word 32}

@[simp] theorem State.payloadLoaded_mem : (s.payloadLoaded N P size xd).mem = s.mem := by simp [State.payloadLoaded]
@[simp] theorem State.payloadLoaded_platform : (s.payloadLoaded N P size xd).platform = s.platform := by
  simp [State.payloadLoaded]
@[simp] theorem State.payloadLoaded_xd : (s.payloadLoaded N P size xd).xd = xd := by simp [State.payloadLoaded]
@[simp] theorem State.payloadLoaded_rd : (s.payloadLoaded N P size xd).rd =
    .fresh (P + 2048 + 4 * N) (P + 2048 + size) false := by simp [State.payloadLoaded]
@[simp] theorem State.payloadLoaded_freq : (s.payloadLoaded N P size xd).freq = (s.tableLoaded P).tablesBuilt.freq := by
  simp [State.payloadLoaded]
theorem State.payloadLoaded_status :
    (s.payloadLoaded N P size xd).status = (s.tableLoaded P).tablesBuilt.status := by simp [State.payloadLoaded]

@[simp] theorem State.payloadLoaded_err : (s.payloadLoaded N P size xd).status.err = s.status.err := by
  simp [State.payloadLoaded_status, State.tablesBuilt, State.builtTables, State.normalizedBy, Status.tableBuilt,
    Status.normalized, Status.rawLoaded]
@[simp] theorem State.payloadLoaded_rawValid : (s.payloadLoaded N P size xd).status.rawValid = true := by
  simp [State.payloadLoaded_status, State.tablesBuilt, State.builtTables, State.normalizedBy, Status.tableBuilt,
    Status.normalized, Status.rawLoaded]

variable {hi : Nat} (h : s.PayloadAt N P size hi)
include h

theorem State.PayloadAt.highest_loaded : IsHighest (s.tableLoaded P).rawList hi := s.tableLoaded_rawList P ▸ h.highest

theorem State.PayloadAt.ready : (s.payloadLoaded N P size xd).TablesReady := by
  have hT : (s.tableLoaded P).tablesBuilt.TablesReady := State.tablesBuilt_ready h.highest_loaded h.alphabet
  refine hT.of_same (W := [.xd, .rd]) (fun e => ?_) (by decide)
  cases e <;> simp [State.payloadLoaded]

end

theorem State.tableLoaded_rawValid (s : State) (P : Nat) : (s.tableLoaded P).status.rawValid = true := by
  rw [State.tableLoaded_status]
  rfl

/-- Up to its first symbol the decode of a payload only loads it (R206). -/
theorem decodePayload_run {s : State} {N P size hi : Nat} (h : s.PayloadAt N P size hi) (C : Nat) :
    ∃ xd, (∀ j, j < 32 → laneAt xd j = if j < N then s.mem.readLE (P + 2048 + 4 * j) 4 else laneAt s.xd j) ∧
      decodePayload N P size C s =
        (decodeSteps C N (stepCount C N) [] >>= endChecks N) (s.payloadLoaded N P size xd) := by
  have hsize := h.states_fit
  have hfits := h.fits
  have heven := h.even
  have hread : s.CanRead .b4 P 512 := h.readable.canRead le_rfl (by simp only [Size.bytes]; omega)
  have hlane (j : Nat) (hj : j < N) : s.platform.accessError (P + 2048 + 4 * j) .b4 .read = none :=
    h.readable .b4 .read _ (by omega) (by simp only [Size.bytes]; omega)
  obtain ⟨xd, hload, hlanes⟩ := loadLanes_ok (body := P + 2048) (k := N) (lane := 0) (s := (s.tableLoaded P).tablesBuilt)
    ((Nat.zero_add N).trans_le h.lanes_le) (by
      intro j _ hj
      rw [State.tablesBuilt_platform, State.tablesBuilt_mem, State.tableLoaded_platform, State.tableLoaded_mem]
      exact ⟨hlane j (by omega), h.legal j (by omega)⟩)
  have hregion : P + 2048 + 4 * N ≤ P + 2048 + size ∧ (P + 2048 + size - (P + 2048 + 4 * N)) % 2 = 0 := by omega
  refine ⟨xd, fun j hj => ?lane, ?run⟩
  case lane =>
    simpa using hlanes j hj
  case run =>
    have hbytes : Config.tableBytes = 2048 := rfl
    rw [decodePayload, hbytes, Cmd.bind_of_ok (histLoad_ok (by omega) hread),
      buildTables_run h.highest_loaded h.alphabet (s.tableLoaded_rawValid P), Cmd.bind_of_ok hload, Cmd.bind_of_ok (brInit_ok hregion)]
    rfl

/-- The symbols of the steps are all those of the plane (R208). -/
theorem stepCount_covers {C N : Nat} (hN : 1 ≤ N) : min (stepCount C N * N) C = C := by
  have hdiv := Nat.div_add_mod (C + N - 1) N
  have hmod := Nat.mod_lt (C + N - 1) hN
  rw [Nat.mul_comm] at hdiv
  rw [stepCount]
  omega

/-! ## The plane -/

/-- The commit of `FRM_DEC_PAYLOAD`: the symbols to the plane, and their number to `RESULT` (R206). -/
def storePlane (D C : Nat) (out : List Nat) : Cmd Unit := do
  writeEntries .b1 D out
  modify fun s => s.setResult (BitVec.ofNat 32 C)

theorem storePlane_ok {D : Nat} {out : List Nat} {s : State} (hopen : s.Open D out.length) :
    storePlane D out.length out s =
      .ok () ((s.setMem (storeEntries 1 s.mem D out)).setResult (BitVec.ofNat 32 out.length)) :=
  Cmd.bind_of_ok (writeEntries_ok (n := .b1) out D fun i hi =>
    hopen .b1 .write _ (Nat.le_add_right _ _) (by simp only [Size.bytes]; omega)) _

/-- A stored byte reads back (R61). -/
theorem storeEntries_byte {m : Memory} {a i : Nat} {l : List Nat} (hm : m.wf = true) (ha : a + l.length ≤ 2 ^ 32)
    (hi : i < l.length) (hbyte : l[i] < 256) : ((storeEntries 1 m a l).read (a + i)).toNat = l[i] := by
  have hentry := storeEntries_entry (n := 1) l hm (by rwa [Nat.one_mul]) i hi
  simpa [Memory.readLE, Nat.mod_eq_of_lt hbyte] using hentry

/-- The operands of a `FRM_DEC_PAYLOAD` that pass its checks (R206). -/
structure State.PlaneChecked (s : State) (p : Payload) (P D : Nat) : Prop where
  valid : s.status.hdrValid = true
  source : P = s.arg0.toNat + s.hdr.payloadOffset p
  payload_fits : P + 2048 + (s.hdr.size p).toNat ≤ 2 ^ 32
  plane : D = s.arg1.toNat
  plane_fits : D + s.hdr.planeBytes p ≤ 2 ^ 32
  apart : D + s.hdr.planeBytes p ≤ P ∨ P + 2048 + (s.hdr.size p).toNat ≤ D

/-- Past its checks `FRM_DEC_PAYLOAD` decodes the payload and stores the plane (R206). -/
theorem ruleOf_frmDecPayload {s : State} {p : Payload} {P D : Nat} (h : s.PlaneChecked p P D) :
    ruleOf (.frmDecPayload p) s s = (decodePayload s.lanes P (s.hdr.size p).toNat (s.hdr.planeBytes p) >>=
      storePlane D (s.hdr.planeBytes p)) s := by
  obtain ⟨hvalid, rfl, hP, rfl, hD, hapart⟩ := h
  exact (Cmd.require_bind hvalid _ _ s).trans ((Cmd.require_bind hP _ _ s).trans ((Cmd.require_bind hD _ _ s).trans
    (Cmd.require_bind (overlaps_eq_false_iff.mpr (hapart.symm.imp_left (Nat.add_assoc _ _ _).symm.trans_le)) _ _ s)))

end Sys2Proof.Machine
end

section
/-!
SUPPORT. `FRM_DEC_PAYLOAD` of a payload of one symbol (46_framer.md R206): its tables, its steps, its ends.
-/
namespace Sys2Proof.Machine

/-! ## The tables of one symbol -/

theorem sum_eq_nth : ∀ {l : List Nat} {σ : Nat}, (∀ i, i ≠ σ → nth l i = 0) → l.sum = nth l σ
  | [], _, _ => rfl
  | a :: l, 0, h => by
    have htail : l.sum = 0 := List.sum_eq_zero fun v hv => by
      obtain ⟨k, hk, rfl⟩ := List.getElem_of_mem hv
      rw [← nth_eq hk]
      exact h (k + 1) (Nat.succ_ne_zero k)
    rw [List.sum_cons, htail]
    rfl
  | a :: l, σ + 1, h => by
    have hhead : a = 0 := h 0 (Nat.succ_ne_zero σ).symm
    rw [List.sum_cons, hhead, Nat.zero_add]
    exact sum_eq_nth fun i hi => h (i + 1) (by omega)

section
variable {s : State} {hi : Nat} (hv : s.status.rawValid = true) (hhi : IsHighest s.rawList hi) (hlt : hi < 256)
include hv hhi hlt

/-- After the tables are built a symbol has a frequency exactly where it has a count (R136). -/
theorem State.tablesBuilt_freqOf_eq_zero {i : Nat} (hi : i < 256) :
    s.tablesBuilt.freqOf i = 0 ↔ nth s.rawList i = 0 := by
  obtain ⟨t, hrun, -, -, hzero, -⟩ := normalizationTotality s _ hv hhi hlt
  rw [exec_histNorm_of_ok hv hhi hlt] at hrun
  cases hrun
  exact hzero i hi

/-- Counts that already sum to `M` are the frequencies (R136). -/
theorem State.tablesBuilt_freqOf_self (hsum : s.rawList.sum = 2048) {i : Nat} (hi : i < 256) :
    s.tablesBuilt.freqOf i = nth s.rawList i := by
  obtain ⟨t, hrun, -, -, -, -, hself⟩ := normalizationTotality s _ hv hhi hlt
  rw [exec_histNorm_of_ok hv hhi hlt] at hrun
  cases hrun
  exact hself hsum i hi

end

section
variable {s : State} {σ : Nat} (hσ : σ < 256) (hpos : 0 < nth s.rawList σ)
  (hzero : ∀ i, i ≠ σ → nth s.rawList i = 0)
include hpos hzero

theorem isHighest_of_oneSymbol : IsHighest s.rawList σ := ⟨hpos, fun i hi => hzero i hi.ne'⟩

include hσ

/-- One symbol gets all of the `M` slots (R132). -/
theorem State.tablesBuilt_freqOf_oneSymbol (hv : s.status.rawValid = true) (i : Nat) :
    s.tablesBuilt.freqOf i = if i = σ then 2048 else 0 := by
  have hhi := isHighest_of_oneSymbol hpos hzero
  have hothers (i : Nat) (hne : i ≠ σ) : s.tablesBuilt.freqOf i = 0 := by
    rcases Nat.lt_or_ge i 256 with hlt | hge
    · exact (State.tablesBuilt_freqOf_eq_zero hv hhi hσ hlt).mpr (hzero i hne)
    · exact State.freqOf_ge _ hge
  split
  next h =>
    rw [h, ← State.nth_freqList, ← sum_eq_nth fun i hne => (State.nth_freqList _ i).trans (hothers i hne)]
    exact (State.tablesBuilt_ready hhi hσ).sum
  next h => exact hothers i h

/-- One symbol needs no fallback: its rounded count is `M`, and nothing is left over (R134). -/
theorem State.tablesBuilt_fallback_oneSymbol : s.tablesBuilt.status.fallback = false := by
  have hhi := isHighest_of_oneSymbol hpos hzero
  have hlen : 256 ≤ s.rawList.length := by rw [State.rawList_length]; decide
  have hmax : IsLargest s.rawList σ := by
    refine ⟨hσ.trans_le hlen, fun k => ?_, fun k hk => (hzero k hk.ne).trans_lt hpos⟩
    by_cases hk : k = σ
    · rw [hk]
    · exact (hzero k hk).trans_le (Nat.zero_le _)
  have hcount : roundedCount s.rawList.sum (nth s.rawList σ) = 2048 := by
    rw [sum_eq_nth hzero, roundedCount, if_neg hpos.ne',
      show 2 * nth s.rawList σ * Config.M + nth s.rawList σ = nth s.rawList σ + Config.M * (2 * nth s.rawList σ) by ring,
      Nat.add_mul_div_right _ _ (by omega), Nat.div_eq_of_lt (by omega)]
    rfl
  have hrounded (i : Nat) (hne : i ≠ σ) : nth (roundedTable s.rawList) i = 0 := by
    rcases Nat.lt_or_ge i 256 with hlt | hge
    · rw [nth_roundedTable hlt hlen, hzero i hne, roundCount_zero]
    · exact nth_ge ((roundedTable_length hlen).trans_le hge)
  have hres : rawResidue s.rawList = 0 := by
    rw [rawResidue_eq, residue, sum_eq_nth hrounded, nth_roundedTable hσ hlen, roundCount_eq, hcount]
    rfl
  exact (normalizeTable_corrected s.rawList_length hhi hσ hmax (by rw [hcount, hres]; decide)).1

end

/-! ## The steps -/

/-- Tables in which every slot is the symbol `σ`, and `N` lanes at `M` or above. -/
structure State.OneSymbol (s : State) (σ N : Nat) : Prop where
  tables : s.status.tblValid = true
  slot : ∀ slot, slot < 2048 →
    (entryAt s.sym slot 0).toNat = σ ∧ (entryAt s.frq slot 0).toNat = 2048 ∧ (entryAt s.cum slot 0).toNat = 0
  lanes_le : N ≤ 32
  lanes : ∀ j, j < N → 2048 ≤ laneAt s.xd j

/-- Tables of one symbol hold it in every slot, from slot 0 on (R150). -/
theorem State.TablesReady.slot_oneSymbol {s : State} (h : s.TablesReady) {σ : Nat}
    (hfreq : ∀ i, i < 256 → s.freqOf i = if i = σ then 2048 else 0) {slot : Nat} (hs : slot < 2048) :
    (entryAt s.sym slot 0).toNat = σ ∧ (entryAt s.frq slot 0).toNat = 2048 ∧ (entryAt s.cum slot 0).toNat = 0 := by
  obtain ⟨τ, hτ, hsym, hfrq, hcum, hge, hlt⟩ := h.tablesMatch.slot_cases h.sum hs
  have hle := State.start_add_freq_le h.sum hτ
  have hτσ : τ = σ := by
    by_contra hne
    rw [hfreq τ hτ, if_neg hne] at hlt
    omega
  rw [hfreq τ hτ, if_pos hτσ] at hfrq hle
  exact ⟨hsym.trans hτσ, hfrq, by omega⟩

theorem setLane_laneAt (xd : Vector Word 32) {j : Nat} (hj : j < 32) : setLane xd j (laneAt xd j) = xd := by
  refine Vector.ext fun i hi => ?_
  rw [setLane, Vector.getElem_setIfInBounds]
  split
  next h =>
    subst h
    rw [laneAt, entryAt_lt _ _ hj, BitVec.ofNat_toNat, BitVec.setWidth_eq]
  next => rfl

/-- `DEC_SYM` as its plan leaves it (R182). -/
theorem decSym_of_plan {s : State} {lane x' n : Nat} {r : Reader} (ht : s.status.tblValid = true)
    (h : decPlan lane (laneAt s.xd lane) s.rd s = .ok (s.decodedSymbol lane, x', r, n) s) :
    decSym lane s = .ok (s.decodedSymbol lane) (s.commitDecode lane x' r) :=
  (Cmd.require_bind ht _ _ s).trans (Cmd.bind_of_ok h _)

/-- Only `RESULT` and `RESULT1` change. -/
def ResultsOnly (s t : State) : Prop := ∃ r r1, t = (s.setResult r).setResult1 r1

theorem ResultsOnly.refl (s : State) : ResultsOnly s s := ⟨s.result, s.result1, rfl⟩

theorem ResultsOnly.trans {s t u : State} : ResultsOnly s t → ResultsOnly t u → ResultsOnly s u := by
  rintro ⟨_, _, rfl⟩ ⟨r, r1, rfl⟩
  exact ⟨r, r1, rfl⟩

theorem State.OneSymbol.of_results {s t : State} {σ N : Nat} (h : s.OneSymbol σ N) :
    ResultsOnly s t → t.OneSymbol σ N := by
  rintro ⟨_, _, rfl⟩
  exact ⟨h.tables, h.slot, h.lanes_le, h.lanes⟩

/-- A lane of one symbol stands for it and decodes to itself (R182). -/
theorem decSym_oneSymbol {s : State} {σ N lane : Nat} (h : s.OneSymbol σ N) (hlane : lane < N) :
    ∃ t, decSym lane s = .ok σ t ∧ ResultsOnly s t := by
  obtain ⟨hsym, hfrq, hcum⟩ := h.slot (laneAt s.xd lane % 2048) (Nat.mod_lt _ (by decide))
  have hbase : s.decodeBase lane = laneAt s.xd lane := by
    show (entryAt s.frq (laneAt s.xd lane % 2048) 0).toNat * (laneAt s.xd lane / 2048) + laneAt s.xd lane % 2048 -
      (entryAt s.cum (laneAt s.xd lane % 2048) 0).toNat = _
    rw [hfrq, hcum, Nat.sub_zero, Nat.div_add_mod]
  have hge : 2048 ≤ s.decodeBase lane := hbase ▸ h.lanes lane hlane
  have hfreq : s.slotFreq lane = 2048 := hfrq
  have hdec : s.Decodable lane := ⟨h.tables, hfreq ▸ Nat.succ_pos 2047, by omega⟩
  have hrun := decSym_of_plan h.tables (decPlan_noWord hdec s.rd hge)
  rw [show s.decodedSymbol lane = σ from hsym] at hrun
  refine ⟨_, hrun, BitVec.ofNat 32 (s.decodedSymbol lane), BitVec.ofNat 32 (s.decodeBase lane), ?_⟩
  rw [State.commitDecode, hbase, setLane_laneAt _ (hlane.trans_le h.lanes_le)]
  rfl

theorem decodeStep_oneSymbol {σ N : Nat} : ∀ {k lane : Nat} {s : State}, s.OneSymbol σ N → lane + k ≤ N →
    ∃ t, decodeStep lane k s = .ok (List.replicate k σ) t ∧ ResultsOnly s t
  | 0, _, s, _, _ => ⟨s, rfl, .refl s⟩
  | k + 1, lane, s, h, hk => by
    obtain ⟨t, hsym, ht⟩ := decSym_oneSymbol h (show lane < N by omega)
    obtain ⟨u, hsyms, hu⟩ := decodeStep_oneSymbol (h.of_results ht) (show lane + 1 + k ≤ N by omega)
    exact ⟨u, (Cmd.bind_of_ok hsym _).trans (Cmd.bind_of_ok hsyms _), ht.trans hu⟩

theorem decodeSteps_oneSymbol {σ N C : Nat} : ∀ {i : Nat} {out : List Nat} {s : State}, s.OneSymbol σ N →
    ∃ t, decodeSteps C N i out s = .ok (List.replicate (min (i * N) C) σ ++ out) t ∧ ResultsOnly s t
  | 0, out, s, _ => ⟨s, by simp [decodeSteps, Cmd.pure_run], .refl s⟩
  | i + 1, out, s, h => by
    obtain ⟨t, hstep, ht⟩ := decodeStep_oneSymbol h (k := stepLanes C N i) (lane := 0)
      ((Nat.zero_add _).trans_le (Nat.min_le_left _ _))
    obtain ⟨u, hrest, hu⟩ := decodeSteps_oneSymbol (C := C) (i := i)
      (out := List.replicate (stepLanes C N i) σ ++ out) (h.of_results ht)
    refine ⟨u, (Cmd.bind_of_ok hstep _).trans (hrest.trans ?_), ht.trans hu⟩
    rw [stepLanes_sum, List.replicate_add, List.append_assoc]

/-! ## The payload -/

section
variable {s : State} {N P size σ : Nat} (h : s.PayloadAt N P size σ) (hzero : ∀ i, i ≠ σ → nth (s.tableAt P) i = 0)

include h hzero

/-- The frequencies of a loaded payload of one symbol (R132, R206). -/
theorem State.payloadLoaded_freqOf (xd : Vector Word 32) (i : Nat) :
    (s.payloadLoaded N P size xd).freqOf i = if i = σ then 2048 else 0 := by
  have hraw := s.tableLoaded_rawList P
  rw [State.freqOf, State.payloadLoaded_freq]
  exact State.tablesBuilt_freqOf_oneSymbol h.alphabet (hraw ▸ h.highest.1) (hraw ▸ hzero) (s.tableLoaded_rawValid P) i

theorem State.payloadLoaded_fallback (xd : Vector Word 32) :
    (s.payloadLoaded N P size xd).status.fallback = false := by
  have hraw := s.tableLoaded_rawList P
  rw [State.payloadLoaded_status]
  exact State.tablesBuilt_fallback_oneSymbol h.alphabet (hraw ▸ h.highest.1) (hraw ▸ hzero)

theorem State.payloadLoaded_oneSymbol {xd : Vector Word 32} (hlanes : ∀ j, j < N → 2048 ≤ laneAt xd j) :
    (s.payloadLoaded N P size xd).OneSymbol σ N where
  tables := h.ready.tables
  slot _ hs := h.ready.slot_oneSymbol (fun i _ => State.payloadLoaded_freqOf h hzero xd i) hs
  lanes_le := h.lanes_le
  lanes := by simpa using hlanes

/-- The decode of a payload of one symbol reads it and goes to the end checks (R206). -/
theorem decodePayload_oneSymbol (hN : 1 ≤ N) (C : Nat) :
    ∃ xd t, (∀ j, j < 32 → laneAt xd j = if j < N then s.mem.readLE (P + 2048 + 4 * j) 4 else laneAt s.xd j) ∧
      ResultsOnly (s.payloadLoaded N P size xd) t ∧
      decodePayload N P size C s = endChecks N (List.replicate C σ) t := by
  obtain ⟨xd, hlanes, hrun⟩ := decodePayload_run h C
  have hge (j : Nat) (hj : j < N) : 2048 ≤ laneAt xd j := by
    rw [hlanes j (hj.trans_le h.lanes_le), if_pos hj]
    exact (h.legal j hj).1
  obtain ⟨t, hsteps, ht⟩ := decodeSteps_oneSymbol (C := C) (i := stepCount C N) (out := [])
    (State.payloadLoaded_oneSymbol h hzero hge)
  rw [stepCount_covers hN, List.append_nil] at hsteps
  exact ⟨xd, t, hlanes, ht, hrun.trans (Cmd.bind_of_ok hsteps _)⟩

end

/-! ## The command -/

/-- Two states are equal when all their elements are. -/
theorem State.eq_of_same {s t : State} (h : ∀ e : Elem, e.Same s t) : t = s := by
  obtain ⟨_, _, _, _, ⟨⟩, _⟩ := s
  obtain ⟨_, _, _, _, ⟨⟩, _⟩ := t
  simp only [State.mk.injEq, Status.mk.injEq]
  exact ⟨h .platform, h .mem, h .ctrl, h .cfgN,
    ⟨h .busy, h .done, h .err, h .wbusy, h .rawValid, h .histValid, h .tblValid, h .hdrValid, h .fallback⟩,
    h .errcode, h .errinfo, h .cmd, h .result, h .result1, h .arg0, h .arg1, h .arg2, h .arg3, h .rd, h .wr, h .hdr, h .xe,
    h .xd, h .rawf, h .freq, h .sym, h .frq, h .cum, h .cums, h .host, h .turns, h .draws⟩

/-- What a completed command with the elements of a payload's decode leaves, element by element (R206). -/
theorem SameBut.complete_eq_of_decode {s t : State} (h : SameBut decPayloadElems s t) :
    t.complete = { s with
      mem := t.mem
      rawf := t.rawf
      freq := t.freq
      sym := t.sym
      frq := t.frq
      cum := t.cum
      cums := t.cums
      xd := t.xd
      rd := t.rd
      result := t.result
      result1 := t.result1
      status := { s.status.finished with
        rawValid := t.status.rawValid, histValid := t.status.histValid, tblValid := t.status.tblValid
        fallback := t.status.fallback } } := by
  refine State.eq_of_same fun e => ?_
  have he := h e
  cases e <;> simp_all [State.complete, Status.completed]


/-- An error raised with `ERR` clear is recorded (R230, R231). -/
theorem State.raise_complete_recorded {s t : State} {op : BitVec 8} {e : Raised} (herr : t.status.err = false)
    (hsub : e.sub < 256) (hlane : e.lane < 32) (hinfo : e.info < 2 ^ 32) (hs : (t.raise op e).complete = s) :
    s.mem = t.mem ∧ s.status.err = true ∧ s.errinfo.toNat = e.info ∧
      s.errcode.toNat = e.code.value + e.sub * 2 ^ 8 + e.lane * 2 ^ 16 + op.toNat * 2 ^ 24 := by
  subst hs
  have hcode : (t.raise op e).complete.errcode = e.word op := by
    rw [State.complete, State.setStatus_errcode, State.raise_errcode, herr]
    rfl
  have hi : (t.raise op e).complete.errinfo = BitVec.ofNat 32 e.info := by
    rw [State.complete, State.setStatus_errinfo, State.raise_errinfo, herr]
    rfl
  refine ⟨by simp [State.complete], by simp [State.complete, Status.completed, Status.withErr], ?_, ?_⟩
  · rw [hi, BitVec.toNat_ofNat, Nat.mod_eq_of_lt hinfo]
  · rw [hcode, Raised.word_toNat e op hsub hlane]

section
variable {s : State} {p : Payload} {P D : Nat} (hc : s.PlaneChecked p P D)
include hc

/-- An error of the decode is the command's (R206). -/
theorem exec_frmDecPayload_raised {t : State} {e : Raised} {x : Option Access}
    (hrun : decodePayload s.lanes P (s.hdr.size p).toNat (s.hdr.planeBytes p) s = .error (.raised e x) t) :
    exec (.frmDecPayload p) s = .next (t.raise 0x52 e).complete :=
  exec_of_raised ((ruleOf_frmDecPayload hc).trans (Cmd.bind_of_error hrun _))

/-- Past the end checks the command stores the plane and completes (R206). -/
theorem exec_frmDecPayload_ok {t : State} {out : List Nat} (hopen : t.Open D out.length)
    (hlen : out.length = s.hdr.planeBytes p)
    (hrun : decodePayload s.lanes P (s.hdr.size p).toNat (s.hdr.planeBytes p) s = .ok out t) :
    exec (.frmDecPayload p) s =
      .next ((t.setMem (storeEntries 1 t.mem D out)).setResult (BitVec.ofNat 32 out.length)).complete ∧
    SameBut decPayloadElems s ((t.setMem (storeEntries 1 t.mem D out)).setResult (BitVec.ofNat 32 out.length)) ∧
    Stored (InRegion D out.length) s.mem (storeEntries 1 t.mem D out) := by
  have hrule := ruleOf_frmDecPayload hc
  rw [Cmd.bind_of_ok hrun, ← hlen, storePlane_ok hopen] at hrule
  obtain ⟨⟨hsame, hstored⟩, -⟩ := (frmDecPayload_keeps p s.arg0.toNat s.arg1.toNat s).1 _ _ hrule
  rw [← hlen, ← hc.plane] at hstored
  exact ⟨exec_of_ok hrule, hsame, hstored⟩

end

section
variable {s : State} {N P size σ : Nat} (h : s.PayloadAt N P size σ) (hzero : ∀ i, i ≠ σ → nth (s.tableAt P) i = 0)
  (hN : 1 ≤ N)
include h hzero hN

/-- The lane states that were stored, checked first (R206). -/
theorem decodePayload_oneSymbol_lane {j : Nat} (hj : j < N) (hne : s.mem.readLE (P + 2048 + 4 * j) 4 ≠ 2048)
    (hbefore : ∀ k, k < j → s.mem.readLE (P + 2048 + 4 * k) 4 = 2048) (C : Nat) :
    ∃ t, decodePayload N P size C s =
        .error (.raised ⟨.malformedStream, 3, s.mem.readLE (P + 2048 + 4 * j) 4, j⟩ none) t ∧
      t.mem = s.mem ∧ t.status.err = s.status.err := by
  obtain ⟨xd, _, hlanes, ⟨r, r1, rfl⟩, hrun⟩ := decodePayload_oneSymbol h hzero hN C
  have hlane (k : Nat) (hk : k < N) : laneAt xd k = s.mem.readLE (P + 2048 + 4 * k) 4 := by
    rw [hlanes k (hk.trans_le h.lanes_le), if_pos hk]
  rw [← hlane j hj] at hne ⊢
  have hcheck := endChecks_lane (s := ((s.payloadLoaded N P size xd).setResult r).setResult1 r1) (List.replicate C σ) hj
    (by simpa using hne) fun k hk => by simpa using (hlane k (hk.trans hj)).trans (hbefore k hk)
  exact ⟨_, hrun.trans (by simpa using hcheck), by simp, by simp⟩

variable (hback : ∀ j, j < N → s.mem.readLE (P + 2048 + 4 * j) 4 = 2048)
include hback

/-- The stream that was not read, checked after the lanes (R206). -/
theorem decodePayload_oneSymbol_leftover (hfits : P + 2048 + size < 2 ^ 32) (hrest : 4 * N < size) (C : Nat) :
    ∃ t, decodePayload N P size C s = .error (.raised ⟨.malformedStream, 4, P + 2048 + size, 0⟩ none) t ∧
      t.mem = s.mem ∧ t.status.err = s.status.err := by
  obtain ⟨xd, _, hlanes, ⟨r, r1, rfl⟩, hrun⟩ := decodePayload_oneSymbol h hzero hN C
  have hbase : (BitVec.ofNat 32 (P + 2048 + 4 * N)).toNat = P + 2048 + 4 * N := toNat_ofNat_of_lt (by omega)
  have hptr : (BitVec.ofNat 32 (P + 2048 + size)).toNat = P + 2048 + size := toNat_ofNat_of_lt hfits
  have hne : BitVec.ofNat 32 (P + 2048 + size) ≠ BitVec.ofNat 32 (P + 2048 + 4 * N) := fun he => by
    have := congrArg BitVec.toNat he
    omega
  have hcheck := endChecks_leftover (s := ((s.payloadLoaded N P size xd).setResult r).setResult1 r1) (N := N)
    (List.replicate C σ) (fun j hj => by simpa [hlanes j (hj.trans_le h.lanes_le), hj] using hback j hj)
    (by simp [Reader.fresh, hne])
  rw [State.setResult1_rd, State.setResult_rd, State.payloadLoaded_rd,
    show (Reader.fresh (P + 2048 + 4 * N) (P + 2048 + size) false).ptr.toNat = P + 2048 + size from hptr] at hcheck
  exact ⟨_, hrun.trans hcheck, by simp, by simp⟩

/-- The decode of a payload of one symbol with its lanes at `M` and no stream (R206). -/
theorem decodePayload_oneSymbol_ok (hsize : size = 4 * N) (C : Nat) :
    ∃ xd t, (∀ j, j < 32 → laneAt xd j = if j < N then 2048 else laneAt s.xd j) ∧
      ResultsOnly (s.payloadLoaded N P size xd) t ∧ decodePayload N P size C s = .ok (List.replicate C σ) t := by
  obtain ⟨xd, t, hlanes, ⟨r, r1, rfl⟩, hrun⟩ := decodePayload_oneSymbol h hzero hN C
  have hcheck := endChecks_ok (s := ((s.payloadLoaded N P size xd).setResult r).setResult1 r1) (N := N)
    (List.replicate C σ) (fun j hj => by simpa [hlanes j (hj.trans_le h.lanes_le), hj] using hback j hj)
    (by simp [Reader.fresh, hsize])
  refine ⟨xd, _, fun j hj => (hlanes j hj).trans ?_, ⟨r, r1, rfl⟩, hrun.trans hcheck⟩
  split
  next hjN => exact hback j hjN
  next => rfl

end

/-- Settles O53: a table of one symbol gives it every slot, so each lane decodes to itself, and the end checks compare the lane
states and the stream as they were stored. -/
theorem frmDecPayloadOfOneSymbol : Obligations.FrmDecPayloadOfOneSymbol := by
  intro s p σ count P size C D N hwf hvalid herr hN hN32 hfits hD hapart hopen hopenD hlanes heven hσ hcount htable x hx
  have hnth (i : Nat) : nth (s.tableAt P) i = if i = σ then count else 0 := by
    rcases Nat.lt_or_ge i 512 with hi | hi
    · rw [State.nth_tableAt s P hi, htable i hi]
    · rw [State.nth_tableAt_ge s P hi, if_neg (by omega)]
  have hzero (i : Nat) (hi : i ≠ σ) : nth (s.tableAt P) i = 0 := (hnth i).trans (if_neg hi)
  have hhigh : IsHighest (s.tableAt P) σ := ⟨by rwa [hnth, if_pos rfl], fun i hi => hzero i hi.ne'⟩
  have h : s.PayloadAt N P size σ := ⟨hfits.le, hopen, hhigh, hσ, hN32, hlanes, heven, hx⟩
  have hc : s.PlaneChecked p P D := ⟨hvalid, rfl, hfits.le, rfl, hD, hapart⟩
  refine ⟨fun hback hsize => ?completes, fun j hj hne hbefore => ?lane, fun hback hrest => ?leftover⟩
  case completes =>
    obtain ⟨xd, t, hxd, ⟨r, r1, rfl⟩, hrun⟩ := decodePayload_oneSymbol_ok h hzero hN hback hsize C
    have hlen : (List.replicate C σ).length = C := List.length_replicate
    obtain ⟨hexec, hsame, hstored⟩ := exec_frmDecPayload_ok hc (by
      rw [hlen]; intro size k a ha ha'; simpa using hopenD size k a ha ha') hlen hrun
    refine ⟨_, hexec, ?_, ?_, ?_, ?_, ?_⟩
    · have hready : (s.payloadLoaded N P (4 * N) xd).TablesReady := hsize ▸ h.ready
      have hfallback : (s.payloadLoaded N P (4 * N) xd).status.fallback = false :=
        hsize ▸ State.payloadLoaded_fallback h hzero xd
      rw [hsame.complete_eq_of_decode]
      simp [hready.hist, hready.tables, hfallback, Reader.fresh, hsize]
    · intro i _
      simpa [State.freqOf, State.complete] using State.payloadLoaded_freqOf h hzero xd i
    · intro j hj
      simpa [State.complete] using hxd j hj
    · intro k hk
      have hbyte := storeEntries_byte (m := s.mem) (a := D) (i := k) (l := List.replicate C σ) hwf (by rwa [hlen])
        (by rwa [hlen]) (by rwa [List.getElem_replicate])
      simpa [State.complete] using hbyte
    · intro a ha
      have hout : ¬InRegion D (List.replicate C σ).length a := by rw [hlen]; omega
      simpa [State.complete] using hstored.outside hwf a hout
  case lane =>
    obtain ⟨t, hrun, hmem, ht⟩ := decodePayload_oneSymbol_lane h hzero hN hj hne hbefore C
    obtain ⟨h1, h2, h3, h4⟩ := State.raise_complete_recorded (op := 0x52) (e := ⟨.malformedStream, 3, x j, j⟩)
      (ht.trans herr) (by simp) (hj.trans_le hN32)
      (Memory.readLE_lt s.mem 4 _) rfl
    exact ⟨_, exec_frmDecPayload_raised hc hrun, h1.trans hmem, h2, h3, h4⟩
  case leftover =>
    obtain ⟨t, hrun, hmem, ht⟩ := decodePayload_oneSymbol_leftover h hzero hN hback hfits hrest C
    obtain ⟨h1, h2, h3, h4⟩ := State.raise_complete_recorded (op := 0x52)
      (e := ⟨.malformedStream, 4, P + 2048 + size, 0⟩) (ht.trans herr) (by simp) (by simp) hfits rfl
    exact ⟨_, exec_frmDecPayload_raised hc hrun, h1.trans hmem, h2, h3, h4.trans (by simp [ErrCode.value])⟩

end Sys2Proof.Machine
end

section
/-!
SUPPORT. One symbol of a payload's encode and its decode (44_encoder.md R162; 45_decoder.md R184; 46_framer.md R207, R209): the
state that `ENC_SYM` leaves, and how a decoder that mirrors that state goes back.
-/
namespace Sys2Proof.Machine

/-! ## `ENC_SYM` with good tables -/

/-- The words that an encode of `σ` on the lane emits (R162). -/
def State.symWords (t : State) (lane σ : Nat) : List Nat :=
  if 65536 * t.freqOf σ ≤ laneAt t.xe lane then [laneAt t.xe lane % 65536] else []

/-- The lane state after an encode of `σ` (R162). -/
def State.symState (t : State) (lane σ : Nat) : Nat := encodedState (t.freqOf σ) (t.startOf σ) (laneAt t.xe lane)

/-- The state after an encode of `σ` on the lane (R162). -/
def State.afterSym (t : State) (lane σ : Nat) : State :=
  commitSym lane (t.symState lane σ) (t.symWords lane σ).length (t.wr.afterWords (t.symWords lane σ))
    (t.withWords t.wr (t.symWords lane σ) (t.symWords lane σ).length)

theorem State.symWords_length_le (t : State) (lane σ : Nat) : (t.symWords lane σ).length ≤ 1 := by
  rw [State.symWords]
  split
  next => exact le_rfl
  next => exact Nat.zero_le 1

theorem State.symWords_lt (t : State) (lane σ : Nat) : ∀ wd ∈ t.symWords lane σ, wd < 65536 := by
  intro wd hwd
  rw [State.symWords] at hwd
  split at hwd
  next => exact List.mem_singleton.mp hwd ▸ Nat.mod_lt _ (by decide)
  next => exact absurd hwd List.not_mem_nil

section
variable {t : State} (h : t.TablesReady) {lane σ : Nat} (hF : 0 < t.freqOf σ) (hx : LaneLegal (laneAt t.xe lane))
include h hF hx

theorem State.TablesReady.symState_legal : LaneLegal (t.symState lane σ) :=
  encodedState_legal hF (State.start_add_freq_le h.sum (State.symbol_lt hF)) hx

/-- With good tables a legal lane's encode of a symbol with a frequency passes the checks of its plan (R162, R165). -/
theorem State.TablesReady.encPlan : encPlan lane σ (laneAt t.xe lane) t =
    .ok (t.symState lane σ, t.symWords lane σ) t := by
  have hlt : laneAt t.xe lane < 2 ^ 32 := hx.2.trans (by decide)
  have hnext : encNext (t.freqOf σ) (t.startOf σ) (encRenorm 2 (t.freqOf σ) (laneAt t.xe lane)).1 = t.symState lane σ :=
    encNext_eq hF hlt
  have hwords : encRenorm 2 (t.freqOf σ) (laneAt t.xe lane) =
      ((encRenorm 2 (t.freqOf σ) (laneAt t.xe lane)).1, t.symWords lane σ) := by
    refine Prod.ext rfl ?_
    rw [encRenorm_eq hF hlt, State.symWords]
    split <;> rfl
  have hle : t.symState lane σ ≤ 2 * Config.B * Config.M := (h.symState_legal hF hx).2.le.trans (by decide)
  have hfreq : nth (t.freq.toList.map BitVec.toNat) σ = t.freqOf σ := State.nth_freqList t σ
  have hstart := h.tablesMatch.start (State.symbol_lt hF)
  generalize (encRenorm 2 (t.freqOf σ) (laneAt t.xe lane)).1 = y at hnext hwords
  rw [Machine.encPlan, Cmd.bind_of_ok (readFreq_ok h.hist), hfreq, Cmd.require_bind hF, hwords]
  dsimp only
  rw [Cmd.bind_of_ok (readStart_ok h.tables σ), hstart, hnext, Cmd.require_bind hle]
  rfl

/-- `ENC_SYM` stores the word and commits, or has no room or is refused (R162). -/
theorem State.TablesReady.encSym_ends (hw : t.wr.Buffered) {E : Stop → State → Prop}
    (hfull : t.wr.lim.toNat < t.wr.ptr.toNat + 2 * (t.symWords lane σ).length → ∀ e u, E e u)
    (hrefused : ¬t.CanWrite .b2 t.wr.ptr.toNat (t.symWords lane σ).length → ∀ e u, E e u) :
    Cmd.Ends (encSym lane σ) t
      (fun _ u => u = t.afterSym lane σ ∧ t.wr.ptr.toNat + 2 * (t.symWords lane σ).length ≤ t.wr.lim.toNat) E := by
  have hrun : encSym lane σ t =
      commitWords lane t.wr (t.symWords lane σ) (commitSym lane (t.symState lane σ) (t.symWords lane σ).length) t :=
    (Cmd.require_bind h.tables _ _ t).trans ((Cmd.require_bind (State.symbol_lt hF) _ _ t).trans
      (Cmd.bind_of_ok (h.encPlan hF hx) _))
  rcases Nat.lt_or_ge t.wr.lim.toNat (t.wr.ptr.toNat + 2 * (t.symWords lane σ).length) with hlt | hfit
  · exact .of_error (hrun.trans (commitWords_full _ hlt)) (hfull hlt _ _)
  · have hanswers := t.platform.answers_or_refusesFirst .write .b2 t.wr.ptr.toNat (t.symWords lane σ).length
    rcases hanswers with hall | ⟨k, c, hk, hc⟩
    · exact .of_ok (hrun.trans (commitWords_ok _ hfit hw (t.symWords_lt lane σ) hall)) ⟨rfl, hfit⟩
    · have hstop := storeWords_refused (lane := lane) hk hw (t.symWords_lt lane σ) hfit hc
      exact .of_error (hrun.trans (commitWords_of_raised _ hfit hstop))
        (hrefused (fun hall => nomatch (hall k hk).symm.trans hc.refused) _ _)

end

/-! ## The state after -/

theorem State.afterSym_same (t : State) (lane σ : Nat) :
    SameBut (.result1 :: encodeElems) t (t.afterSym lane σ) := fun e => by
  cases e <;> simp [State.afterSym, commitSym, State.withWords]

section
variable {t : State} {lane σ : Nat}

theorem State.afterSym_xe : (t.afterSym lane σ).xe = setLane t.xe lane (t.symState lane σ) := by
  simp [State.afterSym, commitSym, State.withWords]

theorem State.afterSym_wr : (t.afterSym lane σ).wr = t.wr.afterWords (t.symWords lane σ) := by
  simp [State.afterSym, commitSym]

theorem State.afterSym_cnt : (t.afterSym lane σ).wr.cnt = t.wr.cnt := by rw [State.afterSym_wr, Writer.afterWords]

theorem State.afterSym_lim : (t.afterSym lane σ).wr.lim = t.wr.lim := by rw [State.afterSym_wr, Writer.afterWords]

theorem State.afterSym_mem : (t.afterSym lane σ).mem =
    (t.withWords t.wr (t.symWords lane σ) (t.symWords lane σ).length).mem := by
  simp [State.afterSym, commitSym]

theorem State.afterSym_buf (hcnt : t.wr.cnt = 0) (hbuf : t.wr.buf = 0) : (t.afterSym lane σ).wr.buf = 0 := by
  have hdigits := Nat.ofDigits_lt_base_pow_length (b := 65536) (l := t.symWords lane σ) (by decide) (t.symWords_lt lane σ)
  rw [State.afterSym_wr, Writer.afterWords, Writer.withWords, hcnt, hbuf]
  simp [Nat.div_eq_of_lt hdigits]

section
variable (hfit : t.wr.ptr.toNat + 2 * (t.symWords lane σ).length ≤ t.wr.lim.toNat)
include hfit

theorem State.afterSym_ptr : (t.afterSym lane σ).wr.ptr.toNat = t.wr.ptr.toNat + 2 * (t.symWords lane σ).length := by
  rw [State.afterSym_wr]
  exact toNat_ofNat_of_lt (hfit.trans_lt t.wr.lim.isLt)

theorem State.afterSym_stored :
    Stored (InRegion t.wr.ptr.toNat (2 * (t.symWords lane σ).length)) t.mem (t.afterSym lane σ).mem := by
  rw [State.afterSym_mem]
  exact .writeLE t.mem (hfit.trans t.wr.lim.isLt.le)

/-- The word that was emitted stands where the writer's pointer was (R114). -/
theorem State.afterSym_word (hm : t.mem.wf = true) (hcnt : t.wr.cnt = 0) (hbuf : t.wr.buf = 0) {k : Nat}
    (hk : k < (t.symWords lane σ).length) :
    (t.afterSym lane σ).mem.readLE (t.wr.ptr.toNat + 2 * k) 2 = (t.symWords lane σ)[k] := by
  have hread := State.withWords_readLE (ws := t.symWords lane σ) hm hfit
  have hlt := t.symWords_lt lane σ
  rw [← State.afterSym_mem, Writer.withWords, hcnt, hbuf] at hread
  have hone : (t.symWords lane σ).length = 1 := by
    have := t.symWords_length_le lane σ
    omega
  obtain ⟨wd, hwd⟩ := List.length_eq_one_iff.mp hone
  have hk0 : k = 0 := by omega
  subst hk0
  simp only [hwd, List.mem_singleton, forall_eq] at hlt hread ⊢
  simpa [Nat.mod_eq_of_lt hlt] using hread

end

/-! ## The decoder that mirrors the encoder -/

/-- The decoder of `u` mirrors the encoder of `t`, of which `N` lanes are used and whose stream begins at `stream`: the slots
of the tables and the lanes are the same, and the reader stands backward at the writer's pointer, with the bytes of the stream
that were written so far below it (R167, R209). -/
structure Mirrors (N stream : Nat) (u t : State) : Prop where
  tables : u.status.tblValid = true
  sym : u.sym = t.sym
  frq : u.frq = t.frq
  cum : u.cum = t.cum
  lanes : ∀ j, j < N → laneAt u.xd j = laneAt t.xe j
  backward : u.rd.dir = false
  cnt : u.rd.cnt = 0
  buf : u.rd.buf = 0
  ptr : u.rd.ptr.toNat = t.wr.ptr.toNat
  base : u.rd.base.toNat = stream
  bytes : ∀ a, stream ≤ a → a < t.wr.ptr.toNat → u.mem.read a = t.mem.read a
  answered : ∀ a, stream ≤ a → a + 2 ≤ t.wr.ptr.toNat → u.platform.accessError a .b2 .read = none

/-- With other lanes in place of its own, a state with good tables is safe (R37, R43). -/
theorem State.TablesReady.codecSafe (h : t.TablesReady) : CodecSafe ((t.setXe resetLanes).setXd resetLanes) :=
  ⟨fun j hj => ⟨lanesLegal_reset j hj, lanesLegal_reset j hj⟩, fun _ => h.sum, fun _ => ⟨h.hist, h.tablesMatch⟩⟩

theorem State.commitDecode_same (u : State) (lane x : Nat) (r : Reader) :
    SameBut (.result1 :: decodeElems) u (u.commitDecode lane x r) := fun e => by
  cases e <;> simp [State.commitDecode]

/-- A state at which an encode of `σ` on the lane ends well (R162). -/
structure State.Codes (t : State) (lane σ : Nat) : Prop where
  ready : t.TablesReady
  freq_pos : 0 < t.freqOf σ
  lane_legal : LaneLegal (laneAt t.xe lane)
  mem : t.mem.wf = true
  cnt : t.wr.cnt = 0
  buf : t.wr.buf = 0
  fits : t.wr.ptr.toNat + 2 * (t.symWords lane σ).length ≤ t.wr.lim.toNat

section
variable {u : State} {N stream : Nat} (h : t.Codes lane σ) (hstream : stream ≤ t.wr.ptr.toNat) (hlane : lane < N)
  (hN : N ≤ 32) (hm : Mirrors N stream u (t.afterSym lane σ))
include h

include hm hlane hN in
/-- The mirror's lane undoes the encode (R184). -/
theorem Mirrors.undoes : Undoes t u lane σ (laneAt t.xe lane) := by
  have same := (t.afterSym_same lane σ).get
  have hstate : laneAt u.xd lane = t.symState lane σ := by
    rw [hm.lanes lane hlane, State.afterSym_xe, laneAt_setLane _ _ _ _ (by omega), if_pos rfl]
    exact Nat.mod_eq_of_lt ((h.ready.symState_legal h.freq_pos h.lane_legal).2.trans (by decide))
  obtain ⟨hsym, hbase, hfreq⟩ := undoes_of_encoded (u := u) (lane := lane) (σ := σ) h.ready.codecSafe
    h.ready.tables h.freq_pos (hm.sym.trans (same .sym (by decide))) (hm.frq.trans (same .frq (by decide)))
    (hm.cum.trans (same .cum (by decide))) hstate
  exact ⟨hsym, hbase, hfreq⟩

include hm hstream in
/-- The mirror's reader reads the word back (R167). -/
theorem Mirrors.readsBack : u.ReadsBack t.wr.ptr.toNat (t.symWords lane σ) where
  backward := hm.backward
  cnt := hm.cnt
  buf := hm.buf
  ptr := hm.ptr.trans (State.afterSym_ptr h.fits)
  base := hm.base.trans_le hstream
  word k hk := by
    have hptr := State.afterSym_ptr h.fits
    rw [← State.afterSym_word h.fits h.mem h.cnt h.buf hk]
    exact Memory.readLE_congr 2 _ fun i hi => hm.bytes _ (by omega) (by omega)
  answered k hk := by
    have hptr := State.afterSym_ptr h.fits
    exact hm.answered _ (by omega) (by simp only [Size.bytes]; omega)

include hm hlane hN hstream in
/-- A decode of the mirror's lane gives the symbol and the lane state of before, and puts the reader where the writer was
(R184, R187). -/
theorem Mirrors.decPlan : ∃ n, decPlan lane (laneAt u.xd lane) u.rd u =
    .ok (u.decodedSymbol lane, laneAt t.xe lane, u.readerAfter (t.symWords lane σ).length, n) u := by
  have hundo := hm.undoes h hlane hN
  have hback := hm.readsBack h hstream
  have hdec := hundo.decodable h.freq_pos h.lane_legal hm.tables
  have hiff := hundo.base_lt_iff h.freq_pos h.lane_legal
  have hzero := State.readerAfter_zero hback.buffered
  by_cases hword : 65536 * t.freqOf σ ≤ laneAt t.xe lane
  · have hws : t.symWords lane σ = [laneAt t.xe lane % 65536] := if_pos hword
    have hsup := hback.supplies
    have hchunk : u.chunk 0 = laneAt t.xe lane % 65536 := hback.chunk (pre := []) (post := []) hws
    rw [hws] at hsup ⊢
    have hread := readBits_readerAfter hback.buffered lane (w := 0) hsup
    have hplan := decPlan_word hdec (hiff.mpr hword) (hzero ▸ hread) (u.chunk_lt 0)
    rw [hundo.base, shiftedState_word hword, hchunk, Nat.mul_comm, Nat.div_add_mod] at hplan
    exact ⟨1, hplan⟩
  · have hws : t.symWords lane σ = [] := if_neg hword
    have hplan := decPlan_noWord hdec u.rd (Nat.not_lt.mp (mt hiff.mp hword))
    rw [hundo.base, shiftedState_noWord hword] at hplan
    rw [hws]
    exact ⟨0, hzero.symm ▸ hplan⟩

include hm hlane hN hstream in
/-- One symbol back: `DEC_SYM` of the mirror gives the symbol and mirrors the encoder before it (R184, R209). -/
theorem Mirrors.decSym : ∃ v, decSym lane u = .ok σ v ∧ Mirrors N stream v t := by
  obtain ⟨n, hplan⟩ := hm.decPlan h hstream hlane hN
  have hback := hm.readsBack h hstream
  have hrun := decSym_of_plan hm.tables hplan
  rw [(hm.undoes h hlane hN).symbol] at hrun
  have same := (t.afterSym_same lane σ).get
  have hptr := State.afterSym_ptr h.fits
  have hrd : (u.commitDecode lane (laneAt t.xe lane) (u.readerAfter (t.symWords lane σ).length)).rd =
      u.readerAfter (t.symWords lane σ).length := by simp [State.commitDecode]
  have hxd : (u.commitDecode lane (laneAt t.xe lane) (u.readerAfter (t.symWords lane σ).length)).xd =
      setLane u.xd lane (laneAt t.xe lane) := by simp [State.commitDecode]
  have hother := u.commitDecode_same lane (laneAt t.xe lane) (u.readerAfter (t.symWords lane σ).length)
  generalize u.commitDecode lane (laneAt t.xe lane) (u.readerAfter (t.symWords lane σ).length) = v at *
  have hmem : v.mem = u.mem := hother.get .mem (by decide)
  have hplat : v.platform = u.platform := hother.get .platform (by decide)
  refine ⟨v, hrun, ⟨Eq.trans (hother.get .tblValid (by decide)) hm.tables, ?sym, ?frq, ?cum, fun j hj => ?lanes, ?dir, ?cnt,
    ?buf, ?ptr, ?base, fun a ha ha' => ?bytes, fun a ha ha' => hplat ▸ hm.answered a ha (by omega)⟩⟩
  case sym => exact Eq.trans (hother.get .sym (by decide)) (hm.sym.trans (same .sym (by decide)))
  case frq => exact Eq.trans (hother.get .frq (by decide)) (hm.frq.trans (same .frq (by decide)))
  case cum => exact Eq.trans (hother.get .cum (by decide)) (hm.cum.trans (same .cum (by decide)))
  case dir => rw [hrd, State.readerAfter_dir, hm.backward]
  case cnt => rw [hrd, State.readerAfter_cnt, hm.cnt]
  case ptr => rw [hrd, hback.readerAfter_ptr]
  case base => rw [hrd, State.readerAfter_base, hm.base]
  case lanes =>
    have hlt : laneAt t.xe lane < 2 ^ 32 := h.lane_legal.2.trans (by decide)
    rw [hxd, laneAt_setLane u.xd lane _ j (hj.trans_le hN)]
    split
    next heq => rw [heq, Nat.mod_eq_of_lt hlt]
    next hne => rw [hm.lanes j hj, State.afterSym_xe, laneAt_setLane _ _ _ _ (hj.trans_le hN), if_neg hne]
  case buf =>
    refine BitVec.eq_of_toNat_eq ?_
    rw [hrd, State.readerAfter_buf hback.buffered, hm.cnt]
    exact Nat.mod_one _
  case bytes =>
    rw [hmem]
    exact (hm.bytes a ha (by omega)).trans ((State.afterSym_stored h.fits).outside h.mem a (by omega))

end

end

end Sys2Proof.Machine
end

section
/-!
SUPPORT. The symbols of a payload (46_framer.md R207 to R209): the loop that encodes them, and the loop that decodes them from
the state it leaves.
-/
namespace Sys2Proof.Machine

/-! ## The steps of an encode -/

/-- An encode of the `C` bytes `byte 0`, `byte 1`, … at `src` with `N` lanes into a stream from `stream` up to `lim` (R207).
When it is roomy, nothing in it can fail. -/
structure EncodeJob where
  src : Nat
  C : Nat
  N : Nat
  stream : Nat
  lim : Nat
  byte : Nat → Nat
  roomy : Prop

/-- The source lies outside of the stream, and a roomy stream has room for a word for each symbol. -/
structure EncodeJob.Good (J : EncodeJob) : Prop where
  lanes_le : J.N ≤ 32
  apart : ∀ k, k < J.C → J.src + k < J.stream ∨ J.lim ≤ J.src + k
  room : J.roomy → J.stream + 2 * J.C ≤ J.lim

/-- `t` is a state of the job with at least `left` symbols to come. -/
structure EncodeJob.At (J : EncodeJob) (left : Nat) (t : State) : Prop where
  ready : t.TablesReady
  lanes : LanesLegal t.xe
  mem : t.mem.wf = true
  cnt : t.wr.cnt = 0
  buf : t.wr.buf = 0
  lim : t.wr.lim.toNat = J.lim
  stream_le : J.stream ≤ t.wr.ptr.toNat
  even : (t.wr.ptr.toNat - J.stream) % 2 = 0
  ptr_le : t.wr.ptr.toNat + 2 * left ≤ J.stream + 2 * J.C
  bytes : ∀ k, k < J.C → (t.mem.read (J.src + k)).toNat = J.byte k
  freq_pos : ∀ k, k < J.C → 0 < t.freqOf (J.byte k)
  reads : J.roomy → ∀ k, k < J.C → t.platform.accessError (J.src + k) .b1 .read = none
  writes : J.roomy → ∀ a, J.stream ≤ a → a + 2 ≤ J.lim → t.platform.accessError a .b2 .write = none

/-- What the job changes from `t` to `u`: lanes below `C`, and the stream below the writer's pointer (R207). -/
structure EncodeJob.Moves (J : EncodeJob) (t u : State) : Prop where
  same : SameBut (.result1 :: encodeElems) t u
  rises : t.wr.ptr.toNat ≤ u.wr.ptr.toNat
  stored : Stored (fun a => J.stream ≤ a ∧ a < u.wr.ptr.toNat) t.mem u.mem
  unused : ∀ j, J.C ≤ j → j < 32 → laneAt u.xe j = laneAt t.xe j

theorem EncodeJob.Moves.refl (J : EncodeJob) (t : State) : J.Moves t t :=
  ⟨fun e => .inr (e.same_refl t), le_rfl, .refl _ _, fun _ _ _ => rfl⟩

theorem EncodeJob.Moves.trans {J : EncodeJob} {t u v : State} (h : J.Moves t u) (h' : J.Moves u v) : J.Moves t v where
  same e := (h.same.trans h'.same e).imp_left fun he => (List.mem_append.mp he).elim id id
  rises := h.rises.trans h'.rises
  stored := (h.stored.mono fun _ ha => ⟨ha.1, ha.2.trans_le h'.rises⟩).trans h'.stored
  unused j hj hj' := (h'.unused j hj hj').trans (h.unused j hj hj')

/-- What a part of the job does from `t`: it moves on to `u`, and from every mirror of `u` the decoder `dec` gives `out` and a
mirror of `t` (R209). -/
structure EncodeJob.Does {α : Type} (J : EncodeJob) (left : Nat) (dec : Cmd α) (out : α) (t u : State) : Prop where
  here : J.At left u
  moves : J.Moves t u
  back : ∀ v, Mirrors J.N J.stream v u → ∃ w, dec v = .ok out w ∧ Mirrors J.N J.stream w t

section
variable {J : EncodeJob} {left : Nat} {t : State}

section
variable {lane k : Nat} (hJ : J.Good) (h : J.At (left + 1) t) (hc : t.Codes lane (J.byte k))
include h hc

/-- The encode of a symbol writes inside the stream. -/
theorem EncodeJob.At.moves (hlane : lane < J.C) : J.Moves t (t.afterSym lane (J.byte k)) := by
  have hptr := State.afterSym_ptr hc.fits
  have hstream := h.stream_le
  refine ⟨t.afterSym_same lane _, by omega, (State.afterSym_stored hc.fits).mono fun a ha => ?_, fun j hj hj' => ?_⟩
  · obtain ⟨hge, hlt⟩ := ha
    constructor <;> omega
  · rw [State.afterSym_xe, laneAt_setLane _ _ _ _ hj', if_neg (by omega)]

include hJ in
/-- The encode of a symbol leaves a state of the job. -/
theorem EncodeJob.At.afterSym : J.At left (t.afterSym lane (J.byte k)) := by
  have hsame := t.afterSym_same lane (J.byte k)
  have hptr := State.afterSym_ptr hc.fits
  have hstored := State.afterSym_stored hc.fits
  have hlen := t.symWords_length_le lane (J.byte k)
  have hfits := hc.fits
  have hlim := h.lim
  have hstream := h.stream_le
  have heven := h.even
  have hle := h.ptr_le
  have hfreq : (t.afterSym lane (J.byte k)).freq = t.freq := hsame.get .freq (by decide)
  have hplat : (t.afterSym lane (J.byte k)).platform = t.platform := hsame.get .platform (by decide)
  refine ⟨h.ready.of_same hsame (by decide), fun j hj => ?lanes, hstored.wf h.mem, State.afterSym_cnt.trans h.cnt,
    State.afterSym_buf h.cnt h.buf, (congrArg BitVec.toNat State.afterSym_lim).trans hlim, by omega, by omega, by omega,
    fun i hi => ?bytes, ?freq, hplat ▸ h.reads, hplat ▸ h.writes⟩
  case lanes =>
    have hlegal := h.ready.symState_legal hc.freq_pos hc.lane_legal
    rw [State.afterSym_xe, laneAt_setLane _ _ _ _ hj]
    split
    next => rwa [Nat.mod_eq_of_lt (hlegal.2.trans (by decide))]
    next => exact h.lanes j hj
  case bytes =>
    have hout : ¬InRegion t.wr.ptr.toNat (2 * (t.symWords lane (J.byte k)).length) (J.src + i) := by
      rcases hJ.apart i hi with hbelow | habove <;> omega
    rw [hstored.outside h.mem _ hout, h.bytes i hi]
  case freq => simpa only [State.freqOf, hfreq] using h.freq_pos

end

variable (hJ : J.Good)
include hJ

/-- Symbol `k` of the job on a lane of its step (R162, R184). -/
theorem EncodeJob.At.encSym {lane k : Nat} (h : J.At (left + 1) t) (hlane : lane < J.N) (hlaneC : lane < J.C) (hk : k < J.C) :
    Cmd.Ends (encSym lane (J.byte k)) t (fun _ => J.Does left (decSym lane) (J.byte k) t) fun _ _ => ¬J.roomy := by
  have hN := hJ.lanes_le
  have hlen := t.symWords_length_le lane (J.byte k)
  have hptr := h.ptr_le
  have hF := h.freq_pos k hk
  have hx : LaneLegal (laneAt t.xe lane) := h.lanes lane (by omega)
  have hw : t.wr.Buffered := ⟨by rw [h.cnt]; decide, by rw [h.cnt, h.buf]; decide⟩
  refine (h.ready.encSym_ends hF hx hw (fun hfull _ _ hroomy => ?full) fun hrefused _ _ hroomy => hrefused ?answered).mono ?ok
    fun _ _ => id
  case full =>
    have hroom := hJ.room hroomy
    have hlim := h.lim
    omega
  case answered =>
    intro i hi
    have hroom := hJ.room hroomy
    have hstream := h.stream_le
    exact h.writes hroomy _ (by omega) (by simp only [Size.bytes]; omega)
  case ok =>
    rintro _ u ⟨rfl, hfit⟩
    have hc : t.Codes lane (J.byte k) := ⟨h.ready, hF, hx, h.mem, h.cnt, h.buf, hfit⟩
    exact ⟨h.afterSym hJ hc, h.moves hc hlaneC, fun v hv => hv.decSym hc h.stream_le hlane hN⟩

omit hJ in
/-- A byte of the job is read (R207). -/
theorem EncodeJob.At.memRead (h : J.At left t) {k : Nat} (hk : k < J.C) :
    Cmd.Ends (memRead (J.src + k) .b1) t (fun v u => v = J.byte k ∧ u = t) fun _ _ => ¬J.roomy := by
  cases hread : t.platform.accessError (J.src + k) .b1 .read with
  | none =>
    refine .of_ok (memRead_ok hread) ⟨?_, rfl⟩
    rw [← h.bytes k hk]
    simp [Memory.readLE, Size.bytes]
  | some c => exact .of_error (memRead_error hread) fun hroomy => nomatch (h.reads hroomy k hk).symm.trans hread

omit hJ in
/-- One more lane on top of a decode step. -/
theorem decodeStep_snoc {σ k lane : Nat} {s u v : State} {syms : List Nat} (h : decodeStep lane k s = .ok syms u)
    (hσ : decSym (lane + k) u = .ok σ v) : decodeStep lane (k + 1) s = .ok (syms ++ [σ]) v := by
  induction k generalizing lane s syms with
  | zero =>
    have hsyms : EStateM.Result.ok [] s = .ok syms u := h
    cases hsyms
    rw [Nat.add_zero] at hσ
    rw [decodeStep, Cmd.bind_of_ok hσ]
    rfl
  | succ k ih =>
    rw [decodeStep] at h
    obtain ⟨τ, w, hτ, h⟩ := Cmd.bind_ok h
    obtain ⟨rest, w', hrest, h⟩ := Cmd.bind_ok h
    have hsyms : EStateM.Result.ok (τ :: rest) w' = .ok syms u := h
    cases hsyms
    rw [decodeStep, Cmd.bind_of_ok hτ, Cmd.bind_of_ok (ih hrest (by rwa [Nat.add_right_comm, Nat.add_assoc]))]
    rfl

/-- The lanes below `k` of a step that begins with symbol `lo` (R207). -/
theorem EncodeJob.At.encodeStep {lo : Nat} : ∀ {k : Nat} {t : State}, J.At (left + k) t → k ≤ J.N →
    (∀ j, j < k → lo + j < J.C) →
    Cmd.Ends (encodeStep (J.src + lo) k) t
      (fun _ => J.Does left (decodeStep 0 k) ((List.range' lo k).map J.byte) t) fun _ _ => ¬J.roomy
  | 0, t, h, _, _ => .pure ⟨h, .refl J t, fun v hv => ⟨v, rfl, hv⟩⟩
  | k + 1, t, h, hk, hC => by
    have hlo := hC k (Nat.lt_succ_self k)
    rw [Machine.encodeStep, Nat.add_assoc]
    refine .bind ((h.memRead hlo).mono ?_ fun _ _ => id)
    rintro _ _ ⟨rfl, rfl⟩
    refine .bind ((EncodeJob.At.encSym hJ h (lane := k) (by omega) (by omega) hlo).mono (fun _ u hu => ?_) fun _ _ => id)
    refine (EncodeJob.At.encodeStep hu.here (by omega) fun j hj => hC j (by omega)).mono (fun _ w hw => ?_) fun _ _ => id
    refine ⟨hw.here, hu.moves.trans hw.moves, fun v hv => ?_⟩
    obtain ⟨v', hsyms, hv'⟩ := hw.back v hv
    obtain ⟨v'', hσ, hv''⟩ := hu.back v' hv'
    refine ⟨v'', ?_, hv''⟩
    rw [List.range'_concat, List.map_append, Nat.one_mul]
    exact decodeStep_snoc hsyms (by rwa [Nat.zero_add])

omit hJ in
/-- The symbols of a step. -/
theorem stepSyms_eq (J : EncodeJob) (i : Nat) : (List.range' (i * J.N) (stepLanes J.C J.N i)).map J.byte =
    (List.range' (min (i * J.N) J.C) (stepLanes J.C J.N i)).map J.byte := by
  rcases Nat.lt_or_ge (i * J.N) J.C with hlt | hge
  · rw [Nat.min_eq_left hlt.le]
  · rw [show stepLanes J.C J.N i = 0 by rw [stepLanes]; omega]
    rfl

/-- The steps from `i` up to `i + k`, and the decode of the same steps from the last one down (R207 to R209). -/
theorem EncodeJob.At.encodeSteps : ∀ {k i : Nat} {t : State}, J.At (J.C - min (i * J.N) J.C) t →
    Cmd.Ends (encodeSteps J.src J.C J.N i k) t (fun _ u => J.At (J.C - min ((i + k) * J.N) J.C) u ∧ J.Moves t u ∧
      ∀ v out, Mirrors J.N J.stream v u → ∃ w, Mirrors J.N J.stream w t ∧
        decodeSteps J.C J.N (i + k) out v = decodeSteps J.C J.N i
          ((List.range' (min (i * J.N) J.C) (min ((i + k) * J.N) J.C - min (i * J.N) J.C)).map J.byte ++ out) w)
      fun _ _ => ¬J.roomy
  | 0, i, t, h => .pure ⟨h, .refl J t, fun v out hv => ⟨v, hv, by simp⟩⟩
  | k + 1, i, t, h => by
    have hsum := stepLanes_sum J.C J.N i
    have hstep : J.C - min (i * J.N) J.C = J.C - min ((i + 1) * J.N) J.C + stepLanes J.C J.N i := by omega
    have hlanes (j : Nat) (hj : j < stepLanes J.C J.N i) : i * J.N + j < J.C := by
      have hle : stepLanes J.C J.N i ≤ J.C - i * J.N := Nat.min_le_right _ _
      omega
    refine .bind ((EncodeJob.At.encodeStep hJ (k := stepLanes J.C J.N i) (hstep ▸ h) (Nat.min_le_left _ _) hlanes).mono
      (fun _ u hu => ?_) fun _ _ => id)
    refine (EncodeJob.At.encodeSteps (k := k) (i := i + 1) hu.here).mono ?_ fun _ _ => id
    rintro _ w ⟨hw, hmoves, hback⟩
    rw [Nat.add_right_comm, Nat.add_assoc] at hw hback
    refine ⟨hw, hu.moves.trans hmoves, fun v out hv => ?_⟩
    obtain ⟨v', hv', hrest⟩ := hback v out hv
    obtain ⟨v'', hsyms, hv''⟩ := hu.back v' hv'
    refine ⟨v'', hv'', hrest.trans ((Cmd.bind_of_ok hsyms _).trans ?_)⟩
    have hrange := List.range'_append_1 (s := min (i * J.N) J.C) (m := stepLanes J.C J.N i)
      (n := min ((i + (k + 1)) * J.N) J.C - min ((i + 1) * J.N) J.C)
    have hmono : min ((i + 1) * J.N) J.C ≤ min ((i + (k + 1)) * J.N) J.C :=
      min_le_min_right _ (Nat.mul_le_mul_right _ (by omega))
    rw [← hsum, show stepLanes J.C J.N i + (min ((i + (k + 1)) * J.N) J.C - min ((i + 1) * J.N) J.C) =
      min ((i + (k + 1)) * J.N) J.C - min (i * J.N) J.C by omega] at hrange
    rw [← hrange, List.map_append, List.append_assoc, stepSyms_eq]

/-- The whole plane, and its decode (R207 to R209). -/
theorem EncodeJob.At.encodeAll (hN : 1 ≤ J.N) (h : J.At J.C t) :
    Cmd.Ends (Machine.encodeSteps J.src J.C J.N 0 (stepCount J.C J.N)) t (fun _ u => J.At 0 u ∧ J.Moves t u ∧
      ∀ v, Mirrors J.N J.stream v u → ∃ w, Mirrors J.N J.stream w t ∧
        decodeSteps J.C J.N (stepCount J.C J.N) [] v = .ok ((List.range J.C).map J.byte) w) fun _ _ => ¬J.roomy := by
  have hend : min ((0 + stepCount J.C J.N) * J.N) J.C = J.C := by rw [Nat.zero_add, stepCount_covers hN]
  have hbegin : min (0 * J.N) J.C = 0 := by omega
  have hstart : J.At (J.C - min (0 * J.N) J.C) t := by rwa [hbegin, Nat.sub_zero]
  refine (EncodeJob.At.encodeSteps hJ (k := stepCount J.C J.N) hstart).mono ?_ fun _ _ => id
  rintro _ u ⟨hu, hmoves, hback⟩
  rw [hend, Nat.sub_self] at hu
  refine ⟨hu, hmoves, fun v hv => ?_⟩
  obtain ⟨w, hw, hrun⟩ := hback v [] hv
  rw [hend, hbegin, Nat.sub_zero, Nat.zero_add, List.append_nil, ← List.range_eq_range'] at hrun
  exact ⟨w, hw, hrun⟩

end

end Sys2Proof.Machine
end

section
/-!
SUPPORT. How `FRM_ENC_PAYLOAD` runs up to its first symbol and from its last one on (46_framer.md R207): the bytes counted, the
table normalized, built and stored, the lanes and the writer set up; then the lane states stored and the header's size set.
-/
namespace Sys2Proof.Machine

/-! ## The counts -/

/-- The state after `HIST_COUNT` with the counts `raw` (R130). -/
def State.bytesCounted (s : State) (raw : Vector Word 512) (c : Nat) : State :=
  ((s.setRawf raw).setStatus s.status.rawLoaded).setResult (BitVec.ofNat 32 c)

/-- `raw` counts the `c` bytes at `a` (R130). -/
def State.Counts (s : State) (a c : Nat) (raw : Vector Word 512) : Prop :=
  ∀ i, i < 512 → entryAt raw i 0 = BitVec.ofNat 32 ((List.range c).countP fun j => decide ((s.mem.read (a + j)).toNat = i))

theorem histCount_ends {s : State} {a c : Nat} (hfits : a + c ≤ 2 ^ 32) {E : Stop → State → Prop}
    (hE : ¬s.CanRead .b1 a c → ∀ e u, E e u) :
    Cmd.Ends (histCount a c) s (fun _ t => ∃ raw, s.Counts a c raw ∧ t = s.bytesCounted raw c) E := by
  rcases s.platform.answers_or_refusesFirst .read .b1 a c with hall | ⟨k, e, hk, he⟩
  · obtain ⟨raw, hrun, hraw⟩ := countBytes_ok c a (Vector.replicate 512 0) hall
    refine .of_ok ((Cmd.require_bind hfits _ _ s).trans (Cmd.bind_of_ok hrun _)) ⟨raw, fun i hi => ?_, rfl⟩
    rw [hraw i hi, entryAt_lt _ _ hi, Vector.getElem_replicate]
    exact BitVec.zero_add _
  · exact .of_error ((Cmd.require_bind hfits _ _ s).trans (Cmd.bind_of_error (countBytes_refused _ hk he) _))
      (hE (fun hall => nomatch (hall k hk).symm.trans he.refused) _ _)

section
variable {s : State} {a c : Nat} {raw : Vector Word 512} (h : s.Counts a c raw)
include h

theorem State.Counts.nth_rawList (hc : c < 2 ^ 32) {i : Nat} (hi : i < 512) : nth (s.bytesCounted raw c).rawList i =
    (List.range c).countP fun j => decide ((s.mem.read (a + j)).toNat = i) := by
  have hle := List.countP_le_length (l := List.range c) (p := fun j => decide ((s.mem.read (a + j)).toNat = i))
  rw [List.length_range] at hle
  have hraw : (s.bytesCounted raw c).rawList = raw.toList.map BitVec.toNat := by simp [State.rawList, State.bytesCounted]
  have hentry := h i hi
  rw [entryAt_lt _ _ hi] at hentry
  rw [hraw, nth_eq (by simpa using hi), List.getElem_map, Vector.getElem_toList, hentry]
  exact toNat_ofNat_of_lt (hle.trans_lt hc)

/-- A count is zero where no byte is (R130). -/
theorem State.Counts.nth_eq_zero (hc : c < 2 ^ 32) {i : Nat} (hi : i < 512) :
    nth (s.bytesCounted raw c).rawList i = 0 ↔ ∀ k, k < c → (s.mem.read (a + k)).toNat ≠ i := by
  rw [h.nth_rawList hc hi, List.countP_eq_zero]
  simp

/-- The counts of some bytes are within the alphabet (R132). -/
theorem State.Counts.isHighest (hc : c < 2 ^ 32) (hpos : 0 < c) :
    ∃ hi, IsHighest (s.bytesCounted raw c).rawList hi ∧ hi < 256 := by
  have hbyte : (s.mem.read (a + 0)).toNat < 256 := (s.mem.read (a + 0)).isLt
  have hzero : 0 < nth (s.bytesCounted raw c).rawList (s.mem.read (a + 0)).toNat :=
    Nat.pos_of_ne_zero fun h0 => (h.nth_eq_zero hc (by omega)).mp h0 0 hpos rfl
  have hlen := (s.bytesCounted raw c).rawList_length
  rw [nth_eq (by omega)] at hzero
  have hsum : 0 < (s.bytesCounted raw c).rawList.sum :=
    hzero.trans_le (List.single_le_sum (by simp) _ (List.getElem_mem _))
  have hhigh := isHighest_highestUsed hsum
  refine ⟨_, hhigh, ?_⟩
  by_contra hge
  refine hhigh.1.ne' ?_
  rcases Nat.lt_or_ge (highestUsed (s.bytesCounted raw c).rawList) 512 with hlt | hge'
  · exact (h.nth_eq_zero hc hlt).mpr fun k _ he => hge (he ▸ (s.mem.read (a + k)).isLt)
  · exact nth_ge (hlen.trans_le hge')

end

/-! ## The run up to the first symbol -/

theorem writeEntries_ends {n : Size} {l : List Nat} {a : Nat} {s : State} {E : Stop → State → Prop}
    (hE : ¬s.CanWrite n a l.length → ∀ e u, E e u) :
    Cmd.Ends (writeEntries n a l) s (fun _ t => t = s.setMem (storeEntries n.bytes s.mem a l)) E := by
  rcases s.platform.answers_or_refusesFirst .write n a l.length with hall | ⟨k, e, hk, he⟩
  · exact .of_ok (writeEntries_ok l a hall) rfl
  · exact .of_error (writeEntries_refused hk he) (hE (fun hall => nomatch (hall k hk).symm.trans he.refused) _ _)

theorem histStore_at {s : State} {a : Nat} (hv : s.status.histValid = true) (hfits : a + 2048 ≤ 2 ^ 32) :
    histStore a s = writeEntries .b4 a s.storedTable s :=
  (Cmd.require_bind hv _ _ s).trans ((Cmd.require_bind hfits _ _ s).trans (Cmd.bind_of_ok (readFreq_ok hv) _))

/-- Two rules that run alike end alike. -/
theorem Cmd.Ends.of_run {α : Type} {c c' : Cmd α} {s t : State} {Q : α → State → Prop} {E : Stop → State → Prop}
    (h : c s = c' t) (hc : Cmd.Ends c' t Q E) : Cmd.Ends c s Q E := by
  rwa [Cmd.Ends, h]

/-- The operands of a `FRM_ENC_PAYLOAD` that pass its checks, `N` being the lanes (R207). -/
structure EncodeChecked (src P C CAP N : Nat) : Prop where
  count_pos : 0 < C
  source_fits : src + C ≤ 2 ^ 32
  target_fits : P + CAP ≤ 2 ^ 32
  apart : src + C ≤ P ∨ P + CAP ≤ src
  room : 2048 + 4 * N ≤ CAP

/-- The state with the tables of the counted bytes (R130, R132, R151). -/
def State.tablesCounted (s : State) (raw : Vector Word 512) (C : Nat) : State := (s.bytesCounted raw C).tablesBuilt

/-- The state in which the first symbol of a payload is encoded, the counts being `raw` (R207). -/
def State.encodeBegun (s : State) (raw : Vector Word 512) (P C stream lim : Nat) : State :=
  (((s.tablesCounted raw C).setMem (storeEntries 4 s.mem P (s.tablesCounted raw C).storedTable)).setXe resetLanes).setWr
    (.fresh stream lim)

/-- The end of `FRM_ENC_PAYLOAD`: the lane states stored, the size set, `HDR_VALID` cleared (R207). -/
def commitPayload (p : Payload) (body N : Nat) : Cmd Unit := do
  let s ← getState
  writeEntries .b4 body ((s.xe.toList.take N).map BitVec.toNat)
  let bytes := s.wr.ptr.toNat - (body + 4 * N)
  modify fun s =>
    (((s.setHdr (s.hdr.setSize p (BitVec.ofNat 32 (4 * N + bytes)))).setStatus
      (s.status.withHdr false)).setResult (BitVec.ofNat 32 (4 * N + bytes))).setResult1 (BitVec.ofNat 32 bytes)

/-- Up to its first symbol the encode of a payload fails on its operands or on the platform's answers only (R207). -/
theorem frmEncPayload_ends {s : State} {p : Payload} {src P C CAP : Nat} {Q : Unit → State → Prop}
    {E : Stop → State → Prop} (hC : C < 2 ^ 32) (hchecks : ¬EncodeChecked src P C CAP s.lanes → ∀ e u, E e u)
    (hread : ¬s.CanRead .b1 src C → ∀ e u, E e u) (hwrite : ¬s.CanWrite .b4 P 512 → ∀ e u, E e u)
    (hloop : ∀ raw, EncodeChecked src P C CAP s.lanes → s.Counts src C raw →
      Cmd.Ends (encodeSteps src C s.lanes 0 (stepCount C s.lanes) >>= fun _ => commitPayload p (P + 2048) s.lanes)
        (s.encodeBegun raw P C (P + 2048 + 4 * s.lanes) (P + 2048 + 4 * s.lanes + 2 * ((CAP - 2048 - 4 * s.lanes) / 2))) Q E) :
    Cmd.Ends (frmEncPayload p src P C CAP) s Q E := by
  refine .getState (.require (fun hno => hchecks (fun h => hno h.count_pos) _ _) fun hpos =>
    .require (fun hno => hchecks (fun h => hno h.source_fits) _ _) fun hsrc =>
    .require (fun hno => hchecks (fun h => hno h.target_fits) _ _) fun htarget =>
    .require (fun hno => hchecks (fun h => hno (overlaps_eq_false_iff.mpr h.apart.symm)) _ _) fun hapart =>
    .require (fun hno => hchecks (fun h => hno h.room) _ _) fun hroom => ?_)
  have hc : EncodeChecked src P C CAP s.lanes := ⟨hpos, hsrc, htarget, (overlaps_eq_false_iff.mp hapart).symm, hroom⟩
  have hP := hc.target_fits
  have hCAP := hc.room
  refine .bind ((histCount_ends hsrc hread).mono ?_ fun _ _ => id)
  rintro _ _ ⟨raw, hraw, rfl⟩
  obtain ⟨hi, hhigh, hlt⟩ := hraw.isHighest hC hpos
  have hvalid : (s.bytesCounted raw C).status.rawValid = true := by simp [State.bytesCounted, Status.rawLoaded]
  have hrun (c : Unit → Cmd Unit) : (histNorm >>= fun _ => tblBuild >>= c) (s.bytesCounted raw C) =
      c () (s.tablesCounted raw C) := buildTables_run hhigh hlt hvalid c
  have hready : (s.tablesCounted raw C).TablesReady := State.tablesBuilt_ready hhigh hlt
  have hplat : (s.tablesCounted raw C).platform = s.platform := by simp [State.tablesCounted, State.bytesCounted]
  have hmem : (s.tablesCounted raw C).mem = s.mem := by simp [State.tablesCounted, State.bytesCounted]
  have hlast := hloop raw hc hraw
  rw [State.encodeBegun, ← hmem] at hlast
  generalize s.tablesCounted raw C = T at hrun hready hplat hlast
  have hanswers : ¬T.CanWrite .b4 P T.storedTable.length → ∀ e u, E e u := by
    rw [T.storedTable_length, State.CanWrite, hplat]
    exact hwrite
  have hregion : P + 2048 + 4 * s.lanes ≤ P + 2048 + 4 * s.lanes + 2 * ((CAP - 2048 - 4 * s.lanes) / 2) ∧
      (P + 2048 + 4 * s.lanes + 2 * ((CAP - 2048 - 4 * s.lanes) / 2) - (P + 2048 + 4 * s.lanes)) % 2 = 0 := by omega
  refine .of_run (hrun _) (.bind (.of_run (histStore_at hready.hist (by omega)) ((writeEntries_ends hanswers).mono ?_
    fun _ _ => id)))
  rintro _ _ rfl
  exact .bind (.modify (.bind (.of_ok (bwInit_ok hregion) hlast)))

end Sys2Proof.Machine
end

section
/-!
SUPPORT. What `FRM_ENC_PAYLOAD` leaves (46_framer.md R201, R207, R209): the payload in memory, the registers, and that a decoder
that mirrors it gets the bytes back.
-/
namespace Sys2Proof.Machine

/-! ## The state at the first symbol -/

section
variable {s : State} {raw : Vector Word 512} {P C stream lim : Nat}

theorem State.encodeBegun_xe : (s.encodeBegun raw P C stream lim).xe = resetLanes := by simp [State.encodeBegun]
theorem State.encodeBegun_wr : (s.encodeBegun raw P C stream lim).wr = .fresh stream lim := by simp [State.encodeBegun]
theorem State.encodeBegun_freq : (s.encodeBegun raw P C stream lim).freq = (s.tablesCounted raw C).freq := by
  simp [State.encodeBegun]
theorem State.encodeBegun_platform : (s.encodeBegun raw P C stream lim).platform = s.platform := by
  simp [State.encodeBegun, State.tablesCounted, State.bytesCounted]
theorem State.encodeBegun_hdr : (s.encodeBegun raw P C stream lim).hdr = s.hdr := by
  simp [State.encodeBegun, State.tablesCounted, State.bytesCounted, State.tablesBuilt, State.builtTables, State.normalizedBy]
theorem State.encodeBegun_rawValid : (s.encodeBegun raw P C stream lim).status.rawValid = true := by
  simp [State.encodeBegun, State.tablesCounted, State.bytesCounted, State.tablesBuilt, State.builtTables, State.normalizedBy,
    Status.tableBuilt, Status.normalized, Status.rawLoaded]

/-- The table stands at the payload's start (R207). -/
theorem State.encodeBegun_mem : (s.encodeBegun raw P C stream lim).mem =
    storeEntries 4 s.mem P (s.encodeBegun raw P C stream lim).storedTable := by
  have htable : (s.encodeBegun raw P C stream lim).storedTable = (s.tablesCounted raw C).storedTable := by
    simp only [State.storedTable, State.freqList, State.encodeBegun_freq]
  rw [htable]
  simp [State.encodeBegun]

variable {src : Nat} (hraw : s.Counts src C raw) (hC : C < 2 ^ 32) (hpos : 0 < C)
include hraw hC hpos

theorem State.Counts.ready : (s.encodeBegun raw P C stream lim).TablesReady := by
  obtain ⟨hi, hhigh, hlt⟩ := hraw.isHighest hC hpos
  have hready : (s.tablesCounted raw C).TablesReady := State.tablesBuilt_ready hhigh hlt
  refine hready.of_same (W := [.mem, .xe, .wr]) (fun e => ?_) (by decide)
  cases e <;> simp [State.encodeBegun]

/-- A symbol has a frequency exactly where it is one of the bytes (R130, R136). -/
theorem State.Counts.freqOf_eq_zero {i : Nat} (hi : i < 256) : (s.encodeBegun raw P C stream lim).freqOf i = 0 ↔
    ∀ k, k < C → (s.mem.read (src + k)).toNat ≠ i := by
  obtain ⟨_, hhigh, hlt⟩ := hraw.isHighest hC hpos
  have hvalid : (s.bytesCounted raw C).status.rawValid = true := by simp [State.bytesCounted, Status.rawLoaded]
  rw [← hraw.nth_eq_zero hC (by omega), ← State.tablesBuilt_freqOf_eq_zero hvalid hhigh hlt hi, State.freqOf,
    State.encodeBegun_freq]
  rfl

end

/-- `t` is the state of a `FRM_ENC_PAYLOAD` from `s` at its first symbol: the tables of the bytes are built and stored, the
lanes and the writer are set up (R207). -/
structure PayloadBegun (s t : State) (src P C lim : Nat) : Prop where
  ready : t.TablesReady
  freq_zero : ∀ i, i < 256 → (t.freqOf i = 0 ↔ ∀ k, k < C → (s.mem.read (src + k)).toNat ≠ i)
  rawValid : t.status.rawValid = true
  xe : t.xe = resetLanes
  wr : t.wr = .fresh (P + 2048 + 4 * s.lanes) lim
  mem : t.mem = storeEntries 4 s.mem P t.storedTable
  platform : t.platform = s.platform
  hdr : t.hdr = s.hdr

theorem State.Counts.begun {s : State} {raw : Vector Word 512} {src P C : Nat} (hraw : s.Counts src C raw)
    (hC : C < 2 ^ 32) (hpos : 0 < C) (lim : Nat) :
    PayloadBegun s (s.encodeBegun raw P C (P + 2048 + 4 * s.lanes) lim) src P C lim where
  ready := hraw.ready hC hpos
  freq_zero _ hi := hraw.freqOf_eq_zero hC hpos hi
  rawValid := State.encodeBegun_rawValid
  xe := State.encodeBegun_xe
  wr := State.encodeBegun_wr
  mem := State.encodeBegun_mem
  platform := State.encodeBegun_platform
  hdr := State.encodeBegun_hdr

theorem PayloadBegun.ptr {s t : State} {src P C lim : Nat} (h : PayloadBegun s t src P C lim)
    (hstream : P + 2048 + 4 * s.lanes < 2 ^ 32) : t.wr.ptr.toNat = P + 2048 + 4 * s.lanes := by
  rw [h.wr]
  exact toNat_ofNat_of_lt hstream

/-! ## The job -/

/-- A `FRM_ENC_PAYLOAD` in which nothing can fail: the operands are good, a word for each symbol fits, and the platform answers
(R207). -/
structure State.EncodeRoomy (s : State) (src P C CAP : Nat) : Prop where
  checked : EncodeChecked src P C CAP s.lanes
  below : P + CAP < 2 ^ 32
  words : 2048 + 4 * s.lanes + 2 * C ≤ CAP
  source : s.Open src C
  target : s.Open P CAP

/-- The encode of the bytes in memory by `FRM_ENC_PAYLOAD` (R207). -/
def State.encodeJob (s : State) (src P C CAP : Nat) (roomy : Prop) : EncodeJob where
  src := src
  C := C
  N := s.lanes
  stream := P + 2048 + 4 * s.lanes
  lim := (BitVec.ofNat 32 (P + 2048 + 4 * s.lanes + 2 * ((CAP - 2048 - 4 * s.lanes) / 2))).toNat
  byte k := (s.mem.read (src + k)).toNat
  roomy := roomy

section
variable {s : State} {src P C CAP : Nat} {roomy : Prop} (hroomy : roomy → s.EncodeRoomy src P C CAP)
  (hchecked : EncodeChecked src P C CAP s.lanes)
include hroomy hchecked

theorem EncodeChecked.good (hN : s.lanes ≤ 32) : (s.encodeJob src P C CAP roomy).Good where
  lanes_le := hN
  apart k hk := by
    have hlim : (s.encodeJob src P C CAP roomy).lim ≤
        P + 2048 + 4 * s.lanes + 2 * ((CAP - 2048 - 4 * s.lanes) / 2) := by
      rw [State.encodeJob, BitVec.toNat_ofNat]
      exact Nat.mod_le _ _
    have hroom := hchecked.room
    change k < C at hk
    change src + k < P + 2048 + 4 * s.lanes ∨ _ ≤ src + k
    rcases hchecked.apart with hbelow | habove <;> omega
  room h := by
    have hwords := (hroomy h).words
    have hbelow := (hroomy h).below
    rw [State.encodeJob, toNat_ofNat_of_lt (by omega)]
    dsimp only
    omega

/-- The state at the first symbol is one of the job (R207). -/
theorem PayloadBegun.at_job {t : State} (hm : s.mem.wf = true) (hstream : P + 2048 + 4 * s.lanes < 2 ^ 32)
    (h : PayloadBegun s t src P C (P + 2048 + 4 * s.lanes + 2 * ((CAP - 2048 - 4 * s.lanes) / 2))) :
    (s.encodeJob src P C CAP roomy).At C t := by
  have hroom := hchecked.room
  have htarget := hchecked.target_fits
  have hlimle : P + 2048 + 4 * s.lanes + 2 * ((CAP - 2048 - 4 * s.lanes) / 2) ≤ P + CAP := by omega
  rw [State.encodeJob]
  generalize P + 2048 + 4 * s.lanes + 2 * ((CAP - 2048 - 4 * s.lanes) / 2) = lim at hlimle h ⊢
  have hptr := h.ptr hstream
  have hlen : P + 4 * t.storedTable.length ≤ 2 ^ 32 := by
    rw [t.storedTable_length]
    omega
  have hbyte (k : Nat) (hk : k < C) : t.mem.read (src + k) = s.mem.read (src + k) := by
    rw [h.mem]
    refine storeEntries_outside _ hm hlen ?_
    rw [t.storedTable_length]
    rcases hchecked.apart with hbelow | habove <;> omega
  refine ⟨h.ready, h.xe ▸ lanesLegal_reset, ?mem, by rw [h.wr]; rfl, by rw [h.wr]; rfl, by rw [h.wr]; rfl, hptr.ge,
    by rw [hptr, Nat.sub_self], by rw [hptr], fun k hk => congrArg BitVec.toNat (hbyte k hk), fun k hk => ?freq,
    fun hr k (hk : k < C) => ?reads,
    fun hr a (ha : P + 2048 + 4 * s.lanes ≤ a) (ha' : a + 2 ≤ (BitVec.ofNat 32 lim).toNat) => ?writes⟩
  case mem =>
    rw [h.mem]
    exact storeEntries_wf _ hm hlen
  case freq => exact Nat.pos_of_ne_zero fun h0 => (h.freq_zero _ (s.mem.read (src + k)).isLt).mp h0 k hk rfl
  case reads =>
    rw [h.platform]
    exact (hroomy hr).source .b1 .read _ (Nat.le_add_right _ _) (by simp only [Size.bytes]; omega)
  case writes =>
    have hmod : (BitVec.ofNat 32 lim).toNat ≤ lim := by
      rw [BitVec.toNat_ofNat]
      exact Nat.mod_le _ _
    rw [h.platform]
    exact (hroomy hr).target .b2 .write _ (by omega) (by simp only [Size.bytes]; omega)

end

/-! ## The end -/

/-- The state after the lane states are stored and the size is set (R207). -/
def State.payloadCommitted (s : State) (p : Payload) (body N : Nat) : State :=
  ((((s.setMem (storeEntries 4 s.mem body ((s.xe.toList.take N).map BitVec.toNat))).setHdr
    (s.hdr.setSize p (BitVec.ofNat 32 (4 * N + (s.wr.ptr.toNat - (body + 4 * N)))))).setStatus
    (s.status.withHdr false)).setResult (BitVec.ofNat 32 (4 * N + (s.wr.ptr.toNat - (body + 4 * N))))).setResult1
    (BitVec.ofNat 32 (s.wr.ptr.toNat - (body + 4 * N)))

theorem commitPayload_ends {s : State} {p : Payload} {body N : Nat} (hN : N ≤ 32) {E : Stop → State → Prop}
    (hE : ¬s.CanWrite .b4 body N → ∀ e u, E e u) :
    Cmd.Ends (commitPayload p body N) s (fun _ u => u = s.payloadCommitted p body N) E := by
  have hlen : ((s.xe.toList.take N).map BitVec.toNat).length = N := by simpa using hN
  refine .getState (.bind ((writeEntries_ends (by rwa [hlen])).mono ?_ fun _ _ => id))
  rintro _ _ rfl
  exact .modify rfl

section
variable {s : State} {p : Payload} {body N : Nat}

theorem State.payloadCommitted_same :
    SameBut [.mem, .hdr, .hdrValid, .result, .result1] s (s.payloadCommitted p body N) := fun e => by
  cases e <;> simp [State.payloadCommitted, Status.withHdr]

theorem State.payloadCommitted_mem : (s.payloadCommitted p body N).mem =
    storeEntries 4 s.mem body ((s.xe.toList.take N).map BitVec.toNat) := by
  simp [State.payloadCommitted]

theorem State.payloadCommitted_result :
    (s.payloadCommitted p body N).result = BitVec.ofNat 32 (4 * N + (s.wr.ptr.toNat - (body + 4 * N))) := by
  simp [State.payloadCommitted]

theorem State.payloadCommitted_result1 :
    (s.payloadCommitted p body N).result1 = BitVec.ofNat 32 (s.wr.ptr.toNat - (body + 4 * N)) := by
  simp [State.payloadCommitted]

theorem State.payloadCommitted_hdr : (s.payloadCommitted p body N).hdr =
    s.hdr.setSize p (s.payloadCommitted p body N).result := by
  simp [State.payloadCommitted]

theorem State.payloadCommitted_hdrValid : (s.payloadCommitted p body N).status.hdrValid = false := by
  simp [State.payloadCommitted, Status.withHdr]

end

end Sys2Proof.Machine
end

section
/-!
SUPPORT. An encoded payload (46_framer.md R201, R207, R209): what `FRM_ENC_PAYLOAD` leaves in memory and in the registers, and
what a decoder that mirrors it gives.
-/
namespace Sys2Proof.Machine

/-- What `FRM_ENC_PAYLOAD` of the `C` bytes at `src` to `P` leaves in `u` (R201, R207, R209). -/
structure PayloadEncoded (s u : State) (p : Payload) (src P C : Nat) : Prop where
  ready : u.TablesReady
  freq_zero : ∀ i, i < 256 → (u.freqOf i = 0 ↔ ∀ k, k < C → (s.mem.read (src + k)).toNat ≠ i)
  rawValid : u.status.rawValid = true
  hdrValid : u.status.hdrValid = false
  hdr : u.hdr = s.hdr.setSize p u.result
  result : u.result = BitVec.ofNat 32 (4 * s.lanes + u.result1.toNat)
  ptr : u.wr.ptr.toNat = P + 2048 + 4 * s.lanes + u.result1.toNat
  even : u.result1.toNat % 2 = 0
  bytes_le : u.result1.toNat ≤ 2 * C
  lanes : LanesLegal u.xe
  unused : ∀ j, C ≤ j → j < 32 → laneAt u.xe j = 2048
  table : ∀ i, i < 512 → u.mem.readLE (P + 4 * i) 4 = if i < 256 then u.freqOf i else 0
  states : ∀ j, j < s.lanes → u.mem.readLE (P + 2048 + 4 * j) 4 = laneAt u.xe j
  outside : SameOutside s u P (2048 + 4 * s.lanes + u.result1.toNat)
  decodes : ∀ v, Mirrors s.lanes (P + 2048 + 4 * s.lanes) v u → ∃ w,
    decodeSteps C s.lanes (stepCount C s.lanes) [] v =
      .ok ((List.range C).map fun k => (s.mem.read (src + k)).toNat) w ∧
    (∀ j, j < s.lanes → laneAt w.xd j = 2048) ∧ w.rd.ptr = w.rd.base ∧ w.rd.cnt = 0

/-! ## The memory -/

section
variable {m m' : Memory} {table lanes : List Nat} {P N ptr : Nat} (hm : m.wf = true) (htable : table.length = 512)
  (hlanes : lanes.length = N) (hptr : P + 2048 + 4 * N ≤ ptr) (hfits : ptr ≤ 2 ^ 32)
  (hstored : Stored (fun a => P + 2048 + 4 * N ≤ a ∧ a < ptr) (storeEntries 4 m P table) m')
include hm htable hlanes hptr hfits hstored

theorem payload_wf : m'.wf = true :=
  hstored.wf (storeEntries_wf (n := 4) _ hm (by rw [htable]; exact (show P + 4 * 512 ≤ 2 ^ 32 by omega)))

/-- The lane states and the stream leave the table. -/
theorem payload_table {i : Nat} (hi : i < 512) :
    (storeEntries 4 m' (P + 2048) lanes).readLE (P + 4 * i) 4 = table[i] % 2 ^ 32 := by
  have hP : P + 4 * table.length ≤ 2 ^ 32 := by omega
  have hwf : (storeEntries 4 m P table).wf = true := storeEntries_wf _ hm hP
  have hread : (storeEntries 4 m' (P + 2048) lanes).readLE (P + 4 * i) 4 =
      (storeEntries 4 m P table).readLE (P + 4 * i) 4 := Memory.readLE_congr 4 _ fun k hk => by
    rw [storeEntries_outside _ (hstored.wf hwf) (show P + 2048 + 4 * lanes.length ≤ 2 ^ 32 by omega) (by omega)]
    exact hstored.outside hwf _ (by omega)
  exact hread.trans (storeEntries_entry _ hm hP i (by omega))

theorem payload_states {j : Nat} (hj : j < lanes.length) :
    (storeEntries 4 m' (P + 2048) lanes).readLE (P + 2048 + 4 * j) 4 = lanes[j] % 2 ^ 32 :=
  storeEntries_entry _ (payload_wf hm htable hlanes hptr hfits hstored)
    (show P + 2048 + 4 * lanes.length ≤ 2 ^ 32 by omega) j hj

theorem payload_stream {a : Nat} (ha : P + 2048 + 4 * N ≤ a) :
    (storeEntries 4 m' (P + 2048) lanes).read a = m'.read a :=
  storeEntries_outside _ (payload_wf hm htable hlanes hptr hfits hstored)
    (show P + 2048 + 4 * lanes.length ≤ 2 ^ 32 by omega) (by omega)

theorem payload_outside {a : Nat} (ha : a < P ∨ ptr ≤ a) :
    (storeEntries 4 m' (P + 2048) lanes).read a = m.read a := by
  have hP : P + 4 * table.length ≤ 2 ^ 32 := by omega
  have hwf : (storeEntries 4 m P table).wf = true := storeEntries_wf _ hm hP
  rw [storeEntries_outside _ (hstored.wf hwf) (show P + 2048 + 4 * lanes.length ≤ 2 ^ 32 by omega) (by omega),
    hstored.outside hwf _ (by omega), storeEntries_outside _ hm hP (by omega)]

end

/-! ## The registers -/

/-- A mirror is one of every state with the same encoder and the same stream. -/
theorem Mirrors.of_encoder {N stream : Nat} {d u v : State} (h : Mirrors N stream d u) (hsym : u.sym = v.sym)
    (hfrq : u.frq = v.frq) (hcum : u.cum = v.cum) (hxe : u.xe = v.xe) (hwr : u.wr = v.wr)
    (hbytes : ∀ a, stream ≤ a → a < v.wr.ptr.toNat → u.mem.read a = v.mem.read a) : Mirrors N stream d v where
  tables := h.tables
  sym := h.sym.trans hsym
  frq := h.frq.trans hfrq
  cum := h.cum.trans hcum
  lanes := hxe ▸ h.lanes
  backward := h.backward
  cnt := h.cnt
  buf := h.buf
  ptr := hwr ▸ h.ptr
  base := h.base
  bytes a ha ha' := (h.bytes a ha (hwr ▸ ha')).trans (hbytes a ha ha')
  answered := hwr ▸ h.answered

theorem laneStates_getElem {xe : Vector Word 32} {N j : Nat} (hj : j < ((xe.toList.take N).map BitVec.toNat).length) :
    ((xe.toList.take N).map BitVec.toNat)[j] = laneAt xe j := by
  have hj32 : j < 32 := by simp at hj; omega
  simp [laneAt, entryAt_lt _ _ hj32]

section
variable {s t v : State} {p : Payload} {src P C CAP lim : Nat} {roomy : Prop} (hN : s.lanes ≤ 32)
  (hm : s.mem.wf = true) (hstream : P + 2048 + 4 * s.lanes < 2 ^ 32) (ht : PayloadBegun s t src P C lim)
  (hv : (s.encodeJob src P C CAP roomy).At 0 v) (hmoves : (s.encodeJob src P C CAP roomy).Moves t v)
  (hback : ∀ d, Mirrors s.lanes (P + 2048 + 4 * s.lanes) d v → ∃ w, Mirrors s.lanes (P + 2048 + 4 * s.lanes) w t ∧
    decodeSteps C s.lanes (stepCount C s.lanes) [] d =
      .ok ((List.range C).map fun k => (s.mem.read (src + k)).toNat) w)
include hN hm hstream ht hv hmoves hback

/-- The job and the commit leave an encoded payload (R207, R209). -/
theorem payloadEncoded : PayloadEncoded s (v.payloadCommitted p (P + 2048) s.lanes) p src P C := by
  have hsame : SameBut [.mem, .hdr, .hdrValid, .result, .result1] v (v.payloadCommitted p (P + 2048) s.lanes) :=
    State.payloadCommitted_same
  have humem := v.payloadCommitted_mem (p := p) (body := P + 2048) (N := s.lanes)
  have hures := v.payloadCommitted_result (p := p) (body := P + 2048) (N := s.lanes)
  have hures1 := v.payloadCommitted_result1 (p := p) (body := P + 2048) (N := s.lanes)
  have huhdr := v.payloadCommitted_hdr (p := p) (body := P + 2048) (N := s.lanes)
  have huvalid := v.payloadCommitted_hdrValid (p := p) (body := P + 2048) (N := s.lanes)
  generalize v.payloadCommitted p (P + 2048) s.lanes = u at *
  have hge : P + 2048 + 4 * s.lanes ≤ v.wr.ptr.toNat := hv.stream_le
  have heven : (v.wr.ptr.toNat - (P + 2048 + 4 * s.lanes)) % 2 = 0 := hv.even
  have hle : v.wr.ptr.toNat + 2 * 0 ≤ P + 2048 + 4 * s.lanes + 2 * C := hv.ptr_le
  have hptrlt : v.wr.ptr.toNat < 2 ^ 32 := v.wr.ptr.isLt
  have hbytes : u.result1.toNat = v.wr.ptr.toNat - (P + 2048 + 4 * s.lanes) := by
    rw [hures1]
    exact toNat_ofNat_of_lt (by omega)
  have huwr : u.wr = v.wr := hsame.get .wr (by decide)
  have huxe : u.xe = v.xe := hsame.get .xe (by decide)
  have hufreq : u.freq = t.freq := Eq.trans (hsame.get .freq (by decide)) (hmoves.same.get .freq (by decide))
  have hfreqOf (i : Nat) : u.freqOf i = t.freqOf i := by simp only [State.freqOf, hufreq]
  have hlen := t.storedTable_length
  have hstored : Stored (fun a => P + 2048 + 4 * s.lanes ≤ a ∧ a < v.wr.ptr.toNat) (storeEntries 4 s.mem P t.storedTable)
      v.mem := ht.mem ▸ hmoves.stored
  have hlanes : ((v.xe.toList.take s.lanes).map BitVec.toNat).length = s.lanes := by simpa using hN
  constructor
  case ready => exact hv.ready.of_same hsame (by decide)
  case freq_zero => exact fun i hi => hfreqOf i ▸ ht.freq_zero i hi
  case rawValid =>
    exact Eq.trans (hsame.get .rawValid (by decide)) (Eq.trans (hmoves.same.get .rawValid (by decide)) ht.rawValid)
  case hdrValid => exact huvalid
  case hdr => rw [huhdr, show v.hdr = t.hdr from hmoves.same.get .hdr (by decide), ht.hdr]
  case result => rw [hures, hbytes]
  case ptr => rw [huwr, hbytes]; omega
  case even => rw [hbytes, heven]
  case bytes_le => omega
  case lanes => exact huxe ▸ hv.lanes
  case unused =>
    intro j hj hj'
    rw [huxe, hmoves.unused j hj hj', ht.xe, laneAt_resetLanes j hj']
  case table =>
    intro i hi
    have hlt : t.freqOf i < 2 ^ 32 := (entryAt t.freq i 0).isLt.trans (by decide)
    rw [humem, payload_table hm hlen hlanes hge hptrlt.le hstored hi, State.storedTable_getElem, hfreqOf]
    split
    next => exact Nat.mod_eq_of_lt hlt
    next => rfl
  case states =>
    intro j hj
    rw [humem, payload_states hm hlen hlanes hge hptrlt.le hstored (by rwa [hlanes]), laneStates_getElem, huxe]
    exact Nat.mod_eq_of_lt (laneAt_lt v.xe j)
  case outside =>
    intro a ha
    rw [humem]
    exact payload_outside hm hlen hlanes hge hptrlt.le hstored (by omega)
  case decodes =>
    intro d hd
    have hdv : Mirrors s.lanes (P + 2048 + 4 * s.lanes) d v := by
      refine hd.of_encoder (hsame.get .sym (by decide)) (hsame.get .frq (by decide)) (hsame.get .cum (by decide)) huxe huwr
        fun a ha _ => ?_
      rw [humem, payload_stream hm hlen hlanes hge hptrlt.le hstored ha]
    obtain ⟨w, hw, hrun⟩ := hback d hdv
    refine ⟨w, hrun, fun j hj => ?_, BitVec.eq_of_toNat_eq (hw.ptr.trans ((ht.ptr hstream).trans hw.base.symm)), hw.cnt⟩
    rw [hw.lanes j hj, ht.xe, laneAt_resetLanes j (hj.trans_le hN)]

end

/-! ## The command -/

/-- `FRM_ENC_PAYLOAD` with legal lanes leaves an encoded payload, or it was not roomy. Where the stream would begin at `2^32`
(log 10), the size it leaves is that of the lane states alone (R207). -/
theorem frmEncPayload_encodes {s : State} {p : Payload} {src P C CAP : Nat} {roomy : Prop}
    (hroomy : roomy → s.EncodeRoomy src P C CAP) (hN : 1 ≤ s.lanes) (hN32 : s.lanes ≤ 32) (hC : C < 2 ^ 32)
    (hm : s.mem.wf = true) :
    Cmd.Ends (frmEncPayload p src P C CAP) s
      (fun _ u => (P + 2048 + 4 * s.lanes < 2 ^ 32 → PayloadEncoded s u p src P C) ∧
        (2 ^ 32 ≤ P + 2048 + 4 * s.lanes → u.hdr.size p = BitVec.ofNat 32 (4 * s.lanes)))
      fun _ _ => ¬roomy := by
  refine frmEncPayload_ends hC (fun hno _ _ hr => hno (hroomy hr).checked)
    (fun hno _ _ hr => hno ((hroomy hr).source.canRead le_rfl (by simp only [Size.bytes]; omega)))
    (fun hno _ _ hr => hno ((hroomy hr).target.canWrite le_rfl (by
      have hwords := (hroomy hr).words
      simp only [Size.bytes]
      omega))) fun raw hchecked hraw => .bind ?_
  rcases Nat.lt_or_ge (P + 2048 + 4 * s.lanes) (2 ^ 32) with hstream | hstream
  · have ht := hraw.begun hC hchecked.count_pos (P := P)
      (P + 2048 + 4 * s.lanes + 2 * ((CAP - 2048 - 4 * s.lanes) / 2))
    refine ((ht.at_job hroomy hchecked hm hstream).encodeAll (hchecked.good hroomy hN32) hN).mono ?_ fun _ _ => id
    rintro _ v ⟨hv, hmoves, hback⟩
    have hplat : v.platform = s.platform := Eq.trans (hmoves.same.get .platform (by decide)) ht.platform
    refine (commitPayload_ends hN32 fun hno _ _ hr => hno ?_).mono ?_ fun _ _ => id
    · have hwords := (hroomy hr).words
      have hwrite : s.CanWrite .b4 (P + 2048) s.lanes :=
        (hroomy hr).target.canWrite (by omega) (by simp only [Size.bytes]; omega)
      rw [State.CanWrite, hplat]
      exact hwrite
    · rintro _ _ rfl
      exact ⟨fun _ => payloadEncoded hN32 hm hstream ht hv hmoves hback,
        fun hge => absurd hstream (Nat.not_lt.mpr hge)⟩
  · have hnever : ¬roomy := fun hr => by
      have hwords := (hroomy hr).words
      have hbelow := (hroomy hr).below
      omega
    refine ⟨fun _ v _ => (commitPayload_ends hN32 fun _ _ _ => hnever).mono ?_ fun _ _ => id, fun _ _ _ => hnever⟩
    rintro _ _ rfl
    have hlt := v.wr.ptr.isLt
    refine ⟨fun h => absurd h (Nat.not_lt.mpr hstream), fun _ => ?_⟩
    rw [State.payloadCommitted_hdr, State.payloadCommitted_result, Nat.sub_eq_zero_of_le (by omega), Nat.add_zero]
    cases p <;> rfl

end Sys2Proof.Machine
end

section
/-!
SUPPORT. `FRM_ENC_PAYLOAD` completes and leaves an encoded payload (46_framer.md R201, R207, R209).
-/
namespace Sys2Proof.Machine

/-- A rule that cannot end early ends well. -/
theorem Cmd.Ends.exists_ok {α : Type} {c : Cmd α} {s : State} {Q : α → State → Prop} {E : Stop → State → Prop}
    (h : Cmd.Ends c s Q E) (hE : ∀ e t, ¬E e t) : ∃ v t, c s = .ok v t ∧ Q v t := by
  cases hrun : c s with
  | ok v t => exact ⟨v, t, rfl, h.1 v t hrun⟩
  | error e t => exact absurd (h.2 e t hrun) (hE e t)

/-- What a completed command with the elements of a payload's encode leaves, element by element (R207). -/
theorem SameBut.complete_eq_of_encode {s t : State} (h : SameBut encPayloadElems s t) :
    t.complete = { s with
      mem := t.mem
      rawf := t.rawf
      freq := t.freq
      sym := t.sym
      frq := t.frq
      cum := t.cum
      cums := t.cums
      xe := t.xe
      wr := t.wr
      hdr := t.hdr
      result := t.result
      result1 := t.result1
      status := { s.status.finished with
        rawValid := t.status.rawValid, histValid := t.status.histValid, tblValid := t.status.tblValid
        hdrValid := t.status.hdrValid, fallback := t.status.fallback } } := by
  refine State.eq_of_same fun e => ?_
  have he := h e
  cases e <;> simp_all [State.complete, Status.completed]

/-- A payload encoded into a completed state (R207). -/
theorem PayloadEncoded.complete_eq {s u : State} {p : Payload} {src P C : Nat} (h : PayloadEncoded s u p src P C)
    (hsame : SameBut encPayloadElems s u) : u.complete = { s with
      mem := u.mem
      rawf := u.rawf
      freq := u.freq
      sym := u.sym
      frq := u.frq
      cum := u.cum
      cums := u.cums
      xe := u.xe
      wr := u.wr
      hdr := s.hdr.setSize p u.result
      result := BitVec.ofNat 32 (4 * s.lanes + u.result1.toNat)
      result1 := u.result1
      status := { s.status.finished with
        rawValid := true, histValid := true, tblValid := true, hdrValid := false, fallback := u.status.fallback } } := by
  rw [hsame.complete_eq_of_encode, h.rawValid, h.ready.hist, h.ready.tables, h.hdrValid, h.hdr, ← h.result]

/-- Settles O51: nothing in a roomy encode can fail, and the state it ends in holds the payload. -/
theorem frmEncPayloadWritesAPayload : Obligations.FrmEncPayloadWritesAPayload := by
  intro s p src P C CAP N hm hN hN32 hC hsrc hbelow hapart hroom hsource htarget
  have hchecked : EncodeChecked src P C CAP s.lanes := ⟨hC, hsrc, hbelow.le, hapart, by omega⟩
  have hroomy : True → s.EncodeRoomy src P C CAP := fun _ => ⟨hchecked, hbelow, hroom, hsource, htarget⟩
  have hends := frmEncPayload_encodes (p := p) hroomy hN hN32 s.arg2.isLt hm
  obtain ⟨_, u, hrun, hu, -⟩ := hends.exists_ok fun _ _ h => h trivial
  have h := hu (by omega)
  have hsame := ((frmEncPayload_keeps p src P C CAP s).1 _ u hrun).changed.same
  refine ⟨u.complete, exec_of_ok (i := .frmEncPayload p) hrun, h.complete_eq hsame, h.even, h.bytes_le, h.ptr, h.ready.sum,
    h.freq_zero, h.table, h.states, h.unused, h.outside⟩

end Sys2Proof.Machine
end

section
/-!
SUPPORT. An encoded payload decodes to its bytes (46_framer.md R209): the decoder loads the tables and the lanes that the
encoder left, so it mirrors it.
-/
namespace Sys2Proof.Machine

/-! ## The same tables -/

theorem vector_eq_of_toNat {k n : Nat} {v v' : Vector (BitVec k) n}
    (h : v.toList.map BitVec.toNat = v'.toList.map BitVec.toNat) : v = v' :=
  Vector.toList_inj.mp (List.map_injective_iff.mpr (fun _ _ => BitVec.eq_of_toNat_eq) h)

/-- Two states whose tables match have the same slots when they have the same frequencies (R43, R150). -/
theorem State.TablesMatch.slots_eq {s t : State} (hs : s.TablesMatch) (ht : t.TablesMatch) (h : s.freqList = t.freqList) :
    s.sym = t.sym ∧ s.frq = t.frq ∧ s.cum = t.cum := by
  obtain ⟨hsym, hfrq, hcum, -⟩ := hs
  obtain ⟨hsym', hfrq', hcum', -⟩ := ht
  rw [← h] at hsym' hfrq' hcum'
  exact ⟨vector_eq_of_toNat (hsym.trans hsym'.symm), vector_eq_of_toNat (hfrq.trans hfrq'.symm),
    vector_eq_of_toNat (hcum.trans hcum'.symm)⟩

/-- The payload of `w` at `P` stands in the memory of `u`, where it can be read (R209). -/
structure PayloadCopied (s w u : State) (P : Nat) : Prop where
  lanes_pos : 1 ≤ s.lanes
  lanes_le : s.lanes ≤ 32
  fits : P + 2048 + (4 * s.lanes + w.result1.toNat) < 2 ^ 32
  bytes : ∀ a, P ≤ a → a < P + (2048 + (4 * s.lanes + w.result1.toNat)) → u.mem.read a = w.mem.read a
  readable : u.Open P (2048 + (4 * s.lanes + w.result1.toNat))

section
variable {s w u : State} {p : Payload} {src P C : Nat} (h : PayloadEncoded s w p src P C) (hc : PayloadCopied s w u P)
include h hc

/-- The stored table is the encoder's (R131, R207). -/
theorem PayloadEncoded.nth_tableAt_eq (i : Nat) : nth (u.tableAt P) i = if i < 256 then w.freqOf i else 0 := by
  rcases Nat.lt_or_ge i 512 with hi | hi
  · rw [State.nth_tableAt u P hi, ← h.table i hi]
    exact Memory.readLE_congr 4 _ fun k hk => hc.bytes _ (by omega) (by omega)
  · rw [State.nth_tableAt_ge u P hi, if_neg (by omega)]

theorem PayloadEncoded.tableAt_sum : (u.tableAt P).sum = 2048 := by
  have hlen : (u.tableAt P).length = 512 := by simp [State.tableAt]
  have htable : u.tableAt P = w.storedTable :=
    List.ext_getElem (hlen.trans w.storedTable_length.symm) fun i hi _ => by
      rw [← nth_eq hi, h.nth_tableAt_eq hc, State.storedTable_getElem]
  rw [htable, State.storedTable, List.sum_append, h.ready.sum, List.sum_replicate, smul_zero, Nat.add_zero]

/-- The stored lane states are the encoder's (R207). -/
theorem PayloadEncoded.state_eq {j : Nat} (hj : j < s.lanes) : u.mem.readLE (P + 2048 + 4 * j) 4 = laneAt w.xe j := by
  rw [← h.states j hj]
  exact Memory.readLE_congr 4 _ fun k hk => hc.bytes _ (by omega) (by omega)

/-- The payload can be decoded up to its first symbol (R206). -/
theorem PayloadEncoded.payloadAt :
    ∃ hi, u.PayloadAt s.lanes P (4 * s.lanes + w.result1.toNat) hi := by
  have hhigh := isHighest_highestUsed (raw := u.tableAt P) (by rw [h.tableAt_sum hc]; decide)
  have heven := h.even
  refine ⟨_, (Nat.add_assoc _ _ _).trans_le (by have := hc.fits; omega), hc.readable, hhigh, ?alphabet, hc.lanes_le,
    by omega, by omega, fun j hj => ?legal⟩
  case alphabet =>
    by_contra hge
    exact hhigh.1.ne' ((h.nth_tableAt_eq hc _).trans (if_neg hge))
  case legal =>
    rw [h.state_eq hc hj]
    exact h.lanes j (hj.trans_le hc.lanes_le)

/-- What the decode of the payload has loaded mirrors the encoder (R209). -/
theorem PayloadEncoded.mirrors {hi : Nat} (hat : u.PayloadAt s.lanes P (4 * s.lanes + w.result1.toNat) hi)
    {xd : Vector Word 32} (hxd : ∀ j, j < 32 → laneAt xd j =
      if j < s.lanes then u.mem.readLE (P + 2048 + 4 * j) 4 else laneAt u.xd j) :
    Mirrors s.lanes (P + 2048 + 4 * s.lanes) (u.payloadLoaded s.lanes P (4 * s.lanes + w.result1.toNat) xd) w := by
  have hraw := u.tableLoaded_rawList P
  have hready : (u.payloadLoaded s.lanes P (4 * s.lanes + w.result1.toNat) xd).TablesReady := hat.ready
  have hfreq (i : Nat) (hi : i < 256) :
      (u.payloadLoaded s.lanes P (4 * s.lanes + w.result1.toNat) xd).freqOf i = w.freqOf i := by
    have hself := State.tablesBuilt_freqOf_self (u.tableLoaded_rawValid P) hat.highest_loaded hat.alphabet
      (hraw ▸ h.tableAt_sum hc) hi
    rw [hraw, h.nth_tableAt_eq hc, if_pos hi] at hself
    rw [State.freqOf, State.payloadLoaded_freq]
    exact hself
  have hlist : (u.payloadLoaded s.lanes P (4 * s.lanes + w.result1.toNat) xd).freqList = w.freqList :=
    List.ext_getElem ((State.freqList_length _).trans w.freqList_length.symm) fun i hi _ => by
      rw [State.freqList_length] at hi
      rw [← State.freqOf_eq _ hi, ← State.freqOf_eq _ hi, hfreq i hi]
  obtain ⟨hsym, hfrq, hcum⟩ := hready.tablesMatch.slots_eq h.ready.tablesMatch hlist
  have hfits := hc.fits
  have hptr := h.ptr
  refine ⟨hready.tables, hsym, hfrq, hcum, fun j hj => ?lanes, ?dir, ?cnt, ?buf, ?ptr, ?base, fun a ha ha' => ?bytes,
    fun a ha ha' => ?answered⟩
  case lanes => rw [State.payloadLoaded_xd, hxd j (hj.trans_le hc.lanes_le), if_pos hj, h.state_eq hc hj]
  case dir => rw [State.payloadLoaded_rd]; rfl
  case cnt => rw [State.payloadLoaded_rd]; rfl
  case buf => rw [State.payloadLoaded_rd]; rfl
  case ptr =>
    rw [State.payloadLoaded_rd, hptr, Nat.add_assoc (P + 2048)]
    exact toNat_ofNat_of_lt hfits
  case base =>
    rw [State.payloadLoaded_rd]
    exact toNat_ofNat_of_lt (by omega)
  case bytes =>
    rw [State.payloadLoaded_mem]
    exact hc.bytes a (by omega) (by omega)
  case answered =>
    rw [State.payloadLoaded_platform]
    exact hc.readable .b2 .read a (by omega) (by simp only [Size.bytes]; omega)

/-- The decode of the payload gives the bytes (R209). -/
theorem PayloadEncoded.decodePayload :
    ∃ v, decodePayload s.lanes P (4 * s.lanes + w.result1.toNat) C u =
        .ok ((List.range C).map fun k => (s.mem.read (src + k)).toNat) v ∧
      v.platform = u.platform ∧ v.mem = u.mem := by
  obtain ⟨hi, hat⟩ := h.payloadAt hc
  obtain ⟨xd, hxd, hrun⟩ := decodePayload_run hat C
  obtain ⟨v, hsteps, hback, hptr, hcnt⟩ := h.decodes _ (h.mirrors hc hat hxd)
  have hkept := ((decodeSteps_ends C s.lanes (stepCount C s.lanes) [] _).1 _ v hsteps).1.changed.same
  refine ⟨v, hrun.trans ((Cmd.bind_of_ok hsteps _).trans (endChecks_ok _ hback ⟨hptr, hcnt⟩)), ?_, ?_⟩
  · exact Eq.trans (hkept.get .platform (by decide)) State.payloadLoaded_platform
  · exact Eq.trans (hkept.get .mem (by decide)) State.payloadLoaded_mem

end

/-- What `FRM_ENC_PAYLOAD` without an error leaves, the payload ending below `2^32` (R207). -/
theorem payloadEncoded_of_noError {s t : State} {p : Payload} (hm : s.mem.wf = true) (hN : 1 ≤ s.lanes)
    (hN32 : s.lanes ≤ 32) (hexec : exec (.frmEncPayload p) s = .next t) (hterr : t.status.err = false)
    (hfits : s.arg1.toNat + (2048 + (t.hdr.size p).toNat) < 2 ^ 32) :
    ∃ w, t = w.complete ∧ PayloadEncoded s w p s.arg0.toNat s.arg1.toNat s.arg2.toNat ∧
      (t.hdr.size p).toNat = 4 * s.lanes + w.result1.toNat := by
  obtain ⟨w, hrun, rfl⟩ := exec_of_noError hexec hterr
  have hends := frmEncPayload_encodes (p := p) (src := s.arg0.toNat) (P := s.arg1.toNat) (C := s.arg2.toNat)
    (CAP := s.arg3.toNat) (roomy := False) False.elim hN hN32 s.arg2.isLt hm
  obtain ⟨hpayload, hedge⟩ := hends.1 _ w hrun
  have hhdr : w.complete.hdr = w.hdr := by simp [State.complete]
  rw [hhdr] at hfits ⊢
  have hstream : s.arg1.toNat + 2048 + 4 * s.lanes < 2 ^ 32 := by
    by_contra hge
    rw [hedge (Nat.not_lt.mp hge), toNat_ofNat_of_lt (by omega)] at hfits
    omega
  have h := hpayload hstream
  have hptr := h.ptr
  have hlt := w.wr.ptr.isLt
  have hsize : w.hdr.size p = w.result := by
    rw [h.hdr]
    cases p <;> rfl
  refine ⟨w, rfl, h, ?_⟩
  rw [hsize, h.result]
  exact toNat_ofNat_of_lt (by omega)

/-- Settles O52: the decoder that loads the payload mirrors the encoder that left it, so its symbols are the bytes and its end
checks hold. -/
theorem payloadRoundTrip : Obligations.PayloadRoundTrip := by
  intro s t u p p' hm _ hN hN32 hexec hterr hum huerr hlanes huvalid hsource hsize hplane n hbytes hfits hplaneFits hapart
    hreadable hopen
  obtain ⟨w, rfl, h, hn⟩ := payloadEncoded_of_noError hm hN hN32 hexec hterr hfits
  have hwmem : w.complete.mem = w.mem := by simp [State.complete]
  have hend : s.arg1.toNat + n = s.arg1.toNat + (2048 + (4 * s.lanes + w.result1.toNat)) := by rw [← hn]
  have hcopy : PayloadCopied s w u s.arg1.toNat := by
    refine ⟨hN, hN32, by omega, fun a ha ha' => ?_, ?_⟩
    · rw [← hwmem]
      exact hbytes a ha (hend ▸ ha')
    · rw [← hn]
      exact hreadable
  obtain ⟨v, hrun, hplat, hmem⟩ := h.decodePayload hcopy
  have hsizeN : (u.hdr.size p').toNat = 4 * s.lanes + w.result1.toNat := by rw [hsize, hn]
  have hchecked : u.PlaneChecked p' s.arg1.toNat u.arg1.toNat :=
    ⟨huvalid, hsource.symm, by omega, rfl, hplane ▸ hplaneFits, by omega⟩
  rw [← hsizeN, ← hlanes, ← hplane] at hrun
  have hlen : ((List.range (u.hdr.planeBytes p')).map fun k => (s.mem.read (s.arg0.toNat + k)).toNat).length =
      u.hdr.planeBytes p' := by simp
  have hvopen : v.Open u.arg1.toNat (u.hdr.planeBytes p') := by
    rw [State.Open, hplat, hplane]
    exact hopen
  obtain ⟨hnext, hsame, hstored⟩ := exec_frmDecPayload_ok hchecked (hlen.symm ▸ hvopen) hlen hrun
  rw [hmem] at hnext hsame hstored
  refine ⟨_, hnext, ?err, ?result, fun k hk => ?byte, fun a ha => ?outside⟩
  case err => exact Eq.trans (hsame.get .err (by decide)) huerr
  case result => simp [State.complete, hplane]
  case byte =>
    have hk' : k < u.hdr.planeBytes p' := hplane ▸ hk
    have hbyte := storeEntries_byte (i := k) hum (hlen.symm ▸ hplane ▸ hplaneFits) (hlen.symm ▸ hk')
      (by simpa using (s.mem.read (s.arg0.toNat + k)).isLt)
    refine BitVec.eq_of_toNat_eq ?_
    simpa [State.complete] using hbyte
  case outside =>
    rw [hlen] at hstored
    simpa [State.complete] using hstored.outside hum a (by omega)

end Sys2Proof.Machine
end

section
/-!
SUPPORT. The acceptance of a command word, the record of an error and the interrupt output (60_exceptions.md R231, R236,
R237, R240).
-/
namespace Sys2Proof.Machine

/-! ## Acceptance -/

theorem opcodeBits_eq_iff {cw : Word} {op : BitVec 8} : opcodeBits cw = op ↔ cw.toNat % 256 = op.toNat := by
  rw [← BitVec.toNat_inj]
  exact Iff.of_eq (congrArg (· = op.toNat) (BitVec.toNat_setWidth 8 cw))

theorem acceptedInError_iff {cw : Word} :
    acceptedInError cw = true ↔ cw.toNat % 256 = 0x01 ∨ cw.toNat % 256 = 0x02 := by
  rw [acceptedInError, Bool.or_eq_true, decide_eq_true_iff, decide_eq_true_iff, opcodeBits_eq_iff, opcodeBits_eq_iff]
  rfl

section
variable {s : State} (hidle : s.status.busy = false) {cw : Word}
include hidle

theorem csrWrite_cmd_idle : csrWrite 0x018 cw s = s.presentCommand cw := by
  rw [csrWrite, if_neg (by simp [hidle])]

/-- In the error state a word is dropped, but for those of the two commands that leave it (R236, R239). -/
theorem csrWrite_cmd_dropped (herr : s.status.err = true) (hcw : acceptedInError cw = false) :
    csrWrite 0x018 cw s = s := by
  rw [csrWrite_cmd_idle hidle, State.presentCommand, if_neg (by simp [hidle]), if_pos (by simp [herr, hcw])]

theorem csrWrite_cmd_accepted (h : s.status.err = false ∨ acceptedInError cw = true) :
    csrWrite 0x018 cw s = s.latchCommand cw := by
  rw [csrWrite_cmd_idle hidle, State.presentCommand, if_neg (by simp [hidle]), if_neg]
  rcases h with herr | hcw
  · simp [herr]
  · simp [hcw]

end

/-- Settles O12: the three branches of R236, and the run of a word that was latched. -/
theorem commandAcceptance : Obligations.CommandAcceptance := by
  intro s cw
  refine ⟨fun hbusy => csrWrite_busy hbusy 0x018 cw, fun hidle herr h1 h2 => ?dropped, fun hidle h => ?accepted⟩
  case dropped =>
    exact csrWrite_cmd_dropped hidle herr (Bool.eq_false_iff.mpr fun hcw => (acceptedInError_iff.mp hcw).elim h1 h2)
  case accepted =>
    rw [csrWrite_cmd_accepted hidle (h.imp_right acceptedInError_iff.mpr)]
    exact ⟨rfl, fun i hi => sequencerMove_of_decode (s := s.latchCommand cw) rfl hi⟩

/-! ## The record of an error -/

/-- Settles O13: the recorded error by whether one stands, and the completion. -/
theorem raiseRecordsTheFirstError : Obligations.RaiseRecordsTheFirstError := by
  intro s op e _ _ _
  cases herr : s.status.err <;> simp only [State.raise, herr] <;> rfl

/-! ## The interrupt output -/

theorem irq_of_exec {i : Instr} {s t : State} (h : exec i s = .next t) (hr : i ≠ .softReset) : t.irq = s.ctrl.ie := by
  obtain ⟨u, -, hut⟩ := exec_next h (ruleOf_changes hr s)
  have hctrl : t.ctrl = s.ctrl := exec_operand h hr .ctrl (by decide)
  rw [State.irq, hut.done, hctrl, Bool.true_and]

/-- Both resets clear `IE` (R46, R101). -/
theorem irq_of_reset {t : State} (h : SameBut outsideReset State.reset t) : t.irq = false := by
  have hctrl : t.ctrl = State.reset.ctrl := h.get .ctrl (by decide)
  rw [State.irq, hctrl]
  exact Bool.and_false _

theorem irq_of_latch (s : State) (cw : Word) : (s.latchCommand cw).irq = false := rfl

/-- A word that leaves the sequencer running was accepted (R236). -/
theorem irq_of_accepted {s : State} (hidle : s.status.busy = false) {cw : Word}
    (hbusy : (csrWrite 0x018 cw s).status.busy = true) : (csrWrite 0x018 cw s).irq = false := by
  by_cases h : s.status.err = false ∨ acceptedInError cw = true
  · rw [csrWrite_cmd_accepted hidle h, irq_of_latch]
  · obtain ⟨herr, hcw⟩ := not_or.mp h
    rw [csrWrite_cmd_dropped hidle (Bool.not_eq_false _ ▸ herr) (Bool.not_eq_true _ ▸ hcw), hidle] at hbusy
    cases hbusy

/-- Settles O21: what completes sets `DONE`, both resets clear `IE`, and each register's write by its own rule. -/
theorem interruptLevel : Obligations.InterruptLevel := by
  intro s
  refine ⟨fun i t h hr => irq_of_exec h hr, fun t h => irq_of_reset (softReset_next h), fun t ts hts h => ?reset,
    fun hidle v => ⟨?ctrl, ?status, irq_of_accepted hidle⟩, fun line => ?line⟩
  case reset =>
    have hstep : step s = resetMove (s.setTurns ts) := by
      rw [step, hts]
      rfl
    exact irq_of_reset (resetMove_next (hstep ▸ h))
  case ctrl =>
    rw [(csrWrite_idle hidle v).1]
    rfl
  case status =>
    obtain ⟨-, -, hstatus, -⟩ := csrWrite_idle hidle v
    rw [hstatus, writeStatus_eq]
    simp only [State.irq, Status.writeOneClears_done]
    exact Bool.and_right_comm _ _ _
  case line => rw [State.irqInput, State.irq, Bool.and_eq_true, Bool.and_eq_true, decide_eq_true_iff]

end Sys2Proof.Machine
end

section
/-!
SUPPORT. No command faults (10_state.md R43; 60_exceptions.md R237): each rule reads an internal array only behind a check of
a flag that guards it, and keeps that a valid decoding table comes with valid frequencies.
-/
namespace Sys2Proof.Machine

/-- A valid decoding table comes with valid frequencies (R43). -/
abbrev State.Guarded (s : State) : Prop := s.status.tblValid = true → s.status.histValid = true

/-- The stop is an error of the block, and no fault. -/
def Stop.IsError : Stop → Prop
  | .raised _ _ => True
  | .fault _ => False

/-- From `s` the rule ends well in a guarded state only, or in an error of the block. -/
abbrev Cmd.CompletesAt {α : Type} (c : Cmd α) (s : State) : Prop :=
  Cmd.Ends c s (fun _ t => t.Guarded) fun e _ => e.IsError

/-- The rule completes from every guarded state. -/
def Cmd.Completes {α : Type} (c : Cmd α) : Prop := ∀ s, s.Guarded → Cmd.CompletesAt c s

/-- From `s` the rule leaves the state, and ends well or in an error of the block. -/
def Cmd.Reads {α : Type} (c : Cmd α) (s : State) : Prop :=
  (∃ v, c s = .ok v s) ∨ ∃ e x, c s = .error (.raised e x) s

/-! ## Parts of a rule -/

theorem Cmd.Reads.bind {α β : Type} {c : Cmd α} {f : α → Cmd β} {s : State} (hc : Cmd.Reads c s)
    (hf : ∀ v, Cmd.CompletesAt (f v) s) : Cmd.CompletesAt (c >>= f) s := by
  rcases hc with ⟨v, h⟩ | ⟨e, x, h⟩
  · exact .bind (.of_ok h (hf v))
  · exact .bind (.of_error h trivial)

theorem Cmd.Reads.seq {α β : Type} {c : Cmd α} {f : α → Cmd β} {s : State} (hc : Cmd.Reads c s)
    (hf : ∀ v, Cmd.Reads (f v) s) : Cmd.Reads (c >>= f) s := by
  rcases hc with ⟨v, h⟩ | ⟨e, x, h⟩
  · rw [Cmd.Reads, Cmd.bind_of_ok h]
    exact hf v
  · exact .inr ⟨e, x, Cmd.bind_of_error h f⟩

theorem Cmd.Reads.completesAt {α : Type} {c : Cmd α} {s : State} (hc : Cmd.Reads c s) (hs : s.Guarded) :
    Cmd.CompletesAt c s := by
  rcases hc with ⟨v, h⟩ | ⟨e, x, h⟩
  · exact .of_ok h hs
  · exact .of_error h trivial

/-- A check, at the state it was made for. -/
theorem Cmd.Ends.requireCompletes {β : Type} {p : Prop} [Decidable p] {r : Raised} {f : Unit → Cmd β} {s : State}
    (h : p → Cmd.CompletesAt (f ()) s) : Cmd.CompletesAt (Machine.require p r >>= f) s :=
  .require (fun _ => trivial) h

namespace Cmd.Completes

theorem pure {α : Type} (v : α) : Cmd.Completes (Pure.pure v : Cmd α) := fun _ hs => .pure hs

theorem modify {f : State → State} (hf : ∀ s, s.Guarded → (f s).Guarded := by exact fun _ => id) :
    Cmd.Completes (modify f : Cmd PUnit) := fun s hs => .modify (hf s hs)

theorem getState {β : Type} {f : State → Cmd β} (h : ∀ s, Cmd.Completes (f s)) :
    Cmd.Completes (Machine.getState >>= f) := fun s hs => .getState (h s s hs)

theorem require {β : Type} {p : Prop} [Decidable p] {r : Raised} {f : Unit → Cmd β} (h : Cmd.Completes (f ())) :
    Cmd.Completes (Machine.require p r >>= f) := fun s hs => .requireCompletes fun _ => h s hs

theorem bind {α β : Type} {c : Cmd α} {f : α → Cmd β} (hc : Cmd.Completes c) (hf : ∀ v, Cmd.Completes (f v)) :
    Cmd.Completes (c >>= f) := fun s hs => .bind ((hc s hs).mono (fun v t ht => hf v t ht) fun _ _ => id)

theorem of_reads {α : Type} {c : Cmd α} (h : ∀ s, Cmd.Reads c s) : Cmd.Completes c := fun s hs => (h s).completesAt hs

theorem memRead (a : Nat) (n : Size) (lane : Nat) : Cmd.Completes (Machine.memRead a n lane) := of_reads fun s => by
  rcases memRead_cases a n lane s with ⟨-, h⟩ | ⟨c, -, h⟩
  · exact .inl ⟨_, h⟩
  · exact .inr ⟨_, _, h⟩

theorem memWrite (a v : Nat) (n : Size) (lane : Nat) : Cmd.Completes (Machine.memWrite a n v lane) := fun s hs => by
  rcases memWrite_cases a v n lane s with ⟨-, h⟩ | ⟨c, -, h⟩
  · exact .of_ok h hs
  · exact .of_error h trivial

theorem checkLane (lane : Nat) : Cmd.Completes (Machine.checkLane lane) := of_reads fun s => by
  rcases Nat.lt_or_ge lane s.lanes with h | h
  · exact .inl ⟨_, checkLane_ok h⟩
  · exact .inr ⟨_, _, checkLane_bad h⟩

theorem writeEntries (n : Size) : ∀ l a, Cmd.Completes (Machine.writeEntries n a l)
  | [], _ => pure ()
  | v :: l, a => (memWrite a v n 0).bind fun _ => writeEntries n l (a + n.bytes)

end Cmd.Completes

theorem readEntries_reads (n : Size) (k a : Nat) (s : State) : Cmd.Reads (readEntries n a k) s :=
  (readEntries_state k a).imp_left fun ⟨l, h, _⟩ => ⟨l, h⟩

theorem readBits_reads (r : Reader) (n lane : Nat) (s : State) : Cmd.Reads (readBits r n lane) s :=
  (readBits_state r n lane s).imp_left fun ⟨_, _, h⟩ => ⟨_, h⟩

/-! ## Bit reader and writer, histogram and table -/

theorem writeBits_completes (w : Writer) (v n lane : Nat) : Cmd.Completes (writeBits w v n lane) := fun s hs => by
  rcases writeBits_cases w v n lane s with ⟨-, h⟩ | ⟨-, -, -, h⟩ | ⟨e, x, -, h⟩
  · exact .of_ok h hs
  · exact .of_ok h hs
  · exact .of_error h trivial

theorem brInit_completes (base lim : Nat) (dir : Bool) : Cmd.Completes (brInit base lim dir) := .require .modify

theorem bwInit_completes (base lim : Nat) : Cmd.Completes (bwInit base lim) := .require .modify

theorem histCount_completes (a c : Nat) : Cmd.Completes (histCount a c) :=
  .require ((Cmd.Completes.of_reads fun _ => countBytes_state _ _ _).bind fun _ => .modify)

theorem histLoad_completes (a : Nat) : Cmd.Completes (histLoad a) :=
  .require ((Cmd.Completes.of_reads (readEntries_reads .b4 512 a)).bind fun _ => .modify)

/-- The normalization invalidates the decoding tables (R132). -/
theorem histNorm_completes : Cmd.Completes histNorm := fun s _ => by
  rcases histNorm_cases s with ⟨-, -, -, h⟩ | ⟨e, h⟩
  · exact .of_ok h fun ht => nomatch ht
  · exact .of_error h trivial

theorem histStore_completes (a : Nat) : Cmd.Completes (histStore a) := fun s hs =>
  .getState (.requireCompletes fun hv => .requireCompletes fun _ =>
    .bind (.of_ok (readFreq_ok hv) (Cmd.Completes.writeEntries _ _ _ s hs)))

theorem rawQuery_completes (i : Nat) : Cmd.Completes (rawQuery i) := fun _ hs =>
  .getState (.requireCompletes fun hv => .requireCompletes fun _ => .bind (.of_ok (readRaw_ok hv) (.modify hs)))

theorem freqQuery_completes (i : Nat) : Cmd.Completes (freqQuery i) := fun _ hs =>
  .getState (.requireCompletes fun hv => .requireCompletes fun _ => .bind (.of_ok (readFreq_ok hv) (.modify hs)))

/-- The tables are built from frequencies that are valid (R151). -/
theorem tblBuild_completes : Cmd.Completes tblBuild := fun _ _ =>
  .getState (.requireCompletes fun hv => .bind (.of_ok (readFreq_ok hv) (.modify fun _ => hv)))

theorem tblQuery_completes (slot : Nat) : Cmd.Completes (tblQuery slot) := fun _ hs =>
  .getState (.requireCompletes fun hv => .requireCompletes fun _ => .bind (.of_ok (readSlot_ok hv slot) (.modify hs)))

/-! ## Encoder -/

theorem storeWords_completes (lane : Nat) : ∀ ws w, Cmd.Completes (storeWords lane w ws)
  | [], w => .pure w
  | wd :: ws, w => (writeBits_completes w wd 16 lane).bind fun p => storeWords_completes lane ws p.1

theorem encLanes_reads {s : State} (hs : s.Guarded) (ht : s.status.tblValid = true) (syms : List Nat) :
    ∀ k xe, Cmd.Reads (encLanes syms k xe) s
  | 0, _ => .inl ⟨_, rfl⟩
  | j + 1, xe => Cmd.Reads.seq (encPlan_state hs ht j (nth syms j) (laneAt xe j)) fun p =>
      (encLanes_reads hs ht syms j (setLane xe j p.1)).seq fun _ => .inl ⟨_, rfl⟩

theorem encSym_completes (lane σ : Nat) : Cmd.Completes (encSym lane σ) := fun s hs =>
  .getState (.requireCompletes fun ht => .requireCompletes fun _ =>
    Cmd.Reads.bind (encPlan_state hs ht lane σ (laneAt s.xe lane)) fun _ => .requireCompletes fun _ =>
      ((storeWords_completes lane _ s.wr).bind fun _ => .modify) s hs)

theorem encStep_completes (a k : Nat) : Cmd.Completes (encStep a k) := fun s hs =>
  .getState (.requireCompletes fun ht => .requireCompletes fun _ => .requireCompletes fun _ =>
    (readEntries_reads .b1 k a s).bind fun syms => (encLanes_reads hs ht syms k s.xe).bind fun _ =>
      .requireCompletes fun _ => ((storeWords_completes 0 _ s.wr).bind fun _ => .modify) s hs)

/-! ## Decoder -/

theorem decLanes_reads {s : State} (ht : s.status.tblValid = true) : ∀ k lane xd r, Cmd.Reads (decLanes lane k xd r) s
  | 0, _, _, _ => .inl ⟨_, rfl⟩
  | k + 1, lane, xd, r => Cmd.Reads.seq (decPlan_state ht lane (laneAt xd lane) r) fun p =>
      (decLanes_reads ht k (lane + 1) (setLane xd lane p.2.1) p.2.2.1).seq fun _ => .inl ⟨_, rfl⟩

theorem decInit_completes (lane x : Nat) : Cmd.Completes (decInit lane x) := .require .modify

theorem decSym_completes (lane : Nat) : Cmd.Completes (decSym lane) := fun s hs =>
  .getState (.requireCompletes fun ht => Cmd.Reads.bind (decPlan_state ht lane (laneAt s.xd lane) s.rd) fun _ =>
    Cmd.Completes.bind .modify (fun _ => .pure _) s hs)

theorem decStep_completes (a k : Nat) : Cmd.Completes (decStep a k) := fun s hs =>
  .getState (.requireCompletes fun ht => .requireCompletes fun _ => .requireCompletes fun _ =>
    (decLanes_reads ht k 0 s.xd s.rd).bind fun _ => ((Cmd.Completes.writeEntries .b1 _ a).bind fun _ => .modify) s hs)

/-! ## Framer -/

theorem checkHeader_completes (FL W H PB S0 S1 S2 S3 : Nat) : Cmd.Completes (checkHeader FL W H PB S0 S1 S2 S3) :=
  .getState fun _ => .require (.require (.require (.require (.require (.require .modify)))))

theorem frmParse_completes (A FL : Nat) : Cmd.Completes (frmParse A FL) := fun s hs => by
  have body : Cmd.Completes (frmParseBody A FL) :=
    .require (.require ((Cmd.Completes.memRead _ _ _).bind fun _ => (Cmd.Completes.memRead _ _ _).bind fun _ =>
      (Cmd.Completes.memRead _ _ _).bind fun _ => (Cmd.Completes.memRead _ _ _).bind fun _ =>
        (Cmd.Completes.memRead _ _ _).bind fun _ => (Cmd.Completes.memRead _ _ _).bind fun _ =>
          (Cmd.Completes.memRead _ _ _).bind fun _ => checkHeader_completes _ _ _ _ _ _ _ _))
  cases hb : frmParseBody A FL s with
  | ok u t => exact .of_ok (show frmParse A FL s = .ok u t by simp only [frmParse, hb]) ((body s hs).1 u t hb)
  | error e t =>
    have h : frmParse A FL s = .error e (t.setStatus (t.status.withHdr false)) := by simp only [frmParse, hb]
    exact .of_error h ((body s hs).2 e t hb)

theorem frmHdrWrite_completes (A : Nat) : Cmd.Completes (frmHdrWrite A) :=
  .getState fun _ => .require ((Cmd.Completes.memWrite _ _ _ _).bind fun _ => (Cmd.Completes.memWrite _ _ _ _).bind fun _ =>
    (Cmd.Completes.memWrite _ _ _ _).bind fun _ => (Cmd.Completes.memWrite _ _ _ _).bind fun _ =>
      (Cmd.Completes.memWrite _ _ _ _).bind fun _ => (Cmd.Completes.memWrite _ _ _ _).bind fun _ =>
        Cmd.Completes.memWrite _ _ _ _)

theorem loadLanes_completes (body : Nat) : ∀ k lane, Cmd.Completes (loadLanes body lane k)
  | 0, _ => .pure ()
  | k + 1, lane => (Cmd.Completes.memRead _ _ _).bind fun x => (decInit_completes lane x).bind fun _ =>
      loadLanes_completes body k (lane + 1)

theorem decodeStep_completes : ∀ k lane, Cmd.Completes (decodeStep lane k)
  | 0, _ => .pure _
  | k + 1, lane => (decSym_completes lane).bind fun _ => (decodeStep_completes k (lane + 1)).bind fun _ => .pure _

theorem decodeSteps_completes (C N : Nat) : ∀ i out, Cmd.Completes (decodeSteps C N i out)
  | 0, out => .pure out
  | i + 1, _ => (decodeStep_completes _ 0).bind fun _ => decodeSteps_completes C N i _

theorem checkLanesBack_completes (xd : Vector Word 32) : ∀ k lane, Cmd.Completes (checkLanesBack xd lane k)
  | 0, _ => .pure ()
  | k + 1, lane => .require (checkLanesBack_completes xd k (lane + 1))

theorem decodePayload_completes (N P size C : Nat) : Cmd.Completes (decodePayload N P size C) :=
  (histLoad_completes P).bind fun _ => histNorm_completes.bind fun _ => tblBuild_completes.bind fun _ =>
    (loadLanes_completes _ N 0).bind fun _ => (brInit_completes _ _ _).bind fun _ =>
      (decodeSteps_completes C N _ _).bind fun _ => .getState fun _ => (checkLanesBack_completes _ N 0).bind fun _ =>
        .require (.pure _)

theorem frmDecPayload_completes (p : Payload) (A D : Nat) : Cmd.Completes (frmDecPayload p A D) :=
  .getState fun _ => .require (.require (.require (.require ((decodePayload_completes _ _ _ _).bind fun _ =>
    (Cmd.Completes.writeEntries _ _ _).bind fun _ => .modify))))

theorem encodeStep_completes (a : Nat) : ∀ k, Cmd.Completes (encodeStep a k)
  | 0 => .pure ()
  | k + 1 => (Cmd.Completes.memRead _ _ _).bind fun σ => (encSym_completes k σ).bind fun _ => encodeStep_completes a k

theorem encodeSteps_completes (src C N : Nat) : ∀ k i, Cmd.Completes (encodeSteps src C N i k)
  | 0, _ => .pure ()
  | k + 1, i => (encodeStep_completes _ _).bind fun _ => encodeSteps_completes src C N k (i + 1)

theorem frmEncPayload_completes (p : Payload) (src P C CAP : Nat) : Cmd.Completes (frmEncPayload p src P C CAP) :=
  .getState fun _ => .require (.require (.require (.require (.require ((histCount_completes src C).bind fun _ =>
    histNorm_completes.bind fun _ => tblBuild_completes.bind fun _ => (histStore_completes P).bind fun _ =>
      Cmd.Completes.bind (c := encInit) .modify fun _ => (bwInit_completes _ _).bind fun _ =>
        (encodeSteps_completes src C _ _ 0).bind fun _ => .getState fun _ =>
          (Cmd.Completes.writeEntries _ _ _).bind fun _ => .modify)))))

/-! ## The obligation -/

theorem ruleOf_completes (i : Instr) (s : State) : Cmd.Completes (ruleOf i s) := by
  cases i with
  | nop => exact .pure ()
  | softReset => exact .modify (f := fun s => { s.resetElements with cmd := s.cmd }) fun _ _ h => nomatch h
  | clrStatus => exact .modify
  | brInit => exact brInit_completes _ _ _
  | brRead n => exact .getState fun t => (Cmd.Completes.of_reads (readBits_reads t.rd n 0)).bind fun _ => .modify
  | bwInit => exact bwInit_completes _ _
  | bwWrite n => exact .getState fun t => (writeBits_completes t.wr _ n 0).bind fun _ => .modify
  | histCount => exact histCount_completes _ _
  | histLoad => exact histLoad_completes _
  | histNorm => exact histNorm_completes
  | histStore => exact histStore_completes _
  | rawQuery => exact rawQuery_completes _
  | freqQuery => exact freqQuery_completes _
  | tblBuild => exact tblBuild_completes
  | tblQuery => exact tblQuery_completes _
  | encInit => exact .modify
  | encSym lane => exact (Cmd.Completes.checkLane lane).bind fun _ => encSym_completes lane _
  | encStep => exact encStep_completes _ _
  | decInit lane => exact (Cmd.Completes.checkLane lane).bind fun _ => decInit_completes lane _
  | decSym lane => exact (Cmd.Completes.checkLane lane).bind fun _ => (decSym_completes lane).bind fun _ => .pure _
  | decStep => exact decStep_completes _ _
  | frmParse => exact frmParse_completes _ _
  | frmHdrWrite => exact frmHdrWrite_completes _
  | frmDecPayload p => exact frmDecPayload_completes p _ _
  | frmEncPayload p => exact frmEncPayload_completes p _ _ _ _

/-- Settles O15: a rule ends well or in an error of the block, and either way the command completes. -/
theorem everyCommandCompletes : Obligations.EveryCommandCompletes := by
  intro i s hs
  have hrule := ruleOf_completes i s s hs
  cases h : ruleOf i s s with
  | ok u t => exact ⟨_, exec_of_ok h, rfl, rfl⟩
  | error e t =>
    cases e with
    | raised r x => exact ⟨_, exec_of_raised h, rfl, rfl⟩
    | fault f => exact (hrule.2 _ _ h).elim

end Sys2Proof.Machine
end

section
/-!
SUPPORT. What a command leaves when it raises an error (60_exceptions.md R231, R232): a rule that computes on copies stops in the
state it began in, and one that stores in several accesses keeps its stores.
-/
namespace Sys2Proof.Machine

theorem SameBut.mono {V W : List Elem} {s t : State} (h : SameBut V s t) (hVW : ∀ e ∈ V, e ∈ W) : SameBut W s t :=
  fun e => (h e).imp_left (hVW e)

/-- A change of elements before one of no fewer. -/
theorem SameBut.absorb {V W : List Elem} {s t u : State} (h : SameBut V s t) (h' : SameBut W t u) (hVW : ∀ e ∈ V, e ∈ W) :
    SameBut W s u := (h.trans h').mono fun e he => (List.mem_append.mp he).elim (hVW e) id

/-- Where the rule ends early it does so with `P` of the state. -/
abbrev Cmd.FailsIn {α : Type} (c : Cmd α) (s : State) (P : State → Prop) : Prop :=
  Cmd.Ends c s (fun _ _ => True) fun _ t => P t

/-! ## Rules that compute on copies -/

/-- The first store of a list of words fails before any byte is stored (R114). -/
theorem storeWords_one_fails (lane : Nat) {ws : List Nat} (hlen : ws.length ≤ 1) (w : Writer) (s : State) :
    Cmd.FailsIn (storeWords lane w ws) s (· = s) := by
  match ws, hlen with
  | [], _ => exact .pure trivial
  | [wd], _ =>
    rcases writeBits_cases w wd 16 lane s with ⟨-, h⟩ | ⟨-, -, -, h⟩ | ⟨e, x, -, h⟩
    · exact .bind (.of_ok h (.pure trivial))
    · exact .bind (.of_ok h (.pure trivial))
    · exact .bind (.of_error h rfl)

theorem bwWrite_fails (v n : Nat) (s : State) : Cmd.FailsIn (bwWrite v n) s (· = s) := by
  rcases writeBits_cases s.wr v n 0 s with ⟨-, h⟩ | ⟨-, -, -, h⟩ | ⟨e, x, -, h⟩
  · exact .getState (.bind (.of_ok h (.modify trivial)))
  · exact .getState (.bind (.of_ok h (.modify trivial)))
  · exact .getState (.bind (.of_error h rfl))

theorem histCount_fails (a c : Nat) (s : State) : Cmd.FailsIn (histCount a c) s (· = s) := by
  refine .require (fun _ => rfl) fun _ => ?_
  rcases countBytes_state (s := s) c a (Vector.replicate 512 0) with ⟨raw, h⟩ | ⟨e, x, h⟩
  · exact .bind (.of_ok h (.modify trivial))
  · exact .bind (.of_error h rfl)

theorem histLoad_fails (a : Nat) (s : State) : Cmd.FailsIn (histLoad a) s (· = s) :=
  .require (fun _ => rfl) fun _ => (Cmd.Answers.readEntries 512 a).bind (fun _ => rfl) fun _ _ => .modify trivial

theorem histNorm_fails (s : State) : Cmd.FailsIn histNorm s (· = s) := by
  rcases histNorm_cases s with ⟨-, -, -, h⟩ | ⟨e, h⟩
  · exact .of_ok h trivial
  · exact .of_error h rfl

theorem tblBuild_fails (s : State) : Cmd.FailsIn tblBuild s (· = s) :=
  .getState (.require (fun _ => rfl) fun _ => (Cmd.Answers.readFreq s).bind (fun _ => rfl) fun _ _ => .modify trivial)

/-- An encode of one lane emits at most one word, whose store is the last part that can fail (R162). -/
theorem encSym_fails (lane σ : Nat) (s : State) : Cmd.FailsIn (encSym lane σ) s (· = s) :=
  .getState (.require (fun _ => rfl) fun _ => .require (fun _ => rfl) fun _ =>
    (encPlan_answers lane σ (laneAt_lt s.xe lane) s).bind (fun _ => rfl) fun _ hp => .require (fun _ => rfl) fun _ =>
      .bind ((storeWords_one_fails lane hp.1 s.wr s).mono (fun _ _ _ => .modify trivial) fun _ _ => id))

theorem decSym_fails (lane : Nat) (s : State) : Cmd.FailsIn (decSym lane) s (· = s) :=
  .getState (.require (fun _ => rfl) fun _ => (decPlan_answers lane _ s.rd s).bind (fun _ => rfl) fun _ _ =>
    .bind (.modify (.pure trivial)))

/-- The commands that compute on copies and commit at once (R232). -/
theorem ruleOf_fails {i : Instr}
    (h : i ∈ [.brInit, .bwInit, .histCount, .histLoad, .histNorm, .rawQuery, .freqQuery, .tblBuild, .tblQuery] ∨
      (∃ n, i = .brRead n ∨ i = .bwWrite n) ∨ ∃ l, i = .encSym l ∨ i = .decInit l ∨ i = .decSym l) (s : State) :
    Cmd.FailsIn (ruleOf i s) s (· = s) := by
  cases i with
  | brInit => exact .require (fun _ => rfl) fun _ => .modify trivial
  | brRead n => exact .getState ((readBits_answers s.rd n 0 s).bind (fun _ => rfl) fun _ _ => .modify trivial)
  | bwInit => exact .require (fun _ => rfl) fun _ => .modify trivial
  | bwWrite n => exact bwWrite_fails _ n s
  | histCount => exact histCount_fails _ _ s
  | histLoad => exact histLoad_fails _ s
  | histNorm => exact histNorm_fails s
  | rawQuery =>
    exact .getState (.require (fun _ => rfl) fun _ => .require (fun _ => rfl) fun _ =>
      (Cmd.Answers.readRaw s).bind (fun _ => rfl) fun _ _ => .modify trivial)
  | freqQuery =>
    exact .getState (.require (fun _ => rfl) fun _ => .require (fun _ => rfl) fun _ =>
      (Cmd.Answers.readFreq s).bind (fun _ => rfl) fun _ _ => .modify trivial)
  | tblBuild => exact tblBuild_fails s
  | tblQuery =>
    exact .getState (.require (fun _ => rfl) fun _ => .require (fun _ => rfl) fun _ =>
      (Cmd.Answers.readSlot _ s).bind (fun _ => rfl) fun _ _ => .modify trivial)
  | encSym lane => exact (Cmd.Answers.checkLane lane s).bind (fun _ => rfl) fun _ _ => encSym_fails lane _ s
  | decInit lane =>
    exact (Cmd.Answers.checkLane lane s).bind (fun _ => rfl) fun _ _ => .require (fun _ => rfl) fun _ => .modify trivial
  | decSym lane =>
    exact (Cmd.Answers.checkLane lane s).bind (fun _ => rfl) fun _ _ =>
      .bind ((decSym_fails lane s).mono (fun _ _ _ => .pure trivial) fun _ _ => id)
  | _ => simp at h

/-! ## Rules that store in several accesses, and `FRM_PARSE` -/

theorem encStep_fails (a k : Nat) (s : State) : Cmd.FailsIn (encStep a k) s (SameBut [.mem] s) := by
  have stay : SameBut [.mem] s s := fun e => .inr (e.same_refl s)
  refine .getState (.require (fun _ => stay) fun _ => .require (fun _ => stay) fun _ => .require (fun _ => stay) fun _ =>
    (Cmd.Answers.readEntries k a).bind (fun _ => stay) fun syms _ =>
      (encLanes_answers syms s k s.xe).bind (fun _ => stay) fun p _ => .require (fun _ => stay) fun hfit => ?_)
  exact (storeWords_stores 0 p.2 s.wr s hfit).bind (fun _ _ hm => (Changed.of_setMem hm).same) fun _ _ _ _ =>
    .modify trivial

theorem decStep_fails (a k : Nat) (s : State) : Cmd.FailsIn (decStep a k) s (SameBut [.mem] s) := by
  have stay : SameBut [.mem] s s := fun e => .inr (e.same_refl s)
  exact .getState (.require (fun _ => stay) fun _ => .require (fun _ => stay) fun _ => .require (fun _ => stay) fun _ =>
    (decLanes_answers s k 0 s.xd s.rd).bind (fun _ => stay) fun p _ =>
      (Cmd.Stores.writeEntries p.2.2.1 a s).bind (fun _ _ hm => (Changed.of_setMem hm).same) fun _ _ _ _ =>
        .modify trivial)

theorem ruleOf_stores_fails {i : Instr} (h : i ∈ [.histStore, .encStep, .decStep, .frmHdrWrite]) (s : State) :
    Cmd.FailsIn (ruleOf i s) s (SameBut [.mem] s) := by
  cases i with
  | histStore => exact Cmd.Ends.mono (histStore_keeps _ s) (fun _ _ _ => trivial) fun _ _ hu => hu.changed.same
  | encStep => exact encStep_fails _ _ s
  | decStep => exact decStep_fails _ _ s
  | frmHdrWrite => exact Cmd.Ends.mono (frmHdrWrite_keeps _ s) (fun _ _ _ => trivial) fun _ _ hu => hu.changed.same
  | _ => simp at h

theorem checkHeader_fails (FL W H PB S0 S1 S2 S3 : Nat) (s : State) :
    Cmd.FailsIn (checkHeader FL W H PB S0 S1 S2 S3) s (· = s) :=
  .getState (.require (fun _ => rfl) fun _ => .require (fun _ => rfl) fun _ => .require (fun _ => rfl) fun _ =>
    .require (fun _ => rfl) fun _ => .require (fun _ => rfl) fun _ => .require (fun _ => rfl) fun _ => .modify trivial)

theorem frmParseBody_fails (A FL : Nat) (s : State) : Cmd.FailsIn (frmParseBody A FL) s (· = s) := by
  have read (a : Nat) (n : Size) {f : Nat → Cmd Unit} (h : ∀ v, Cmd.FailsIn (f v) s (· = s)) :
      Cmd.FailsIn (memRead a n >>= f) s (· = s) :=
    (Cmd.Answers.memRead a n 0 s).bind (fun _ => rfl) fun v _ => h v
  exact .require (fun _ => rfl) fun _ => .require (fun _ => rfl) fun _ => read _ _ fun _ => read _ _ fun _ =>
    read _ _ fun _ => read _ _ fun _ => read _ _ fun _ => read _ _ fun _ => read _ _ fun _ =>
      checkHeader_fails _ _ _ _ _ _ _ _ s

/-- An error of `FRM_PARSE` clears `HDR_VALID` and nothing else (R204). -/
theorem frmParse_fails (A FL : Nat) (s : State) :
    Cmd.FailsIn (frmParse A FL) s (· = s.setStatus (s.status.withHdr false)) := by
  cases hb : frmParseBody A FL s with
  | ok u t => exact .of_ok (show frmParse A FL s = .ok u t by simp only [frmParse, hb]) trivial
  | error e t =>
    obtain rfl := (frmParseBody_fails A FL s).2 e t hb
    have h : frmParse A FL t = .error e (t.setStatus (t.status.withHdr false)) := by simp only [frmParse, hb]
    exact .of_error h rfl

/-! ## The obligation -/

section
variable {i : Instr} {s t : State} (hr : i ≠ .softReset) (hc : i ≠ .clrStatus) (hs : s.status.err = false)
  (h : exec i s = .next t) (ht : t.status.err = true)
include hr hc hs h ht

/-- A command that sets `ERR` raised an error with none recorded: no rule sets it itself (R231). -/
theorem exec_raised_of_err : ∃ e x u, ruleOf i s s = .error (.raised e x) u ∧ u.status.err = false ∧
    t = (u.raise i.opcode e).complete := by
  have changed := ruleOf_changes hr s
  have err {u : State} (hu : Changed (changedElems i) (storedBytes s i) s u) : u.status.err = false :=
    Eq.trans (hu.get .err (errorElems_unchanged hc .err (by decide))) hs
  have hrule := exec_eq_runCommand i s
  rw [h] at hrule
  rcases runCommand_next hrule.symm with ⟨u, hu, rfl⟩ | ⟨e, x, u, hu, rfl⟩
  · exact nomatch (err (changed.1 _ _ hu)).symm.trans ht
  · exact ⟨e, x, u, hu, err (changed.2 _ _ hu), rfl⟩

/-- A command that sets `ERR` completes from where its rule ended early (R231). -/
theorem exec_of_err {P : State → Prop} (hP : Cmd.FailsIn (ruleOf i s) s P) : ∃ u, P u ∧ Finished u t := by
  obtain ⟨e, x, u, hu, -, rfl⟩ := exec_raised_of_err hr hc hs h ht
  exact ⟨u, hP.2 _ _ hu, u.raise_complete_finished _ e⟩

/-- What a command that sets `ERR` leaves, element by element, when its rule fails with no more changed than memory and
`HDR_VALID` (R231, R232). -/
theorem failed_eq {W : List Elem} (hP : Cmd.FailsIn (ruleOf i s) s (SameBut W s)) (hW : W ⊆ [.mem, .hdrValid]) :
    t = { s with
      mem := t.mem
      errcode := t.errcode
      errinfo := t.errinfo
      status := { s.status with err := true, busy := false, done := true, hdrValid := t.status.hdrValid } } ∧
    SameBut (W ++ completionElems) s t := by
  obtain ⟨u, hu, hut⟩ := exec_of_err hr hc hs h ht hP
  have hsame : SameBut (W ++ completionElems) s t := hu.trans hut.same
  have wide : SameBut ([.mem, .hdrValid] ++ completionElems) s t := hsame.mono fun e he =>
    List.mem_append.mpr ((List.mem_append.mp he).imp_left (@hW e))
  refine ⟨State.eq_of_same fun e => ?_, hsame⟩
  have he := wide e
  cases e <;> simp_all [completionElems, hut.idle, hut.done]

end

/-- Settles O16: where the rules of the three groups stop, and where the stores of a rule lie. -/
theorem atomicCommandsCommitNothingOnError : Obligations.AtomicCommandsCommitNothingOnError := by
  intro i s t hs h ht
  have same : SameBut [] s s := fun e => .inr (e.same_refl s)
  refine ⟨fun hi => ?copies, fun hi => ?stores, fun hwf => ⟨?histStore, ?encStep, ?decStep, ?frmHdrWrite⟩,
    fun hi => ?parse⟩
  case copies =>
    have hne : i ≠ .softReset ∧ i ≠ .clrStatus := by
      constructor <;> rintro rfl <;> simp at hi
    obtain ⟨heq, hsame⟩ := failed_eq hne.1 hne.2 hs h ht (W := [])
      ((ruleOf_fails hi s).mono (fun _ _ => id) fun _ _ hu => hu ▸ same) (by simp)
    have hmem : t.mem = s.mem := hsame.get .mem (by decide)
    have hhdr : t.status.hdrValid = s.status.hdrValid := hsame.get .hdrValid (by decide)
    rwa [hmem, hhdr] at heq
  case stores =>
    have hne : i ≠ .softReset ∧ i ≠ .clrStatus := by
      constructor <;> rintro rfl <;> simp at hi
    obtain ⟨heq, hsame⟩ := failed_eq hne.1 hne.2 hs h ht (ruleOf_stores_fails hi s) (by simp)
    have hhdr : t.status.hdrValid = s.status.hdrValid := hsame.get .hdrValid (by decide)
    rwa [hhdr] at heq
  case histStore | encStep | decStep | frmHdrWrite =>
    exact fun hi => exec_sameOutside h (by simp [hi]) hwf fun _ hx => by rwa [hi] at hx
  case parse =>
    subst hi
    have hP := frmParse_fails s.arg0.toNat s.arg1.toNat s
    have clear : SameBut [.hdrValid] s (s.setStatus (s.status.withHdr false)) := fun e => by cases e <;> simp
    obtain ⟨heq, hsame⟩ := failed_eq (by simp) (by simp) hs h ht (W := [.hdrValid])
      (hP.mono (fun _ _ => id) fun _ _ hu => hu ▸ clear) (by simp)
    obtain ⟨u, rfl, hut⟩ := exec_of_err (by simp) (by simp) hs h ht hP
    have hmem : t.mem = s.mem := hsame.get .mem (by decide)
    have hhdr : t.status.hdrValid = false := hut.same.get .hdrValid (by decide)
    rwa [hmem, hhdr] at heq

end Sys2Proof.Machine
end

section
/-!
SUPPORT. The sub-steps of a payload up to `TBL_BUILD`, side by side with the same commands run on their own (60_exceptions.md
R233): they see the tables, memory and the platform only, so what they commit in one run they commit in the other.
-/
namespace Sys2Proof.Machine

/-! ## What the sub-steps see -/

/-- The elements of the tables and of the flags that guard them (R39 to R43). -/
def tableStateElems : List Elem :=
  [.rawf, .freq, .sym, .frq, .cum, .cums, .rawValid, .histValid, .tblValid, .fallback]

theorem State.SameTables.of_same {W : List Elem} {s t : State} (h : SameBut W s t)
    (hW : ∀ e ∈ tableStateElems, e ∉ W) : s.SameTables t := by
  have same (e : Elem) (he : e ∈ tableStateElems) : e.Same s t := h.get e (hW e he)
  exact ⟨(same .rawf (by decide)).symm, (same .freq (by decide)).symm, (same .sym (by decide)).symm,
    (same .frq (by decide)).symm, (same .cum (by decide)).symm, (same .cums (by decide)).symm,
    (same .rawValid (by decide)).symm, (same .histValid (by decide)).symm, (same .tblValid (by decide)).symm,
    (same .fallback (by decide)).symm⟩

theorem State.SameTables.symm {s t : State} (h : s.SameTables t) : t.SameTables s := by
  obtain ⟨h1, h2, h3, h4, h5, h6, h7, h8, h9, h10⟩ := h
  exact ⟨h1.symm, h2.symm, h3.symm, h4.symm, h5.symm, h6.symm, h7.symm, h8.symm, h9.symm, h10.symm⟩

theorem State.SameTables.trans {s t u : State} (h : s.SameTables t) (h' : t.SameTables u) : s.SameTables u := by
  obtain ⟨h1, h2, h3, h4, h5, h6, h7, h8, h9, h10⟩ := h
  obtain ⟨k1, k2, k3, k4, k5, k6, k7, k8, k9, k10⟩ := h'
  exact ⟨h1.trans k1, h2.trans k2, h3.trans k3, h4.trans k4, h5.trans k5, h6.trans k6, h7.trans k7, h8.trans k8,
    h9.trans k9, h10.trans k10⟩

/-- The two states have the same tables, memory and platform. -/
structure State.SameView (s s' : State) : Prop where
  tables : s.SameTables s'
  mem : s.mem = s'.mem
  platform : s.platform = s'.platform

theorem State.SameView.of_same {W : List Elem} {s t : State} (h : SameBut W s t)
    (hW : ∀ e ∈ .mem :: .platform :: tableStateElems, e ∉ W) : s.SameView t :=
  ⟨.of_same h fun e he => hW e (by simp [he]), (h.get .mem (hW _ (by simp))).symm,
    (h.get .platform (hW _ (by simp))).symm⟩

theorem State.SameView.trans {s t u : State} (h : s.SameView t) (h' : t.SameView u) : s.SameView u :=
  ⟨h.tables.trans h'.tables, h.mem.trans h'.mem, h.platform.trans h'.platform⟩

/-- The completion of a command leaves the view (R231, R237). -/
theorem Finished.sameView {u t : State} (h : Finished u t) : u.SameView t := .of_same h.same (by decide)

theorem State.SameTables.rawValid {s s' : State} (h : s.SameTables s') : s.status.rawValid = s'.status.rawValid := by
  obtain ⟨-, -, -, -, -, -, h, -⟩ := h
  exact h

theorem State.SameTables.histValid {s s' : State} (h : s.SameTables s') : s.status.histValid = s'.status.histValid := by
  obtain ⟨-, -, -, -, -, -, -, h, -⟩ := h
  exact h

theorem State.SameTables.rawf {s s' : State} (h : s.SameTables s') : s.rawf = s'.rawf := h.1

theorem State.SameTables.freq {s s' : State} (h : s.SameTables s') : s.freq = s'.freq := h.2.1

/-! ## Rules that see no more -/

/-- From two states with the same view the rule ends the same way, in states with the same view. -/
def Cmd.Alike {α : Type} (c : Cmd α) : Prop :=
  ∀ s s', s.SameView s' →
    (∃ v t t', c s = .ok v t ∧ c s' = .ok v t' ∧ t.SameView t') ∨
      ∃ e t t', c s = .error e t ∧ c s' = .error e t' ∧ t.SameView t'

namespace Cmd.Alike

theorem pure {α : Type} (v : α) : Cmd.Alike (Pure.pure v : Cmd α) := fun s s' h => .inl ⟨v, s, s', rfl, rfl, h⟩

theorem modify {g : State → State} (hg : ∀ s s', s.SameView s' → (g s).SameView (g s')) :
    Cmd.Alike (modify g : Cmd PUnit) := fun s s' h => .inl ⟨⟨⟩, g s, g s', rfl, rfl, hg s s' h⟩

theorem bind {α β : Type} {c : Cmd α} {f : α → Cmd β} (hc : Cmd.Alike c) (hf : ∀ v, Cmd.Alike (f v)) :
    Cmd.Alike (c >>= f) := fun s s' h => by
  rcases hc s s' h with ⟨v, t, t', h1, h2, ht⟩ | ⟨e, t, t', h1, h2, ht⟩
  · rw [Cmd.bind_of_ok h1, Cmd.bind_of_ok h2]
    exact hf v t t' ht
  · exact .inr ⟨e, t, t', Cmd.bind_of_error h1 f, Cmd.bind_of_error h2 f, ht⟩

theorem getState {β : Type} {f : State → Cmd β} (hx : ∀ s s', s.SameView s' → f s = f s') (hf : ∀ s, Cmd.Alike (f s)) :
    Cmd.Alike (Machine.getState >>= f) := fun s s' h => by
  rw [Cmd.getState_bind, Cmd.getState_bind, hx s s' h]
  exact hf s' s s' h

theorem require {β : Type} {p : Prop} [Decidable p] {r : Raised} {f : Unit → Cmd β} (hf : Cmd.Alike (f ())) :
    Cmd.Alike (Machine.require p r >>= f) := fun s s' h => by
  by_cases hp : p
  · rw [Cmd.require_bind hp, Cmd.require_bind hp]
    exact hf s s' h
  · exact .inr ⟨_, s, s', Cmd.require_bind_not hp r f s, Cmd.require_bind_not hp r f s', h⟩

theorem guardArray {α : Type} (valid : Bool) (v : α) : Cmd.Alike (Machine.guardArray valid v) := fun s s' h => by
  cases valid
  · exact .inr ⟨_, s, s', rfl, rfl, h⟩
  · exact .inl ⟨_, s, s', rfl, rfl, h⟩

theorem memRead (a : Nat) (n : Size) (lane : Nat) : Cmd.Alike (Machine.memRead a n lane) :=
  getState (fun s s' h => by rw [h.mem, h.platform]) fun t s s' h => by
    cases hp : t.platform.accessError a n .read with
    | none => exact .inl ⟨_, s, s', rfl, rfl, h⟩
    | some c => exact .inr ⟨_, s, s', rfl, rfl, h⟩

theorem readEntries (n : Size) : ∀ k a, Cmd.Alike (Machine.readEntries n a k)
  | 0, _ => pure []
  | k + 1, a => (memRead a n 0).bind fun _ => (readEntries n k (a + n.bytes)).bind fun _ => pure _

theorem countBytes : ∀ k a raw, Cmd.Alike (Machine.countBytes a k raw)
  | 0, _, raw => pure raw
  | k + 1, a, raw => (memRead a .b1 0).bind fun b => countBytes k (a + 1) (bump raw b)

end Cmd.Alike

/-- A sub-step up to `TBL_BUILD`: it sees no more than the view, changes the tables and the results only, and commits nothing
when it fails (R232, R233). -/
structure Cmd.TableStep (c : Cmd Unit) : Prop where
  alike : Cmd.Alike c
  keeps : ∀ s, Cmd.Keeps c s tableLoadElems fun _ => False
  fails : ∀ s, Cmd.FailsIn c s (· = s)

theorem histCount_tableStep (a c : Nat) : Cmd.TableStep (histCount a c) where
  alike := .require ((Cmd.Alike.countBytes c a _).bind fun raw => .modify fun s s' h => by
    obtain ⟨⟨h1, h2, h3, h4, h5, h6, h7, h8, h9, h10⟩, hm, hp⟩ := h
    exact ⟨⟨rfl, h2, h3, h4, h5, h6, rfl, h8, h9, h10⟩, hm, hp⟩)
  keeps s := (histCount_keeps a c s).mono (by decide) fun _ => id
  fails := histCount_fails a c

theorem histLoad_tableStep (a : Nat) : Cmd.TableStep (histLoad a) where
  alike := .require ((Cmd.Alike.readEntries .b4 512 a).bind fun raw => .modify fun s s' h => by
    obtain ⟨⟨h1, h2, h3, h4, h5, h6, h7, h8, h9, h10⟩, hm, hp⟩ := h
    exact ⟨⟨rfl, h2, h3, h4, h5, h6, rfl, h8, h9, h10⟩, hm, hp⟩)
  keeps s := (histLoad_keeps a s).mono (by decide) fun _ => id
  fails := histLoad_fails a

theorem histNorm_tableStep : Cmd.TableStep histNorm where
  alike := .getState (fun s s' h => by rw [h.tables.rawValid]) fun _ => .require <|
    Cmd.Alike.bind (.getState (fun s s' h => by rw [h.tables.rawValid, h.tables.rawf]) fun _ => .guardArray _ _) fun raw =>
      .require <| .require <| by
        generalize normalizeTable raw = p
        exact .modify fun s s' h => by
          obtain ⟨⟨h1, h2, h3, h4, h5, h6, h7, h8, h9, h10⟩, hm, hp⟩ := h
          exact ⟨⟨h1, rfl, h3, h4, h5, h6, h7, rfl, rfl, rfl⟩, hm, hp⟩
  keeps s := (histNorm_keeps s).mono (by decide) fun _ => id
  fails := histNorm_fails

theorem tblBuild_tableStep : Cmd.TableStep tblBuild where
  alike := .getState (fun s s' h => by rw [h.tables.histValid]) fun _ => .require <|
    Cmd.Alike.bind (.getState (fun s s' h => by rw [h.tables.histValid, h.tables.freq]) fun _ => .guardArray _ _) fun F =>
      .modify fun s s' h => by
        obtain ⟨⟨h1, h2, h3, h4, h5, h6, h7, h8, h9, h10⟩, hm, hp⟩ := h
        exact ⟨⟨h1, h2, by simp [h3], by simp [h4], by simp [h5], rfl, h7, h8, rfl, h10⟩, hm, hp⟩
  keeps s := (tblBuild_keeps s).mono (by decide) fun _ => id
  fails := tblBuild_fails

/-! ## A sub-step and the command of its own -/

/-- A sub-step from `s` goes as the command with its rule goes from a state with the same view (R233). -/
theorem Cmd.TableStep.run {c : Cmd Unit} (hc : Cmd.TableStep c) {s s' h : State} {i : Instr} (hs : s.SameView s')
    (herr : s'.status.err = false) (hi : ruleOf i s' = c) (hx : exec i s' = .next h) :
    (h.status.err = true ∧ s.SameView h ∧ ∃ e x, c s = .error (.raised e x) s) ∨
      (h.status.err = false ∧ ∃ v, c s = .ok () v ∧ SameBut tableLoadElems s v ∧ v.SameView h) := by
  rw [exec_eq_runCommand, hi] at hx
  rcases hc.alike s s' hs with ⟨_, v, v', hv, hv', hview⟩ | ⟨stop, u, u', hu, hu', -⟩
  · rw [runCommand_ok hv'] at hx
    cases hx
    have hsame := ((hc.keeps s').1 _ _ hv').changed.same
    exact .inr ⟨Eq.trans (hsame.get .err (by decide)) herr, v, hv, ((hc.keeps s).1 _ _ hv).changed.same,
      hview.trans v'.complete_finished.sameView⟩
  · obtain rfl := (hc.fails s).2 _ _ hu
    obtain rfl := (hc.fails s').2 _ _ hu'
    cases stop with
    | raised e x =>
      rw [runCommand_raised hu'] at hx
      cases hx
      exact .inl ⟨by simp, hs.trans (u'.raise_complete_finished _ e).sameView, e, x, hu⟩
    | fault f =>
      rw [runCommand, hu'] at hx
      cases hx

/-- A command that is not `CLR_STATUS` does not leave the error state (R231). -/
theorem err_of_exec {i : Instr} {s t : State} (h : exec i s = .next t) (hr : i ≠ .softReset) (hc : i ≠ .clrStatus)
    (hs : s.status.err = true) : t.status.err = true := by
  obtain ⟨⟨-, -, herr⟩ | ⟨-, herr⟩, -⟩ := exec_error h hr hc
  · exact herr.trans hs
  · exact herr

section
variable {c : Cmd Unit} {s s' h₁ h₂ h₃ : State} {i : Instr}

/-- The run of a payload from `s` up to `TBL_BUILD`, by how the commands of their own went (R233): the state `u` that it ends or
goes on in has the tables of `T`. -/
theorem Cmd.TableStep.run_all {α : Type} (hc : Cmd.TableStep c) (hs : s.SameView s') (herr : s'.status.err = false)
    (hi : ruleOf i s' = c) (e₁ : exec i s' = .next h₁) (e₂ : exec .histNorm h₁ = .next h₂)
    (e₃ : exec .tblBuild h₂ = .next h₃) (rest : Unit → Cmd α) :
    ∃ u, SameBut tableLoadElems s u ∧
      u.SameTables (if h₁.status.err then s else if h₂.status.err then h₁ else h₃) ∧
      ((h₂.status.err = true ∧ ∃ e x, (c >>= fun _ => histNorm >>= fun _ => tblBuild >>= rest) s = .error (.raised e x) u) ∨
        (h₂.status.err = false ∧ u.status.histValid = true ∧ u.freq = h₃.freq ∧
          (c >>= fun _ => histNorm >>= fun _ => tblBuild >>= rest) s = rest () u)) := by
  rcases hc.run hs herr hi e₁ with ⟨herr₁, -, e, x, hrun⟩ | ⟨herr₁, v₁, hrun₁, hsame₁, hview₁⟩
  · have herr₂ := err_of_exec e₂ (by simp) (by simp) herr₁
    refine ⟨s, fun e => .inr (e.same_refl s), ?_, .inl ⟨herr₂, e, x, Cmd.bind_of_error hrun _⟩⟩
    rw [if_pos herr₁]
    exact .of_same (W := []) (fun e => .inr (e.same_refl s)) (by simp)
  rw [if_neg (by simp [herr₁]), Cmd.bind_of_ok hrun₁]
  rcases histNorm_tableStep.run hview₁ herr₁ rfl e₂ with ⟨herr₂, -, e, x, hrun⟩ | ⟨herr₂, v₂, hrun₂, hsame₂, hview₂⟩
  · rw [if_pos herr₂]
    exact ⟨v₁, hsame₁, hview₁.tables, .inl ⟨herr₂, e, x, Cmd.bind_of_error hrun _⟩⟩
  rw [if_neg (by simp [herr₂]), Cmd.bind_of_ok hrun₂]
  have hvalid : v₂.status.histValid = true := by
    rcases histNorm_cases v₁ with ⟨-, -, -, hn⟩ | ⟨e, hn⟩
    · cases hn.symm.trans hrun₂
      rfl
    · cases hn.symm.trans hrun₂
  rcases tblBuild_tableStep.run hview₂ herr₂ rfl e₃ with ⟨-, -, e, x, hrun⟩ | ⟨-, v₃, hrun₃, hsame₃, hview₃⟩
  · cases (tblBuild_ok hvalid).symm.trans hrun
  · refine ⟨v₃, (hsame₁.absorb hsame₂ fun _ => id).absorb hsame₃ fun _ => id, hview₃.tables,
      .inr ⟨herr₂, ?_, hview₃.tables.freq, Cmd.bind_of_ok hrun₃ _⟩⟩
    cases (tblBuild_ok hvalid).symm.trans hrun₃
    exact hvalid

end

end Sys2Proof.Machine
end

section
/-!
SUPPORT. What `FRM_DEC_PAYLOAD` keeps of its sub-steps (46_framer.md R206; 60_exceptions.md R232, R233).
-/
namespace Sys2Proof.Machine

/-! ## Bus errors -/

/-- The stop is a bus error. -/
def Stop.IsBusError : Stop → Prop
  | .raised e _ => e.code = .busError
  | .fault _ => False

/-- Below `2^32` an access can fail by the platform's answer only (R62). -/
theorem Platform.accessError_busError {p : Platform} {a : Nat} {n : Size} {k : AccessKind} {c : ErrCode}
    (ha : a + n.bytes ≤ Config.memBytes) (h : p.accessError a n k = some c) : c = .busError := by
  unfold Platform.accessError at h
  rw [if_neg (Nat.not_lt.mpr ha)] at h
  split at h
  next => exact (Option.some.inj h).symm
  next =>
    split at h
    next => exact nomatch h
    next => exact (Option.some.inj h).symm

theorem writeEntries_busError {n : Size} : ∀ (l : List Nat) (a : Nat) (s : State),
    a + n.bytes * l.length ≤ Config.memBytes →
      Cmd.Ends (writeEntries n a l) s (fun _ _ => True) fun e _ => e.IsBusError
  | [], _, _, _ => .pure trivial
  | v :: l, a, s, ha => by
    rw [List.length_cons, Nat.mul_add, Nat.mul_one] at ha
    rcases memWrite_cases a v n 0 s with ⟨-, h⟩ | ⟨c, hc, h⟩
    · exact .bind (.of_ok h (writeEntries_busError l _ _ (by omega)))
    · exact .bind (.of_error h (Platform.accessError_busError (by omega) hc))

/-! ## The decode past the tables -/

/-- The decode of a payload past its tables: the lanes and the reader set up, the symbols decoded, the end checks (R206). -/
def decodeLoaded (N P size C : Nat) : Cmd (List Nat) := do
  loadLanes (P + Config.tableBytes) 0 N
  brInit (P + Config.tableBytes + 4 * N) (P + Config.tableBytes + size) false
  let out ← decodeSteps C N (stepCount C N) []
  endChecks N out

theorem decodePayload_eq (N P size C : Nat) : decodePayload N P size C =
    (histLoad P >>= fun _ => histNorm >>= fun _ => tblBuild >>= fun _ => decodeLoaded N P size C) := rfl

section
variable {N P size C : Nat} (hP : P + Config.tableBytes + size ≤ Config.memBytes) (s : State)
include hP

theorem decodeLoaded_ends : Cmd.Ends (decodeLoaded N P size C) s
    (fun l t => Kept (.result1 :: decodeElems) (fun _ => False) s t ∧ l.length ≤ C)
    fun _ t => Kept (.result1 :: decodeElems) (fun _ => False) s t := by
  have hlim : P + Config.tableBytes + size < 2 ^ 32 ∨ P + Config.tableBytes + size = 2 ^ 32 ∧ false = false :=
    (Nat.lt_or_eq_of_le hP).imp_right fun h => ⟨h, rfl⟩
  refine .bind (Cmd.Ends.mono ((loadLanes_keeps _ N 0 s).mono (by decide) fun _ => id) (fun _ t ht => ?_) fun _ _ => id)
  refine .bind (Cmd.Ends.mono ((brInit_keeps hlim t).since ht (by decide) fun _ => id) (fun _ u hu => ?_) fun _ _ => id)
  refine .bind (Cmd.Ends.mono (decodeSteps_ends C N (stepCount C N) [] u) ?_ fun _ _ hv => hu.trans hv)
  rintro out v ⟨hv, hlen⟩
  have hv := hu.trans hv
  refine .getState ((checkLanesBack_answers v.xd v N 0).bind (fun _ => hv) fun _ _ =>
    .require (fun _ => hv) fun _ => .pure ⟨hv, ?_⟩)
  rw [hlen]
  exact (Nat.zero_add _).trans_le (Nat.min_le_right _ _)

/-- A payload's decode stores nothing and answers no more symbols than the plane has (R206). -/
theorem decodePayload_same : Cmd.Ends (decodePayload N P size C) s
    (fun l t => SameBut (decodeElems ++ tableLoadElems) s t ∧ l.length ≤ C)
    fun _ t => SameBut (decodeElems ++ tableLoadElems) s t := by
  rw [decodePayload_eq]
  have stay := Kept.refl (decodeElems ++ tableLoadElems) (fun _ => False) s
  have step {c : Cmd Unit} {f : Unit → Cmd (List Nat)} {W : List Elem} {t : State} {Q : List Nat → State → Prop}
      (hc : Cmd.Keeps c t W fun _ => False) (ht : Kept (decodeElems ++ tableLoadElems) (fun _ => False) s t)
      (hW : W ⊆ decodeElems ++ tableLoadElems) (hf : ∀ v u, Kept (decodeElems ++ tableLoadElems) (fun _ => False) s u →
        Cmd.Ends (f v) u Q fun _ t => SameBut (decodeElems ++ tableLoadElems) s t) :
      Cmd.Ends (c >>= f) t Q fun _ t => SameBut (decodeElems ++ tableLoadElems) s t :=
    .bind (Cmd.Ends.mono (hc.since ht hW fun _ => id) hf fun _ _ h => h.changed.same)
  refine step (histLoad_keeps P s) stay (by decide) fun _ s1 h1 => ?_
  refine step (histNorm_keeps s1) h1 (by decide) fun _ s2 h2 => ?_
  refine step (tblBuild_keeps s2) h2 (by decide) fun _ s3 h3 => ?_
  have since {t : State} (ht : Kept (.result1 :: decodeElems) (fun _ => False) s3 t) :
      SameBut (decodeElems ++ tableLoadElems) s t := (h3.trans (ht.mono (by decide) fun _ => id)).changed.same
  exact (decodeLoaded_ends hP s3).mono (fun _ _ ht => ⟨since ht.1, ht.2⟩) fun _ _ => since

end

/-! ## Errors -/

/-- Only a bus error at the plane ends `FRM_DEC_PAYLOAD` after a store (R206). -/
theorem frmDecPayload_fails (p : Payload) (A D : Nat) (s : State) :
    Cmd.Ends (frmDecPayload p A D) s (fun _ _ => True) fun e t => t.mem = s.mem ∨ e.IsBusError := by
  refine .getState (.require (fun _ => .inl rfl) fun _ => .require (fun _ => .inl rfl) fun hP =>
    .require (fun _ => .inl rfl) fun hD => .require (fun _ => .inl rfl) fun _ => ?_)
  refine .bind ((decodePayload_same hP s).mono ?_ fun _ _ h => .inl (h.get .mem (by decide)))
  rintro out t ⟨-, hlen⟩
  have hfits : D + Size.b1.bytes * out.length ≤ Config.memBytes := by
    simp only [Size.bytes, Nat.one_mul]
    omega
  exact .bind ((writeEntries_busError out D t hfits).mono (fun _ _ _ => .modify trivial) fun _ _ => .inr)

/-- What an error of `FRM_DEC_PAYLOAD` leaves (R206, R232). -/
theorem frmDecPayload_error {s t : State} {p : Payload} (hs : s.status.err = false)
    (h : exec (.frmDecPayload p) s = .next t) (ht : t.status.err = true) :
    t.hdr = s.hdr ∧ t.status.hdrValid = s.status.hdrValid ∧
      (s.mem.wf = true → SameOutside s t s.arg1.toNat (s.hdr.planeBytes p)) ∧
      (t.errcode.toNat % 256 ≠ 0x0C → t.mem = s.mem) := by
  have hsame := exec_same h (by simp)
  refine ⟨hsame.get .hdr (by simp [completionElems]), hsame.get .hdrValid (by simp [completionElems]),
    fun hwf => ?outside, fun hcode => ?mem⟩
  case outside => exact exec_sameOutside h (by simp) hwf fun _ => id
  case mem =>
    obtain ⟨e, x, u, hu, herr, rfl⟩ := exec_raised_of_err (by simp) (by simp) hs h ht
    have hmem : (u.raise (Instr.frmDecPayload p).opcode e).complete.mem = u.mem :=
      (u.raise_complete_finished _ e).same.get .mem (by decide)
    have herrcode : (u.raise (Instr.frmDecPayload p).opcode e).complete.errcode = e.word (Instr.frmDecPayload p).opcode := by
      rw [State.complete, State.setStatus_errcode, State.raise_errcode, herr]
      rfl
    rw [herrcode, Raised.word_code] at hcode
    refine hmem.trans (((frmDecPayload_fails p _ _ s).2 _ _ hu).resolve_right fun hbus => hcode ?_)
    rw [show e.code = .busError from hbus]
    rfl

/-! ## The lanes -/

theorem loadLanes_add (body : Nat) : ∀ j lane k,
    loadLanes body lane (j + k) = (loadLanes body lane j >>= fun _ => loadLanes body (lane + j) k)
  | 0, lane, k => by
    rw [Nat.zero_add]
    rfl
  | j + 1, lane, k => by
    rw [Nat.add_right_comm, loadLanes, loadLanes]
    simp only [bind_assoc, loadLanes_add body j (lane + 1) k, Nat.add_right_comm lane 1 j, Nat.add_assoc]

/-- The first lane state out of range ends the load; those before it are in their lanes (R206). -/
theorem loadLanes_illegal {s : State} {body N j : Nat} (hj : j < N) (hN : N ≤ 32) (hread : s.CanRead .b4 body (j + 1))
    (hlegal : ∀ k, k < j → LaneLegal (s.mem.readLE (body + 4 * k) 4)) (hbad : ¬LaneLegal (s.mem.readLE (body + 4 * j) 4)) :
    ∃ xd, loadLanes body 0 N s =
        .error (.raised ⟨.malformedStream, 2, s.mem.readLE (body + 4 * j) 4, j⟩ none) (s.setXd xd) ∧
      ∀ k, k < 32 → laneAt xd k = if k < j then s.mem.readLE (body + 4 * k) 4 else laneAt s.xd k := by
  obtain ⟨xd, hload, hlanes⟩ := loadLanes_ok (body := body) (k := j) (lane := 0) (s := s) (by omega)
    fun k _ hk => ⟨hread k (by omega), hlegal k (by omega)⟩
  refine ⟨xd, ?_, fun k hk => by simpa using hlanes k hk⟩
  obtain ⟨k, rfl⟩ : ∃ k, N = j + (k + 1) := ⟨N - j - 1, by omega⟩
  have hlast : memRead (body + 4 * j) .b4 0 (s.setXd xd) = .ok (s.mem.readLE (body + 4 * j) 4) (s.setXd xd) :=
    memRead_ok (hread j (Nat.lt_succ_self j))
  rw [loadLanes_add, Cmd.bind_of_ok hload, Nat.zero_add, loadLanes]
  exact (Cmd.bind_of_ok hlast fun x => decInit j x >>= fun _ => loadLanes body (j + 1) k).trans
    (Cmd.bind_of_error (decInit_bad hbad) _)

/-! ## The sub-steps -/

/-- The commit of the plane changes memory and `RESULT` only (R206). -/
theorem storePlane_same (D C : Nat) (out : List Nat) (s : State) :
    Cmd.EndsIn (storePlane D C out) s (SameBut [.mem, .result] s) := by
  refine (Cmd.Stores.writeEntries (n := .b1) out D s).bind (fun _ m _ e => ?_) fun _ m _ _ => .modify fun e => ?_
  all_goals cases e <;> simp

section
variable {s t : State} {p : Payload} {P D : Nat} (hc : s.PlaneChecked p P D) (h : exec (.frmDecPayload p) s = .next t)
include hc h

/-- What `FRM_DEC_PAYLOAD` leaves where its decode fails (R206, R231). -/
theorem State.PlaneChecked.raised {u : State} {e : Raised} {x : Option Access}
    (hrun : decodePayload s.lanes P (s.hdr.size p).toNat (s.hdr.planeBytes p) s = .error (.raised e x) u) :
    t = (u.raise 0x52 e).complete := by
  rw [exec_frmDecPayload_raised hc hrun] at h
  cases h
  rfl

/-- Past the tables, built in `u`, `FRM_DEC_PAYLOAD` changes the lanes, the reader, the plane and the results only (R206). -/
theorem State.PlaneChecked.sameTables {u : State}
    (hrun : decodePayload s.lanes P (s.hdr.size p).toNat (s.hdr.planeBytes p) s =
      decodeLoaded s.lanes P (s.hdr.size p).toNat (s.hdr.planeBytes p) u) : u.SameTables t := by
  have hrule : ruleOf (.frmDecPayload p) s s = (decodeLoaded s.lanes P (s.hdr.size p).toNat (s.hdr.planeBytes p) >>=
      storePlane D (s.hdr.planeBytes p)) u := by
    rw [ruleOf_frmDecPayload hc, Cmd.bind_run, hrun, ← Cmd.bind_run]
  have hends : Cmd.EndsIn (decodeLoaded s.lanes P (s.hdr.size p).toNat (s.hdr.planeBytes p) >>=
      storePlane D (s.hdr.planeBytes p)) u u.SameTables := by
    have decoded {v : State} (hv : Kept (.result1 :: decodeElems) (fun _ => False) u v) : u.SameTables v :=
      .of_same hv.changed.same (by decide)
    refine Cmd.Ends.bind ((decodeLoaded_ends hc.payload_fits u).mono (fun out v hv => ?_) fun _ _ => decoded)
    exact (storePlane_same D _ out v).mono fun _ hw => (decoded hv.1).trans (.of_same (W := [.mem, .result]) hw (by decide))
  obtain ⟨v, hv, hvt⟩ := exec_next h (Cmd.Ends.of_run hrule hends)
  exact hv.trans hvt.sameView.tables

end

/-- What `FRM_DEC_PAYLOAD` keeps of its sub-steps, `h₁`, `h₂` and `h₃` being what the commands of their own leave (R233). -/
theorem frmDecPayload_substeps {s t h₁ h₂ h₃ : State} {p : Payload} {P D : Nat} (hs : s.status.err = false)
    (h : exec (.frmDecPayload p) s = .next t) (hc : s.PlaneChecked p P D)
    (e₁ : exec .histLoad { s with arg0 := BitVec.ofNat 32 P } = .next h₁) (e₂ : exec .histNorm h₁ = .next h₂)
    (e₃ : exec .tblBuild h₂ = .next h₃) :
    t.SameTables (if h₁.status.err then s else if h₂.status.err then h₁ else h₃) ∧
      (h₂.status.err = true → t.xd = s.xd ∧ t.rd = s.rd) ∧
      (h₂.status.err = false → s.lanes ≤ 32 → ∀ j, j < s.lanes → s.CanRead .b4 (P + 2048) (j + 1) →
        (∀ k, k < j → LaneLegal (s.mem.readLE (P + 2048 + 4 * k) 4)) →
        ¬LaneLegal (s.mem.readLE (P + 2048 + 4 * j) 4) →
        t.status.err = true ∧ t.errinfo.toNat = s.mem.readLE (P + 2048 + 4 * j) 4 ∧
        t.errcode.toNat = 0x07 + 2 * 2 ^ 8 + j * 2 ^ 16 + 0x52 * 2 ^ 24 ∧ t.rd = s.rd ∧
        ∀ k, k < 32 → laneAt t.xd k = if k < j then s.mem.readLE (P + 2048 + 4 * k) 4 else laneAt s.xd k) := by
  have hP : P < 2 ^ 32 := by
    have := hc.payload_fits
    omega
  have hload : ruleOf .histLoad { s with arg0 := BitVec.ofNat 32 P } = histLoad P :=
    congrArg histLoad (toNat_ofNat_of_lt hP)
  have hview : s.SameView { s with arg0 := BitVec.ofNat 32 P } :=
    .of_same (W := [.arg0]) (fun e => by cases e <;> simp) (by decide)
  obtain ⟨u, hsame, htables, ⟨herr₂, e, x, hrun⟩ | ⟨herr₂, -, -, hrun⟩⟩ :=
    (histLoad_tableStep P).run_all hview hs hload e₁ e₂ e₃
      fun _ => decodeLoaded s.lanes P (s.hdr.size p).toNat (s.hdr.planeBytes p)
  · obtain rfl := hc.raised h hrun
    have hut := u.raise_complete_finished 0x52 e
    refine ⟨hut.sameView.tables.symm.trans htables, fun _ => ⟨?_, ?_⟩, fun hno => nomatch herr₂.symm.trans hno⟩
    · exact Eq.trans (hut.same.get .xd (by decide)) (hsame.get .xd (by decide))
    · exact Eq.trans (hut.same.get .rd (by decide)) (hsame.get .rd (by decide))
  · refine ⟨(hc.sameTables h hrun).symm.trans htables, fun hno => (nomatch herr₂.symm.trans hno), ?_⟩
    intro _ hN j hj hread hlegal hbad
    have humem : u.mem = s.mem := hsame.get .mem (by decide)
    have huplat : u.platform = s.platform := hsame.get .platform (by decide)
    have huxd : u.xd = s.xd := hsame.get .xd (by decide)
    have hurd : u.rd = s.rd := hsame.get .rd (by decide)
    have huerr : u.status.err = false := Eq.trans (hsame.get .err (by decide)) hs
    rw [← humem] at hlegal hbad ⊢
    rw [State.CanRead, ← huplat] at hread
    obtain ⟨xd, hfails, hlanes⟩ := loadLanes_illegal hj hN hread hlegal hbad
    obtain rfl := hc.raised h (hrun.trans (Cmd.bind_of_error hfails _))
    have hut := (u.setXd xd).raise_complete_finished 0x52 ⟨.malformedStream, 2, u.mem.readLE (P + 2048 + 4 * j) 4, j⟩
    obtain ⟨-, herr, hinfo, hcode⟩ := State.raise_complete_recorded (op := 0x52)
      (e := ⟨.malformedStream, 2, u.mem.readLE (P + 2048 + 4 * j) 4, j⟩) (t := u.setXd xd) (by simpa using huerr)
      (show 2 < 256 by decide) (show j < 32 from hj.trans_le hN) (Memory.readLE_lt u.mem 4 _) rfl
    refine ⟨herr, hinfo, hcode, Eq.trans (hut.same.get .rd (by decide)) hurd, fun k hk => ?_⟩
    have htxd : _ = xd := hut.same.get .xd (by decide)
    rw [htxd, ← huxd]
    exact hlanes k hk

end Sys2Proof.Machine
end

section
/-!
SUPPORT. What `FRM_ENC_PAYLOAD` keeps of its sub-steps (46_framer.md R207; 60_exceptions.md R232, R233).
-/
namespace Sys2Proof.Machine

/-! ## The coding of the symbols -/

/-- The elements that the coding of a payload's symbols changes (R207). -/
@[simp] def codingElems : List Elem := [.mem, .xe, .wr, .result, .result1]

/-- What the coding of a payload that began in `w` leaves at every moment: its stores lie past the table, the lanes that code no
symbol are at `M`, and the stream begins past the lane states (R207). -/
structure Coding (P C CAP N : Nat) (W : List Elem) (w t : State) : Prop where
  changed : Changed W (InRegion (P + 2048) (CAP - 2048)) w t
  idle : ∀ j, C ≤ j ∨ N ≤ j → j < 32 → laneAt t.xe j = 2048
  base : t.wr.base = BitVec.ofNat 32 (P + 2048 + 4 * N)

theorem Coding.widen {P C CAP N : Nat} {W : List Elem} {w t u : State} (h : Coding P C CAP N codingElems w t)
    (hu : Changed W (InRegion (P + 2048) (CAP - 2048)) t u) (hW : codingElems ⊆ W) (hxe : u.xe = t.xe)
    (hwr : u.wr = t.wr) : Coding P C CAP N W w u where
  changed := (h.changed.mono hW fun _ => id).trans hu
  idle := hxe ▸ h.idle
  base := hwr ▸ h.base

/-- The words of an encode leave the lanes and the base of the writer (R114). -/
theorem storeWords_base (lane : Nat) : ∀ (ws : List Nat) (w : Writer) (s : State),
    Cmd.Ends (storeWords lane w ws) s (fun w' t => w'.base = w.base ∧ t.xe = s.xe) fun _ _ => True
  | [], _, _ => .pure ⟨rfl, rfl⟩
  | wd :: ws, w, s => by
    rcases writeBits_cases w wd 16 lane s with ⟨-, h⟩ | ⟨-, -, -, h⟩ | ⟨e, x, -, h⟩
    · exact .bind (.of_ok h (storeWords_base lane ws (w.pending wd 16) s))
    · exact .bind (.of_ok h (storeWords_base lane ws (w.stored wd 16) _))
    · exact .bind (.of_error h trivial)

/-- `ENC_SYM` sets its own lane and leaves the base of the writer (R162). -/
theorem encSym_lane (lane σ : Nat) (s : State) :
    Cmd.Ends (encSym lane σ) s (fun _ t => (∃ x, t.xe = setLane s.xe lane x) ∧ t.wr.base = s.wr.base) fun _ t => t = s := by
  refine ⟨?_, (encSym_fails lane σ s).2⟩
  suffices h : Cmd.Ends (encSym lane σ) s (fun _ t => (∃ x, t.xe = setLane s.xe lane x) ∧ t.wr.base = s.wr.base)
      fun _ _ => True from h.1
  refine .getState (.require (fun _ => trivial) fun _ => .require (fun _ => trivial) fun _ =>
    (encPlan_answers lane σ (laneAt_lt s.xe lane) s).bind (fun _ => trivial) fun p _ =>
      .require (fun _ => trivial) fun _ => .bind ((storeWords_base lane p.2 s.wr s).mono ?_ fun _ _ => id))
  rintro w t ⟨hbase, hxe⟩
  exact .modify ⟨⟨p.1, congrArg (setLane · lane p.1) hxe⟩, hbase⟩

section
variable {P C CAP N : Nat} {w t : State}

/-- A coding whose writer stores past the table. -/
def CodingInside (P C CAP N : Nat) (w t : State) : Prop :=
  Coding P C CAP N codingElems w t ∧ t.wr.Inside (P + 2048) (CAP - 2048)

theorem CodingInside.encSym (h : CodingInside P C CAP N w t) {lane : Nat} (hC : lane < C) (hN : lane < N) (σ : Nat) :
    Cmd.EndsIn (encSym lane σ) t (CodingInside P C CAP N w) := by
  obtain ⟨hcoding, hinside⟩ := h
  refine ⟨fun v u hu => ?_, fun e u hu => (encSym_fails lane σ t).2 e u hu ▸ ⟨hcoding, hinside⟩⟩
  obtain ⟨n, -, hfit, hlim, hptr, hkept⟩ := (encSym_ends lane σ t).1 v u hu
  obtain ⟨⟨x, hxe⟩, hbase⟩ := (encSym_lane lane σ t).1 v u hu
  refine ⟨⟨hcoding.changed.trans (hkept.changed.mono (by decide) ?_), fun j hj hj32 => ?_, hbase.trans hcoding.base⟩, ?_⟩
  · rintro b ⟨h1, h2⟩
    rcases hinside with h0 | ⟨h3, h4⟩ <;> constructor <;> omega
  · rw [hxe, laneAt_setLane _ _ _ _ hj32, if_neg (by omega)]
    exact hcoding.idle j hj hj32
  · rw [Writer.Inside, hlim]
    exact hinside.imp_right fun h => ⟨h.1.trans hptr, h.2⟩

theorem CodingInside.encodeStep (a : Nat) : ∀ {k : Nat} {t : State}, CodingInside P C CAP N w t → k ≤ C → k ≤ N →
    Cmd.EndsIn (encodeStep a k) t (CodingInside P C CAP N w)
  | 0, _, h, _, _ => .pure h
  | k + 1, t, h, hC, hN =>
    (Cmd.Answers.memRead _ _ _ t).bind (fun _ => h) fun σ _ => (h.encSym hC hN σ).bind fun _ _ hu =>
      CodingInside.encodeStep a hu (by omega) (by omega)

theorem CodingInside.encodeSteps (src : Nat) : ∀ (k i : Nat) {t : State}, CodingInside P C CAP N w t →
    Cmd.EndsIn (encodeSteps src C N i k) t (CodingInside P C CAP N w)
  | 0, _, _, h => .pure h
  | k + 1, i, _, h =>
    (h.encodeStep _ ((Nat.min_le_right _ _).trans (Nat.sub_le _ _)) (Nat.min_le_left _ _)).bind fun _ _ hu =>
      CodingInside.encodeSteps src k (i + 1) hu

end

/-! ## From the lanes on -/

/-- The encode of a payload past its stored table: the lanes and the writer set up, the symbols encoded, the commit (R207). -/
def encodeStored (p : Payload) (src P C CAP N : Nat) : Cmd Unit := do
  encInit
  bwInit (P + 2048 + 4 * N) (P + 2048 + 4 * N + 2 * ((CAP - 2048 - 4 * N) / 2))
  encodeSteps src C N 0 (stepCount C N)
  commitPayload p (P + 2048) N

theorem commitPayload_coding {P C CAP N : Nat} {w t : State} (h : Coding P C CAP N codingElems w t)
    (hroom : 2048 + 4 * N ≤ CAP) (p : Payload) :
    Cmd.Ends (commitPayload p (P + 2048) N) t (fun _ => Coding P C CAP N (codingElems ++ [.hdr, .hdrValid]) w)
      fun _ => Coding P C CAP N codingElems w := by
  have hlen : Size.b4.bytes * ((t.xe.toList.take N).map BitVec.toNat).length ≤ 4 * N := by
    rw [List.length_map, List.length_take]
    exact Nat.mul_le_mul_left 4 (Nat.min_le_left _ _)
  have stores := (Cmd.Stores.writeEntries (n := .b4) ((t.xe.toList.take N).map BitVec.toNat) (P + 2048) t).mono
    (R' := InRegion (P + 2048) (CAP - 2048)) (fun x hx => ⟨hx.1, by have := hx.2; omega⟩) fun _ => id
  refine .getState (stores.bind (fun _ m hm => ?_) fun _ m hm _ => .modify ?_)
  · exact h.widen ((Changed.of_setMem hm).mono (by decide) fun _ => id) (List.Subset.refl _) rfl rfl
  · refine h.widen ⟨fun e => ?_, hm⟩ (List.subset_append_left _ _) rfl rfl
    cases e <;> simp

theorem encodeStored_coding {P C CAP N : Nat} (hP : P + CAP ≤ 2 ^ 32) (hroom : 2048 + 4 * N ≤ CAP) (p : Payload)
    (src : Nat) (w : State) :
    Cmd.Ends (encodeStored p src P C CAP N) w (fun _ => Coding P C CAP N (codingElems ++ [.hdr, .hdrValid]) w)
      fun _ => Coding P C CAP N codingElems w := by
  have hregion : P + 2048 + 4 * N ≤ P + 2048 + 4 * N + 2 * ((CAP - 2048 - 4 * N) / 2) ∧
      (P + 2048 + 4 * N + 2 * ((CAP - 2048 - 4 * N) / 2) - (P + 2048 + 4 * N)) % 2 = 0 := by omega
  refine .bind (.modify (.bind (.of_ok (bwInit_ok hregion) (.bind ?_))))
  have hinside := (bwInit_inside (P := P + 2048) (CAP := CAP - 2048) (by omega) (by omega) (by omega)
    (w.setXe resetLanes)).1 _ _ (bwInit_ok hregion)
  have hbegin : CodingInside P C CAP N w
      ((w.setXe resetLanes).setWr (.fresh (P + 2048 + 4 * N) (P + 2048 + 4 * N + 2 * ((CAP - 2048 - 4 * N) / 2)))) :=
    ⟨⟨.of_registers fun e => by cases e <;> simp, fun j _ hj => laneAt_resetLanes j hj, rfl⟩, hinside⟩
  exact Cmd.Ends.mono (hbegin.encodeSteps src _ 0) (fun _ _ ht => commitPayload_coding ht.1 hroom p) fun _ _ ht => ht.1

/-! ## From the table on -/

/-- The encode of a payload past its built tables: the table stored, then the rest (R207). -/
def encodeLoaded (p : Payload) (src P C CAP N : Nat) : Cmd Unit := histStore P >>= fun _ => encodeStored p src P C CAP N

/-- What the encode of a payload keeps in `t` once its table, valid in `u`, could be stored: the table, the lanes that code no
symbol at `M`, and the place of the stream (R207, R233). -/
def State.PayloadTable (P C N : Nat) (u t : State) : Prop :=
  u.status.histValid = true → u.mem.wf = true → u.CanWrite .b4 P 512 →
    (∀ i, i < 512 → t.mem.readLE (P + 4 * i) 4 = if i < 256 then u.freqOf i else 0) ∧
    (∀ j, C ≤ j ∨ N ≤ j → j < 32 → laneAt t.xe j = 2048) ∧
    t.wr.base = BitVec.ofNat 32 (P + 2048 + 4 * N)

/-- `HIST_STORE` stores the whole table or fails, and changes memory only (R137). -/
theorem histStore_ends {P : Nat} (hP : P + 2048 ≤ 2 ^ 32) (u : State) :
    Cmd.Ends (histStore P) u
      (fun _ v => SameBut [.mem] u v ∧ (u.status.histValid = true → u.CanWrite .b4 P 512 →
        v = u.setMem (storeEntries 4 u.mem P u.storedTable)))
      fun _ v => SameBut [.mem] u v ∧ (u.status.histValid = true → ¬u.CanWrite .b4 P 512) := by
  have hrun (hv : u.status.histValid = true) (hwrite : u.CanWrite .b4 P 512) :
      histStore P u = .ok () (u.setMem (storeEntries 4 u.mem P u.storedTable)) :=
    (histStore_at hv hP).trans (writeEntries_ok (n := .b4) _ P (by rwa [u.storedTable_length]))
  refine ⟨fun _ v h => ⟨((histStore_keeps P u).1 _ _ h).changed.same, fun hv hwrite => ?_⟩,
    fun e v h => ⟨((histStore_keeps P u).2 _ _ h).changed.same, fun hv hwrite => ?_⟩⟩
  · cases h.symm.trans (hrun hv hwrite)
    rfl
  · cases h.symm.trans (hrun hv hwrite)

section
variable {P C CAP N : Nat} (hP : P + CAP ≤ 2 ^ 32) (hroom : 2048 + 4 * N ≤ CAP)
include hP hroom

theorem Coding.payloadTable {W : List Elem} {u t : State}
    (h : Coding P C CAP N W (u.setMem (storeEntries 4 u.mem P u.storedTable)) t) : State.PayloadTable P C N u t := by
  intro _ hwf _
  have hlen : P + 4 * u.storedTable.length ≤ 2 ^ 32 := by
    rw [u.storedTable_length]
    omega
  have hwf' : (storeEntries 4 u.mem P u.storedTable).wf = true := storeEntries_wf _ hwf hlen
  refine ⟨fun i hi => ?_, h.idle, h.base⟩
  have hread : t.mem.readLE (P + 4 * i) 4 = (storeEntries 4 u.mem P u.storedTable).readLE (P + 4 * i) 4 :=
    Memory.readLE_congr 4 _ fun k hk => h.changed.stored.outside hwf' _ fun hb => by
      have := hb.1
      omega
  have hlt : u.freqOf i < 2 ^ 32 := (entryAt u.freq i 0).isLt.trans (by decide)
  rw [hread, storeEntries_entry _ hwf hlen i (by rwa [u.storedTable_length]), State.storedTable_getElem]
  split
  next => exact Nat.mod_eq_of_lt hlt
  next => rfl

/-- However the encode of a payload ends past its built tables, the table of `PayloadTable` is kept, and an error comes before the
header (R207, R232, R233). -/
theorem encodeLoaded_ends (p : Payload) (src : Nat) (u : State) :
    Cmd.Ends (encodeLoaded p src P C CAP N) u
      (fun _ t => SameBut (codingElems ++ [.hdr, .hdrValid]) u t ∧ State.PayloadTable P C N u t)
      fun _ t => SameBut codingElems u t ∧ State.PayloadTable P C N u t := by
  refine .bind ((histStore_ends (by omega) u).mono ?_ ?_)
  · rintro _ v ⟨hv, hstored⟩
    have table {W : List Elem} {t : State} (ht : Coding P C CAP N W v t) : State.PayloadTable P C N u t :=
      fun hvalid hwf hwrite => by
        obtain rfl := hstored hvalid hwrite
        exact ht.payloadTable hP hroom hvalid hwf hwrite
    exact (encodeStored_coding hP hroom p src v).mono (fun _ t ht => ⟨hv.absorb ht.changed.same (by decide), table ht⟩)
      fun _ t ht => ⟨hv.absorb ht.changed.same (by decide), table ht⟩
  · rintro e v ⟨hv, hno⟩
    exact ⟨hv.mono (by decide), fun hvalid _ hwrite => absurd hwrite (hno hvalid)⟩

end

end Sys2Proof.Machine
end

section
/-!
SUPPORT. What the payload commands keep when a sub-step fails (46_framer.md R206, R207; 60_exceptions.md R232, R233).
-/
namespace Sys2Proof.Machine

/-- Past its checks `FRM_ENC_PAYLOAD` counts, builds its tables and encodes (R207). -/
theorem ruleOf_frmEncPayload {s : State} {p : Payload}
    (h : EncodeChecked s.arg0.toNat s.arg1.toNat s.arg2.toNat s.arg3.toNat s.lanes) :
    ruleOf (.frmEncPayload p) s s = (histCount s.arg0.toNat s.arg2.toNat >>= fun _ => histNorm >>= fun _ => tblBuild >>=
      fun _ => encodeLoaded p s.arg0.toNat s.arg1.toNat s.arg2.toNat s.arg3.toNat s.lanes) s :=
  (Cmd.require_bind h.count_pos _ _ s).trans ((Cmd.require_bind h.source_fits _ _ s).trans
    ((Cmd.require_bind h.target_fits _ _ s).trans
      ((Cmd.require_bind (overlaps_eq_false_iff.mpr h.apart.symm) _ _ s).trans (Cmd.require_bind h.room _ _ s))))

/-- An error of `FRM_ENC_PAYLOAD` comes before its header changes (R207, R232). -/
theorem frmEncPayload_fails (p : Payload) (src P C CAP : Nat) (s : State) :
    Cmd.FailsIn (frmEncPayload p src P C CAP) s (SameBut (codingElems ++ tableLoadElems) s) := by
  have stay {W : List Elem} : SameBut W s s := fun e => .inr (e.same_refl s)
  have step {c : Cmd Unit} {f : Unit → Cmd Unit} {t : State} (hc : Cmd.TableStep c) (ht : SameBut tableLoadElems s t)
      (hf : ∀ u, SameBut tableLoadElems s u → Cmd.FailsIn (f ()) u (SameBut (codingElems ++ tableLoadElems) s)) :
      Cmd.FailsIn (c >>= f) t (SameBut (codingElems ++ tableLoadElems) s) :=
    .bind (Cmd.Ends.mono (hc.keeps t) (fun _ u hu => hf u (ht.absorb hu.changed.same fun _ => id))
      fun _ u hu => (ht.absorb hu.changed.same fun _ => id).mono fun _ => List.mem_append_right _)
  refine .getState (.require (fun _ => stay) fun _ => .require (fun _ => stay) fun _ => .require (fun _ => stay)
    fun hmem => .require (fun _ => stay) fun _ => .require (fun _ => stay) fun hroom => ?_)
  refine step (histCount_tableStep src C) stay fun t ht => ?_
  refine step histNorm_tableStep ht fun u hu => step tblBuild_tableStep hu fun v hv => ?_
  exact Cmd.Ends.mono (encodeLoaded_ends hmem hroom p src v) (fun _ _ _ => trivial) fun _ w hw =>
    (hv.trans hw.1).mono fun e he => List.mem_append.mpr (List.mem_append.mp he).symm

/-- What an error of `FRM_ENC_PAYLOAD` leaves (R207, R232). -/
theorem frmEncPayload_error {s t : State} {p : Payload} (hs : s.status.err = false)
    (h : exec (.frmEncPayload p) s = .next t) (ht : t.status.err = true) :
    t.hdr = s.hdr ∧ t.status.hdrValid = s.status.hdrValid ∧
      (s.mem.wf = true → SameOutside s t s.arg1.toNat s.arg3.toNat) := by
  obtain ⟨u, hu, hut⟩ := exec_of_err (by simp) (by simp) hs h ht (frmEncPayload_fails p _ _ _ _ s)
  have hsame := hu.trans hut.same
  exact ⟨hsame.get .hdr (by decide), hsame.get .hdrValid (by decide),
    fun hwf => exec_sameOutside h (by simp) hwf fun _ => id⟩

/-- What `FRM_ENC_PAYLOAD` keeps of its sub-steps, `h₁`, `h₂` and `h₃` being what the commands of their own leave (R233). -/
theorem frmEncPayload_substeps {s t h₁ h₂ h₃ : State} {p : Payload} (hs : s.status.err = false)
    (h : exec (.frmEncPayload p) s = .next t)
    (hc : EncodeChecked s.arg0.toNat s.arg1.toNat s.arg2.toNat s.arg3.toNat s.lanes)
    (e₁ : exec .histCount { s with arg1 := s.arg2 } = .next h₁) (e₂ : exec .histNorm h₁ = .next h₂)
    (e₃ : exec .tblBuild h₂ = .next h₃) :
    t.SameTables (if h₁.status.err then s else if h₂.status.err then h₁ else h₃) ∧
      (h₂.status.err = true → t.mem = s.mem ∧ t.xe = s.xe ∧ t.wr = s.wr) ∧
      (h₂.status.err = false → s.mem.wf = true → s.CanWrite .b4 s.arg1.toNat 512 →
        (∀ i, i < 512 → t.mem.readLE (s.arg1.toNat + 4 * i) 4 = if i < 256 then h₃.freqOf i else 0) ∧
        (∀ j, (s.arg2.toNat ≤ j ∨ s.lanes ≤ j) → j < 32 → laneAt t.xe j = 2048) ∧
        t.wr.base = BitVec.ofNat 32 (s.arg1.toNat + 2048 + 4 * s.lanes)) := by
  have hview : s.SameView { s with arg1 := s.arg2 } :=
    .of_same (W := [.arg1]) (fun e => by cases e <;> simp) (by decide)
  obtain ⟨u, hsame, htables, ⟨herr₂, e, x, hrun⟩ | ⟨herr₂, hvalid, hfreq, hrun⟩⟩ :=
    (histCount_tableStep s.arg0.toNat s.arg2.toNat).run_all hview hs rfl e₁ e₂ e₃
      fun _ => encodeLoaded p s.arg0.toNat s.arg1.toNat s.arg2.toNat s.arg3.toNat s.lanes
  · have hexec := exec_of_raised (i := .frmEncPayload p) ((ruleOf_frmEncPayload hc).trans hrun)
    rw [h] at hexec
    cases hexec
    have hut := (u.raise_complete_finished (Instr.frmEncPayload p).opcode e).same
    refine ⟨(State.SameTables.of_same hut (by decide)).symm.trans htables, fun _ => ⟨?_, ?_, ?_⟩,
      fun hno => nomatch herr₂.symm.trans hno⟩
    · exact Eq.trans (hut.get .mem (by decide)) (hsame.get .mem (by decide))
    · exact Eq.trans (hut.get .xe (by decide)) (hsame.get .xe (by decide))
    · exact Eq.trans (hut.get .wr (by decide)) (hsame.get .wr (by decide))
  · have hends := encodeLoaded_ends (C := s.arg2.toNat) hc.target_fits hc.room p s.arg0.toNat u
    obtain ⟨v, ⟨htbl, htable⟩, hvt⟩ := exec_next h (P := fun t => u.SameTables t ∧
      State.PayloadTable s.arg1.toNat s.arg2.toNat s.lanes u t) (.of_run ((ruleOf_frmEncPayload hc).trans hrun)
        (hends.mono (fun _ _ hv => ⟨.of_same hv.1 (by decide), hv.2⟩) fun _ _ hv => ⟨.of_same hv.1 (by decide), hv.2⟩))
    refine ⟨(htbl.trans hvt.sameView.tables).symm.trans htables, fun hno => (nomatch herr₂.symm.trans hno),
      fun _ hwf hwrite => ?_⟩
    have humem : u.mem = s.mem := hsame.get .mem (by decide)
    have huplat : u.platform = s.platform := hsame.get .platform (by decide)
    have hfreqOf (i : Nat) : h₃.freqOf i = u.freqOf i := by rw [State.freqOf, State.freqOf, hfreq]
    have htmem : t.mem = v.mem := hvt.same.get .mem (by decide)
    have htxe : t.xe = v.xe := hvt.same.get .xe (by decide)
    have htwr : t.wr = v.wr := hvt.same.get .wr (by decide)
    simp only [htmem, htxe, htwr, hfreqOf]
    exact htable hvalid (humem ▸ hwf) (by rwa [State.CanWrite, huplat])

/-- Settles O54: a payload goes through its sub-steps as the commands of their own do, and what comes after them leaves their
tables. -/
theorem payloadErrorsKeepWhatWasCommitted : Obligations.PayloadErrorsKeepWhatWasCommitted := by
  intro s t p hs
  refine ⟨fun h => ⟨frmDecPayload_error hs h, ?decode⟩, fun h => ⟨frmEncPayload_error hs h, ?encode⟩⟩
  case decode =>
    intro hvalid hP hD hapart h₁ h₂ h₃ e₁ e₂ e₃
    rw [← Nat.add_assoc] at hP hapart
    exact frmDecPayload_substeps hs h ⟨hvalid, rfl, hP, rfl, hD, hapart⟩ e₁ e₂ e₃
  case encode =>
    intro hC hsrc hP hapart hroom h₁ h₂ h₃ e₁ e₂ e₃
    exact frmEncPayload_substeps hs h ⟨hC, hsrc, hP, hapart, hroom⟩ e₁ e₂ e₃

end Sys2Proof.Machine
end
